-- ==== Sys2Proof/Word.lean ====
section
/-! DEFINITION. The words of `LZWCORE`: bytes, byte strings and bit sequences (00_scope.md rules R16 and R17).
Every other quantity of the spec is an unbounded natural and is a `Nat` in the model (R16: "All quantities are natural
numbers (unsigned, unbounded) unless a width is stated"). -/

namespace Sys2Proof

/-- A byte, "a natural in `0 .. 255`" (R16). -/
abbrev Byte := BitVec 8

/-- A byte string, "a finite sequence of bytes" (R17). -/
abbrev Bytes := List Byte

/-- A bit sequence (R17); the first element is the first bit of the stream. -/
abbrev Bits := List Bool

end Sys2Proof
end

