-- ==== Sys2Proof/Config.lean ====
section
/-! DEFINITION. What configures a run (00_scope.md section 4, 10_state.md section 2), and the limits an implementation
fixes. The spec leaves no VALUE open, so there is no free value here. Of the open parameters of R15, `FREQ_BITS` and
`STRLEN_MAX` are unbounded in the model (decision D16: frequencies are `Nat`, strings are lists), and `MAXW_IMPL` is
`Config.maxWidth`, the header's own bound (93_implementation_defined.md U12: "the model has no limit below 255"). -/

namespace Sys2Proof

/-- The four full-dictionary policies (R23: "0=freeze, 1=reset, 2=lru, 3=lfu"). -/
inductive Policy where
  | freeze
  | reset
  | lru
  | lfu
  deriving DecidableEq, Repr

/-- The configuration registers `CFG` of one instance (R22). `written` says whether they have been written: "before they
are written they hold no value and no operation that reads them has a step" (R22). -/
structure Cfg where
  /-- `CFG.minW`, "Minimum code width." -/
  minW : Nat
  /-- `CFG.maxW`, "Maximum code width." -/
  maxW : Nat
  /-- `CFG.policy`, the full-dictionary policy. -/
  policy : Policy
  /-- `CFG.alphabetSize`, written `|A|` in the spec. -/
  alphabetSize : Nat
  /-- `CFG.alphabet[i]`, "Raw byte values, in order." -/
  alphabet : Bytes
  /-- Whether all of `CFG` has been written (by the host, or by a complete `HDR.READ`). -/
  written : Bool
  deriving DecidableEq, Repr

/-- The largest `maxW` the 8-bit header field carries (R11, R13); `MAXW_IMPL` of R15. -/
def Config.maxWidth : Nat := 255

/-- The carriage return byte that every legal alphabet holds (R10). -/
def Config.carriageReturn : Byte := 0x0D

/-- The line feed byte that every legal alphabet holds (R10). -/
def Config.lineFeed : Byte := 0x0A

end Sys2Proof
end

