-- ==== Sys2Proof/Syntax.lean ====
section
/-! DEFINITION. The instructions: one constructor per row of `spec/opcode_table.json` (30_encoding.md rule R115), in the
table's order, and `PortWord`, what one encoded row looks like on the model's operation port.

The table has four kinds of row (R115): the unit operations and the host's operations (format `OPSEL8`), the values of
the header's policy byte (`HDR.policy`), the header fields (`HDR.field`) and the codeword classes (`CW`). -/

namespace Sys2Proof

/-- The two instances of the model: an encoder instance and a decoder instance (R3, R20). -/
inductive Side where
  | enc
  | dec
  deriving DecidableEq, Repr

/-- The two ways a header field moves (R92): `put`, the encoder writes it with `BW.WRITE`; `get`, the decoder reads it
with `BR.READ`. -/
inductive Dir where
  | put
  | get
  deriving DecidableEq, Repr

/-- A tracker key (R37: "Encoder uses the byte-string key; decoder uses the integer-code key"); its kind says which
instance's tracker is meant. -/
inductive Key where
  | str (s : Bytes)
  | code (x : Nat)
  deriving DecidableEq, Repr

/-- `ENC.phase` (R29). -/
inductive EncPhase where
  | idle
  | first
  | run
  | done
  | fault
  deriving DecidableEq, Repr

/-- `DEC.phase` (R30). -/
inductive DecPhase where
  | idle
  | first
  | run
  | postReset
  | done
  | fault
  deriving DecidableEq, Repr

/-- The codeword classes of R97, one per line of its table. -/
inductive CwClass where
  | eofFirst
  | alphaFirst
  | illegalFirst
  | eofPostReset
  | alphaPostReset
  | illegalPostReset
  | eof
  | reset
  | alpha
  | dict
  | kwkwk
  | illegal
  deriving DecidableEq, Repr

/-- One constructor per row of `spec/opcode_table.json`. -/
inductive Instr where
  /-- `BW.WRITE value, width` (R121). -/
  | bwWrite (value width : Nat)
  /-- `BW.CLOSE` (R122). -/
  | bwClose
  /-- `BR.READ width` (R123). -/
  | brRead (width : Nat)
  /-- `BR.EMPTY` (R124). -/
  | brEmpty
  /-- `CB.CONTAINS s` (R141). -/
  | cbContains (s : Bytes)
  /-- `CB.GET s` (R142). -/
  | cbGet (s : Bytes)
  /-- `CB.PUT s, v`; `none` is the token `absent` (R143). -/
  | cbPut (s : Bytes) (v : Option Nat)
  /-- `CB.REMOVE s`, the spelling of `CB.PUT s, absent` (R114, R144). -/
  | cbRemove (s : Bytes)
  /-- `CB.INIT` (R145). -/
  | cbInit
  /-- `CT.LOOKUP x` (R150). -/
  | ctLookup (x : Nat)
  /-- `CT.INSERT x, s` (R151). -/
  | ctInsert (x : Nat) (s : Bytes)
  /-- `CT.CLEAR x` (R152). -/
  | ctClear (x : Nat)
  /-- `CT.INIT` (R153). -/
  | ctInit
  /-- `LRU.USE k` (R161). -/
  | lruUse (k : Key)
  /-- `LRU.REMOVE k` (R162). -/
  | lruRemove (k : Key)
  /-- `LRU.FIND` on one instance's tracker (R163). -/
  | lruFind (side : Side)
  /-- `LFU.USE k` (R176). -/
  | lfuUse (k : Key)
  /-- `LFU.REMOVE k` (R179). -/
  | lfuRemove (k : Key)
  /-- `LFU.FIND` on one instance's tracker (R180). -/
  | lfuFind (side : Side)
  /-- `HDR.WRITE` (R196). -/
  | hdrWrite
  /-- `HDR.READ` (R199). -/
  | hdrRead
  /-- `ENC.START` (R212). -/
  | encStart
  /-- `ENC.BYTE c`, the operation (R211); this row's own rule is R213, phase `FIRST`. -/
  | encByte (c : Byte)
  /-- `ENC.BYTE c` in phase `RUN` (R215), same select code. -/
  | encByteRun (c : Byte)
  /-- `ENC.END`, the operation (R211); this row's own rule is R214, phase `FIRST`. -/
  | encEnd
  /-- `ENC.END` in phase `RUN` (R228), same select code. -/
  | encEndRun
  /-- `DEC.START` (R252). -/
  | decStart
  /-- `DEC.STEP` (R253). -/
  | decStep
  /-- Policy byte `0x00` (R94). -/
  | policyFreeze
  /-- Policy byte `0x01` (R94). -/
  | policyReset
  /-- Policy byte `0x02` (R94). -/
  | policyLru
  /-- Policy byte `0x03` (R94). -/
  | policyLfu
  /-- Policy byte `0x04 .. 0xFF` (R94). -/
  | policyUnknown (b : Byte)
  /-- Header field `minW` (R91). -/
  | fieldMinW (d : Dir)
  /-- Header field `maxW` (R91). -/
  | fieldMaxW (d : Dir)
  /-- Header field `policy` (R91). -/
  | fieldPolicy (d : Dir)
  /-- Header field `alphabetSize` (R91). -/
  | fieldAlphabetSize (d : Dir)
  /-- Header field `alphabet[i]` (R91). -/
  | fieldAlphabet (d : Dir) (i : Nat)
  /-- `CW.EOF` in phase `FIRST` (R97, R254). -/
  | cwEofFirst (x : Nat)
  /-- `CW.ALPHA` in phase `FIRST` (R97, R254). -/
  | cwAlphaFirst (x : Nat)
  /-- `CW.ILLEGAL` in phase `FIRST` (R97, R254). -/
  | cwIllegalFirst (x : Nat)
  /-- `CW.EOF` in phase `POSTRESET` (R97, R262). -/
  | cwEofPostReset (x : Nat)
  /-- `CW.ALPHA` in phase `POSTRESET` (R97, R262). -/
  | cwAlphaPostReset (x : Nat)
  /-- `CW.ILLEGAL` in phase `POSTRESET` (R97, R262). -/
  | cwIllegalPostReset (x : Nat)
  /-- `CW.EOF` in phase `RUN` (R97, R257). -/
  | cwEof (x : Nat)
  /-- `CW.RESET` (R97, R258). -/
  | cwReset (x : Nat)
  /-- `CW.ALPHA` in phase `RUN` (R97, R259). -/
  | cwAlpha (x : Nat)
  /-- `CW.DICT` (R97, R259). -/
  | cwDict (x : Nat)
  /-- `CW.KWKWK` (R97, R259). -/
  | cwKwkwk (x : Nat)
  /-- `CW.ILLEGAL` in phase `RUN` (R97, R259). -/
  | cwIllegal (x : Nat)
  deriving DecidableEq, Repr

/-- One encoded table row on the model's operation port, by the four formats of R115: a select code with its operand
bytes beside it; a policy byte; a header field, named by the direction it moves and its stream bit offset; a codeword
given as its value bits, most significant first. -/
inductive PortWord where
  | opsel (bs : Bytes)
  | policyByte (b : Byte)
  | field (d : Dir) (offset : Nat)
  | codeword (bs : Bits)
  deriving DecidableEq, Repr

end Sys2Proof
end

