-- ==== Sys2Proof/WellFormed.lean ====
section
/-! DEFINITION. Which terms of `Instr` are instructions: the operands each rule's "Operands" line admits. -/

namespace Sys2Proof

/-- The operands are ones the instruction's rule admits: `s` is a non-empty byte string (R141 to R144, R151), a policy
byte of class "unknown" is `0x04 .. 0xFF` (R94), an alphabet index is below the largest 16-bit size (R91). A tracker takes
any key (R160, R175). -/
def Instr.wellFormed : Instr → Bool
  | .cbContains s | .cbGet s | .cbPut s _ | .cbRemove s | .ctInsert _ s => !s.isEmpty
  | .lruUse _ | .lruRemove _ | .lfuUse _ | .lfuRemove _ => true
  | .policyUnknown b => decide (3 < b.toNat)
  | .fieldAlphabet _ i => decide (i < 65535)
  | .bwWrite _ _ | .bwClose | .brRead _ | .brEmpty | .cbInit | .ctLookup _ | .ctClear _ | .ctInit => true
  | .lruFind _ | .lfuFind _ | .hdrWrite | .hdrRead => true
  | .encStart | .encByte _ | .encByteRun _ | .encEnd | .encEndRun | .decStart | .decStep => true
  | .policyFreeze | .policyReset | .policyLru | .policyLfu => true
  | .fieldMinW _ | .fieldMaxW _ | .fieldPolicy _ | .fieldAlphabetSize _ => true
  | .cwEofFirst _ | .cwAlphaFirst _ | .cwIllegalFirst _ => true
  | .cwEofPostReset _ | .cwAlphaPostReset _ | .cwIllegalPostReset _ => true
  | .cwEof _ | .cwReset _ | .cwAlpha _ | .cwDict _ | .cwKwkwk _ | .cwIllegal _ => true

end Sys2Proof
end

