-- ==== Sys2Proof/Decode.lean ====
section
/-! DEFINITION. Decoding, total, rejecting by name; then the encoder, from the same tables of the spec.

* Select codes: 30_encoding.md rule R110. "Operands travel beside the select code, not inside it"; how they are laid out
  as bytes is the model's own (log entry 3): naturals in little-endian base 128, a byte string of a dictionary as its length
  less one and then its bytes, one of a tracker, which may be empty, as its length and then its bytes, alternatives behind
  one tag byte.
* `ENC.BYTE` and `ENC.END` have two rows with one select code: "the phase register and not the code selects the rule"
  (R115). The decoder therefore reads a `View` of the machine.
* Policy bytes: R94. Header fields by stream bit offset: R91. Codewords: the classification of R97. -/

namespace Sys2Proof

/-- Why a port word is no instruction. -/
inductive DecodeError where
  /-- There is no select code (an empty word). -/
  | noSelectCode
  /-- The select code is not assigned by R110. -/
  | unassignedSelectCode (sel : Byte)
  /-- The operand bytes end before the operands do. -/
  | operandsTooShort
  /-- Bytes are left over after the operands. -/
  | operandsTooLong
  /-- A natural operand has a zero top digit. -/
  | nonMinimalNatural
  /-- A tag byte other than 0 and 1. -/
  | badTag (b : Byte)
  /-- No header field starts at this stream bit offset (R91). -/
  | noFieldAtOffset (offset : Nat)
  /-- The codeword is not `W` bits wide (R95). -/
  | codewordWidth (given expected : Nat)
  /-- The decoder is in a phase in which no codeword is read (R97). -/
  | noCodewordInPhase (p : DecPhase)
  deriving DecidableEq, Repr

/-- What decoding reads of the machine: the phases that select a rule (R115, R97), and the decoder's width and tables that
classify a codeword (R97). -/
structure View where
  encPhase : EncPhase
  decPhase : DecPhase
  width : Nat
  policy : Policy
  alphabetSize : Nat
  eofCode : Nat
  resetCode : Nat
  initialNextCode : Nat
  nextCode : Nat
  present : Nat → Bool

/-! ### Bits -/

/-- `bits_w(v)` of R16: `v[w-1], …, v[0]`, most significant first. -/
def bitsOf : Nat → Nat → Bits
  | 0, _ => []
  | w + 1, v => v.testBit w :: bitsOf w v

/-- The unsigned integer of a bit sequence, "assembling them MSB-first" (R123), with the bits already read in `acc`. -/
def natOfBitsFrom (acc : Nat) : Bits → Nat
  | [] => acc
  | b :: bs => natOfBitsFrom (2 * acc + b.toNat) bs

/-- The unsigned integer of a bit sequence, most significant bit first. -/
def natOfBits (bs : Bits) : Nat := natOfBitsFrom 0 bs

/-! ### Policy byte (R94) -/

/-- The policy a header byte selects: 1, 2, 3 as named, every other value `freeze` (R94, R199). -/
def Policy.ofCode (n : Nat) : Policy :=
  if n = 1 then .reset else if n = 2 then .lru else if n = 3 then .lfu else .freeze

/-- The byte value the encoder writes for a policy (R94, R196). -/
def Policy.code : Policy → Nat
  | .freeze => 0
  | .reset => 1
  | .lru => 2
  | .lfu => 3

/-- The `HDR.policy` row of a policy byte. -/
def decodePolicyByte (b : Byte) : Instr :=
  if b.toNat = 0 then .policyFreeze
  else if b.toNat = 1 then .policyReset
  else if b.toNat = 2 then .policyLru
  else if b.toNat = 3 then .policyLfu
  else .policyUnknown b

/-! ### Header fields (R91) -/

/-- The header field that starts at a stream bit offset. -/
def decodeField (d : Dir) (offset : Nat) : Except DecodeError Instr :=
  if offset = 0 then .ok (.fieldMinW d)
  else if offset = 8 then .ok (.fieldMaxW d)
  else if offset = 16 then .ok (.fieldPolicy d)
  else if offset = 24 then .ok (.fieldAlphabetSize d)
  else if 40 ≤ offset ∧ offset % 8 = 0 ∧ (offset - 40) / 8 < 65535 then .ok (.fieldAlphabet d ((offset - 40) / 8))
  else .error (.noFieldAtOffset offset)

/-! ### Codeword classes (R97) -/

/-- The class of a codeword `x` that has just been read: the first line of R97's table, in order, whose test holds. -/
def View.classify (v : View) (x : Nat) : Option CwClass :=
  match v.decPhase with
  | .first =>
    if x = v.eofCode then some .eofFirst
    else if x < v.alphabetSize then some .alphaFirst
    else some .illegalFirst
  | .postReset =>
    if x = v.eofCode then some .eofPostReset
    else if x < v.alphabetSize then some .alphaPostReset
    else some .illegalPostReset
  | .run =>
    if x = v.eofCode then some .eof
    else if v.policy = .reset ∧ x = v.resetCode then some .reset
    else if x < v.alphabetSize then some .alpha
    else if v.initialNextCode ≤ x ∧ x < v.nextCode ∧ v.present x = true then some .dict
    else if x = v.nextCode then some .kwkwk
    else some .illegal
  | .idle => none
  | .done => none
  | .fault => none

/-- The `CW` row of a class, for the codeword `x`. -/
def CwClass.instr (c : CwClass) (x : Nat) : Instr :=
  match c with
  | .eofFirst => .cwEofFirst x
  | .alphaFirst => .cwAlphaFirst x
  | .illegalFirst => .cwIllegalFirst x
  | .eofPostReset => .cwEofPostReset x
  | .alphaPostReset => .cwAlphaPostReset x
  | .illegalPostReset => .cwIllegalPostReset x
  | .eof => .cwEof x
  | .reset => .cwReset x
  | .alpha => .cwAlpha x
  | .dict => .cwDict x
  | .kwkwk => .cwKwkwk x
  | .illegal => .cwIllegal x

/-- A codeword: `W` value bits (R95), classified by R97. -/
def decodeCodeword (v : View) (bs : Bits) : Except DecodeError Instr :=
  if bs.length = v.width then
    match v.classify (natOfBits bs) with
    | some c => .ok (c.instr (natOfBits bs))
    | none => .error (.noCodewordInPhase v.decPhase)
  else .error (.codewordWidth bs.length v.width)

/-! ### Operands beside the select code (log entry 3) -/

/-- A natural operand: base-128 digits, least significant first, bit 7 set on every digit but the last, no zero top
digit. -/
def decodeNat : Bytes → Except DecodeError (Nat × Bytes)
  | [] => .error .operandsTooShort
  | b :: bs =>
    if b.toNat < 128 then .ok (b.toNat, bs)
    else
      match decodeNat bs with
      | .error e => .error e
      | .ok (n, rest) => if n = 0 then .error .nonMinimalNatural else .ok (b.toNat - 128 + 128 * n, rest)

/-- The operand `read` reads, then what `next` makes of it and of the bytes after it. -/
def readThen {α β : Type} (read : Bytes → Except DecodeError (α × Bytes)) (next : α → Bytes → Except DecodeError β)
    (bs : Bytes) : Except DecodeError β :=
  match read bs with
  | .error e => .error e
  | .ok p => next p.1 p.2

/-- `n` bytes. -/
def takeBytes (n : Nat) (bs : Bytes) : Except DecodeError (Bytes × Bytes) :=
  if n ≤ bs.length then .ok (bs.take n, bs.drop n) else .error .operandsTooShort

/-- A non-empty byte string operand: its length less one, then its bytes. -/
def decodeStr : Bytes → Except DecodeError (Bytes × Bytes) := readThen decodeNat fun n => takeBytes (n + 1)

/-- One operand or another, behind a tag byte that says which: 0 or 1. -/
def decodeTagged {α : Type} (zero one : Bytes → Except DecodeError (α × Bytes)) : Bytes → Except DecodeError (α × Bytes)
  | [] => .error .operandsTooShort
  | t :: bs => if t = 0 then zero bs else if t = 1 then one bs else .error (.badTag t)

/-- A tracker key operand: tag 0 and a byte string, as its length and then its bytes, or tag 1 and a code. -/
def decodeKey : Bytes → Except DecodeError (Key × Bytes) :=
  decodeTagged (readThen decodeNat fun n => readThen (takeBytes n) fun str rest => .ok (.str str, rest))
    (readThen decodeNat fun x rest => .ok (.code x, rest))

/-- The instance whose tracker `FIND` is meant: 0 the encoder's, 1 the decoder's. -/
def decodeSide : Bytes → Except DecodeError (Side × Bytes) :=
  decodeTagged (fun rest => .ok (.enc, rest)) fun rest => .ok (.dec, rest)

/-- `code` or `absent`: tag 0 and a code, or tag 1. -/
def decodeCode : Bytes → Except DecodeError (Option Nat × Bytes) :=
  decodeTagged (readThen decodeNat fun x rest => .ok (some x, rest)) fun rest => .ok (none, rest)

/-- The instruction, when its operands took every byte. -/
def wholeWord (i : Instr) (rest : Bytes) : Except DecodeError Instr :=
  if rest = [] then .ok i else .error .operandsTooLong

/-- An operation whose one operand `read` reads. -/
def oneOperand {α : Type} (read : Bytes → Except DecodeError (α × Bytes)) (mk : α → Instr) :
    Bytes → Except DecodeError Instr := readThen read fun a => wholeWord (mk a)

/-- An operation whose two operands `read₁` and `read₂` read, in that order. -/
def twoOperands {α β : Type} (read₁ : Bytes → Except DecodeError (α × Bytes))
    (read₂ : Bytes → Except DecodeError (β × Bytes)) (mk : α → β → Instr) : Bytes → Except DecodeError Instr :=
  readThen read₁ fun a => oneOperand read₂ (mk a)

/-- One byte operand. -/
def decodeByte : Bytes → Except DecodeError (Byte × Bytes)
  | [] => .error .operandsTooShort
  | b :: bs => .ok (b, bs)

/-- `CB.PUT s, absent` is spelled `CB.REMOVE s` (R114). -/
def putOrRemove (s : Bytes) : Option Nat → Instr
  | some v => .cbPut s (some v)
  | none => .cbRemove s

/-- The `ENC.BYTE` row the phase register selects (R115). -/
def encByteRow (p : EncPhase) (c : Byte) : Instr := if p = .run then .encByteRun c else .encByte c

/-- The `ENC.END` row the phase register selects (R115). -/
def encEndRow (p : EncPhase) : Instr := if p = .run then .encEndRun else .encEnd

/-- The select codes of R110, with the operands beside them. -/
def decodeOpsel (v : View) : Bytes → Except DecodeError Instr
  | [] => .error .noSelectCode
  | sel :: bs =>
    match sel.toNat with
    | 0x10 => twoOperands decodeNat decodeNat .bwWrite bs
    | 0x11 => wholeWord .bwClose bs
    | 0x20 => oneOperand decodeNat .brRead bs
    | 0x21 => wholeWord .brEmpty bs
    | 0x30 => oneOperand decodeStr .cbContains bs
    | 0x31 => oneOperand decodeStr .cbGet bs
    | 0x32 => twoOperands decodeStr decodeCode putOrRemove bs
    | 0x33 => wholeWord .cbInit bs
    | 0x40 => oneOperand decodeNat .ctLookup bs
    | 0x41 => twoOperands decodeNat decodeStr .ctInsert bs
    | 0x42 => oneOperand decodeNat .ctClear bs
    | 0x43 => wholeWord .ctInit bs
    | 0x50 => oneOperand decodeKey .lruUse bs
    | 0x51 => oneOperand decodeKey .lruRemove bs
    | 0x52 => oneOperand decodeSide .lruFind bs
    | 0x60 => oneOperand decodeKey .lfuUse bs
    | 0x61 => oneOperand decodeKey .lfuRemove bs
    | 0x62 => oneOperand decodeSide .lfuFind bs
    | 0x70 => wholeWord .hdrWrite bs
    | 0x71 => wholeWord .hdrRead bs
    | 0x80 => wholeWord .encStart bs
    | 0x81 => oneOperand decodeByte (encByteRow v.encPhase) bs
    | 0x82 => wholeWord (encEndRow v.encPhase) bs
    | 0x90 => wholeWord .decStart bs
    | 0x91 => wholeWord .decStep bs
    | _ => .error (.unassignedSelectCode sel)

/-- Decoding one port word, total. -/
def decode (v : View) : PortWord → Except DecodeError Instr
  | .opsel bs => decodeOpsel v bs
  | .policyByte b => .ok (decodePolicyByte b)
  | .field d offset => decodeField d offset
  | .codeword bs => decodeCodeword v bs

/-! ### The encoder -/

/-- Base-128 digits of `n`, with `fuel` digits to spare. -/
def encodeNatFuel : Nat → Nat → Bytes
  | 0, n => [BitVec.ofNat 8 n]
  | fuel + 1, n =>
    if n < 128 then [BitVec.ofNat 8 n] else BitVec.ofNat 8 (n % 128 + 128) :: encodeNatFuel fuel (n / 128)

/-- A natural operand's bytes. -/
def encodeNat (n : Nat) : Bytes := encodeNatFuel n n

/-- A non-empty byte string operand's bytes. -/
def encodeStr (s : Bytes) : Bytes := encodeNat (s.length - 1) ++ s

/-- A tracker key operand's bytes. -/
def encodeKey : Key → Bytes
  | .str s => 0 :: (encodeNat s.length ++ s)
  | .code x => 1 :: encodeNat x

/-- The bytes that name an instance's tracker. -/
def encodeSide : Side → Bytes
  | .enc => [0]
  | .dec => [1]

/-- The bytes of a code or `absent`. -/
def encodeCode : Option Nat → Bytes
  | some x => 0 :: encodeNat x
  | none => [1]

/-- The port word of an instruction; a codeword is written at the view's width. -/
def encode (v : View) : Instr → PortWord
  | .bwWrite value width => .opsel (0x10 :: (encodeNat value ++ encodeNat width))
  | .bwClose => .opsel [0x11]
  | .brRead width => .opsel (0x20 :: encodeNat width)
  | .brEmpty => .opsel [0x21]
  | .cbContains s => .opsel (0x30 :: encodeStr s)
  | .cbGet s => .opsel (0x31 :: encodeStr s)
  | .cbPut s c => .opsel (0x32 :: (encodeStr s ++ encodeCode c))
  | .cbRemove s => .opsel (0x32 :: (encodeStr s ++ encodeCode none))
  | .cbInit => .opsel [0x33]
  | .ctLookup x => .opsel (0x40 :: encodeNat x)
  | .ctInsert x s => .opsel (0x41 :: (encodeNat x ++ encodeStr s))
  | .ctClear x => .opsel (0x42 :: encodeNat x)
  | .ctInit => .opsel [0x43]
  | .lruUse k => .opsel (0x50 :: encodeKey k)
  | .lruRemove k => .opsel (0x51 :: encodeKey k)
  | .lruFind side => .opsel (0x52 :: encodeSide side)
  | .lfuUse k => .opsel (0x60 :: encodeKey k)
  | .lfuRemove k => .opsel (0x61 :: encodeKey k)
  | .lfuFind side => .opsel (0x62 :: encodeSide side)
  | .hdrWrite => .opsel [0x70]
  | .hdrRead => .opsel [0x71]
  | .encStart => .opsel [0x80]
  | .encByte c => .opsel [0x81, c]
  | .encByteRun c => .opsel [0x81, c]
  | .encEnd => .opsel [0x82]
  | .encEndRun => .opsel [0x82]
  | .decStart => .opsel [0x90]
  | .decStep => .opsel [0x91]
  | .policyFreeze => .policyByte 0x00
  | .policyReset => .policyByte 0x01
  | .policyLru => .policyByte 0x02
  | .policyLfu => .policyByte 0x03
  | .policyUnknown b => .policyByte b
  | .fieldMinW d => .field d 0
  | .fieldMaxW d => .field d 8
  | .fieldPolicy d => .field d 16
  | .fieldAlphabetSize d => .field d 24
  | .fieldAlphabet d i => .field d (40 + 8 * i)
  | .cwEofFirst x => .codeword (bitsOf v.width x)
  | .cwAlphaFirst x => .codeword (bitsOf v.width x)
  | .cwIllegalFirst x => .codeword (bitsOf v.width x)
  | .cwEofPostReset x => .codeword (bitsOf v.width x)
  | .cwAlphaPostReset x => .codeword (bitsOf v.width x)
  | .cwIllegalPostReset x => .codeword (bitsOf v.width x)
  | .cwEof x => .codeword (bitsOf v.width x)
  | .cwReset x => .codeword (bitsOf v.width x)
  | .cwAlpha x => .codeword (bitsOf v.width x)
  | .cwDict x => .codeword (bitsOf v.width x)
  | .cwKwkwk x => .codeword (bitsOf v.width x)
  | .cwIllegal x => .codeword (bitsOf v.width x)

/-- The spelling the decoder gives an instruction where several rows share one encoding: `CB.PUT s, absent` is
`CB.REMOVE s` (R114), and the phase register selects the row of `ENC.BYTE` and `ENC.END` (R115). -/
def Instr.spelling (v : View) : Instr → Instr
  | .cbPut s none => .cbRemove s
  | .encByte c => encByteRow v.encPhase c
  | .encByteRun c => encByteRow v.encPhase c
  | .encEnd => encEndRow v.encPhase
  | .encEndRun => encEndRow v.encPhase
  | i => i

/-- The codeword an instruction of format `CW` carries, and `none` for every other row. -/
def Instr.codeword? : Instr → Option Nat
  | .cwEofFirst x | .cwAlphaFirst x | .cwIllegalFirst x => some x
  | .cwEofPostReset x | .cwAlphaPostReset x | .cwIllegalPostReset x => some x
  | .cwEof x | .cwReset x | .cwAlpha x | .cwDict x | .cwKwkwk x | .cwIllegal x => some x
  | _ => none

/-! ### The table's words -/

/-- How many operand bytes a select code has when every operand byte is zero: the operand bytes the table gives no
bits. -/
def zeroOperandBytes (sel : Byte) : Nat :=
  match sel.toNat with
  | 0x10 => 2
  | 0x20 => 1
  | 0x30 => 2
  | 0x31 => 2
  | 0x32 => 4
  | 0x40 => 1
  | 0x41 => 3
  | 0x42 => 1
  | 0x50 => 2
  | 0x51 => 2
  | 0x52 => 1
  | 0x60 => 2
  | 0x61 => 2
  | 0x62 => 1
  | 0x81 => 1
  | _ => 0

/-- Whether R110 assigns a select code. -/
def assignedSelectCode (sel : Byte) : Bool :=
  [0x10, 0x11, 0x20, 0x21, 0x30, 0x31, 0x32, 0x33, 0x40, 0x41, 0x42, 0x43, 0x50, 0x51, 0x52, 0x60, 0x61, 0x62, 0x70, 0x71,
    0x80, 0x81, 0x82, 0x90, 0x91].contains sel.toNat

/-- The first `n` bytes of `w`, least significant first. -/
def littleEndianBytes : Nat → Nat → Bytes
  | 0, _ => []
  | n + 1, w => BitVec.ofNat 8 w :: littleEndianBytes n (w / 256)

/-- The port word of a table row's bits: a select code with the operand bytes given and zeros for the rest, or, for a
first byte that is no select code, a policy byte (R115 (a) and (b); the two ranges `0x10 ..` and `0x00 .. 0x03` of the
table's matches do not meet). -/
def tablePortWord (nbits w : Nat) : PortWord :=
  let sel : Byte := BitVec.ofNat 8 w
  if assignedSelectCode sel then
    let given := littleEndianBytes ((nbits + 7) / 8 - 1) (w / 256)
    .opsel (sel :: (given ++ List.replicate (zeroOperandBytes sel - given.length) 0))
  else .policyByte sel

/-- A view of a machine in which no operation has been performed: no rule has been selected by a phase yet. -/
def View.atReset : View :=
  { encPhase := .idle, decPhase := .idle, width := 0, policy := .freeze, alphabetSize := 0, eofCode := 0, resetCode := 1,
    initialNextCode := 1, nextCode := 1, present := fun _ => false }

/-- The instruction the decoder reads from a table row's bits, with operand bytes of zeros. -/
def decodeTableWord (nbits w : Nat) : Option Instr :=
  match decode View.atReset (tablePortWord nbits w) with
  | .ok i => some i
  | .error _ => none

end Sys2Proof
end

