-- ==== Sys2Proof/Machine/State.lean ====
section
/-! DEFINITION. Everything the spec gives the machine (10_state.md), as plain data: an encoder instance and a decoder
instance (R20), which share no state (R3), the model's operation port and the result of a unit operation driven alone.
Maps are lists of key and value pairs, keys strictly rising, an absent key not listed. -/

namespace Sys2Proof.Machine

/-- Why the machine stops with the outcome `fault`. A fault of the SPEC is no such stop: it is a transition to phase
`FAULT` (R300) and so a next state. -/
inductive Fault where
  /-- A platform's byte source or sink fails (R296: "in the model this cause is never raised"): no meaning raises it, and
  claims assume it does not occur. Unsafe where a platform's streams can fail. -/
  | ioFailure
  deriving DecidableEq, Repr

/-- Why an operation has no step (R309: refused, "not a fault"). All are safe: nothing is claimed about what an
implementation does. -/
inductive Refusal where
  /-- `exec`'s rejection of an instruction that has no meaning yet; safe. -/
  | notModelled (mnemonic : String)
  /-- `step`: the port word is no instruction; safe. -/
  | badEncoding (e : DecodeError)
  /-- `CB.CONTAINS`, `CB.GET`, `CB.PUT`, `CB.REMOVE`, `CT.INSERT` on the empty byte string: a dictionary's keys and entries
  are non-empty (R35, R36, and the "Operands" lines of R141 to R144 and R151); safe. -/
  | illFormedOperand
  /-- Any operation of an instance in `DONE` or `FAULT`: "no operation has a step" (R211, R251, R300); safe. -/
  | runEnded
  /-- An operation issued in a phase in which it has no step (R211, R251, R22); safe. -/
  | wrongPhase
  /-- `HDR.WRITE`, `CB.INIT`, every `CT` operation, `ENC.START`, a header field written: `CFG` is unwritten, and "no operation
  that reads them has a step" (R22, R309); safe. -/
  | cfgUnwritten
  /-- `ENC.START`: the configuration is outside `LegalCfg` (R13, R211); safe. -/
  | illegalCfg
  /-- `DEC.START`: the header parses and yields a configuration outside `LegalCfg` (R201); safe. -/
  | illegalHeader
  /-- Any `BW` operation: `BW.closed` is set (R32, R309); safe. -/
  | writerClosed
  /-- `HDR.WRITE`: `BW` is not empty (R196); safe. -/
  | writerNotEmpty
  /-- `HDR.READ`: `BR.pos` is not 0 (R199); safe. -/
  | readerNotAtStart
  /-- A header field moved when the stream is not at the field's offset, or an `alphabet[i]` with `i ≥ |A|` (R91); safe. -/
  | notAtField
  /-- `CB.GET` of an absent key (R142, R309); safe. -/
  | keyAbsent
  /-- A `CT` operation at a code `x ≥ M` (R150 to R152); safe. -/
  | codeOutOfRange
  /-- `LRU.*` or `LFU.*` on an instance that has no such unit: its `CFG.policy` is another, or unwritten (R22, R37); safe. -/
  | noTracker
  /-- A `CW` row whose test the codeword does not meet (R97), or a value that is no `W`-bit codeword (R95); safe. -/
  | notThisClass
  deriving DecidableEq, Repr

/-- The causes of R291. `none` (number 0) is the value `none` of the `fault` register. -/
inductive Cause where
  /-- Number 1, raised by `ENC.BYTE` (R292). -/
  | notInAlphabet (c : Byte)
  /-- Number 2, raised by `BR.READ` (R293). -/
  | truncated (width remaining : Nat)
  /-- Number 3, raised by `DEC.STEP` in `FIRST` or `POSTRESET` (R294). -/
  | badFirstCode (x : Nat)
  /-- Number 4, raised by `DEC.STEP` in `RUN` (R295). -/
  | badCode (x : Nat)
  /-- Number 5, reserved for platforms; never raised by the model (R296). -/
  | ioFailure
  /-- Number 6, reserved; "not raised by the model, which refuses instead" (R291). -/
  | badHeader
  deriving DecidableEq, Repr

/-- `LFU` state (R39), for keys of type `K`. -/
structure Lfu (K : Type) where
  /-- `LFU.freq`, key to frequency. -/
  freq : List (K × Nat)
  /-- `LFU.bucket[f]` for the frequencies whose bucket is not empty, front first. -/
  bucket : List (Nat × List K)
  /-- `LFU.minFreq`. -/
  minFreq : Nat
  deriving DecidableEq, Repr

/-- The tracker stores of one instance (R37): `LRU.order`, front first (R38), and the `LFU` state (R39). In a run the
unit the instance does not have is empty; one driven alone before the run keeps its keys while `CFG.policy`, written again,
names another unit (log entry 5). -/
structure Trk (K : Type) where
  lru : List K
  lfu : Lfu K
  deriving DecidableEq, Repr

/-- `BW` state (R32, R33). -/
structure Bw where
  out : Bytes
  pend : Bits
  closed : Bool
  deriving DecidableEq, Repr

/-- `BR` state (R34). -/
structure Br where
  input : Bytes
  pos : Nat
  deriving DecidableEq, Repr

/-- An encoder instance: `CFG`, the constant registers (R24), the `ENC` registers (R25, R29), `fault` (R31), `CB`
(R35), the tracker keyed by byte string (R37), `BW` (R33). -/
structure Enc where
  cfg : Cfg
  M : Nat
  eofCode : Nat
  resetCode : Nat
  initialNextCode : Nat
  nextCode : Nat
  W : Nat
  T : Nat
  current : Bytes
  phase : EncPhase
  fault : Option Cause
  cb : List (Bytes × Nat)
  trk : Trk Bytes
  bw : Bw
  deriving DecidableEq, Repr

/-- A decoder instance: `CFG`, the constant registers (R24), the `DEC` registers (R26, R30), `fault` (R31), `CT` (R36),
the tracker keyed by code (R37), `BR` (R34). -/
structure Dec where
  cfg : Cfg
  M : Nat
  eofCode : Nat
  resetCode : Nat
  initialNextCode : Nat
  nextCode : Nat
  W : Nat
  T : Nat
  prev : Bytes
  out : Bytes
  phase : DecPhase
  fault : Option Cause
  ct : List (Nat × Bytes)
  trk : Trk Nat
  br : Br
  deriving DecidableEq, Repr

/-- What a unit operation driven alone answers (R110, "Operands → result"). -/
inductive Ret where
  | none
  | bool (b : Bool)
  | nat (n : Nat)
  /-- A byte string, or `absent`. -/
  | str (s : Option Bytes)
  /-- A key, or null. -/
  | key (k : Option Key)
  deriving DecidableEq, Repr

/-- The machine. `port` holds the operations issued and not yet performed, first to be performed first (log entry 3);
`ret` the result of the last unit operation driven alone (log entry 4). -/
structure State where
  enc : Enc
  dec : Dec
  port : List PortWord
  ret : Ret
  deriving DecidableEq, Repr

/-- `CFG` of a created instance: unwritten (R42); the values are the model's (log entry 1). -/
def unwrittenCfg : Cfg :=
  { minW := 0, maxW := 0, policy := .freeze, alphabetSize := 0, alphabet := [], written := false }

/-- Trackers of a created instance: empty, `minFreq` 0 (R42, R43). -/
def Trk.empty {K : Type} : Trk K := { lru := [], lfu := { freq := [], bucket := [], minFreq := 0 } }

/-- A created encoder instance (R42). The constant registers, `nextCode`, `W` and `T` are unwritten there; they hold what
their formulas (R12, R27) give for the unwritten `CFG` (log entry 1). -/
def Enc.created : Enc :=
  { cfg := unwrittenCfg, M := 1, eofCode := 0, resetCode := 1, initialNextCode := 1, nextCode := 1, W := 0, T := 1,
    current := [], phase := .idle, fault := none, cb := [], trk := Trk.empty,
    bw := { out := [], pend := [], closed := false } }

/-- A created decoder instance (R42), before the host has supplied `BR.in` (log entries 1 and 2). -/
def Dec.created : Dec :=
  { cfg := unwrittenCfg, M := 1, eofCode := 0, resetCode := 1, initialNextCode := 1, nextCode := 1, W := 0, T := 1,
    prev := [], out := [], phase := .idle, fault := none, ct := [], trk := Trk.empty,
    br := { input := [], pos := 0 } }

/-- The machine right after reset, which is the creation of the instances (R330, R42): nothing issued, nothing
answered. -/
def State.reset : State :=
  { enc := Enc.created, dec := Dec.created, port := [], ret := .none }

end Sys2Proof.Machine
end

