-- ==== Sys2Proof/Machine/Ops.lean ====
section
/-! DEFINITION. The named operations over the stores, from which every meaning is built: maps in canonical form, the bit
streams (40_bitstream.md), the dictionaries (41_codebook_tables.md), the trackers (42_lru_tracker.md, 43_lfu_tracker.md)
and fault entry (60_exceptions.md R300). Preconditions are the callers' (Flags.lean, Operands.lean). -/

namespace Sys2Proof.Machine

/-! ### Maps: `dom`, `m[k]`, `m[k] <- v`, `m \ k` (R17) -/

/-- `m[k]`, or `none` for a key outside the domain. -/
def mapGet {K V : Type} [DecidableEq K] (k : K) : List (K × V) → Option V
  | [] => none
  | e :: m => if k = e.1 then some e.2 else mapGet k m

/-- `m[k] <- v`, keeping the keys in the order `lt`. -/
def mapPut {K V : Type} [DecidableEq K] (lt : K → K → Bool) (k : K) (v : V) : List (K × V) → List (K × V)
  | [] => [(k, v)]
  | e :: m =>
    if k = e.1 then (k, v) :: m
    else if lt k e.1 then (k, v) :: e :: m
    else e :: mapPut lt k v m

/-- `m \ k`. -/
def mapErase {K V : Type} [DecidableEq K] (k : K) (m : List (K × V)) : List (K × V) := m.filter fun e => decide (e.1 ≠ k)

/-- The canonical form: keys strictly rising. -/
abbrev mapWf {K V : Type} (lt : K → K → Bool) (m : List (K × V)) : Prop := m.Pairwise fun a b => lt a.1 b.1 = true

/-- The order of codes and frequencies. -/
def natLt (a b : Nat) : Bool := decide (a < b)

/-- The order of byte strings, the first differing byte decides. -/
def bytesLt : Bytes → Bytes → Bool
  | _, [] => false
  | [], _ :: _ => true
  | a :: as, b :: bs => decide (a.toNat < b.toNat) || (decide (a = b) && bytesLt as bs)

/-! ### The bit writer `BW` (R121, R122) -/

/-- "the byte whose bit 7 is b[0], bit 6 is b[1], …, bit 0 is b[7]" (R121). -/
def byteOfBits (bs : Bits) : Byte := BitVec.ofNat 8 (natOfBits bs)

/-- The eight bits of a byte, bit 7 first (R62). -/
def bitsOfByte (b : Byte) : Bits := bitsOf 8 b.toNat

/-- `n` rounds of R121's loop "while |b| >= 8": the bytes they take off the front, and the bits left. -/
def packBytes : Nat → Bits → Bytes × Bits
  | 0, bits => ([], bits)
  | n + 1, bits => (byteOfBits (bits.take 8) :: (packBytes n (bits.drop 8)).1, (packBytes n (bits.drop 8)).2)

/-- `BW.WRITE(value, width)` on an open writer (R121). -/
def Bw.write (value width : Nat) (b : Bw) : Bw :=
  let bits := b.pend ++ bitsOf width value
  let p := packBytes (bits.length / 8) bits
  { b with out := b.out ++ p.1, pend := p.2 }

/-- `BW.CLOSE` on an open writer (R122): a partial byte is padded "with zero bits on the LSB side". -/
def Bw.close (b : Bw) : Bw :=
  if b.pend = [] then { b with closed := true }
  else
    { out := b.out ++ [byteOfBits (b.pend ++ List.replicate (8 - b.pend.length) false)], pend := [], closed := true }

/-- The bits written so far: `8·|BW.out| + |BW.pend|` of them (R33). -/
def Bw.bits (b : Bw) : Bits := b.out.flatMap bitsOfByte ++ b.pend

/-- How many bits have been written (R33). -/
def Bw.bitCount (b : Bw) : Nat := 8 * b.out.length + b.pend.length

/-! ### The bit reader `BR` (R123, R124) -/

/-- Bit number `p` of the input: "bit `7 − (p mod 8)` of byte `BR.in[p div 8]`" (R34). -/
def Br.bitAt (b : Br) (p : Nat) : Nat := ((b.input[p / 8]?).getD 0).toNat / 2 ^ (7 - p % 8) % 2

/-- The bits of the input, in stream order (R62). -/
def Br.bits (b : Br) : Bits := b.input.flatMap bitsOfByte

/-- R123's loop: `width` more bits from `pos`, after `v`. -/
def Br.readFrom (b : Br) : Nat → Nat → Nat → Nat
  | 0, _, v => v
  | width + 1, pos, v => b.readFrom width (pos + 1) (2 * v + b.bitAt pos)

/-- `BR.remaining` (R34). -/
def Br.remaining (b : Br) : Nat := 8 * b.input.length - b.pos

/-- `BR.READ(width)` (R123): the value and the reader after it, or `none` where it raises `Truncated`. -/
def Br.read (width : Nat) (b : Br) : Option (Nat × Br) :=
  if b.remaining < width then none else some (b.readFrom width b.pos 0, { b with pos := b.pos + width })

/-- `BR.EMPTY` (R124): zero bits remaining. -/
def Br.isEmpty (b : Br) : Bool := decide (b.remaining = 0)

/-! ### The dictionaries (R141 to R153) -/

/-- `CB.GET`, and `CB.CONTAINS` by whether it answers (R141, R142). -/
def cbLookup (s : Bytes) (cb : List (Bytes × Nat)) : Option Nat := mapGet s cb

/-- `CB.PUT(s, v)`, `none` for `absent` (R143). -/
def cbStore (s : Bytes) (v : Option Nat) (cb : List (Bytes × Nat)) : List (Bytes × Nat) :=
  match v with
  | none => mapErase s cb
  | some c => mapPut bytesLt s c cb

/-- `CB.INIT` from index `i` on: each byte as a one-byte string with its index (R145). Of a byte that `A` repeats, which only
a configuration outside `LegalCfg` has, the last index stays: the model's choice (log entry 17). -/
def cbAlphabet : Nat → Bytes → List (Bytes × Nat) → List (Bytes × Nat)
  | _, [], cb => cb
  | i, a :: as, cb => cbAlphabet (i + 1) as (mapPut bytesLt [a] i cb)

/-- `CB.INIT`: "Insert every alphabet byte into the codebook as a one-byte string mapped to its alphabet index"
(R145). -/
def cbInitial (alphabet : Bytes) : List (Bytes × Nat) := cbAlphabet 0 alphabet []

/-- `CT.LOOKUP(x)` (R150). -/
def ctLookup (x : Nat) (ct : List (Nat × Bytes)) : Option Bytes := mapGet x ct

/-- `CT.INSERT(x, s)` (R151). -/
def ctStore (x : Nat) (s : Bytes) (ct : List (Nat × Bytes)) : List (Nat × Bytes) := mapPut natLt x s ct

/-- `CT.CLEAR(x)` (R152). -/
def ctErase (x : Nat) (ct : List (Nat × Bytes)) : List (Nat × Bytes) := mapErase x ct

/-- `CT.INIT` from slot `x` on, in a table of size `size` (R153). -/
def ctAlphabet (size : Nat) : Nat → Bytes → List (Nat × Bytes)
  | _, [] => []
  | x, a :: as => if x < size then (x, [a]) :: ctAlphabet size (x + 1) as else []

/-- `CT.INIT`: slot `x` is `⟨A[x]⟩` for `x < |A|`, absent otherwise; "only the first `M` alphabet strings have slots"
(R153). -/
def ctInitial (size : Nat) (alphabet : Bytes) : List (Nat × Bytes) := ctAlphabet size 0 alphabet

/-! ### The LRU tracker (R161 to R163) -/

section Trackers
variable {K : Type} [DecidableEq K]

/-- A list without `k`. -/
def without (k : K) (ks : List K) : List K := ks.filter fun k' => decide (k' ≠ k)

/-- `LRU.USE(k)` (R161). -/
def lruTouch (k : K) (order : List K) : List K := k :: without k order

/-- `LRU.REMOVE(k)` (R162); nothing for an untracked key (decision D5). -/
def lruDrop (k : K) (order : List K) : List K := without k order

/-- `LRU.FIND` (R163): the back element, null when there is none (decision D4). -/
def lruVictim (order : List K) : Option K := order.getLast?

/-! ### The LFU tracker (R176 to R180) -/

/-- `LFU.bucket[f]`, empty if no such bucket. -/
def Lfu.at (f : Nat) (l : Lfu K) : List K := (mapGet f l.bucket).getD []

/-- `LFU.bucket[f] <- ks`; an empty bucket is not listed. -/
def Lfu.setBucket (f : Nat) (ks : List K) (l : Lfu K) : Lfu K :=
  { l with bucket := if ks = [] then mapErase f l.bucket else mapPut natLt f ks l.bucket }

/-- `LFU.freq[k] <- f`. -/
def Lfu.setFreq (lt : K → K → Bool) (k : K) (f : Nat) (l : Lfu K) : Lfu K := { l with freq := mapPut lt k f l.freq }

/-- `LFU.USE(k)` of a new key (R177). -/
def Lfu.create (lt : K → K → Bool) (k : K) (l : Lfu K) : Lfu K :=
  { (l.setFreq lt k 1).setBucket 1 (k :: l.at 1) with minFreq := 1 }

/-- `LFU.USE(k)` of a key at frequency `f` (R178), in the order of R176's statements. -/
def Lfu.promote (lt : K → K → Bool) (k : K) (f : Nat) (l : Lfu K) : Lfu K :=
  let l₁ := l.setBucket f (without k (l.at f))
  let l₂ := if l₁.at f = [] ∧ f = l₁.minFreq then { l₁ with minFreq := f + 1 } else l₁
  let l₃ := l₂.setFreq lt k (f + 1)
  l₃.setBucket (f + 1) (k :: l₃.at (f + 1))

/-- `LFU.USE(k)` (R176). -/
def Lfu.touch (lt : K → K → Bool) (k : K) (l : Lfu K) : Lfu K :=
  match mapGet k l.freq with
  | none => l.create lt k
  | some f => l.promote lt k f

/-- `LFU.REMOVE(k)` (R179): `minFreq` is not changed; nothing for an untracked key (decision D5). -/
def Lfu.drop (k : K) (l : Lfu K) : Lfu K :=
  match mapGet k l.freq with
  | none => l
  | some f => { l.setBucket f (without k (l.at f)) with freq := mapErase k l.freq }

/-- `LFU.FIND` (R180): the back of the bucket at `minFreq`, null when it is empty. -/
def Lfu.victim (l : Lfu K) : Option K := (l.at l.minFreq).getLast?

/-! ### `TRK`, the instance's tracker (45_encoder.md: "`LRU` under policy `lru`, `LFU` under `lfu`") -/

/-- `if tracker active: TRK.USE(k)`. -/
def Trk.use (lt : K → K → Bool) (p : Policy) (k : K) (t : Trk K) : Trk K :=
  match p with
  | .lru => { t with lru := lruTouch k t.lru }
  | .lfu => { t with lfu := t.lfu.touch lt k }
  | .freeze => t
  | .reset => t

/-- `TRK.REMOVE(k)`. -/
def Trk.remove (p : Policy) (k : K) (t : Trk K) : Trk K :=
  match p with
  | .lru => { t with lru := lruDrop k t.lru }
  | .lfu => { t with lfu := t.lfu.drop k }
  | .freeze => t
  | .reset => t

/-- `TRK.FIND`; without a tracker there is no key to return. -/
def Trk.find (p : Policy) (t : Trk K) : Option K :=
  match p with
  | .lru => lruVictim t.lru
  | .lfu => t.lfu.victim
  | .freeze => none
  | .reset => none

end Trackers

/-! ### Fault entry (R300) -/

/-- The number of a cause (R291's column "No."). -/
def Cause.number : Cause → Nat
  | .notInAlphabet _ => 1
  | .truncated _ _ => 2
  | .badFirstCode _ => 3
  | .badCode _ => 4
  | .ioFailure => 5
  | .badHeader => 6

/-- The number the `fault` register stands for: 0 is `none` (R291). -/
def faultNumber (fault : Option Cause) : Nat := fault.elim 0 Cause.number

/-- `raise` in an encoder instance: "(2) `fault <- F(info)`. (3) `phase <- FAULT`. Nothing else changes" (R300). -/
def Enc.raise (c : Cause) (e : Enc) : Enc := { e with fault := some c, phase := .fault }

/-- `raise` in a decoder instance (R300). -/
def Dec.raise (c : Cause) (d : Dec) : Dec := { d with fault := some c, phase := .fault }

/-- `raise` in the instance on one side of the machine (R300). There is no return from a fault (R303). -/
def State.raise (side : Side) (c : Cause) (s : State) : State :=
  match side with
  | .enc => { s with enc := s.enc.raise c }
  | .dec => { s with dec := s.dec.raise c }

/-! ### Formulas of R12 -/

/-- `initialNextCode`: `|A| + 1`, or `|A| + 2` under policy `reset` (R12). -/
def firstUserCode (c : Cfg) : Nat := if c.policy = .reset then c.alphabetSize + 2 else c.alphabetSize + 1

/-- `M = 2^maxW` (R12). -/
def tableSize (c : Cfg) : Nat := 2 ^ c.maxW

/-! ### Outcomes -/

/-- The state with the encoder instance replaced, or the refusal. -/
def State.withEnc (s : State) (r : Except Refusal Enc) : Host.Outcome State Fault Refusal :=
  match r with
  | .ok e => .next { s with enc := e }
  | .error q => .refused q

/-- The state with the decoder instance replaced, or the refusal. -/
def State.withDec (s : State) (r : Except Refusal Dec) : Host.Outcome State Fault Refusal :=
  match r with
  | .ok d => .next { s with dec := d }
  | .error q => .refused q

end Sys2Proof.Machine
end

