-- ==== Sys2Proof/Machine/Flags.lean ====
section
/-! DEFINITION. The conditions the rules test. The block has no condition codes and no arithmetic flags (R31); its flags
are `BW.closed`, the `fault` register and the phase registers. Here: the configuration predicates `LegalCfg` (R13) and
`WidthSafe` (R14), "tracker active", whether an instance still has steps, the width check, and which tracker unit an
instance has. -/

namespace Sys2Proof.Machine

/-- `LegalCfg` (R13): `A` non-empty with pairwise distinct elements, CR and LF in it, `1 ≤ minW ≤ maxW ≤ 255`; the
registers `alphabet[i]` exist for `i < |A|` (R22). -/
def legalCfg (c : Cfg) : Bool :=
  !c.alphabet.isEmpty && decide c.alphabet.Nodup && decide (c.alphabetSize = c.alphabet.length)
    && c.alphabet.contains Config.carriageReturn && c.alphabet.contains Config.lineFeed
    && decide (1 ≤ c.minW) && decide (c.minW ≤ c.maxW) && decide (c.maxW ≤ Config.maxWidth)

/-- `WidthSafe` (R14): `initialNextCode ≤ 2^minW`. No rule tests it; it is a premise of claims. -/
def widthSafe (c : Cfg) : Bool := decide (firstUserCode c ≤ 2 ^ c.minW)

/-- "tracker active": policy is `lru` or `lfu` (45_encoder.md). -/
def trackerActive (p : Policy) : Bool := decide (p = .lru) || decide (p = .lfu)

/-- "In `DONE` and `FAULT` no operation has a step" (R211). -/
def encEnded (p : EncPhase) : Bool := decide (p = .done) || decide (p = .fault)

/-- "In `DONE` and `FAULT` no operation has a step" (R251). -/
def decEnded (p : DecPhase) : Bool := decide (p = .done) || decide (p = .fault)

/-- The instance configured by `c` has the tracker unit of policy `p`: "allocated only when their policy is active" (R37),
and a `CFG` that is unwritten holds no policy (R22; log entry 5). -/
def hasTracker (p : Policy) (c : Cfg) : Bool := c.written && decide (c.policy = p)

/-- `WidthCheck()` of the encoder (R221): raises `W` by at most one. -/
def Enc.widthCheck (e : Enc) : Enc :=
  if e.T ≤ e.nextCode ∧ e.W < e.cfg.maxW then { e with W := e.W + 1, T := 2 ^ (e.W + 1) } else e

/-- The decoder's width check before a read in `RUN` (R256). -/
def Dec.widthCheck (d : Dec) : Dec :=
  if d.T ≤ d.nextCode ∧ d.W < d.cfg.maxW then { d with W := d.W + 1, T := 2 ^ (d.W + 1) } else d

end Sys2Proof.Machine
end

