-- ==== Sys2Proof/Machine/Operands.lean ====
section
/-! DEFINITION. Operand and precondition checks, each named by the refusal it answers (R309), and how a tracker key picks
the instance (R37). -/

namespace Sys2Proof.Machine

/-- Go on when `ok`, else refuse with `q`. -/
def require (ok : Bool) (q : Refusal) (k : Host.Outcome State Fault Refusal) : Host.Outcome State Fault Refusal :=
  if ok then k else .refused q

/-- An operation of the encoder instance: it has a step only while the run has not ended (R211). -/
def onEnc (s : State) (k : Host.Outcome State Fault Refusal) : Host.Outcome State Fault Refusal :=
  require (!encEnded s.enc.phase) .runEnded k

/-- An operation of the decoder instance: it has a step only while the run has not ended (R251). -/
def onDec (s : State) (k : Host.Outcome State Fault Refusal) : Host.Outcome State Fault Refusal :=
  require (!decEnded s.dec.phase) .runEnded k

/-- An operation of a dictionary whose operand is a "non-empty byte string" (R35, R36, R141 to R144, R151). -/
def withStr (str : Bytes) (k : Host.Outcome State Fault Refusal) : Host.Outcome State Fault Refusal :=
  require (!str.isEmpty) .illFormedOperand k

/-- A tracker operation of policy `p`'s unit: the key's kind names the instance (R37), which must have the unit. "The unit
itself applies no filter: whatever key it is given, it tracks" (R160, R175). -/
def onTracker (p : Policy) (key : Key) (s : State) (str : Bytes → Trk Bytes → Trk Bytes)
    (code : Nat → Trk Nat → Trk Nat) : Host.Outcome State Fault Refusal :=
  match key with
  | .str k =>
    onEnc s (require (hasTracker p s.enc.cfg) .noTracker
      (.next { s with enc := { s.enc with trk := str k s.enc.trk } }))
  | .code x =>
    onDec s (require (hasTracker p s.dec.cfg) .noTracker
      (.next { s with dec := { s.dec with trk := code x s.dec.trk } }))

/-- An operation that reads `CFG.maxW` for the decoder's table size: `CFG` must be written (R22), and a code must be below
`M`, the unit's `M` being `2^maxW` (R12, R36, R150 to R152; log entry 6). A slot at or above `M` that was filled while `maxW`
was larger keeps its string, and is in reach again under a larger `maxW`: the model's choice (log entry 18). -/
def onSlot (x : Nat) (s : State) (k : Host.Outcome State Fault Refusal) : Host.Outcome State Fault Refusal :=
  onDec s (require s.dec.cfg.written .cfgUnwritten (require (decide (x < tableSize s.dec.cfg)) .codeOutOfRange k))

/-- A tracker's `FIND` of policy `p`'s unit, on one side. It "does not change the state" (R163, R180) but for the result
it answers. -/
def onFind (p : Policy) (side : Side) (s : State) : Host.Outcome State Fault Refusal :=
  match side with
  | .enc =>
    onEnc s (require (hasTracker p s.enc.cfg) .noTracker (.next { s with ret := .key ((s.enc.trk.find p).map Key.str) }))
  | .dec =>
    onDec s (require (hasTracker p s.dec.cfg) .noTracker (.next { s with ret := .key ((s.dec.trk.find p).map Key.code) }))

end Sys2Proof.Machine
end

