-- ==== Sys2Proof/Machine/BitStream.lean ====
section
/-! DEFINITION. The bit stream units `BW` and `BR` (40_bitstream.md), each operation driven alone. -/

namespace Sys2Proof.Machine

/-- `BW.WRITE(value, width)` (R121). Precondition: `BW.closed = false`. -/
def execBwWrite (value width : Nat) (s : State) : Host.Outcome State Fault Refusal :=
  onEnc s (require (!s.enc.bw.closed) .writerClosed
    (.next { s with enc := { s.enc with bw := s.enc.bw.write value width } }))

/-- `BW.CLOSE` (R122). Precondition: `BW.closed = false`. -/
def execBwClose (s : State) : Host.Outcome State Fault Refusal :=
  onEnc s (require (!s.enc.bw.closed) .writerClosed (.next { s with enc := { s.enc with bw := s.enc.bw.close } }))

/-- `BR.READ(width)` (R123). Too few bits: `raise Truncated(width, BR.remaining)`, the cursor not moved. -/
def execBrRead (width : Nat) (s : State) : Host.Outcome State Fault Refusal :=
  onDec s
    (match s.dec.br.read width with
    | none => .next (s.raise .dec (.truncated width s.dec.br.remaining))
    | some (v, br) => .next { s with dec := { s.dec with br := br }, ret := .nat v })

/-- `BR.EMPTY` (R124). -/
def execBrEmpty (s : State) : Host.Outcome State Fault Refusal :=
  onDec s (.next { s with ret := .bool s.dec.br.isEmpty })

end Sys2Proof.Machine
end

