-- ==== Sys2Proof/Machine/Header.lean ====
section
/-! DEFINITION. The header codec `HDR` (44_header_codec.md), the header fields (R91, R92) and the values of the policy byte
(R94). "`HDR` has no state of its own: it moves values between `CFG` and the bit stream units." -/

namespace Sys2Proof.Machine

/-! ### The encoder's half -/

/-- `BW.WRITE(CFG.minW, 8)` (R196). -/
def Enc.putMinW (e : Enc) : Enc := { e with bw := e.bw.write e.cfg.minW 8 }

/-- `BW.WRITE(CFG.maxW, 8)` (R196). -/
def Enc.putMaxW (e : Enc) : Enc := { e with bw := e.bw.write e.cfg.maxW 8 }

/-- `BW.WRITE(CFG.policy, 8)` (R196). -/
def Enc.putPolicy (e : Enc) : Enc := { e with bw := e.bw.write e.cfg.policy.code 8 }

/-- `BW.WRITE(|A|, 16)` (R196). -/
def Enc.putAlphabetSize (e : Enc) : Enc := { e with bw := e.bw.write e.cfg.alphabetSize 16 }

/-- `BW.WRITE(A[i], 8)` for each byte in order (R196). -/
def writeBytes : Bytes → Bw → Bw
  | [], b => b
  | a :: as, b => writeBytes as (b.write a.toNat 8)

/-- `HDR.WRITE` (R196). -/
def Enc.hdrWrite (e : Enc) : Enc :=
  { e with bw := writeBytes e.cfg.alphabet e.putMinW.putMaxW.putPolicy.putAlphabetSize.bw }

/-! ### The decoder's half -/

/-- One read of the header: `take` stores the value in a register, or `BR.READ` raises `Truncated` (R202). -/
def Dec.readField (width : Nat) (take : Nat → Dec → Dec) (d : Dec) : Dec :=
  match d.br.read width with
  | none => d.raise (.truncated width d.br.remaining)
  | some (v, br) => take v { d with br := br }

/-- The next statement, unless the one before raised: "nothing after it in the pseudocode is executed" (R18). -/
def Dec.andThen (d : Dec) (f : Dec → Dec) : Dec := if d.phase = .fault then d else f d

/-- `CFG.alphabet[i] <- v`; registers below `i` that nothing has written hold 0 (log entry 1). -/
def setByte : Nat → Byte → Bytes → Bytes
  | 0, v, [] => [v]
  | 0, v, _ :: as => v :: as
  | i + 1, v, [] => 0 :: setByte i v []
  | i + 1, v, a :: as => a :: setByte i v as

/-- `CFG.minW <- BR.READ(8)` (R199). -/
def Dec.getMinW (d : Dec) : Dec := d.readField 8 fun v d => { d with cfg := { d.cfg with minW := v } }

/-- `CFG.maxW <- BR.READ(8)` (R199). A slot of `CT` filled before, at or above the `M` of a smaller `maxW`, keeps its string
out of reach: the model's choice (log entry 18). -/
def Dec.getMaxW (d : Dec) : Dec := d.readField 8 fun v d => { d with cfg := { d.cfg with maxW := v } }

/-- `CFG.policy <- p` (R199). A tracker unit driven alone before keeps its keys, whatever policy stood there: the model's
choice (log entry 5). -/
def Dec.setPolicy (p : Policy) (d : Dec) : Dec := { d with cfg := { d.cfg with policy := p } }

/-- `p <- BR.READ(8)`; `CFG.policy <- p if p ∈ {1, 2, 3} else 0` (R199). -/
def Dec.getPolicy (d : Dec) : Dec := d.readField 8 fun v d => d.setPolicy (Policy.ofCode v)

/-- `n <- BR.READ(16)`; `CFG.alphabetSize <- n` (R199). The registers `alphabet[i]` exist for `i < n` (R22). -/
def Dec.getAlphabetSize (d : Dec) : Dec :=
  d.readField 16 fun v d => { d with cfg := { d.cfg with alphabetSize := v, alphabet := d.cfg.alphabet.take v } }

/-- `CFG.alphabet[i] <- BR.READ(8)` (R199). -/
def Dec.getAlphabet (i : Nat) (d : Dec) : Dec :=
  d.readField 8 fun v d => { d with cfg := { d.cfg with alphabet := setByte i (BitVec.ofNat 8 v) d.cfg.alphabet } }

/-- "for i in 0 .. n-1: CFG.alphabet[i] <- BR.READ(8)" (R199), `n` more bytes from index `i`. -/
def Dec.getBytes : Nat → Nat → Dec → Dec
  | 0, _, d => d
  | n + 1, i, d => (d.getAlphabet i).andThen (Dec.getBytes n (i + 1))

/-- `HDR.READ` (R199). Every register of `CFG` has been written once it ends without a fault. -/
def Dec.hdrRead (d : Dec) : Dec :=
  ((((d.getMinW.andThen Dec.getMaxW).andThen Dec.getPolicy).andThen Dec.getAlphabetSize).andThen fun d =>
    d.getBytes d.cfg.alphabetSize 0).andThen fun d => { d with cfg := { d.cfg with written := true } }

/-! ### `HDR.WRITE` and `HDR.READ` driven alone -/

/-- `HDR.WRITE` (R196). Precondition: "`CFG` written; `BW` empty and not closed". -/
def execHdrWrite (s : State) : Host.Outcome State Fault Refusal :=
  onEnc s (require s.enc.cfg.written .cfgUnwritten (require (!s.enc.bw.closed) .writerClosed
    (require (decide (s.enc.bw.bitCount = 0)) .writerNotEmpty (.next { s with enc := s.enc.hdrWrite }))))

/-- `HDR.READ` (R199). Precondition: `BR.pos = 0`; it writes `CFG`, which nothing writes once the run has started
(R22). -/
def execHdrRead (s : State) : Host.Outcome State Fault Refusal :=
  onDec s (require (decide (s.dec.phase = .idle)) .wrongPhase
    (require (decide (s.dec.br.pos = 0)) .readerNotAtStart (.next { s with dec := s.dec.hdrRead })))

/-! ### The policy byte: what a value just read selects (R94) -/

/-- A policy byte has been read in the header (R199): `CFG.policy` takes what it selects. Nothing writes `CFG` once the
run has started (R22). It does not make `CFG` count as written (log entry 7). -/
def onPolicyByte (p : Policy) (s : State) : Host.Outcome State Fault Refusal :=
  onDec s (require (decide (s.dec.phase = .idle)) .wrongPhase (.next { s with dec := s.dec.setPolicy p }))

/-- Policy byte `0x00`: freeze (R94). -/
def execPolicyFreeze (s : State) : Host.Outcome State Fault Refusal := onPolicyByte .freeze s

/-- Policy byte `0x01`: reset (R94). -/
def execPolicyReset (s : State) : Host.Outcome State Fault Refusal := onPolicyByte .reset s

/-- Policy byte `0x02`: lru (R94). -/
def execPolicyLru (s : State) : Host.Outcome State Fault Refusal := onPolicyByte .lru s

/-- Policy byte `0x03`: lfu (R94). -/
def execPolicyLfu (s : State) : Host.Outcome State Fault Refusal := onPolicyByte .lfu s

/-- Policy byte `0x04 .. 0xFF`: "Unknown values MUST be treated as freeze on decode" (R94, R200); any other byte selects
what its own row does, and the decoder never gives it this row. -/
def execPolicyUnknown (b : Byte) (s : State) : Host.Outcome State Fault Refusal := onPolicyByte (Policy.ofCode b.toNat) s

/-! ### The header fields (R91): written at, or read from, their stream bit offset -/

/-- A header field moved: `put` writes it in the encoder when the stream stands at its offset, `get` reads it in the
decoder (R92). Only `HDR.READ` makes `CFG` count as written, the field rows driven alone do not, even once each of them has
been performed: the model's choice (log entry 7). -/
def onField (offset : Nat) (put : Enc → Enc) (get : Dec → Dec) (d : Dir) (s : State) : Host.Outcome State Fault Refusal :=
  match d with
  | .put =>
    onEnc s (require s.enc.cfg.written .cfgUnwritten (require (!s.enc.bw.closed) .writerClosed
      (require (decide (s.enc.bw.bitCount = offset)) .notAtField (.next { s with enc := put s.enc }))))
  | .get =>
    onDec s (require (decide (s.dec.phase = .idle)) .wrongPhase
      (require (decide (s.dec.br.pos = offset)) .notAtField (.next { s with dec := get s.dec })))

/-- Header field `minW`, 8 bits at stream bit offset 0 (R91). -/
def execFieldMinW (d : Dir) (s : State) : Host.Outcome State Fault Refusal := onField 0 Enc.putMinW Dec.getMinW d s

/-- Header field `maxW`, 8 bits at stream bit offset 8 (R91). -/
def execFieldMaxW (d : Dir) (s : State) : Host.Outcome State Fault Refusal := onField 8 Enc.putMaxW Dec.getMaxW d s

/-- Header field `policy`, 8 bits at stream bit offset 16 (R91). -/
def execFieldPolicy (d : Dir) (s : State) : Host.Outcome State Fault Refusal :=
  onField 16 Enc.putPolicy Dec.getPolicy d s

/-- Header field `alphabetSize`, 16 bits at stream bit offset 24 (R91). -/
def execFieldAlphabetSize (d : Dir) (s : State) : Host.Outcome State Fault Refusal :=
  onField 24 Enc.putAlphabetSize Dec.getAlphabetSize d s

/-- `|A|` of the instance a field moves in. -/
def fieldCount (d : Dir) (s : State) : Nat :=
  match d with
  | .put => s.enc.cfg.alphabet.length
  | .get => s.dec.cfg.alphabetSize

/-- `BW.WRITE(A[i], 8)` (R196). -/
def Enc.putAlphabet (i : Nat) (e : Enc) : Enc := { e with bw := e.bw.write ((e.cfg.alphabet[i]?).getD 0).toNat 8 }

/-- Header field `alphabet[i]`, `0 ≤ i < |A|`, 8 bits at stream bit offset `40 + 8·i` (R91). -/
def execFieldAlphabet (d : Dir) (i : Nat) (s : State) : Host.Outcome State Fault Refusal :=
  require (decide (i < fieldCount d s)) .notAtField (onField (40 + 8 * i) (Enc.putAlphabet i) (Dec.getAlphabet i) d s)

end Sys2Proof.Machine
end

