-- ==== Sys2Proof/Machine/Decoder.lean ====
section
/-! DEFINITION. The decoder `DEC` (46_decoder.md): `DEC.START`, `DEC.STEP`, and the codeword classes of 30_encoding.md
rule R97 as rows of their own. `DEC.STEP` follows the pseudocode of R254, R255 and R262 statement by statement; a `CW`
row is what R97 says a codeword of its class does once it has been read. -/

namespace Sys2Proof.Machine

/-! ### Sub-steps -/

/-- `phase <- DONE; return` (R254, R257, R262). -/
def Dec.stop (d : Dec) : Dec := { d with phase := .done }

/-- The in-band reset of the decoder: `CT.INIT`, `nextCode`, `W`, `T`, phase `POSTRESET` (R258, R44). -/
def Dec.flush (d : Dec) : Dec :=
  { d with ct := ctInitial (tableSize d.cfg) d.cfg.alphabet, nextCode := d.initialNextCode, W := d.cfg.minW,
           T := 2 ^ d.cfg.minW, phase := .postReset }

/-- Step 6, `out <- out ++ s` (R255). -/
def Dec.emit (str : Bytes) (d : Dec) : Dec := { d with out := d.out ++ str }

/-- `⟨A[x]⟩` for an alphabet code `x` (R97). -/
def Dec.alphabetString (x : Nat) (d : Dec) : Bytes := (d.cfg.alphabet.drop x).take 1

/-- Emit `s`, `prev <- s`, `phase <- RUN`: an alphabet code in `FIRST` or `POSTRESET` (R254, R262). -/
def Dec.restart (str : Bytes) (d : Dec) : Dec := { d with out := d.out ++ str, prev := str, phase := .run }

/-- Eviction at the insertion that uses code `M − 1`: the victim's slot is cleared and leaves the tracker; a null victim
clears nothing (R260). `CT.CLEAR` of a code at or above `M` has no step (R152). -/
def Dec.evict (d : Dec) : Except Refusal Dec :=
  if trackerActive d.cfg.policy ∧ d.nextCode = d.M - 1 then
    match d.trk.find d.cfg.policy with
    | none => .ok d
    | some v =>
      if v < tableSize d.cfg then .ok { d with ct := ctErase v d.ct, trk := d.trk.remove d.cfg.policy v }
      else .error .codeOutOfRange
  else .ok d

/-- Insertion of `new` at slot `nextCode`, tracked if a tracker is active (R260). -/
def Dec.insert (new : Bytes) (d : Dec) : Dec :=
  { d with ct := ctStore d.nextCode new d.ct, trk := d.trk.use natLt d.cfg.policy d.nextCode,
           nextCode := d.nextCode + 1 }

/-- Step 7, the insert phase, for the string `str` of the codeword just decoded: `new = prev ++ s[0]` (R260). -/
def Dec.insertPhase (str : Bytes) (d : Dec) : Except Refusal Dec :=
  if d.nextCode < d.M then
    match d.evict with
    | .error q => .error q
    | .ok d₁ => .ok (d₁.insert (d.prev ++ str.take 1))
  else .ok d

/-- Step 8, the use update of `x`, with the caller's filter `x ≥ initialNextCode` (R261). -/
def Dec.useCode (x : Nat) (d : Dec) : Dec :=
  if d.initialNextCode ≤ x then { d with trk := d.trk.use natLt d.cfg.policy x } else d

/-- Steps 6 to 9 for a codeword `x` that denotes `str`: emit, insert phase, use update, `prev <- s` (R255). -/
def Dec.accept (x : Nat) (str : Bytes) (d : Dec) : Except Refusal Dec :=
  match (d.emit str).insertPhase str with
  | .error q => .error q
  | .ok d₁ => .ok { d₁.useCode x with prev := str }

/-- The string of `x == nextCode`: `s <- prev ++ ⟨prev[0]⟩` (R259). -/
def Dec.kwkwk (d : Dec) : Bytes := d.prev ++ d.prev.take 1

/-- Step 5: the string a codeword denotes, or `none` where it raises `BadCode` (R259). -/
def Dec.stringOf (x : Nat) (d : Dec) : Option Bytes :=
  match (if x < d.nextCode then ctLookup x d.ct else none) with
  | some str => some str
  | none => if x = d.nextCode then some d.kwkwk else none

/-! ### `DEC.STEP`, by phase -/

/-- A codeword `x` read in `FIRST` or `POSTRESET` (R254, R262): `EOF_CODE` stops, an alphabet code restarts with
`s <- CT.LOOKUP(x)`, which is `⟨A[x]⟩`, also where the slot has been cleared from outside the run (R97; log entry 16), anything
else raises `BadFirstCode`. -/
def Dec.firstCode (x : Nat) (d : Dec) : Except Refusal Dec :=
  if x = d.eofCode then .ok d.stop
  else if x < d.cfg.alphabetSize then .ok (d.restart ((ctLookup x d.ct).getD (d.alphabetString x)))
  else .ok (d.raise (.badFirstCode x))

/-- A codeword `x` read in `RUN`, steps 3 to 9 (R255). -/
def Dec.runCode (x : Nat) (d : Dec) : Except Refusal Dec :=
  if x = d.eofCode then .ok d.stop
  else if d.cfg.policy = .reset ∧ x = d.resetCode then .ok d.flush
  else
    match d.stringOf x with
    | none => .ok (d.raise (.badCode x))
    | some str => d.accept x str

/-- `x <- BR.READ(W)`, then `k x`; too few bits raise `Truncated` and end the operation (R123). -/
def Dec.fetch (k : Nat → Dec → Except Refusal Dec) (d : Dec) : Except Refusal Dec :=
  match d.br.read d.W with
  | none => .ok (d.raise (.truncated d.W d.br.remaining))
  | some (x, br) => k x { d with br := br }

/-- `DEC.STEP` on a decoder instance, by phase (R253): R254, R255, R262. -/
def Dec.step (d : Dec) : Except Refusal Dec :=
  match d.phase with
  | .first => if d.br.isEmpty then .ok d.stop else d.fetch Dec.firstCode
  | .run => d.widthCheck.fetch Dec.runCode
  | .postReset => d.fetch Dec.firstCode
  | .idle => .error .wrongPhase
  | .done => .error .wrongPhase
  | .fault => .error .wrongPhase

/-! ### `DEC.START` -/

/-- `DEC.START` after the header (R252). -/
def Dec.start (d : Dec) : Dec :=
  { d with
    M := tableSize d.cfg
    eofCode := d.cfg.alphabetSize
    resetCode := if d.cfg.policy = .reset then d.cfg.alphabetSize + 1 else d.resetCode
    initialNextCode := firstUserCode d.cfg
    ct := ctInitial (tableSize d.cfg) d.cfg.alphabet
    nextCode := firstUserCode d.cfg
    W := d.cfg.minW
    T := 2 ^ d.cfg.minW
    trk := Trk.empty
    prev := []
    out := []
    phase := .first }

/-- `HDR.READ`, which may raise `Truncated`; then `LegalCfg` or refusal (R201); then the rest of `DEC.START` (R252). -/
def Dec.startFromHeader (d : Dec) : Except Refusal Dec :=
  let d₁ := d.hdrRead
  if d₁.phase = .fault then .ok d₁
  else if legalCfg d₁.cfg then .ok d₁.start
  else .error .illegalHeader

/-- `DEC.START` (R252). Precondition: phase `IDLE` (R251), and `BR.pos = 0` for `HDR.READ` (R199). -/
def execDecStart (s : State) : Host.Outcome State Fault Refusal :=
  onDec s (require (decide (s.dec.phase = .idle)) .wrongPhase
    (require (decide (s.dec.br.pos = 0)) .readerNotAtStart (s.withDec s.dec.startFromHeader)))

/-- `DEC.STEP` (R253). -/
def execDecStep (s : State) : Host.Outcome State Fault Refusal := onDec s (s.withDec s.dec.step)

/-! ### The codeword classes (R97) -/

/-- What decoding reads of the machine. -/
def State.view (s : State) : View :=
  { encPhase := s.enc.phase, decPhase := s.dec.phase, width := s.dec.W, policy := s.dec.cfg.policy,
    alphabetSize := s.dec.cfg.alphabetSize, eofCode := s.dec.eofCode, resetCode := s.dec.resetCode,
    initialNextCode := s.dec.initialNextCode, nextCode := s.dec.nextCode,
    present := fun x => (ctLookup x s.dec.ct).isSome }

/-- A `W`-bit codeword `x` of class `c` has been read (R95, R97): its effect on the decoder instance. -/
def onCodeword (c : CwClass) (x : Nat) (s : State) (effect : Dec → Except Refusal Dec) :
    Host.Outcome State Fault Refusal :=
  onDec s (require (decide (x < 2 ^ s.dec.W ∧ s.view.classify x = some c)) .notThisClass (s.withDec (effect s.dec)))

/-- `CW.EOF` in `FIRST`: "stop, phase DONE, empty output" (R254). -/
def execCwEofFirst (x : Nat) (s : State) : Host.Outcome State Fault Refusal :=
  onCodeword .eofFirst x s fun d => .ok d.stop

/-- `CW.ALPHA` in `FIRST`: emit `⟨A[x]⟩`, `prev <- ⟨A[x]⟩`, phase `RUN` (R97, R254), whatever the slot holds (log entry 16). -/
def execCwAlphaFirst (x : Nat) (s : State) : Host.Outcome State Fault Refusal :=
  onCodeword .alphaFirst x s fun d => .ok (d.restart (d.alphabetString x))

/-- `CW.ILLEGAL` in `FIRST`: `raise BadFirstCode(x)` (R254, R294). -/
def execCwIllegalFirst (x : Nat) (s : State) : Host.Outcome State Fault Refusal :=
  onCodeword .illegalFirst x s fun d => .ok (d.raise (.badFirstCode x))

/-- `CW.EOF` in `POSTRESET`: "stop, phase DONE" (R262). -/
def execCwEofPostReset (x : Nat) (s : State) : Host.Outcome State Fault Refusal :=
  onCodeword .eofPostReset x s fun d => .ok d.stop

/-- `CW.ALPHA` in `POSTRESET`: emit `⟨A[x]⟩`, `prev <- ⟨A[x]⟩`, no insertion, phase `RUN` (R97, R262), whatever the slot holds
(log entry 16). -/
def execCwAlphaPostReset (x : Nat) (s : State) : Host.Outcome State Fault Refusal :=
  onCodeword .alphaPostReset x s fun d => .ok (d.restart (d.alphabetString x))

/-- `CW.ILLEGAL` in `POSTRESET`: `raise BadFirstCode(x)` (R262, R294). -/
def execCwIllegalPostReset (x : Nat) (s : State) : Host.Outcome State Fault Refusal :=
  onCodeword .illegalPostReset x s fun d => .ok (d.raise (.badFirstCode x))

/-- `CW.EOF` in `RUN`: "stop, phase DONE" (R257). -/
def execCwEof (x : Nat) (s : State) : Host.Outcome State Fault Refusal :=
  onCodeword .eof x s fun d => .ok d.stop

/-- `CW.RESET`: flush the dictionary, phase `POSTRESET` (R258). -/
def execCwReset (x : Nat) (s : State) : Host.Outcome State Fault Refusal :=
  onCodeword .reset x s fun d => .ok d.flush

/-- `CW.ALPHA` in `RUN`: `s = ⟨A[x]⟩` (R97); emit, insert phase, use update, `prev <- s` (R259). Where the slot has been cleared
or changed from outside the run the row still takes `⟨A[x]⟩`, while `DEC.STEP` raises `BadCode` or takes the slot's string: the
model's choice (log entry 16). -/
def execCwAlpha (x : Nat) (s : State) : Host.Outcome State Fault Refusal :=
  onCodeword .alpha x s fun d => d.accept x (d.alphabetString x)

/-- `CW.DICT`: `s = CT.slot[x]`; emit, insert phase, use update, `prev <- s` (R259). -/
def execCwDict (x : Nat) (s : State) : Host.Outcome State Fault Refusal :=
  onCodeword .dict x s fun d => d.accept x ((ctLookup x d.ct).getD [])

/-- `CW.KWKWK`: `s = prev ++ prev[0]`; emit, insert phase, use update, `prev <- s` (R259). -/
def execCwKwkwk (x : Nat) (s : State) : Host.Outcome State Fault Refusal :=
  onCodeword .kwkwk x s fun d => d.accept x d.kwkwk

/-- `CW.ILLEGAL` in `RUN`: `raise BadCode(x)` (R259, R295). -/
def execCwIllegal (x : Nat) (s : State) : Host.Outcome State Fault Refusal :=
  onCodeword .illegal x s fun d => .ok (d.raise (.badCode x))

end Sys2Proof.Machine
end

