-- ==== Sys2Proof/Machine/Dictionaries.lean ====
section
/-! DEFINITION. The dictionaries `CB` and `CT` (41_codebook_tables.md), each operation driven alone. -/

namespace Sys2Proof.Machine

/-- `CB.CONTAINS(s)` (R141). -/
def execCbContains (str : Bytes) (s : State) : Host.Outcome State Fault Refusal :=
  onEnc s (withStr str (.next { s with ret := .bool (cbLookup str s.enc.cb).isSome }))

/-- `CB.GET(s)` (R142): "the operation has no step for an absent `s`". -/
def execCbGet (str : Bytes) (s : State) : Host.Outcome State Fault Refusal :=
  onEnc s (withStr str
    (match cbLookup str s.enc.cb with
    | none => .refused .keyAbsent
    | some c => .next { s with ret := .nat c }))

/-- `CB.PUT(s, v)`, `v` a code or `absent` (R143). -/
def execCbPut (str : Bytes) (v : Option Nat) (s : State) : Host.Outcome State Fault Refusal :=
  onEnc s (withStr str (.next { s with enc := { s.enc with cb := cbStore str v s.enc.cb } }))

/-- `CB.REMOVE(s)`, the pseudo-operation `CB.PUT(s, absent)` (R144). -/
def execCbRemove (str : Bytes) (s : State) : Host.Outcome State Fault Refusal :=
  onEnc s (withStr str (.next { s with enc := { s.enc with cb := cbStore str none s.enc.cb } }))

/-- `CB.INIT` (R145). Precondition: `CFG` written. -/
def execCbInit (s : State) : Host.Outcome State Fault Refusal :=
  onEnc s (require s.enc.cfg.written .cfgUnwritten
    (.next { s with enc := { s.enc with cb := cbInitial s.enc.cfg.alphabet } }))

/-- `CT.LOOKUP(x)` (R150). Precondition: `x < M`. -/
def execCtLookup (x : Nat) (s : State) : Host.Outcome State Fault Refusal :=
  onSlot x s (.next { s with ret := .str (ctLookup x s.dec.ct) })

/-- `CT.INSERT(x, s)` (R151). Precondition: `x < M`. -/
def execCtInsert (x : Nat) (str : Bytes) (s : State) : Host.Outcome State Fault Refusal :=
  onSlot x s (withStr str (.next { s with dec := { s.dec with ct := ctStore x str s.dec.ct } }))

/-- `CT.CLEAR(x)` (R152). Precondition: `x < M`. -/
def execCtClear (x : Nat) (s : State) : Host.Outcome State Fault Refusal :=
  onSlot x s (.next { s with dec := { s.dec with ct := ctErase x s.dec.ct } })

/-- `CT.INIT` (R153). Precondition: `CFG` written. -/
def execCtInit (s : State) : Host.Outcome State Fault Refusal :=
  onDec s (require s.dec.cfg.written .cfgUnwritten
    (.next { s with dec := { s.dec with ct := ctInitial (tableSize s.dec.cfg) s.dec.cfg.alphabet } }))

end Sys2Proof.Machine
end

