-- ==== Sys2Proof/Machine/Encoder.lean ====
section
/-! DEFINITION. The encoder `ENC` (45_encoder.md): `ENC.START`, `ENC.BYTE`, `ENC.END`. The order of the statements is the
spec's (R18, R215). -/

namespace Sys2Proof.Machine

/-! ### Sub-steps -/

/-- `Emit(code)`: `BW.WRITE(code, W)` at the width in force (R216). -/
def Enc.emit (code : Nat) (e : Enc) : Enc := { e with bw := e.bw.write code e.W }

/-- Step 3b, the use update of `current`, with the caller's filter `|current| ≥ 2` (R219). -/
def Enc.useCurrent (e : Enc) : Enc :=
  if 2 ≤ e.current.length then { e with trk := e.trk.use bytesLt e.cfg.policy e.current } else e

/-- Eviction, when inserting would use code `M − 1`: the victim leaves dictionary and tracker; its code is not given to
the new entry; a null victim evicts nothing (R222). A victim that is the empty string, which only a use driven alone in a run
can have tracked, has no entry in `CB`: it leaves the tracker, `CB.map` stays and the step goes on, the model's choice (log
entry 19). -/
def Enc.evict (e : Enc) : Enc :=
  if trackerActive e.cfg.policy ∧ e.nextCode = e.M - 1 then
    match e.trk.find e.cfg.policy with
    | none => e
    | some v => { e with cb := cbStore v none e.cb, trk := e.trk.remove e.cfg.policy v }
  else e

/-- Insertion of `next` at `nextCode`, tracked if a tracker is active (R223). -/
def Enc.insert (next : Bytes) (e : Enc) : Enc :=
  { e with cb := cbStore next (some e.nextCode) e.cb, trk := e.trk.use bytesLt e.cfg.policy next,
           nextCode := e.nextCode + 1 }

/-- Step 3c with `nextCode < M`: width check, eviction, insertion (R220 to R223). -/
def Enc.grow (next : Bytes) (e : Enc) : Enc := e.widthCheck.evict.insert next

/-- The in-band reset of the encoder: dictionary, `nextCode`, `W` and `T` (R44, R226). -/
def Enc.flush (e : Enc) : Enc :=
  { e with cb := cbInitial e.cfg.alphabet, nextCode := e.initialNextCode, W := e.cfg.minW, T := 2 ^ e.cfg.minW }

/-- Full table, policy `reset`: width check, `RESET_CODE`, flush (R226). -/
def Enc.resetTable (e : Enc) : Enc := (e.widthCheck.emit e.resetCode).flush

/-- Step 3c with a full table: `freeze` nothing (R224), `lru` and `lfu` nothing (R225), `reset` the reset (R226). -/
def Enc.tableFull (e : Enc) : Enc := if e.cfg.policy = .reset then e.resetTable else e

/-- Step 3 of the main step, a miss on `next = current ++ c`, with `code` the code of `current` (R215). -/
def Enc.miss (code : Nat) (next : Bytes) (c : Byte) (e : Enc) : Enc :=
  let e₁ := (e.emit code).useCurrent
  let e₂ := if e₁.nextCode < e₁.M then e₁.grow next else e₁.tableFull
  { e₂ with current := [c] }

/-! ### The operations on an encoder instance -/

/-- `ENC.BYTE(c)` in phase `FIRST` (R213). -/
def Enc.firstByte (c : Byte) (e : Enc) : Enc :=
  if c ∈ e.cfg.alphabet then { e with current := [c], phase := .run } else e.raise (.notInAlphabet c)

/-- `ENC.BYTE(c)` in phase `RUN` (R215): the alphabet check before anything else (R229), then hit or miss. -/
def Enc.runByte (c : Byte) (e : Enc) : Except Refusal Enc :=
  if c ∈ e.cfg.alphabet then
    if (cbLookup (e.current ++ [c]) e.cb).isSome then .ok { e with current := e.current ++ [c] }
    else
      match cbLookup e.current e.cb with
      | none => .error .keyAbsent
      | some code => if e.bw.closed then .error .writerClosed else .ok (e.miss code (e.current ++ [c]) c)
  else .ok (e.raise (.notInAlphabet c))

/-- `BW.CLOSE; phase <- DONE`. -/
def Enc.finish (e : Enc) : Enc := { e with bw := e.bw.close, phase := .done }

/-- `ENC.END` in phase `FIRST`: the empty input, no `EOF_CODE` (R214). -/
def Enc.endEmpty (e : Enc) : Except Refusal Enc := if e.bw.closed then .error .writerClosed else .ok e.finish

/-- `ENC.END` in phase `RUN`: the code of `current`, its use update, the last width check, `EOF_CODE`, close (R228). -/
def Enc.endRun (e : Enc) : Except Refusal Enc :=
  match cbLookup e.current e.cb with
  | none => .error .keyAbsent
  | some code =>
    if e.bw.closed then .error .writerClosed
    else
      let e₁ := (e.emit code).useCurrent.widthCheck
      .ok (e₁.emit e₁.eofCode).finish

/-- `ENC.START` after its preconditions (R212). -/
def Enc.start (e : Enc) : Enc :=
  { e with
    bw := e.hdrWrite.bw
    cb := cbInitial e.cfg.alphabet
    M := tableSize e.cfg
    eofCode := e.cfg.alphabetSize
    resetCode := if e.cfg.policy = .reset then e.cfg.alphabetSize + 1 else e.resetCode
    initialNextCode := firstUserCode e.cfg
    nextCode := firstUserCode e.cfg
    W := e.cfg.minW
    T := 2 ^ e.cfg.minW
    trk := Trk.empty
    current := []
    phase := .first }

/-! ### The meanings -/

/-- `ENC.START` (R212). Precondition: phase `IDLE`, `CFG` written, `LegalCfg` (R211), and what `HDR.WRITE` needs of `BW`
(R196). -/
def execEncStart (s : State) : Host.Outcome State Fault Refusal :=
  onEnc s (require (decide (s.enc.phase = .idle)) .wrongPhase (require s.enc.cfg.written .cfgUnwritten
    (require (legalCfg s.enc.cfg) .illegalCfg (require (!s.enc.bw.closed) .writerClosed
      (require (decide (s.enc.bw.bitCount = 0)) .writerNotEmpty (.next { s with enc := s.enc.start }))))))

/-- `ENC.BYTE(c)`: "only in `FIRST` and `RUN`" (R211), by the phase R213 or R215. -/
def execEncByte (c : Byte) (s : State) : Host.Outcome State Fault Refusal :=
  onEnc s
    (match s.enc.phase with
    | .first => .next { s with enc := s.enc.firstByte c }
    | .run => s.withEnc (s.enc.runByte c)
    | .idle => .refused .wrongPhase
    | .done => .refused .wrongPhase
    | .fault => .refused .wrongPhase)

/-- The row of `ENC.BYTE(c)` for phase `RUN` (R215). -/
def execEncByteRun (c : Byte) (s : State) : Host.Outcome State Fault Refusal :=
  onEnc s (require (decide (s.enc.phase = .run)) .wrongPhase (s.withEnc (s.enc.runByte c)))

/-- `ENC.END`: "only in `FIRST` and `RUN`" (R211), by the phase R214 or R228. -/
def execEncEnd (s : State) : Host.Outcome State Fault Refusal :=
  onEnc s
    (match s.enc.phase with
    | .first => s.withEnc s.enc.endEmpty
    | .run => s.withEnc s.enc.endRun
    | .idle => .refused .wrongPhase
    | .done => .refused .wrongPhase
    | .fault => .refused .wrongPhase)

/-- The row of `ENC.END` for phase `RUN` (R228). -/
def execEncEndRun (s : State) : Host.Outcome State Fault Refusal :=
  onEnc s (require (decide (s.enc.phase = .run)) .wrongPhase (s.withEnc s.enc.endRun))

end Sys2Proof.Machine
end

