-- ==== Sys2Proof/Machine/Trackers.lean ====
section
/-! DEFINITION. The trackers `LRU` (42_lru_tracker.md) and `LFU` (43_lfu_tracker.md), each operation driven alone. "The
unit itself applies no filter: whatever key it is given, it tracks" (R160). -/

namespace Sys2Proof.Machine

/-- `LRU.USE(k)` (R161). -/
def execLruUse (key : Key) (s : State) : Host.Outcome State Fault Refusal :=
  onTracker .lru key s (fun k t => { t with lru := lruTouch k t.lru }) (fun x t => { t with lru := lruTouch x t.lru })

/-- `LRU.REMOVE(k)` (R162). -/
def execLruRemove (key : Key) (s : State) : Host.Outcome State Fault Refusal :=
  onTracker .lru key s (fun k t => { t with lru := lruDrop k t.lru }) (fun x t => { t with lru := lruDrop x t.lru })

/-- `LRU.FIND` (R163). -/
def execLruFind (side : Side) (s : State) : Host.Outcome State Fault Refusal := onFind .lru side s

/-- `LFU.USE(k)` (R176). -/
def execLfuUse (key : Key) (s : State) : Host.Outcome State Fault Refusal :=
  onTracker .lfu key s (fun k t => { t with lfu := t.lfu.touch bytesLt k })
    (fun x t => { t with lfu := t.lfu.touch natLt x })

/-- `LFU.REMOVE(k)` (R179). -/
def execLfuRemove (key : Key) (s : State) : Host.Outcome State Fault Refusal :=
  onTracker .lfu key s (fun k t => { t with lfu := t.lfu.drop k }) (fun x t => { t with lfu := t.lfu.drop x })

/-- `LFU.FIND` (R180). -/
def execLfuFind (side : Side) (s : State) : Host.Outcome State Fault Refusal := onFind .lfu side s

end Sys2Proof.Machine
end

