-- ==== Sys2Proof/Machine/Dispatch.lean ====
section
/-! DEFINITION. The one match from instructions to their meanings, one arm per constructor of `Instr`. -/

namespace Sys2Proof.Machine

/-- The meaning of an instruction. -/
def exec (i : Instr) (s : State) : Host.Outcome State Fault Refusal :=
  match i with
  | .bwWrite value width => Sys2Proof.Machine.execBwWrite value width s
  | .bwClose => Sys2Proof.Machine.execBwClose s
  | .brRead width => Sys2Proof.Machine.execBrRead width s
  | .brEmpty => Sys2Proof.Machine.execBrEmpty s
  | .cbContains str => Sys2Proof.Machine.execCbContains str s
  | .cbGet str => Sys2Proof.Machine.execCbGet str s
  | .cbPut str v => Sys2Proof.Machine.execCbPut str v s
  | .cbRemove str => Sys2Proof.Machine.execCbRemove str s
  | .cbInit => Sys2Proof.Machine.execCbInit s
  | .ctLookup x => Sys2Proof.Machine.execCtLookup x s
  | .ctInsert x str => Sys2Proof.Machine.execCtInsert x str s
  | .ctClear x => Sys2Proof.Machine.execCtClear x s
  | .ctInit => Sys2Proof.Machine.execCtInit s
  | .lruUse k => Sys2Proof.Machine.execLruUse k s
  | .lruRemove k => Sys2Proof.Machine.execLruRemove k s
  | .lruFind side => Sys2Proof.Machine.execLruFind side s
  | .lfuUse k => Sys2Proof.Machine.execLfuUse k s
  | .lfuRemove k => Sys2Proof.Machine.execLfuRemove k s
  | .lfuFind side => Sys2Proof.Machine.execLfuFind side s
  | .hdrWrite => Sys2Proof.Machine.execHdrWrite s
  | .hdrRead => Sys2Proof.Machine.execHdrRead s
  | .encStart => Sys2Proof.Machine.execEncStart s
  | .encByte c => Sys2Proof.Machine.execEncByte c s
  | .encByteRun c => Sys2Proof.Machine.execEncByteRun c s
  | .encEnd => Sys2Proof.Machine.execEncEnd s
  | .encEndRun => Sys2Proof.Machine.execEncEndRun s
  | .decStart => Sys2Proof.Machine.execDecStart s
  | .decStep => Sys2Proof.Machine.execDecStep s
  | .policyFreeze => Sys2Proof.Machine.execPolicyFreeze s
  | .policyReset => Sys2Proof.Machine.execPolicyReset s
  | .policyLru => Sys2Proof.Machine.execPolicyLru s
  | .policyLfu => Sys2Proof.Machine.execPolicyLfu s
  | .policyUnknown b => Sys2Proof.Machine.execPolicyUnknown b s
  | .fieldMinW d => Sys2Proof.Machine.execFieldMinW d s
  | .fieldMaxW d => Sys2Proof.Machine.execFieldMaxW d s
  | .fieldPolicy d => Sys2Proof.Machine.execFieldPolicy d s
  | .fieldAlphabetSize d => Sys2Proof.Machine.execFieldAlphabetSize d s
  | .fieldAlphabet d n => Sys2Proof.Machine.execFieldAlphabet d n s
  | .cwEofFirst x => Sys2Proof.Machine.execCwEofFirst x s
  | .cwAlphaFirst x => Sys2Proof.Machine.execCwAlphaFirst x s
  | .cwIllegalFirst x => Sys2Proof.Machine.execCwIllegalFirst x s
  | .cwEofPostReset x => Sys2Proof.Machine.execCwEofPostReset x s
  | .cwAlphaPostReset x => Sys2Proof.Machine.execCwAlphaPostReset x s
  | .cwIllegalPostReset x => Sys2Proof.Machine.execCwIllegalPostReset x s
  | .cwEof x => Sys2Proof.Machine.execCwEof x s
  | .cwReset x => Sys2Proof.Machine.execCwReset x s
  | .cwAlpha x => Sys2Proof.Machine.execCwAlpha x s
  | .cwDict x => Sys2Proof.Machine.execCwDict x s
  | .cwKwkwk x => Sys2Proof.Machine.execCwKwkwk x s
  | .cwIllegal x => Sys2Proof.Machine.execCwIllegal x s

end Sys2Proof.Machine
end

