-- ==== Sys2Proof/Machine/HostMoves.lean ====
section
/-! DEFINITION. The host's moves of 70_reset_and_hazards.md rule R342: what it does when it creates the instances, the
five operations it issues, what it observes, and the release of an instance that has ended. The machine's own steps are
Step.lean. -/

namespace Sys2Proof.Machine

/-- "create encoder": the host writes every `CFG` register. After the start operation "it cannot change `CFG`": no move
(R342). Written again before the start, the stores of units driven alone in between stay: the model's choice (log entries 5
and 18). Only the phase decides, so `CFG` may still be written while a start operation waits on the port, which then finds
the new values: the model's choice (log entry 3). -/
def State.hostWritesCfg (minW maxW : Nat) (policy : Policy) (alphabet : Bytes) (s : State) : State :=
  if s.enc.phase = .idle then
    { s with enc := { s.enc with cfg :=
        { minW := minW, maxW := maxW, policy := policy, alphabetSize := alphabet.length, alphabet := alphabet,
          written := true } } }
  else s

/-- "create decoder": the host supplies "the whole compressed input as `BR.in`", with the cursor at 0 (R42); after the start
operation it cannot (R342). Supplied again before the start, the cursor that a read driven alone has moved goes back to 0:
the model's choice (log entry 2). So is that only the phase decides: the input may still be supplied while a start operation
waits on the port, which then reads the new one (log entry 3). -/
def State.hostSuppliesInput (input : Bytes) (s : State) : State :=
  if s.dec.phase = .idle then { s with dec := { s.dec with br := { input := input, pos := 0 } } } else s

/-- An operation put on the port, after those already there (R74: in the order issued). This is the port itself, which also
carries the operations that only `ENC` and `DEC` issue (log entry 3); the host's move is `State.hostIssues`. -/
def State.issue (w : PortWord) (s : State) : State := { s with port := s.port ++ [w] }

/-- The five operations "issued by the host" (R111), in whichever row the phase selects. -/
def hostIssued : Instr → Bool
  | .encStart | .encByte _ | .encByteRun _ | .encEnd | .encEndRun | .decStart | .decStep => true
  | _ => false

/-- The host issues an operation: one of the five; "it cannot issue a unit operation directly" (R342), no move. None of the
five is a codeword, so the view its word is written with does not matter. -/
def State.hostIssues (i : Instr) (s : State) : State := if hostIssued i then s.issue (encode s.view i) else s

/-- "release after `DONE`/`FAULT`" (R342): "all its state is gone; a new instance starts from rule R330's values and shares
nothing with the old one" (R333), here in the same place. An instance that has not ended is not released, no move. Operations
that still wait on the port stay there, and find the new instance: the model's choice (log entry 14). -/
def State.hostReleasesEncoder (s : State) : State := if encEnded s.enc.phase then { s with enc := Enc.created } else s

/-- The same of the decoder instance (R333, R342). -/
def State.hostReleasesDecoder (s : State) : State := if decEnded s.dec.phase then { s with dec := Dec.created } else s

/-- What the host observes of an encoder instance: `phase`, `fault`, `BW.out` (R342). -/
def Enc.observe (e : Enc) : EncPhase × Option Cause × Bytes := (e.phase, e.fault, e.bw.out)

/-- What the host observes of a decoder instance: `phase`, `fault`, `DEC.out` (R342). -/
def Dec.observe (d : Dec) : DecPhase × Option Cause × Bytes := (d.phase, d.fault, d.out)

end Sys2Proof.Machine
end

