-- ==== Sys2Proof/Machine/Step.lean ====
section
/-! DEFINITION. One step: the first operation issued on the port is decoded and performed. The block "has no program
counter and fetches no instructions" (R28); operations take effect completely, in the order they are issued (R74). -/

namespace Sys2Proof.Machine

/-- One step. With nothing issued the machine stays as it is: nothing in it moves on its own (R308). -/
def step (s : State) : Host.Outcome State Fault Refusal :=
  match s.port with
  | [] => .next s
  | w :: rest =>
    match decode s.view w with
    | .error e => .refused (.badEncoding e)
    | .ok i => exec i { s with port := rest }

/-- The same state with a table row's bits issued as the next operation, operand bytes that are not given being zero. -/
def State.withFetchWord (s : State) (nbits w : Nat) : State := { s with port := tablePortWord nbits w :: s.port }

end Sys2Proof.Machine
end

