-- ==== Sys2Proof/Safety.lean ====
section
/-! DEFINITION. What a safe state is, in the terms claims use: the canonical form of the stores, the invariants of each
instance that every operation keeps, also the unit operations driven alone (`Enc.Inv`, `Dec.Inv`), and the stronger ones
of a run that the host drives (`Enc.Coherent`, `Dec.Coherent`). -/

namespace Sys2Proof.Machine

/-! ### Stores -/

/-- `LFU` state "satisfies at all times" what R39 says: every key is in exactly one bucket, once, the one of its
frequency, and frequencies count from 1. The first three fields are the canonical form of the lists. -/
structure Lfu.Consistent {K : Type} [DecidableEq K] (lt : K → K → Bool) (l : Lfu K) : Prop where
  freqWf : mapWf lt l.freq
  bucketWf : mapWf natLt l.bucket
  bucketListed : ∀ e ∈ l.bucket, e.2 ≠ []
  once : ∀ f, (l.at f).Nodup
  member : ∀ k f, k ∈ l.at f ↔ mapGet k l.freq = some f
  positive : ∀ k f, mapGet k l.freq = some f → 1 ≤ f

/-- `minFreq` is not stale: it is the smallest frequency of a live key (R183). -/
def Lfu.Fresh {K : Type} [DecidableEq K] (l : Lfu K) : Prop :=
  ∀ k f, mapGet k l.freq = some f → l.minFreq ≤ f ∧ l.at l.minFreq ≠ []

/-- The tracker stores are well formed: `LRU.order` is a list "of pairwise distinct keys" (R38), and R39. -/
structure Trk.Wf {K : Type} [DecidableEq K] (lt : K → K → Bool) (t : Trk K) : Prop where
  lru : t.lru.Nodup
  lfu : t.lfu.Consistent lt

/-- The instance's tracker holds `k` (R37). -/
def Trk.tracks {K : Type} [DecidableEq K] (p : Policy) (k : K) (t : Trk K) : Prop :=
  match p with
  | .lru => k ∈ t.lru
  | .lfu => (mapGet k t.lfu.freq).isSome = true
  | .freeze => False
  | .reset => False

/-- The units the run's policy does not allocate are empty (R37). -/
structure Trk.Allocated {K : Type} (p : Policy) (t : Trk K) : Prop where
  noLru : p ≠ .lru → t.lru = []
  noLfu : p ≠ .lfu → t.lfu = { freq := [], bucket := [], minFreq := 0 }

/-- What `LFU.USE(k)` makes of the state: a new key by R177, a key at frequency `f` by R178. -/
def Lfu.UsedTo {K : Type} [DecidableEq K] (k : K) (l l' : Lfu K) : Prop :=
  (mapGet k l.freq = none →
    (∀ k', mapGet k' l'.freq = if k' = k then some 1 else mapGet k' l.freq) ∧
    (∀ g, l'.at g = if g = 1 then k :: l.at 1 else l.at g) ∧ l'.minFreq = 1) ∧
  ∀ f, mapGet k l.freq = some f →
    (∀ k', mapGet k' l'.freq = if k' = k then some (f + 1) else mapGet k' l.freq) ∧
    (∀ g, l'.at g = if g = f + 1 then k :: l.at (f + 1) else if g = f then (l.at f).erase k else l.at g) ∧
    l'.minFreq = if l.at f = [k] ∧ f = l.minFreq then f + 1 else l.minFreq

/-- What `LFU.REMOVE(k)` makes of the state (R179); an untracked key changes nothing. -/
def Lfu.RemovedTo {K : Type} [DecidableEq K] (k : K) (l l' : Lfu K) : Prop :=
  (∀ k', mapGet k' l'.freq = if k' = k then none else mapGet k' l.freq) ∧
  (∀ g, l'.at g = if mapGet k l.freq = some g then (l.at g).erase k else l.at g) ∧ l'.minFreq = l.minFreq

/-- `LegalCfg` of R13, clause by clause; `alphabetSize` is `|A|` (R22). -/
structure LegalCfg (c : Cfg) : Prop where
  nonempty : c.alphabet ≠ []
  distinct : ∀ (i j : Nat) (b : Byte), c.alphabet[i]? = some b → c.alphabet[j]? = some b → i = j
  size : c.alphabetSize = c.alphabet.length
  carriageReturn : 0x0D ∈ c.alphabet
  lineFeed : 0x0A ∈ c.alphabet
  minW_pos : 1 ≤ c.minW
  ordered : c.minW ≤ c.maxW
  maxW_high : c.maxW ≤ 255

/-- `TRK.USE(k)` of the policy's unit (R161, R176); without a tracker nothing. -/
def Trk.UsedTo {K : Type} [DecidableEq K] (p : Policy) (k : K) (t t' : Trk K) : Prop :=
  match p with
  | .lru => t' = { t with lru := k :: t.lru.erase k }
  | .lfu => t'.lru = t.lru ∧ t.lfu.UsedTo k t'.lfu
  | .freeze => t' = t
  | .reset => t' = t

/-- `TRK.REMOVE(k)` of the policy's unit (R162, R179). -/
def Trk.RemovedTo {K : Type} [DecidableEq K] (p : Policy) (k : K) (t t' : Trk K) : Prop :=
  match p with
  | .lru => t' = { t with lru := t.lru.erase k }
  | .lfu => t'.lru = t.lru ∧ t.lfu.RemovedTo k t'.lfu
  | .freeze => t' = t
  | .reset => t' = t

/-- What `TRK.FIND` of the policy's unit answers (R163, R180); null without a tracker. -/
def Trk.answer {K : Type} (p : Policy) (t : Trk K) : Option K :=
  match p with
  | .lru => t.lru.getLast?
  | .lfu => (t.lfu.at t.lfu.minFreq).getLast?
  | .freeze => none
  | .reset => none

/-! ### Bits and headers -/

/-- `bits_w(v)` of R16: `v[w-1], v[w-2], …, v[0]`. -/
def msbFirst (width value : Nat) : Bits := (List.range width).map fun i => value.testBit (width - 1 - i)

/-- The next `width` bits of the input are those of `v`, most significant first; bit `p` of the input is bit
`7 − (p mod 8)` of byte `p div 8` (R34, R62). -/
def Br.NextIs (b : Br) (width v : Nat) : Prop :=
  v < 2 ^ width ∧
    ∀ i < width, v.testBit (width - 1 - i) =
      ((b.input[(b.pos + i) / 8]?).getD 0).toNat.testBit (7 - (b.pos + i) % 8)

/-- The bytes of the header (R91, R93): five bytes, then the alphabet. -/
def headerBytes (c : Cfg) : Bytes :=
  [BitVec.ofNat 8 c.minW, BitVec.ofNat 8 c.maxW,
    match c.policy with
    | .freeze => 0
    | .reset => 1
    | .lru => 2
    | .lfu => 3,
    BitVec.ofNat 8 (c.alphabetSize / 256), BitVec.ofNat 8 c.alphabetSize] ++ c.alphabet

/-! ### The encoder instance -/

/-- What `ENC.START` leaves for the rest of the run: a legal configuration (R13), the constant registers at their formulas
(R12, R24), `nextCode` and `W` in their ranges (R25, R57 (b) and (e)). -/
structure Enc.Started (e : Enc) : Prop where
  written : e.cfg.written = true
  legal : legalCfg e.cfg = true
  M_eq : e.M = 2 ^ e.cfg.maxW
  eof_eq : e.eofCode = e.cfg.alphabetSize
  reset_eq : e.cfg.policy = .reset → e.resetCode = e.cfg.alphabetSize + 1
  initial_eq : e.initialNextCode = firstUserCode e.cfg
  next_low : e.initialNextCode ≤ e.nextCode
  next_high : e.nextCode ≤ max e.M e.initialNextCode
  width_low : e.cfg.minW ≤ e.W
  width_high : e.W ≤ e.cfg.maxW
  allocated : e.trk.Allocated e.cfg.policy

/-- The invariants of an encoder instance that every operation keeps, whoever issues it. -/
structure Enc.Inv (e : Enc) : Prop where
  /-- R27. -/
  threshold : e.T = 2 ^ e.W
  /-- R31. -/
  fault_iff : e.phase = .fault ↔ e.fault ≠ none
  /-- R33. -/
  pend_lt : e.bw.pend.length < 8
  /-- R76. -/
  closed_pend : e.bw.closed = true → e.bw.pend = []
  cb_wf : mapWf bytesLt e.cb
  /-- R35. -/
  cb_keys : ∀ x ∈ e.cb, x.1 ≠ []
  trk_wf : e.trk.Wf bytesLt
  started : e.phase ≠ .idle → e.Started
  /-- R25. -/
  running : e.phase = .run → e.current ≠ []
  /-- R29, R214, R228. -/
  done_closed : e.phase = .done → e.bw.closed = true

/-- What holds of a running encoder whose units only `ENC` drives (R40, R57 (c) and (d), R230 (a)). -/
structure Enc.Coherent (e : Enc) : Prop where
  writer_open : e.bw.closed = false
  /-- R57 (c): "`CB.map` restricted to one-byte keys is exactly the alphabet map". -/
  alphabet : ∀ b c, cbLookup [b] e.cb = some c ↔ e.cfg.alphabet[c]? = some b
  /-- R57 (d): "every user entry's code is in `initialNextCode .. nextCode − 1`". -/
  user : ∀ str c, cbLookup str e.cb = some c → 2 ≤ str.length → e.initialNextCode ≤ c ∧ c < e.nextCode
  /-- R57 (d): "codes in the range of `CB.map` are pairwise distinct". -/
  distinct : ∀ s t c, cbLookup s e.cb = some c → cbLookup t e.cb = some c → s = t
  /-- R230 (a). -/
  current_present : e.phase = .run → ∃ c, cbLookup e.current e.cb = some c
  /-- R40. -/
  tracked : trackerActive e.cfg.policy = true →
    ∀ str, e.trk.tracks e.cfg.policy str ↔ 2 ≤ str.length ∧ ∃ c, cbLookup str e.cb = some c
  /-- The tracker is consulted only with a current `minFreq` (R182): while an eviction is still to come, it is not
  stale. -/
  fresh : e.nextCode < e.M → e.trk.lfu.Fresh

/-- An encoder instance that only the host drives (R111): created and not started, or ended, or running as above. -/
structure Enc.HostInv (e : Enc) : Prop where
  inv : e.Inv
  created : e.phase = .idle → e.bw = { out := [], pend := [], closed := false }
  coherent : e.phase = .first ∨ e.phase = .run → e.Coherent

/-! ### The decoder instance -/

/-- What `DEC.START` leaves for the rest of the run (R12, R13, R24, R26, R57 (b) and (e)); the slots of `CT` are those
below `M` (R36), and `POSTRESET` is a phase of policy `reset` only (R30). -/
structure Dec.Started (d : Dec) : Prop where
  written : d.cfg.written = true
  legal : legalCfg d.cfg = true
  M_eq : d.M = 2 ^ d.cfg.maxW
  eof_eq : d.eofCode = d.cfg.alphabetSize
  reset_eq : d.cfg.policy = .reset → d.resetCode = d.cfg.alphabetSize + 1
  initial_eq : d.initialNextCode = firstUserCode d.cfg
  next_low : d.initialNextCode ≤ d.nextCode
  next_high : d.nextCode ≤ max d.M d.initialNextCode
  width_low : d.cfg.minW ≤ d.W
  width_high : d.W ≤ d.cfg.maxW
  ct_slots : ∀ x ∈ d.ct, x.1 < d.M
  postReset : d.phase = .postReset → d.cfg.policy = .reset
  allocated : d.trk.Allocated d.cfg.policy

/-- `DEC.START` has completed: every phase but `IDLE` and `FAULT`. A fault may come before (R293, a truncated header). -/
def decStarted (p : DecPhase) : Bool := !(decide (p = .idle) || decide (p = .fault))

/-- The invariants of a decoder instance that every operation keeps, whoever issues it. -/
structure Dec.Inv (d : Dec) : Prop where
  /-- R27. -/
  threshold : d.T = 2 ^ d.W
  /-- R31. -/
  fault_iff : d.phase = .fault ↔ d.fault ≠ none
  /-- R34. -/
  pos_le : d.br.pos ≤ 8 * d.br.input.length
  ct_wf : mapWf natLt d.ct
  /-- R36. -/
  ct_strings : ∀ x ∈ d.ct, x.2 ≠ []
  trk_wf : d.trk.Wf natLt
  started : decStarted d.phase = true → d.Started
  /-- R26. -/
  running : d.phase = .run → d.prev ≠ []

/-- What holds of a running decoder whose units only `DEC` drives, on any stream (R36, R40 with C13, R56 I5). -/
structure Dec.Coherent (d : Dec) : Prop where
  /-- R36: "Entries `0 .. |A|-1` hold the single-byte alphabet strings." -/
  alphabet : ∀ x b, d.cfg.alphabet[x]? = some b → x < d.M → ctLookup x d.ct = some [b]
  /-- R36: the reserved slots are absent; user slots are those assigned so far. -/
  user : ∀ x str, ctLookup x d.ct = some str → d.cfg.alphabetSize ≤ x → d.initialNextCode ≤ x ∧ x < d.nextCode
  tracked : trackerActive d.cfg.policy = true →
    ∀ x, d.trk.tracks d.cfg.policy x → d.initialNextCode ≤ x ∧ x < d.nextCode

/-- What a data codeword `x` denoting `str` makes of a decoder in `RUN`, once it has been read: steps 6 to 9 of the main
loop (R255, R260, R261). `victim` is the evicted code, `t₁`, `t₂`, `t₃` the tracker after eviction, after the new entry is
tracked and after the use update of `x`. -/
def Dec.DecodedTo (x : Nat) (str : Bytes) (d d' : Dec) : Prop :=
  (d.nextCode < d.M → ∃ (ct : List (Nat × Bytes)) (victim : Option Nat) (t₁ t₂ t₃ : Trk Nat),
    d' = { d with out := d.out ++ str, ct := ct, trk := t₃, nextCode := d.nextCode + 1, prev := str } ∧
    victim = (if d.nextCode = d.M - 1 then d.trk.answer d.cfg.policy else none) ∧
    (victim = none → t₁ = d.trk) ∧ (∀ v, victim = some v → d.trk.RemovedTo d.cfg.policy v t₁) ∧
    t₁.UsedTo d.cfg.policy d.nextCode t₂ ∧
    (d.initialNextCode ≤ x → t₂.UsedTo d.cfg.policy x t₃) ∧ (x < d.initialNextCode → t₃ = t₂) ∧ t₃.Wf natLt ∧
    mapWf natLt ct ∧
    ∀ y new, (y, new) ∈ ct ↔
      (y = d.nextCode ∧ ∃ b, str[0]? = some b ∧ new = d.prev ++ [b]) ∨
        (y ≠ d.nextCode ∧ victim ≠ some y ∧ (y, new) ∈ d.ct)) ∧
  (d.M ≤ d.nextCode → ∃ t : Trk Nat, d' = { d with out := d.out ++ str, trk := t, prev := str } ∧
    (d.initialNextCode ≤ x → d.trk.UsedTo d.cfg.policy x t) ∧ (x < d.initialNextCode → t = d.trk) ∧ t.Wf natLt)

/-- A decoder instance that only the host drives (R111). -/
structure Dec.HostInv (d : Dec) : Prop where
  inv : d.Inv
  created : d.phase = .idle → d.br.pos = 0
  coherent : d.phase = .first ∨ d.phase = .run ∨ d.phase = .postReset → d.Coherent

/-! ### The machine -/

/-- Both instances meet their invariants. -/
structure State.Inv (s : State) : Prop where
  enc : s.enc.Inv
  dec : s.dec.Inv

/-- Both instances meet the invariants of a run the host drives. -/
structure State.HostInv (s : State) : Prop where
  enc : s.enc.HostInv
  dec : s.dec.HostInv

/-- The operations in order, each on the state the one before left; `none` when one of them has no step. -/
def performs : List Instr → State → Option State
  | [], s => some s
  | i :: is, s =>
    match exec i s with
    | .next t => performs is t
    | .fault _ => none
    | .refused _ => none

/-- The instance whose state an instruction works on (R3, R37, R92). -/
def instrSide : Instr → Side
  | .bwWrite _ _ | .bwClose => .enc
  | .brRead _ | .brEmpty => .dec
  | .cbContains _ | .cbGet _ | .cbPut _ _ | .cbRemove _ | .cbInit => .enc
  | .ctLookup _ | .ctInsert _ _ | .ctClear _ | .ctInit => .dec
  | .lruUse (.str _) | .lruRemove (.str _) | .lfuUse (.str _) | .lfuRemove (.str _) => .enc
  | .lruUse (.code _) | .lruRemove (.code _) | .lfuUse (.code _) | .lfuRemove (.code _) => .dec
  | .lruFind side | .lfuFind side => side
  | .hdrWrite => .enc
  | .hdrRead => .dec
  | .encStart | .encByte _ | .encByteRun _ | .encEnd | .encEndRun => .enc
  | .decStart | .decStep => .dec
  | .policyFreeze | .policyReset | .policyLru | .policyLfu | .policyUnknown _ => .dec
  | .fieldMinW .put | .fieldMaxW .put | .fieldPolicy .put | .fieldAlphabetSize .put | .fieldAlphabet .put _ => .enc
  | .fieldMinW .get | .fieldMaxW .get | .fieldPolicy .get | .fieldAlphabetSize .get | .fieldAlphabet .get _ => .dec
  | .cwEofFirst _ | .cwAlphaFirst _ | .cwIllegalFirst _ => .dec
  | .cwEofPostReset _ | .cwAlphaPostReset _ | .cwIllegalPostReset _ => .dec
  | .cwEof _ | .cwReset _ | .cwAlpha _ | .cwDict _ | .cwKwkwk _ | .cwIllegal _ => .dec

end Sys2Proof.Machine
end

