-- ==== Sys2Proof/Certificates/Slice0/Obligations.lean ====
section
/-! DEFINITION. The statements for the provers. "Live" below is `encEnded … = false` or `decEnded … = false`: the run of
that instance has not ended. A statement of a result says the whole next state, so it is also the frame: every register,
store and flag not named in it is as before, and the other instance and the port are untouched. -/

open Sys2Proof Sys2Proof.Machine

/-! ### Bit streams (40_bitstream.md) -/

/-- R121: `BW.WRITE` appends the low-order `width` bits of `value`, most significant first; fewer than eight stay
buffered; bytes once out stay as they are. On a closed writer it has no step. -/
def Obligations.BwWriteAppendsLowBits : Prop :=
  ∀ (value width : Nat) (s : State), encEnded s.enc.phase = false →
    (s.enc.bw.closed = false →
      ∃ b : Bw, exec (.bwWrite value width) s = .next { s with enc := { s.enc with bw := b } } ∧
        b.bits = s.enc.bw.bits ++ msbFirst width value ∧ b.pend.length < 8 ∧ s.enc.bw.out <+: b.out ∧
        b.closed = false) ∧
    (s.enc.bw.closed = true → exec (.bwWrite value width) s = .refused .writerClosed)

/-- R122: `BW.CLOSE` pads a partial byte with zero bits on the LSB side, appends no byte when there is none, and closes.
The premise on `BW.pend` is R33's. A closed writer has no step. -/
def Obligations.BwCloseFlushesAndPads : Prop :=
  ∀ s : State, encEnded s.enc.phase = false →
    (s.enc.bw.closed = false → s.enc.bw.pend.length < 8 →
      ∃ b : Bw, exec .bwClose s = .next { s with enc := { s.enc with bw := b } } ∧
        b.bits = s.enc.bw.bits ++ List.replicate ((8 - s.enc.bw.pend.length) % 8) false ∧ b.pend = [] ∧
        b.out.length = (s.enc.bw.bitCount + 7) / 8 ∧ b.closed = true) ∧
    (s.enc.bw.closed = true → exec .bwClose s = .refused .writerClosed)

/-- R123: `BR.READ` assembles the next `width` bits most significant first and moves the cursor over them, or, with fewer
than `width` bits remaining, raises `Truncated` and leaves the cursor. -/
def Obligations.BrReadAssemblesOrTruncates : Prop :=
  ∀ (width : Nat) (s : State), decEnded s.dec.phase = false →
    (s.dec.br.pos + width ≤ 8 * s.dec.br.input.length →
      ∃ v, s.dec.br.NextIs width v ∧ exec (.brRead width) s = .next { s with
        dec := { s.dec with br := { s.dec.br with pos := s.dec.br.pos + width } }, ret := .nat v }) ∧
    (8 * s.dec.br.input.length - s.dec.br.pos < width →
      exec (.brRead width) s = .next { s with
        dec := { s.dec with phase := .fault,
                            fault := some (.truncated width (8 * s.dec.br.input.length - s.dec.br.pos)) } })

/-- R124: `BR.EMPTY` answers whether no bit at all remains, here by whether a read of one bit would find one; nothing but
the answer changes. -/
def Obligations.BrEmptyAnswersNoBitRemains : Prop :=
  ∀ s : State, decEnded s.dec.phase = false →
    ∃ b, exec .brEmpty s = .next { s with ret := .bool b } ∧
      (b = true ↔ exec (.brRead 1) s = .next (s.raise .dec (.truncated 1 0)))

/-- R125, the write-then-read law: what is written from creation and closed is read back at the same widths, nothing is
`Truncated`, and at the end at most seven bits remain, all zero. -/
def Obligations.WriteThenRead : Prop :=
  ∀ ws : List (Nat × Nat),
    ∃ s, performs (ws.map (fun w => Instr.bwWrite w.1 w.2) ++ [.bwClose]) State.reset = some s ∧
      ∀ k, ∃ t, performs ((ws.take k).map fun w => Instr.brRead w.2) (s.hostSuppliesInput s.enc.bw.out) = some t ∧
        (∀ v w, ws[k]? = some (v, w) → ∃ u, exec (.brRead w) t = .next u ∧ u.ret = .nat (v % 2 ^ w) ∧
          u.dec.fault = none) ∧
        (ws.length ≤ k → 8 * t.dec.br.input.length - t.dec.br.pos ≤ 7 ∧
          ∀ b ∈ t.dec.br.bits.drop t.dec.br.pos, b = false)

/-! ### Dictionaries (41_codebook_tables.md) -/

/-- R141, R142: `CB.CONTAINS` answers for the exact string; `CB.GET` answers its code, and has no step for an absent
string. -/
def Obligations.CbLookupsAnswerForTheExactString : Prop :=
  ∀ (str : Bytes) (s : State), encEnded s.enc.phase = false → str ≠ [] → mapWf bytesLt s.enc.cb →
    (∃ b, exec (.cbContains str) s = .next { s with ret := .bool b } ∧ (b = true ↔ ∃ c, (str, c) ∈ s.enc.cb)) ∧
    (∀ c, (str, c) ∈ s.enc.cb → exec (.cbGet str) s = .next { s with ret := .nat c }) ∧
    ((∀ c, (str, c) ∉ s.enc.cb) → exec (.cbGet str) s = .refused .keyAbsent)

/-- R143, R144: `CB.PUT` gives one key a code, or, with `absent`, removes it; `CB.REMOVE` is `CB.PUT` with `absent`; every
other key, those of which the string is a prefix too, is unchanged, and the map stays canonical. -/
def Obligations.CbPutAndRemoveChangeOneKey : Prop :=
  ∀ (str : Bytes) (v : Option Nat) (s : State), encEnded s.enc.phase = false → str ≠ [] → mapWf bytesLt s.enc.cb →
    (∃ cb, exec (.cbPut str v) s = .next { s with enc := { s.enc with cb := cb } } ∧ mapWf bytesLt cb ∧
      ∀ t c, (t, c) ∈ cb ↔ t = str ∧ v = some c ∨ t ≠ str ∧ (t, c) ∈ s.enc.cb) ∧
    ∃ cb, exec (.cbRemove str) s = .next { s with enc := { s.enc with cb := cb } } ∧ mapWf bytesLt cb ∧
      ∀ t c, (t, c) ∈ cb ↔ t ≠ str ∧ (t, c) ∈ s.enc.cb

/-- R145: `CB.INIT` leaves `{ ⟨A[i]⟩ ↦ i : 0 ≤ i < |A| }` and nothing else, for an alphabet of distinct bytes (R13); it
has a step for every written configuration. -/
def Obligations.CbInitLeavesTheAlphabet : Prop :=
  ∀ s : State, encEnded s.enc.phase = false → s.enc.cfg.written = true →
    ∃ cb, exec .cbInit s = .next { s with enc := { s.enc with cb := cb } } ∧ mapWf bytesLt cb ∧
      (s.enc.cfg.alphabet.Nodup →
        ∀ t c, (t, c) ∈ cb ↔ ∃ b, t = [b] ∧ s.enc.cfg.alphabet[c]? = some b)

/-- R150 to R152: `CT.LOOKUP` answers the slot's string or `absent`; `CT.INSERT` and `CT.CLEAR` change one slot. A code at
or above `M = 2^maxW` has no slot and no step (log entry 6: the unit's `M` is `2^maxW` of `CFG`, also before the start
operation has computed the register), and with `CFG` unwritten no operation that reads it has one (R22). -/
def Obligations.CtOperationsReachOneSlot : Prop :=
  ∀ (x : Nat) (str : Bytes) (s : State), decEnded s.dec.phase = false → str ≠ [] → mapWf natLt s.dec.ct →
    (s.dec.cfg.written = true → x < 2 ^ s.dec.cfg.maxW →
      (∃ r, exec (.ctLookup x) s = .next { s with ret := .str r } ∧ ∀ t, r = some t ↔ (x, t) ∈ s.dec.ct) ∧
      (∃ ct, exec (.ctInsert x str) s = .next { s with dec := { s.dec with ct := ct } } ∧ mapWf natLt ct ∧
        ∀ y t, (y, t) ∈ ct ↔ y = x ∧ t = str ∨ y ≠ x ∧ (y, t) ∈ s.dec.ct) ∧
      ∃ ct, exec (.ctClear x) s = .next { s with dec := { s.dec with ct := ct } } ∧ mapWf natLt ct ∧
        ∀ y t, (y, t) ∈ ct ↔ y ≠ x ∧ (y, t) ∈ s.dec.ct) ∧
    (s.dec.cfg.written = true → 2 ^ s.dec.cfg.maxW ≤ x →
      exec (.ctLookup x) s = .refused .codeOutOfRange ∧ exec (.ctInsert x str) s = .refused .codeOutOfRange ∧
        exec (.ctClear x) s = .refused .codeOutOfRange) ∧
    (s.dec.cfg.written = false →
      exec (.ctLookup x) s = .refused .cfgUnwritten ∧ exec (.ctInsert x str) s = .refused .cfgUnwritten ∧
        exec (.ctClear x) s = .refused .cfgUnwritten)

/-- R153: `CT.INIT` leaves slot `x` at `⟨A[x]⟩` for `x < |A|` and `x < M`, every other slot absent
(log entry 6 names the `M`). -/
def Obligations.CtInitLeavesTheAlphabet : Prop :=
  ∀ s : State, decEnded s.dec.phase = false → s.dec.cfg.written = true →
    ∃ ct, exec .ctInit s = .next { s with dec := { s.dec with ct := ct } } ∧ mapWf natLt ct ∧
      ∀ x t, (x, t) ∈ ct ↔ x < 2 ^ s.dec.cfg.maxW ∧ ∃ b, s.dec.cfg.alphabet[x]? = some b ∧ t = [b]

/-! ### Trackers (42_lru_tracker.md, 43_lfu_tracker.md) -/

/-- R160 to R163, in either instance that has the unit, whatever the key, the empty string too: `LRU.USE` moves the key to
the front, creating it if need be; `LRU.REMOVE` takes it out, and is no change for an untracked key; `LRU.FIND` answers the
back, null when empty, and changes nothing. The other keys keep their order. That the unit exists from the writing of `CFG`
on is the model's reading (log entry 5). -/
def Obligations.LruOperations : Prop :=
  (∀ (k : Bytes) (s : State), encEnded s.enc.phase = false → s.enc.cfg.written = true → s.enc.cfg.policy = .lru →
    s.enc.trk.lru.Nodup →
    exec (.lruUse (.str k)) s = .next { s with
      enc := { s.enc with trk := { s.enc.trk with lru := k :: s.enc.trk.lru.erase k } } } ∧
    exec (.lruRemove (.str k)) s = .next { s with
      enc := { s.enc with trk := { s.enc.trk with lru := s.enc.trk.lru.erase k } } } ∧
    exec (.lruFind .enc) s = .next { s with ret := .key (s.enc.trk.lru.getLast?.map Key.str) }) ∧
  ∀ (x : Nat) (s : State), decEnded s.dec.phase = false → s.dec.cfg.written = true → s.dec.cfg.policy = .lru →
    s.dec.trk.lru.Nodup →
    exec (.lruUse (.code x)) s = .next { s with
      dec := { s.dec with trk := { s.dec.trk with lru := x :: s.dec.trk.lru.erase x } } } ∧
    exec (.lruRemove (.code x)) s = .next { s with
      dec := { s.dec with trk := { s.dec.trk with lru := s.dec.trk.lru.erase x } } } ∧
    exec (.lruFind .dec) s = .next { s with ret := .key (s.dec.trk.lru.getLast?.map Key.code) }

/-- T33's property P4 (95_test_vectors.md): after any sequence of uses (`true`) and removals (`false`) from an empty
tracker, `LRU.FIND` answers the live key whose last use is the longest ago, and null when no key is live. A key is live
when its last operation was a use. The tracker is driven alone (log entry 5). -/
def Obligations.LruFindsTheLeastRecentlyUsed : Prop :=
  ∀ (ops : List (Bool × Nat)) (s : State), decEnded s.dec.phase = false → s.dec.cfg.written = true →
    s.dec.cfg.policy = .lru → s.dec.trk.lru = [] → ∃ t r,
    performs (ops.map fun o => if o.1 then Instr.lruUse (.code o.2) else .lruRemove (.code o.2)) s = some t ∧
    exec (.lruFind .dec) t = .next { t with ret := .key (r.map Key.code) } ∧
    ∀ v, r = some v ↔
      ∃ i, ops[i]? = some (true, v) ∧ (∀ j o, i < j → ops[j]? = some o → o.2 ≠ v) ∧
        ∀ (w : Nat) (i' : Nat), ops[i']? = some (true, w) → (∀ j o, i' < j → ops[j]? = some o → o.2 ≠ w) → i ≤ i'

/-- R175 to R178, in either instance that has the unit, whatever the key, the empty string too: what `LFU.USE` does to every
frequency, every bucket and `minFreq`; R39 keeps holding. That the unit exists from the writing of `CFG` on is the model's
reading (log entry 5). -/
def Obligations.LfuUseCountsAndPushesToTheFront : Prop :=
  (∀ (k : Bytes) (s : State), encEnded s.enc.phase = false → s.enc.cfg.written = true → s.enc.cfg.policy = .lfu →
    s.enc.trk.lfu.Consistent bytesLt →
    ∃ l, exec (.lfuUse (.str k)) s = .next { s with enc := { s.enc with trk := { s.enc.trk with lfu := l } } } ∧
      s.enc.trk.lfu.UsedTo k l ∧ l.Consistent bytesLt) ∧
  ∀ (x : Nat) (s : State), decEnded s.dec.phase = false → s.dec.cfg.written = true → s.dec.cfg.policy = .lfu →
    s.dec.trk.lfu.Consistent natLt →
    ∃ l, exec (.lfuUse (.code x)) s = .next { s with dec := { s.dec with trk := { s.dec.trk with lfu := l } } } ∧
      s.dec.trk.lfu.UsedTo x l ∧ l.Consistent natLt

/-- R179, R180, in either instance that has the unit, whatever the key: `LFU.REMOVE` takes the key out of its bucket and
leaves `minFreq`, stale or not; `LFU.FIND` answers the back of the bucket at `minFreq`, null when it is empty, and changes
nothing. That the unit exists from the writing of `CFG` on is the model's reading (log entry 5). -/
def Obligations.LfuRemoveAndFind : Prop :=
  (∀ (k : Bytes) (s : State), encEnded s.enc.phase = false → s.enc.cfg.written = true → s.enc.cfg.policy = .lfu →
    s.enc.trk.lfu.Consistent bytesLt →
    (∃ l, exec (.lfuRemove (.str k)) s = .next { s with enc := { s.enc with trk := { s.enc.trk with lfu := l } } } ∧
      s.enc.trk.lfu.RemovedTo k l ∧ l.Consistent bytesLt) ∧
    exec (.lfuFind .enc) s = .next { s with
      ret := .key ((s.enc.trk.lfu.at s.enc.trk.lfu.minFreq).getLast?.map Key.str) }) ∧
  ∀ (x : Nat) (s : State), decEnded s.dec.phase = false → s.dec.cfg.written = true → s.dec.cfg.policy = .lfu →
    s.dec.trk.lfu.Consistent natLt →
    (∃ l, exec (.lfuRemove (.code x)) s = .next { s with dec := { s.dec with trk := { s.dec.trk with lfu := l } } } ∧
      s.dec.trk.lfu.RemovedTo x l ∧ l.Consistent natLt) ∧
    exec (.lfuFind .dec) s = .next { s with
      ret := .key ((s.dec.trk.lfu.at s.dec.trk.lfu.minFreq).getLast?.map Key.code) }

/-- Property P5 (R183) with its tie-break (R181): after any sequence of uses from an empty tracker, `LFU.FIND` answers a
key used the least often, among those the one whose last use is the longest ago; null only when no key was used. The tracker is
driven alone (log entry 5). -/
def Obligations.LfuFindsTheOldestLeastUsed : Prop :=
  ∀ (ks : List Nat) (s : State), decEnded s.dec.phase = false → s.dec.cfg.written = true →
    s.dec.cfg.policy = .lfu → s.dec.trk = Trk.empty → ∃ t r,
    performs (ks.map fun k => Instr.lfuUse (.code k)) s = some t ∧
    exec (.lfuFind .dec) t = .next { t with ret := .key (r.map Key.code) } ∧
    (r = none ↔ ks = []) ∧
    ∀ v, r = some v → v ∈ ks ∧ ∀ k ∈ ks, ks.count v ≤ ks.count k ∧
      (ks.count k = ks.count v → k ≠ v → ∃ i : Nat, ks[i]? = some k ∧ ∀ j : Nat, i ≤ j → ks[j]? ≠ some v)

/-- R37: an instance of another policy has no such unit, so the unit's operations have no step, in every phase; nor has an
instance whose `CFG` is unwritten, which holds no policy (R22; log entry 5). So at most one unit has steps, and none under
`freeze` and `reset`. -/
def Obligations.TrackerOperationsNeedTheUnit : Prop :=
  (∀ (k : Bytes) (s : State), encEnded s.enc.phase = false →
    (s.enc.cfg.written = false ∨ s.enc.cfg.policy ≠ .lru → exec (.lruUse (.str k)) s = .refused .noTracker ∧
      exec (.lruRemove (.str k)) s = .refused .noTracker ∧ exec (.lruFind .enc) s = .refused .noTracker) ∧
    (s.enc.cfg.written = false ∨ s.enc.cfg.policy ≠ .lfu → exec (.lfuUse (.str k)) s = .refused .noTracker ∧
      exec (.lfuRemove (.str k)) s = .refused .noTracker ∧ exec (.lfuFind .enc) s = .refused .noTracker)) ∧
  ∀ (x : Nat) (s : State), decEnded s.dec.phase = false →
    (s.dec.cfg.written = false ∨ s.dec.cfg.policy ≠ .lru → exec (.lruUse (.code x)) s = .refused .noTracker ∧
      exec (.lruRemove (.code x)) s = .refused .noTracker ∧ exec (.lruFind .dec) s = .refused .noTracker) ∧
    (s.dec.cfg.written = false ∨ s.dec.cfg.policy ≠ .lfu → exec (.lfuUse (.code x)) s = .refused .noTracker ∧
      exec (.lfuRemove (.code x)) s = .refused .noTracker ∧ exec (.lfuFind .dec) s = .refused .noTracker)

/-! ### The header (44_header_codec.md, 30_encoding.md) -/

/-- R196: from an empty writer, `HDR.WRITE` leaves exactly the header's `5 + |A|` bytes and no buffered bit. -/
def Obligations.HdrWriteLeavesTheHeader : Prop :=
  ∀ s : State, encEnded s.enc.phase = false → s.enc.cfg.written = true →
    s.enc.bw = { out := [], pend := [], closed := false } →
    exec .hdrWrite s = .next { s with
      enc := { s.enc with bw := { out := headerBytes s.enc.cfg, pend := [], closed := false } } }

/-- R199, R202, on every input: a complete header writes all of `CFG`, an unknown policy byte as `freeze`, and leaves the
cursor after it; a header cut short raises `Truncated` at the read that fails, with the fields before it written. -/
def Obligations.HdrReadTakesTheHeaderOrTruncates : Prop :=
  ∀ s : State, s.dec.phase = .idle → s.dec.br.pos = 0 →
    (∀ (a b p h l : Byte) (rest : Bytes), s.dec.br.input = a :: b :: p :: h :: l :: rest →
      256 * h.toNat + l.toNat ≤ rest.length →
      exec .hdrRead s = .next { s with dec := { s.dec with
        cfg :=
          { minW := a.toNat, maxW := b.toNat,
            policy := if p = 1 then .reset else if p = 2 then .lru else if p = 3 then .lfu else .freeze,
            alphabetSize := 256 * h.toNat + l.toNat, alphabet := rest.take (256 * h.toNat + l.toNat), written := true }
        br := { s.dec.br with pos := 40 + 8 * (256 * h.toNat + l.toNat) } } }) ∧
    (∀ (a b p h l : Byte) (rest : Bytes), s.dec.br.input = a :: b :: p :: h :: l :: rest →
      rest.length < 256 * h.toNat + l.toNat →
      ∃ alphabet, alphabet.take rest.length = rest ∧ exec .hdrRead s = .next { s with dec := { s.dec with
        cfg :=
          { minW := a.toNat, maxW := b.toNat,
            policy := if p = 1 then .reset else if p = 2 then .lru else if p = 3 then .lfu else .freeze,
            alphabetSize := 256 * h.toNat + l.toNat, alphabet := alphabet, written := s.dec.cfg.written }
        br := { s.dec.br with pos := 40 + 8 * rest.length }, phase := .fault, fault := some (.truncated 8 0) } }) ∧
    (s.dec.br.input.length < 5 → exec .hdrRead s = .next { s with dec := { s.dec with
      cfg := { s.dec.cfg with
        minW := s.dec.br.input[0]?.elim s.dec.cfg.minW BitVec.toNat
        maxW := s.dec.br.input[1]?.elim s.dec.cfg.maxW BitVec.toNat
        policy := s.dec.br.input[2]?.elim s.dec.cfg.policy fun p =>
          if p = 1 then .reset else if p = 2 then .lru else if p = 3 then .lfu else .freeze }
      br := { s.dec.br with pos := 8 * min s.dec.br.input.length 3 }, phase := .fault
      fault := some (if s.dec.br.input.length < 3 then .truncated 8 0
        else .truncated 16 (8 * (s.dec.br.input.length - 3))) } })

/-- R94: what each value of the policy byte selects, `0x04 .. 0xFF` the policy `freeze`; each byte is its own row and the
row sets `CFG.policy` and nothing else (log entry 7: the row as an operation of its own is the model's). -/
def Obligations.PolicyByteSelects : Prop :=
  (∀ s : State, s.dec.phase = .idle →
    exec .policyFreeze s = .next { s with dec := { s.dec with cfg := { s.dec.cfg with policy := .freeze } } } ∧
    exec .policyReset s = .next { s with dec := { s.dec with cfg := { s.dec.cfg with policy := .reset } } } ∧
    exec .policyLru s = .next { s with dec := { s.dec with cfg := { s.dec.cfg with policy := .lru } } } ∧
    exec .policyLfu s = .next { s with dec := { s.dec with cfg := { s.dec.cfg with policy := .lfu } } } ∧
    ∀ b : Byte, 4 ≤ b.toNat →
      exec (.policyUnknown b) s = .next { s with dec := { s.dec with cfg := { s.dec.cfg with policy := .freeze } } }) ∧
  ∀ v, decode v (.policyByte 0x00) = .ok .policyFreeze ∧ decode v (.policyByte 0x01) = .ok .policyReset ∧
    decode v (.policyByte 0x02) = .ok .policyLru ∧ decode v (.policyByte 0x03) = .ok .policyLfu ∧
    ∀ b : Byte, 4 ≤ b.toNat → decode v (.policyByte b) = .ok (.policyUnknown b)

/-- R91, R92, the encoder's half: each header field, when the stream stands at its bit offset, appends its register's bits
at the field's width and changes nothing else (log entry 7). -/
def Obligations.HeaderFieldsAreWritten : Prop :=
  ∀ (s : State) (offset : Nat), encEnded s.enc.phase = false → s.enc.cfg.written = true → s.enc.bw.closed = false →
    8 * s.enc.bw.out.length + s.enc.bw.pend.length = offset →
    (offset = 0 → ∃ b : Bw, exec (.fieldMinW .put) s = .next { s with enc := { s.enc with bw := b } } ∧
      b.bits = s.enc.bw.bits ++ msbFirst 8 s.enc.cfg.minW ∧ b.pend.length < 8 ∧ b.closed = false) ∧
    (offset = 8 → ∃ b : Bw, exec (.fieldMaxW .put) s = .next { s with enc := { s.enc with bw := b } } ∧
      b.bits = s.enc.bw.bits ++ msbFirst 8 s.enc.cfg.maxW ∧ b.pend.length < 8 ∧ b.closed = false) ∧
    (offset = 16 → ∃ b : Bw, exec (.fieldPolicy .put) s = .next { s with enc := { s.enc with bw := b } } ∧
      b.bits = s.enc.bw.bits ++ msbFirst 8
        (match s.enc.cfg.policy with
        | .freeze => 0
        | .reset => 1
        | .lru => 2
        | .lfu => 3) ∧ b.pend.length < 8 ∧ b.closed = false) ∧
    (offset = 24 → ∃ b : Bw, exec (.fieldAlphabetSize .put) s = .next { s with enc := { s.enc with bw := b } } ∧
      b.bits = s.enc.bw.bits ++ msbFirst 16 s.enc.cfg.alphabetSize ∧ b.pend.length < 8 ∧ b.closed = false) ∧
    ∀ (i : Nat) (a : Byte), s.enc.cfg.alphabet[i]? = some a → offset = 40 + 8 * i →
      ∃ b : Bw, exec (.fieldAlphabet .put i) s = .next { s with enc := { s.enc with bw := b } } ∧
        b.bits = s.enc.bw.bits ++ msbFirst 8 a.toNat ∧ b.pend.length < 8 ∧ b.closed = false

/-- R91, R92, the decoder's half: each header field, when the cursor stands at its bit offset, is the next bits of the
input, goes to its register, and the cursor moves over it (log entry 7). That writing `alphabetSize` also cuts the registers
`alphabet[i]` at it is the model's choice (log entry 15), and so is that a register `alphabet[j]` that a write above it skips
reads 0 (log entry 1). -/
def Obligations.HeaderFieldsAreRead : Prop :=
  ∀ (s : State) (v : Nat), s.dec.phase = .idle →
    (s.dec.br.pos + 8 ≤ 8 * s.dec.br.input.length → s.dec.br.NextIs 8 v →
      (s.dec.br.pos = 0 → exec (.fieldMinW .get) s = .next { s with dec := { s.dec with
        cfg := { s.dec.cfg with minW := v }, br := { s.dec.br with pos := 8 } } }) ∧
      (s.dec.br.pos = 8 → exec (.fieldMaxW .get) s = .next { s with dec := { s.dec with
        cfg := { s.dec.cfg with maxW := v }, br := { s.dec.br with pos := 16 } } }) ∧
      (s.dec.br.pos = 16 → exec (.fieldPolicy .get) s = .next { s with dec := { s.dec with
        cfg := { s.dec.cfg with
          policy := if v = 1 then .reset else if v = 2 then .lru else if v = 3 then .lfu else .freeze }
        br := { s.dec.br with pos := 24 } } }) ∧
      ∀ i, i < s.dec.cfg.alphabetSize → s.dec.br.pos = 40 + 8 * i →
        ∃ alphabet, exec (.fieldAlphabet .get i) s = .next { s with dec := { s.dec with
          cfg := { s.dec.cfg with alphabet := alphabet }, br := { s.dec.br with pos := 48 + 8 * i } } } ∧
          alphabet.length = max s.dec.cfg.alphabet.length (i + 1) ∧ alphabet[i]? = some (BitVec.ofNat 8 v) ∧
          (∀ (j : Nat) (a : Byte), j ≠ i → s.dec.cfg.alphabet[j]? = some a → alphabet[j]? = some a) ∧
          ∀ j, j < i → s.dec.cfg.alphabet[j]? = none → alphabet[j]? = some 0) ∧
    (s.dec.br.pos + 16 ≤ 8 * s.dec.br.input.length → s.dec.br.NextIs 16 v → s.dec.br.pos = 24 →
      exec (.fieldAlphabetSize .get) s = .next { s with dec := { s.dec with
        cfg := { s.dec.cfg with alphabetSize := v, alphabet := s.dec.cfg.alphabet.take v }
        br := { s.dec.br with pos := 40 } } })

/-! ### The encoder (45_encoder.md) -/

/-- R212 with R13 and the table of R42: from a written, legal configuration and the writer as created, `ENC.START` writes
the header, fills the codebook, computes the constants, empties the tracker and goes to `FIRST`. Under a policy other than
`reset` the register `RESET_CODE` is not written (R24). -/
def Obligations.EncStartInitialises : Prop :=
  ∀ s : State, s.enc.phase = .idle → s.enc.cfg.written = true → LegalCfg s.enc.cfg →
    s.enc.bw = { out := [], pend := [], closed := false } →
    ∃ cb, exec .encStart s = .next { s with enc := { s.enc with
        bw := { out := headerBytes s.enc.cfg, pend := [], closed := false }
        cb := cb
        M := 2 ^ s.enc.cfg.maxW
        eofCode := s.enc.cfg.alphabetSize
        resetCode := if s.enc.cfg.policy = .reset then s.enc.cfg.alphabetSize + 1 else s.enc.resetCode
        initialNextCode := if s.enc.cfg.policy = .reset then s.enc.cfg.alphabetSize + 2 else s.enc.cfg.alphabetSize + 1
        nextCode := if s.enc.cfg.policy = .reset then s.enc.cfg.alphabetSize + 2 else s.enc.cfg.alphabetSize + 1
        W := s.enc.cfg.minW
        T := 2 ^ s.enc.cfg.minW
        trk := Trk.empty
        current := []
        phase := .first } } ∧
      mapWf bytesLt cb ∧ ∀ t c, (t, c) ∈ cb ↔ ∃ b, t = [b] ∧ s.enc.cfg.alphabet[c]? = some b

/-- R213, R229, R292: the first byte becomes the prefix, or a byte outside the alphabet raises `NotInAlphabet` before it
has any other effect; in `RUN` the same check comes first, in either row. -/
def Obligations.EncByteChecksTheAlphabet : Prop :=
  ∀ (c : Byte) (s : State),
    (s.enc.phase = .first → c ∈ s.enc.cfg.alphabet →
      exec (.encByte c) s = .next { s with enc := { s.enc with current := [c], phase := .run } }) ∧
    (s.enc.phase = .first ∨ s.enc.phase = .run → c ∉ s.enc.cfg.alphabet →
      exec (.encByte c) s = .next { s with
        enc := { s.enc with phase := .fault, fault := some (.notInAlphabet c) } }) ∧
    (s.enc.phase = .run → c ∉ s.enc.cfg.alphabet →
      exec (.encByteRun c) s = .next { s with
        enc := { s.enc with phase := .fault, fault := some (.notInAlphabet c) } })

/-- R215, a hit: the prefix grows by the byte and nothing else changes: no codeword, no insertion, no width check, no
tracker operation. -/
def Obligations.EncByteHitExtendsThePrefix : Prop :=
  ∀ (c : Byte) (x : Nat) (s : State), s.enc.phase = .run → c ∈ s.enc.cfg.alphabet → mapWf bytesLt s.enc.cb →
    (s.enc.current ++ [c], x) ∈ s.enc.cb →
    exec (.encByteRun c) s = .next { s with enc := { s.enc with current := s.enc.current ++ [c] } } ∧
      exec (.encByte c) s = .next { s with enc := { s.enc with current := s.enc.current ++ [c] } }

/-- R215 with R216, R219 to R223 and R227, a miss with room in the table: the code of `current` goes out at the width in
force, then the use update of a prefix of two bytes or more, the width check, the eviction at `M − 1`, the insertion of
`next` at `nextCode`, and `current` is the byte. `t₁`, `t₂`, `t₃` are the tracker after the use update, after the eviction
and after the new entry is tracked. That a victim which is the empty string, tracked from outside the run, evicts nothing
from the dictionary is the model's choice (log entry 19). -/
def Obligations.EncByteMissInserts : Prop :=
  ∀ (c : Byte) (code : Nat) (s : State), s.enc.phase = .run → c ∈ s.enc.cfg.alphabet → s.enc.bw.closed = false →
    mapWf bytesLt s.enc.cb → s.enc.trk.Wf bytesLt → s.enc.current ≠ [] → (s.enc.current, code) ∈ s.enc.cb →
    (∀ x, (s.enc.current ++ [c], x) ∉ s.enc.cb) → s.enc.nextCode < s.enc.M →
    ∃ (b : Bw) (cb : List (Bytes × Nat)) (victim : Option Bytes) (t₁ t₂ t₃ : Trk Bytes),
      (∀ i : Instr, i = .encByteRun c ∨ i = .encByte c → exec i s = .next { s with enc := { s.enc with
        bw := b
        cb := cb
        trk := t₃
        W := if s.enc.T ≤ s.enc.nextCode ∧ s.enc.W < s.enc.cfg.maxW then s.enc.W + 1 else s.enc.W
        T := if s.enc.T ≤ s.enc.nextCode ∧ s.enc.W < s.enc.cfg.maxW then 2 ^ (s.enc.W + 1) else s.enc.T
        nextCode := s.enc.nextCode + 1
        current := [c] } }) ∧
      b.bits = s.enc.bw.bits ++ msbFirst s.enc.W code ∧ b.pend.length < 8 ∧ b.closed = false ∧
      (2 ≤ s.enc.current.length → s.enc.trk.UsedTo s.enc.cfg.policy s.enc.current t₁) ∧
      (s.enc.current.length < 2 → t₁ = s.enc.trk) ∧
      victim = (if s.enc.nextCode = s.enc.M - 1 then t₁.answer s.enc.cfg.policy else none) ∧
      (victim = none → t₂ = t₁) ∧ (∀ v, victim = some v → t₁.RemovedTo s.enc.cfg.policy v t₂) ∧
      t₂.UsedTo s.enc.cfg.policy (s.enc.current ++ [c]) t₃ ∧ t₃.Wf bytesLt ∧ mapWf bytesLt cb ∧
      ∀ t x, (t, x) ∈ cb ↔ (t = s.enc.current ++ [c] ∧ x = s.enc.nextCode) ∨
        (t ≠ s.enc.current ++ [c] ∧ victim ≠ some t ∧ (t, x) ∈ s.enc.cb)

/-- R215 with R216, R219, R224, R225 and R227, a miss on a full table under `freeze`, `lru` or `lfu`: the code of `current`
goes out, the use update is made, and nothing is inserted or evicted; no width check. -/
def Obligations.EncByteMissOnAFullTable : Prop :=
  ∀ (c : Byte) (code : Nat) (s : State), s.enc.phase = .run → c ∈ s.enc.cfg.alphabet → s.enc.bw.closed = false →
    mapWf bytesLt s.enc.cb → s.enc.trk.Wf bytesLt → s.enc.current ≠ [] → (s.enc.current, code) ∈ s.enc.cb →
    (∀ x, (s.enc.current ++ [c], x) ∉ s.enc.cb) → s.enc.M ≤ s.enc.nextCode → s.enc.cfg.policy ≠ .reset →
    ∃ (b : Bw) (t₁ : Trk Bytes),
      (∀ i : Instr, i = .encByteRun c ∨ i = .encByte c →
        exec i s = .next { s with enc := { s.enc with bw := b, trk := t₁, current := [c] } }) ∧
      b.bits = s.enc.bw.bits ++ msbFirst s.enc.W code ∧ b.pend.length < 8 ∧ b.closed = false ∧
      (2 ≤ s.enc.current.length → s.enc.trk.UsedTo s.enc.cfg.policy s.enc.current t₁) ∧
      (s.enc.current.length < 2 → t₁ = s.enc.trk) ∧ t₁.Wf bytesLt

/-- R215 with R216 and R226, a miss on a full table under `reset`: the code of `current`, the width check, `RESET_CODE` at
the width after it, and the dictionary back to the alphabet; `next` is not inserted, the trackers are not touched. -/
def Obligations.EncByteMissResetsTheTable : Prop :=
  ∀ (c : Byte) (code : Nat) (s : State), s.enc.phase = .run → c ∈ s.enc.cfg.alphabet → s.enc.bw.closed = false →
    mapWf bytesLt s.enc.cb → (s.enc.current, code) ∈ s.enc.cb → (∀ x, (s.enc.current ++ [c], x) ∉ s.enc.cb) →
    s.enc.M ≤ s.enc.nextCode → s.enc.cfg.policy = .reset → s.enc.cfg.alphabet.Nodup →
    ∃ (b : Bw) (cb : List (Bytes × Nat)),
      (∀ i : Instr, i = .encByteRun c ∨ i = .encByte c → exec i s = .next { s with enc := { s.enc with
        bw := b, cb := cb, nextCode := s.enc.initialNextCode, W := s.enc.cfg.minW, T := 2 ^ s.enc.cfg.minW,
        current := [c] } }) ∧
      b.bits = s.enc.bw.bits ++ msbFirst s.enc.W code ++
        msbFirst (if s.enc.T ≤ s.enc.nextCode ∧ s.enc.W < s.enc.cfg.maxW then s.enc.W + 1 else s.enc.W)
          s.enc.resetCode ∧
      b.pend.length < 8 ∧ b.closed = false ∧ mapWf bytesLt cb ∧
      ∀ t x, (t, x) ∈ cb ↔ ∃ a, t = [a] ∧ s.enc.cfg.alphabet[x]? = some a

/-- R214, R228: `ENC.END` on an empty input closes and writes no `EOF_CODE`; in `RUN`, by either row, it emits the code of
`current`, makes the use update and the last width check, emits `EOF_CODE` and closes. Either way the phase is `DONE`. -/
def Obligations.EncEndClosesTheStream : Prop :=
  ∀ s : State, s.enc.bw.closed = false →
    (s.enc.phase = .first → s.enc.bw.pend.length < 8 →
      ∃ (b : Bw) (k : Nat), exec .encEnd s = .next { s with enc := { s.enc with bw := b, phase := .done } } ∧
        b.bits = s.enc.bw.bits ++ List.replicate k false ∧ k < 8 ∧ b.pend = [] ∧ b.closed = true) ∧
    ∀ code, s.enc.phase = .run → mapWf bytesLt s.enc.cb → s.enc.trk.Wf bytesLt → s.enc.current ≠ [] →
      (s.enc.current, code) ∈ s.enc.cb →
      ∃ (b : Bw) (k : Nat) (t₁ : Trk Bytes),
        (∀ i : Instr, i = .encEndRun ∨ i = .encEnd → exec i s = .next { s with enc := { s.enc with
          bw := b
          trk := t₁
          W := if s.enc.T ≤ s.enc.nextCode ∧ s.enc.W < s.enc.cfg.maxW then s.enc.W + 1 else s.enc.W
          T := if s.enc.T ≤ s.enc.nextCode ∧ s.enc.W < s.enc.cfg.maxW then 2 ^ (s.enc.W + 1) else s.enc.T
          phase := .done } }) ∧
        b.bits = s.enc.bw.bits ++ msbFirst s.enc.W code ++
          msbFirst (if s.enc.T ≤ s.enc.nextCode ∧ s.enc.W < s.enc.cfg.maxW then s.enc.W + 1 else s.enc.W)
            s.enc.eofCode ++ List.replicate k false ∧
        k < 8 ∧ b.pend = [] ∧ b.closed = true ∧
        (2 ≤ s.enc.current.length → s.enc.trk.UsedTo s.enc.cfg.policy s.enc.current t₁) ∧
        (s.enc.current.length < 2 → t₁ = s.enc.trk)

/-- R211, R251, R309, the phase half: an operation of the five issued in a live phase where it has no step is refused, and
`ENC.START` also when `CFG` is unwritten or outside `LegalCfg` (R13). The two rows of `ENC.BYTE` and `ENC.END` for phase
`RUN` have a step in no other phase (R115). -/
def Obligations.OperationsInTheWrongPhaseAreRefused : Prop :=
  ∀ s : State,
    (encEnded s.enc.phase = false → s.enc.phase ≠ .idle → exec .encStart s = .refused .wrongPhase) ∧
    (s.enc.phase = .idle → s.enc.cfg.written = false → exec .encStart s = .refused .cfgUnwritten) ∧
    (s.enc.phase = .idle → s.enc.cfg.written = true → ¬ LegalCfg s.enc.cfg →
      exec .encStart s = .refused .illegalCfg) ∧
    (s.enc.phase = .idle → (∀ c, exec (.encByte c) s = .refused .wrongPhase) ∧
      exec .encEnd s = .refused .wrongPhase) ∧
    (s.enc.phase = .idle ∨ s.enc.phase = .first → (∀ c, exec (.encByteRun c) s = .refused .wrongPhase) ∧
      exec .encEndRun s = .refused .wrongPhase) ∧
    (decEnded s.dec.phase = false → s.dec.phase ≠ .idle → exec .decStart s = .refused .wrongPhase) ∧
    (s.dec.phase = .idle → exec .decStep s = .refused .wrongPhase)

/-- R211, R251, R300: in `DONE` and `FAULT` no operation of the instance has a step, whichever it is. -/
def Obligations.EndedInstancesHaveNoStep : Prop :=
  ∀ (i : Instr) (s : State),
    instrSide i = .enc ∧ (s.enc.phase = .done ∨ s.enc.phase = .fault) ∨
      instrSide i = .dec ∧ (s.dec.phase = .done ∨ s.dec.phase = .fault) →
    ∃ q, exec i s = .refused q

/-! ### The decoder (46_decoder.md, 30_encoding.md R97) -/

/-- R252 with R199, R201, R202 and R42: on a complete header that yields a legal configuration `DEC.START` reads it,
computes the constants, fills the table, empties the tracker and goes to `FIRST`; one that yields another configuration is
refused; a header cut short raises `Truncated`, and then nothing but what `HDR.READ` did is done. -/
def Obligations.DecStartInitialises : Prop :=
  ∀ s : State, s.dec.phase = .idle → s.dec.br.pos = 0 →
    (∀ (a b p h l : Byte) (rest : Bytes) (n : Nat) (c : Cfg), s.dec.br.input = a :: b :: p :: h :: l :: rest →
      n = 256 * h.toNat + l.toNat → n ≤ rest.length →
      c = { minW := a.toNat, maxW := b.toNat,
            policy := if p = 1 then .reset else if p = 2 then .lru else if p = 3 then .lfu else .freeze,
            alphabetSize := n, alphabet := rest.take n, written := true } →
      (LegalCfg c → ∃ ct, exec .decStart s = .next { s with dec := { s.dec with
          cfg := c
          br := { s.dec.br with pos := 40 + 8 * n }
          M := 2 ^ c.maxW
          eofCode := n
          resetCode := if c.policy = .reset then n + 1 else s.dec.resetCode
          initialNextCode := if c.policy = .reset then n + 2 else n + 1
          nextCode := if c.policy = .reset then n + 2 else n + 1
          W := c.minW
          T := 2 ^ c.minW
          ct := ct
          trk := Trk.empty
          prev := []
          out := []
          phase := .first } } ∧
        mapWf natLt ct ∧ ∀ x t, (x, t) ∈ ct ↔ x < 2 ^ c.maxW ∧ ∃ b, c.alphabet[x]? = some b ∧ t = [b]) ∧
      (¬ LegalCfg c → exec .decStart s = .refused .illegalHeader)) ∧
    (s.dec.br.input.length < 5 ∨
      (∃ a b p h l rest, s.dec.br.input = a :: b :: p :: h :: l :: rest ∧
        rest.length < 256 * h.toNat + l.toNat) →
      exec .decStart s = exec .hdrRead s ∧
        ∃ t width left, exec .decStart s = .next t ∧ t.dec.phase = .fault ∧ t.dec.fault = some (.truncated width left))

/-- R254, R262, with R264 and R294: `DEC.STEP` in `FIRST` and `POSTRESET`, no width check. An empty stream ends a run in
`FIRST` and is a truncation in `POSTRESET`; too few bits are `Truncated` in both; `EOF_CODE` stops; an alphabet code is
emitted and becomes `prev`, with no insertion and no tracker operation; anything else is `BadFirstCode`. -/
def Obligations.DecStepFirstAndPostReset : Prop :=
  ∀ s : State, s.dec.phase = .first ∨ s.dec.phase = .postReset → mapWf natLt s.dec.ct →
    (s.dec.phase = .first → 8 * s.dec.br.input.length ≤ s.dec.br.pos →
      exec .decStep s = .next { s with dec := { s.dec with phase := .done } }) ∧
    (s.dec.phase = .first → s.dec.br.pos < 8 * s.dec.br.input.length →
      8 * s.dec.br.input.length < s.dec.br.pos + s.dec.W →
      exec .decStep s = .next { s with dec := { s.dec with
        phase := .fault, fault := some (.truncated s.dec.W (8 * s.dec.br.input.length - s.dec.br.pos)) } }) ∧
    (s.dec.phase = .postReset → 8 * s.dec.br.input.length - s.dec.br.pos < s.dec.W →
      exec .decStep s = .next { s with dec := { s.dec with
        phase := .fault, fault := some (.truncated s.dec.W (8 * s.dec.br.input.length - s.dec.br.pos)) } }) ∧
    ∀ x, s.dec.br.pos < 8 * s.dec.br.input.length → s.dec.br.pos + s.dec.W ≤ 8 * s.dec.br.input.length →
      s.dec.br.NextIs s.dec.W x →
      (x = s.dec.eofCode → exec .decStep s = .next { s with dec := { s.dec with
        phase := .done, br := { s.dec.br with pos := s.dec.br.pos + s.dec.W } } }) ∧
      (∀ str, x ≠ s.dec.eofCode → x < s.dec.cfg.alphabetSize → (x, str) ∈ s.dec.ct →
        exec .decStep s = .next { s with dec := { s.dec with
          phase := .run, out := s.dec.out ++ str, prev := str,
          br := { s.dec.br with pos := s.dec.br.pos + s.dec.W } } }) ∧
      (x ≠ s.dec.eofCode → s.dec.cfg.alphabetSize ≤ x → exec .decStep s = .next { s with dec := { s.dec with
        phase := .fault, fault := some (.badFirstCode x),
        br := { s.dec.br with pos := s.dec.br.pos + s.dec.W } } })

/-- R256 to R258, with R257's order: in `RUN` the width check comes before the read; `EOF_CODE` stops and is tested before
anything else; under policy `reset`, `RESET_CODE` clears the table to the alphabet, puts `nextCode`, `W` and `T` back and
leaves `out` and `prev`. -/
def Obligations.DecStepStopsOrFlushes : Prop :=
  ∀ (s : State) (w x : Nat), s.dec.phase = .run →
    w = (if s.dec.T ≤ s.dec.nextCode ∧ s.dec.W < s.dec.cfg.maxW then s.dec.W + 1 else s.dec.W) →
    s.dec.br.pos + w ≤ 8 * s.dec.br.input.length → s.dec.br.NextIs w x →
    (x = s.dec.eofCode → exec .decStep s = .next { s with dec := { s.dec with
      W := w
      T := if s.dec.T ≤ s.dec.nextCode ∧ s.dec.W < s.dec.cfg.maxW then 2 ^ w else s.dec.T
      br := { s.dec.br with pos := s.dec.br.pos + w }
      phase := .done } }) ∧
    (x ≠ s.dec.eofCode → s.dec.cfg.policy = .reset → x = s.dec.resetCode →
      ∃ ct, exec .decStep s = .next { s with dec := { s.dec with
          W := s.dec.cfg.minW
          T := 2 ^ s.dec.cfg.minW
          nextCode := s.dec.initialNextCode
          ct := ct
          br := { s.dec.br with pos := s.dec.br.pos + w }
          phase := .postReset } } ∧ mapWf natLt ct ∧
        ∀ y t, (y, t) ∈ ct ↔ y < 2 ^ s.dec.cfg.maxW ∧ ∃ b, s.dec.cfg.alphabet[y]? = some b ∧ t = [b])

/-- R293, R295, R259 (iii), R301, R302: a fault of `DEC.STEP` in `RUN` leaves the width check, and for `BadCode` the read,
and nothing else; an evicted or never assigned code is `BadCode`. -/
def Obligations.DecStepFaultsArePrecise : Prop :=
  ∀ (s : State) (w : Nat), s.dec.phase = .run → mapWf natLt s.dec.ct →
    w = (if s.dec.T ≤ s.dec.nextCode ∧ s.dec.W < s.dec.cfg.maxW then s.dec.W + 1 else s.dec.W) →
    (8 * s.dec.br.input.length - s.dec.br.pos < w → exec .decStep s = .next { s with dec := { s.dec with
      W := w
      T := if s.dec.T ≤ s.dec.nextCode ∧ s.dec.W < s.dec.cfg.maxW then 2 ^ w else s.dec.T
      phase := .fault
      fault := some (.truncated w (8 * s.dec.br.input.length - s.dec.br.pos)) } }) ∧
    ∀ x, s.dec.br.pos + w ≤ 8 * s.dec.br.input.length → s.dec.br.NextIs w x → x ≠ s.dec.eofCode →
      (s.dec.cfg.policy = .reset → x ≠ s.dec.resetCode) → x ≠ s.dec.nextCode →
      (x < s.dec.nextCode → ∀ str, (x, str) ∉ s.dec.ct) →
      exec .decStep s = .next { s with dec := { s.dec with
        W := w
        T := if s.dec.T ≤ s.dec.nextCode ∧ s.dec.W < s.dec.cfg.maxW then 2 ^ w else s.dec.T
        br := { s.dec.br with pos := s.dec.br.pos + w }
        phase := .fault
        fault := some (.badCode x) } }

/-- R255 with R256 and R259 to R261: a data codeword in `RUN`. It denotes the string of its slot, or, when it is `nextCode`,
`prev` extended by its own first byte; then steps 6 to 9 (`Dec.DecodedTo`). The premise on the victim is that the tracker
holds codes of the table (R37, R40). -/
def Obligations.DecStepDecodesData : Prop :=
  ∀ (s : State) (w x : Nat) (str : Bytes), s.dec.phase = .run → mapWf natLt s.dec.ct → s.dec.trk.Wf natLt →
    w = (if s.dec.T ≤ s.dec.nextCode ∧ s.dec.W < s.dec.cfg.maxW then s.dec.W + 1 else s.dec.W) →
    s.dec.br.pos + w ≤ 8 * s.dec.br.input.length → s.dec.br.NextIs w x → x ≠ s.dec.eofCode →
    (s.dec.cfg.policy = .reset → x ≠ s.dec.resetCode) →
    (x < s.dec.nextCode ∧ (x, str) ∈ s.dec.ct ∨
      x = s.dec.nextCode ∧ ∃ b, s.dec.prev[0]? = some b ∧ str = s.dec.prev ++ [b]) → str ≠ [] →
    (∀ v, s.dec.trk.answer s.dec.cfg.policy = some v → v < 2 ^ s.dec.cfg.maxW) →
    ∃ d, exec .decStep s = .next { s with dec := d } ∧
      Dec.DecodedTo x str { s.dec with
        W := w
        T := if s.dec.T ≤ s.dec.nextCode ∧ s.dec.W < s.dec.cfg.maxW then 2 ^ w else s.dec.T
        br := { s.dec.br with pos := s.dec.br.pos + w } } d

/-- R97 with R254, R257, R258, R262, R294, R295: what the rows of a codeword do that stop, restart, flush or fault, once a
codeword `x` of `W` bits of that class has been read (log entry 7). That the `CW.ALPHA` rows give `⟨A[x]⟩` whatever the slot
holds, and, in the last clause, `DEC.STEP` too in `FIRST` and `POSTRESET` when the slot has been cleared from outside the run,
is the model's choice (log entry 16). -/
def Obligations.CodewordRowsThatAreNoData : Prop :=
  ∀ (s : State) (x : Nat), x < 2 ^ s.dec.W → mapWf natLt s.dec.ct →
    (s.dec.phase = .first → x = s.dec.eofCode →
      exec (.cwEofFirst x) s = .next { s with dec := { s.dec with phase := .done } }) ∧
    (s.dec.phase = .postReset → x = s.dec.eofCode →
      exec (.cwEofPostReset x) s = .next { s with dec := { s.dec with phase := .done } }) ∧
    (s.dec.phase = .run → x = s.dec.eofCode →
      exec (.cwEof x) s = .next { s with dec := { s.dec with phase := .done } }) ∧
    (∀ b, s.dec.phase = .first → x ≠ s.dec.eofCode → x < s.dec.cfg.alphabetSize → s.dec.cfg.alphabet[x]? = some b →
      exec (.cwAlphaFirst x) s = .next { s with dec := { s.dec with
        phase := .run, out := s.dec.out ++ [b], prev := [b] } }) ∧
    (∀ b, s.dec.phase = .postReset → x ≠ s.dec.eofCode → x < s.dec.cfg.alphabetSize →
      s.dec.cfg.alphabet[x]? = some b →
      exec (.cwAlphaPostReset x) s = .next { s with dec := { s.dec with
        phase := .run, out := s.dec.out ++ [b], prev := [b] } }) ∧
    (s.dec.phase = .first → x ≠ s.dec.eofCode → s.dec.cfg.alphabetSize ≤ x →
      exec (.cwIllegalFirst x) s = .next { s with dec := { s.dec with
        phase := .fault, fault := some (.badFirstCode x) } }) ∧
    (s.dec.phase = .postReset → x ≠ s.dec.eofCode → s.dec.cfg.alphabetSize ≤ x →
      exec (.cwIllegalPostReset x) s = .next { s with dec := { s.dec with
        phase := .fault, fault := some (.badFirstCode x) } }) ∧
    (s.dec.phase = .run → x ≠ s.dec.eofCode → s.dec.cfg.policy = .reset → x = s.dec.resetCode →
      ∃ ct, exec (.cwReset x) s = .next { s with dec := { s.dec with
          W := s.dec.cfg.minW, T := 2 ^ s.dec.cfg.minW, nextCode := s.dec.initialNextCode, ct := ct,
          phase := .postReset } } ∧ mapWf natLt ct ∧
        ∀ y t, (y, t) ∈ ct ↔ y < 2 ^ s.dec.cfg.maxW ∧ ∃ b, s.dec.cfg.alphabet[y]? = some b ∧ t = [b]) ∧
    (s.dec.phase = .run → x ≠ s.dec.eofCode → (s.dec.cfg.policy = .reset → x ≠ s.dec.resetCode) →
      s.dec.cfg.alphabetSize ≤ x → (s.dec.initialNextCode ≤ x → x < s.dec.nextCode → ∀ str, (x, str) ∉ s.dec.ct) →
      x ≠ s.dec.nextCode →
      exec (.cwIllegal x) s = .next { s with dec := { s.dec with phase := .fault, fault := some (.badCode x) } }) ∧
    ∀ b, s.dec.phase = .first ∨ s.dec.phase = .postReset → s.dec.br.pos < 8 * s.dec.br.input.length →
      s.dec.br.pos + s.dec.W ≤ 8 * s.dec.br.input.length → s.dec.br.NextIs s.dec.W x → x ≠ s.dec.eofCode →
      x < s.dec.cfg.alphabetSize → s.dec.cfg.alphabet[x]? = some b → (∀ str, (x, str) ∉ s.dec.ct) →
      exec .decStep s = .next { s with dec := { s.dec with
        phase := .run, out := s.dec.out ++ [b], prev := [b],
        br := { s.dec.br with pos := s.dec.br.pos + s.dec.W } } }

/-- R97 with R259 to R261: what the three data rows of a codeword do in `RUN`, once a codeword `x` of `W` bits of that class
has been read: `CW.ALPHA` denotes the alphabet byte, `CW.DICT` the string of its slot, `CW.KWKWK` `prev` and its first byte
(log entry 7). That `CW.ALPHA` does so whatever its slot holds is the model's choice (log entry 16). -/
def Obligations.CodewordRowsOfData : Prop :=
  ∀ (s : State) (x : Nat), s.dec.phase = .run → x < 2 ^ s.dec.W → mapWf natLt s.dec.ct → s.dec.trk.Wf natLt →
    x ≠ s.dec.eofCode → (s.dec.cfg.policy = .reset → x ≠ s.dec.resetCode) →
    (∀ v, s.dec.trk.answer s.dec.cfg.policy = some v → v < 2 ^ s.dec.cfg.maxW) →
    (∀ b, x < s.dec.cfg.alphabetSize → s.dec.cfg.alphabet[x]? = some b →
      ∃ d, exec (.cwAlpha x) s = .next { s with dec := d } ∧ s.dec.DecodedTo x [b] d) ∧
    (∀ str, s.dec.cfg.alphabetSize ≤ x → s.dec.initialNextCode ≤ x → x < s.dec.nextCode → (x, str) ∈ s.dec.ct →
      str ≠ [] → ∃ d, exec (.cwDict x) s = .next { s with dec := d } ∧ s.dec.DecodedTo x str d) ∧
    (∀ b, s.dec.cfg.alphabetSize ≤ x → x = s.dec.nextCode → s.dec.prev[0]? = some b →
      ∃ d, exec (.cwKwkwk x) s = .next { s with dec := d } ∧ s.dec.DecodedTo x (s.dec.prev ++ [b]) d)

/-- R97: `DEC.STEP` is the read at the width in force and then the row of the class that R97 gives the codeword, in every
phase, for a decoder that only the host drives (log entry 7). -/
def Obligations.DecStepIsTheRowOfItsCodeword : Prop :=
  ∀ (s : State) (w x : Nat), s.dec.HostInv →
    s.dec.phase = .first ∨ s.dec.phase = .run ∨ s.dec.phase = .postReset →
    w = (if s.dec.phase = .run ∧ s.dec.T ≤ s.dec.nextCode ∧ s.dec.W < s.dec.cfg.maxW then s.dec.W + 1 else s.dec.W) →
    s.dec.br.pos + w ≤ 8 * s.dec.br.input.length → s.dec.br.NextIs w x →
    ∃ c : CwClass, ∃ t : State, t = { s with dec := { s.dec with
        W := w, T := 2 ^ w, br := { s.dec.br with pos := s.dec.br.pos + w } } } ∧
      t.view.classify x = some c ∧ exec .decStep s = exec (c.instr x) t

/-! ### Rules about the whole machine (10_state.md, 60_exceptions.md, 70_reset_and_hazards.md) -/

/-- P6 (R332): after a `RESET_CODE` has been read, whatever happened since `DEC.START`, the code table, `nextCode`, `W` and
`T` are those just after `DEC.START`; so too in the encoder after its reset, where that is a step from a full table. -/
def Obligations.ResetIsIdempotent : Prop :=
  ∀ (is : List Instr) (s s₁ s₂ t : State),
    (exec .decStart s = .next s₁ → performs is s₁ = some s₂ →
      (∃ i, (i = .decStep ∨ ∃ x, i = .cwReset x) ∧ exec i s₂ = .next t) → s₂.dec.phase = .run →
      t.dec.phase = .postReset →
      t.dec.ct = s₁.dec.ct ∧ t.dec.nextCode = s₁.dec.nextCode ∧ t.dec.W = s₁.dec.W ∧ t.dec.T = s₁.dec.T) ∧
    ∀ c, exec .encStart s = .next s₁ → performs is s₁ = some s₂ → exec (.encByteRun c) s₂ = .next t →
      s₁.enc.cfg.policy = .reset → s₂.enc.M ≤ s₂.enc.nextCode → t.enc.current = [c] → t.enc.phase = .run →
      s₂.enc.current ≠ [] →
      t.enc.cb = s₁.enc.cb ∧ t.enc.nextCode = s₁.enc.nextCode ∧ t.enc.W = s₁.enc.W ∧ t.enc.T = s₁.enc.T

/-- R22, R24: once the run of an instance has started, no operation writes `CFG` or a constant register of it. -/
def Obligations.ConfigurationIsConstantInARun : Prop :=
  ∀ (i : Instr) (s t : State), exec i s = .next t →
    (s.enc.phase ≠ .idle → t.enc.cfg = s.enc.cfg ∧ t.enc.M = s.enc.M ∧ t.enc.eofCode = s.enc.eofCode ∧
      t.enc.resetCode = s.enc.resetCode ∧ t.enc.initialNextCode = s.enc.initialNextCode) ∧
    (s.dec.phase ≠ .idle → t.dec.cfg = s.dec.cfg ∧ t.dec.M = s.dec.M ∧ t.dec.eofCode = s.dec.eofCode ∧
      t.dec.resetCode = s.dec.resetCode ∧ t.dec.initialNextCode = s.dec.initialNextCode ∧
      t.dec.br.input = s.dec.br.input)

/-- R29: the transitions of `ENC.phase`, each by its operation, and no others: `DONE` and `FAULT` have no outgoing
transition. -/
def Obligations.EncoderPhaseTransitions : Prop :=
  ∀ (i : Instr) (s t : State), exec i s = .next t →
    (i = .encStart → s.enc.phase = .idle ∧ t.enc.phase = .first) ∧
    (∀ c, i = .encByte c ∨ i = .encByteRun c → (s.enc.phase = .first ∨ s.enc.phase = .run) ∧
      (c ∈ s.enc.cfg.alphabet → t.enc.phase = .run) ∧ (c ∉ s.enc.cfg.alphabet → t.enc.phase = .fault)) ∧
    (i = .encEnd ∨ i = .encEndRun → (s.enc.phase = .first ∨ s.enc.phase = .run) ∧ t.enc.phase = .done) ∧
    (i ≠ .encStart → (∀ c, i ≠ .encByte c ∧ i ≠ .encByteRun c) → i ≠ .encEnd → i ≠ .encEndRun →
      t.enc.phase = s.enc.phase) ∧
    (s.enc.phase = .done ∨ s.enc.phase = .fault → t.enc.phase = s.enc.phase)

/-- R30: the transitions of `DEC.phase` by the operations of `DEC`; a read driven alone can only fault (R123), every other
operation leaves the phase, and `DONE` and `FAULT` have no outgoing transition. -/
def Obligations.DecoderPhaseTransitions : Prop :=
  ∀ (i : Instr) (s t : State), exec i s = .next t →
    (i = .decStart → s.dec.phase = .idle ∧ (t.dec.phase = .first ∨ t.dec.phase = .fault)) ∧
    (i = .decStep → s.dec.phase = .first ∧ (t.dec.phase = .run ∨ t.dec.phase = .done ∨ t.dec.phase = .fault) ∨
      s.dec.phase = .postReset ∧ (t.dec.phase = .run ∨ t.dec.phase = .done ∨ t.dec.phase = .fault) ∨
      s.dec.phase = .run ∧ (t.dec.phase = .run ∨ t.dec.phase = .done ∨ t.dec.phase = .fault ∨
        t.dec.phase = .postReset ∧ s.dec.cfg.policy = .reset)) ∧
    (i ≠ .decStart → i ≠ .decStep → i.codeword? = none →
      t.dec.phase = s.dec.phase ∨ t.dec.phase = .fault ∧ ∃ width left, t.dec.fault = some (.truncated width left)) ∧
    (s.dec.phase = .done ∨ s.dec.phase = .fault → t.dec.phase = s.dec.phase)

/-- R31, R303: the fault registers are `none` at reset; with `phase = FAULT` exactly when `fault ≠ none`, every step keeps
that, and never changes a fault once recorded. -/
def Obligations.FaultRegisterIsWrittenOnce : Prop :=
  State.reset.enc.fault = none ∧ State.reset.dec.fault = none ∧
  ∀ (i : Instr) (s t : State), exec i s = .next t →
    (s.enc.phase = .fault ↔ s.enc.fault ≠ none) → (s.dec.phase = .fault ↔ s.dec.fault ≠ none) →
    (t.enc.phase = .fault ↔ t.enc.fault ≠ none) ∧ (t.dec.phase = .fault ↔ t.dec.fault ≠ none) ∧
      (s.enc.fault ≠ none → t.enc.fault = s.enc.fault) ∧ (s.dec.fault ≠ none → t.dec.fault = s.dec.fault)

/-- I2 and P8 (R56, R232), and R57 (e): in a started instance `W` and `nextCode` never decrease and `W` rises by at most one
at a time, except across an in-band reset, which puts both back and exists under policy `reset` only. -/
def Obligations.WidthAndNextCodeOnlyRise : Prop :=
  ∀ (i : Instr) (s t : State), exec i s = .next t →
    (s.enc.phase ≠ .idle →
      (s.enc.W ≤ t.enc.W ∧ t.enc.W ≤ s.enc.W + 1 ∧ s.enc.nextCode ≤ t.enc.nextCode ∧
        t.enc.nextCode ≤ s.enc.nextCode + 1) ∨
      (s.enc.cfg.policy = .reset ∧ s.enc.M ≤ s.enc.nextCode ∧ t.enc.W = s.enc.cfg.minW ∧
        t.enc.nextCode = s.enc.initialNextCode)) ∧
    (s.dec.phase ≠ .idle →
      (s.dec.W ≤ t.dec.W ∧ t.dec.W ≤ s.dec.W + 1 ∧ s.dec.nextCode ≤ t.dec.nextCode ∧
        t.dec.nextCode ≤ s.dec.nextCode + 1) ∨
      (s.dec.cfg.policy = .reset ∧ t.dec.phase = .postReset ∧ t.dec.W = s.dec.cfg.minW ∧
        t.dec.nextCode = s.dec.initialNextCode))

/-- R265, R303 ("no partial-output rollback"): what an instance has put out stays; a step that ends in a fault puts out
nothing, and inserts and tracks nothing. -/
def Obligations.OutputIsNeverTakenBack : Prop :=
  ∀ (i : Instr) (s t : State), exec i s = .next t →
    s.enc.bw.out <+: t.enc.bw.out ∧ (s.dec.phase ≠ .idle → s.dec.out <+: t.dec.out) ∧
    (s.enc.phase ≠ .fault → t.enc.phase = .fault → t.enc.bw = s.enc.bw) ∧
    (s.dec.phase ≠ .fault → t.dec.phase = .fault →
      t.dec.out = s.dec.out ∧ t.dec.ct = s.dec.ct ∧ t.dec.trk = s.dec.trk ∧ t.dec.nextCode = s.dec.nextCode)

/-- R3, R20: the two instances share no state: an operation leaves the other instance alone, and what it does to its own
depends on nothing of the other. -/
def Obligations.InstancesShareNoState : Prop :=
  ∀ (i : Instr) (s t : State), exec i s = .next t →
    t.port = s.port ∧
    (instrSide i = .enc → t.dec = s.dec ∧ ∀ s' : State, s'.enc = s.enc → s'.ret = s.ret →
      ∃ t', exec i s' = .next t' ∧ t'.enc = t.enc ∧ t'.ret = t.ret) ∧
    (instrSide i = .dec → t.enc = s.enc ∧ ∀ s' : State, s'.dec = s.dec → s'.ret = s.ret →
      ∃ t', exec i s' = .next t' ∧ t'.dec = t.dec ∧ t'.ret = t.ret)

/-- R291, R296, R300: no operation ends in the machine's outcome `fault`: the spec's faults are transitions to phase `FAULT`,
and the one cause a sequence cannot raise, `IOFailure`, is never recorded (log entries 10 and 13). The `fault` register's
number is that of R291's table, 0 for `none` only. -/
def Obligations.FaultsAreTransitions : Prop :=
  (∀ (i : Instr) (s : State) (f : Fault), exec i s ≠ .fault f) ∧ (∀ (s : State) (f : Fault), step s ≠ .fault f) ∧
  (∀ (i : Instr) (s t : State), exec i s = .next t →
    (s.enc.fault ≠ some .ioFailure → t.enc.fault ≠ some .ioFailure) ∧
    (s.dec.fault ≠ some .ioFailure → t.dec.fault ≠ some .ioFailure)) ∧
  ∀ f : Option Cause, (faultNumber f = 0 ↔ f = none) ∧ (faultNumber f = 1 ↔ ∃ c, f = some (.notInAlphabet c)) ∧
    (faultNumber f = 2 ↔ ∃ width left, f = some (.truncated width left)) ∧
    (faultNumber f = 3 ↔ ∃ x, f = some (.badFirstCode x)) ∧ (faultNumber f = 4 ↔ ∃ x, f = some (.badCode x)) ∧
    (faultNumber f = 5 ↔ f = some .ioFailure) ∧ (faultNumber f = 6 ↔ f = some .badHeader)

/-- R42 and log entry 1: the machine right after reset meets the invariants, those of every operation and those of a run
that only the host drives. -/
def Obligations.ResetMeetsTheInvariants : Prop := State.reset.Inv ∧ State.reset.HostInv

/-- R27, R31, R33 to R36, R38, R39, R57, R76: from every state that meets `State.Inv`, every step, a unit operation driven
alone among them, leads to a state that meets it. -/
def Obligations.EveryStepKeepsTheInvariant : Prop := ∀ s t : State, s.Inv → step s = .next t → t.Inv

/-- R36, R40, R57 (c) and (d), R182, R230: the invariants of a run that only the host drives are kept by every move of the
host (R342): its five operations, issued and performed, writing `CFG`, supplying the input, and the release of an ended
instance. -/
def Obligations.HostMovesKeepTheRunInvariant : Prop :=
  ∀ s : State, s.HostInv →
    (∀ i t, hostIssued i = true → exec i s = .next t → t.HostInv) ∧
    (∀ minW maxW policy alphabet, (s.hostWritesCfg minW maxW policy alphabet).HostInv) ∧
    (∀ input, (s.hostSuppliesInput input).HostInv) ∧
    (∀ w, (s.issue w).HostInv) ∧ (∀ i, (s.hostIssues i).HostInv) ∧ s.hostReleasesEncoder.HostInv ∧
    s.hostReleasesDecoder.HostInv

/-- R211, R230, R251: for instances that only the host drives, every operation of the five has a step in each phase in which
the spec gives it one; `DEC.START` on a header that is cut short or that yields a legal configuration (R201, R202). -/
def Obligations.HostOperationsComplete : Prop :=
  ∀ s : State, s.HostInv →
    (s.enc.phase = .idle → s.enc.cfg.written = true → LegalCfg s.enc.cfg → ∃ t, exec .encStart s = .next t) ∧
    (s.enc.phase = .first ∨ s.enc.phase = .run →
      (∀ c, ∃ t, exec (.encByte c) s = .next t) ∧ ∃ t, exec .encEnd s = .next t) ∧
    (s.enc.phase = .run → (∀ c, ∃ t, exec (.encByteRun c) s = .next t) ∧ ∃ t, exec .encEndRun s = .next t) ∧
    (s.dec.phase = .idle →
      (s.dec.br.input.length < 5 → ∃ t, exec .decStart s = .next t) ∧
      ∀ (a b p h l : Byte) (rest : Bytes) (n : Nat), s.dec.br.input = a :: b :: p :: h :: l :: rest →
        n = 256 * h.toNat + l.toNat →
        (n ≤ rest.length → LegalCfg
          { minW := a.toNat, maxW := b.toNat,
            policy := if p = 1 then .reset else if p = 2 then .lru else if p = 3 then .lfu else .freeze,
            alphabetSize := n, alphabet := rest.take n, written := true }) →
        ∃ t, exec .decStart s = .next t) ∧
    (s.dec.phase = .first ∨ s.dec.phase = .run ∨ s.dec.phase = .postReset → ∃ t, exec .decStep s = .next t)

/-- P2 (R216), I3 (R56) and R57 (g): under `WidthSafe` (R14) every code the encoder can emit from a running state fits its
width: the code of `current`, and `RESET_CODE` and `EOF_CODE`, which go out at a width no smaller; and the premise on `W`
is kept. -/
def Obligations.EmittedCodesFitTheirWidth : Prop :=
  ∀ s : State, s.enc.HostInv → s.enc.initialNextCode ≤ 2 ^ s.enc.cfg.minW → s.enc.phase = .first ∨ s.enc.phase = .run →
    (s.enc.W < s.enc.cfg.maxW → s.enc.nextCode ≤ 2 ^ s.enc.W) →
    (∀ code, s.enc.phase = .run → (s.enc.current, code) ∈ s.enc.cb → code < 2 ^ s.enc.W) ∧
    s.enc.eofCode < 2 ^ s.enc.W ∧ (s.enc.cfg.policy = .reset → s.enc.resetCode < 2 ^ s.enc.W) ∧
    ∀ i t, hostIssued i = true → exec i s = .next t → t.enc.W < t.enc.cfg.maxW → t.enc.nextCode ≤ 2 ^ t.enc.W

/-- R251, R361: a started decode ends: after at most one `DEC.STEP` for every `minW` bits that remain, and one more, the
phase is `DONE` or `FAULT`. -/
def Obligations.DecodeRunsEnd : Prop :=
  ∀ s : State, s.dec.HostInv → s.dec.phase = .first ∨ s.dec.phase = .run ∨ s.dec.phase = .postReset →
    ∃ n t, n ≤ (8 * s.dec.br.input.length - s.dec.br.pos) / s.dec.cfg.minW + 1 ∧
      performs (List.replicate n .decStep) s = some t ∧ decEnded t.dec.phase = true

/-- R111, R333, R342: the host's moves: it writes `CFG` and `BR.in` before the start operation and cannot after, the cursor
at 0 whenever it supplies `BR.in` (log entry 2), also while a start operation waits on the port (log entry 3); it issues the
five operations and no other, each behind what it issued before (the port is the model's: log entry 3); it releases an
instance in `DONE` or `FAULT`, in whose place a new one stands with the values of creation, sharing nothing with the old one, and no other (log entry 14). -/
def Obligations.HostMoves : Prop :=
  (∀ (s : State) (minW maxW : Nat) (policy : Policy) (alphabet : Bytes),
    (s.enc.phase = .idle → s.hostWritesCfg minW maxW policy alphabet = { s with enc := { s.enc with cfg :=
      { minW := minW, maxW := maxW, policy := policy, alphabetSize := alphabet.length, alphabet := alphabet,
        written := true } } }) ∧
    (s.enc.phase ≠ .idle → s.hostWritesCfg minW maxW policy alphabet = s)) ∧
  (∀ (s : State) (input : Bytes),
    (s.dec.phase = .idle → s.hostSuppliesInput input = { s with dec := { s.dec with
      br := { input := input, pos := 0 } } }) ∧
    (s.dec.phase ≠ .idle → s.hostSuppliesInput input = s)) ∧
  (∀ (s : State) (i : Instr), (hostIssued i = true → s.hostIssues i = { s with port := s.port ++ [encode s.view i] }) ∧
    (hostIssued i = false → s.hostIssues i = s)) ∧
  (∀ i, hostIssued i = true ↔ i = .encStart ∨ (∃ c, i = .encByte c ∨ i = .encByteRun c) ∨ i = .encEnd ∨
    i = .encEndRun ∨ i = .decStart ∨ i = .decStep) ∧
  ∀ s : State,
    (s.enc.phase = .done ∨ s.enc.phase = .fault → s.hostReleasesEncoder = { s with enc := State.reset.enc }) ∧
    (s.enc.phase ≠ .done → s.enc.phase ≠ .fault → s.hostReleasesEncoder = s) ∧
    (s.dec.phase = .done ∨ s.dec.phase = .fault → s.hostReleasesDecoder = { s with dec := State.reset.dec }) ∧
    (s.dec.phase ≠ .done → s.dec.phase ≠ .fault → s.hostReleasesDecoder = s)

/-- R42, R330: what creation leaves: both instances in `IDLE`, nothing raised, stores, trackers and streams empty, the
writer open, nothing issued; `CFG` unwritten. `BR.in` is supplied after creation (log entry 2). -/
def Obligations.ResetIsTheCreationOfTheInstances : Prop :=
  State.reset.enc.phase = .idle ∧ State.reset.dec.phase = .idle ∧ State.reset.enc.fault = none ∧
  State.reset.dec.fault = none ∧ State.reset.enc.cfg.written = false ∧ State.reset.dec.cfg.written = false ∧
  State.reset.enc.bw = { out := [], pend := [], closed := false } ∧ State.reset.dec.br.pos = 0 ∧
  State.reset.enc.cb = [] ∧ State.reset.dec.ct = [] ∧ State.reset.enc.current = [] ∧ State.reset.dec.prev = [] ∧
  State.reset.dec.out = [] ∧ State.reset.enc.trk = Trk.empty ∧ State.reset.dec.trk = Trk.empty ∧
  (Trk.empty : Trk Nat).lfu.minFreq = 0 ∧ State.reset.port = []

/-! ### Encodings and the step (30_encoding.md) -/

/-- R110, R114, R115, R91, R94, R95: decoding the encoding of a well-formed instruction gives it back, with every operand,
in the spelling the spec gives a shared code: `CB.PUT s, absent` is `CB.REMOVE s`, and the phase register selects the row of
`ENC.BYTE` and `ENC.END`. For a codeword row the premise is that its value has `W` bits and is of that row's class. How
operands stand beside a select code is the model's (log entry 3). -/
def Obligations.DecodeInvertsEncode : Prop :=
  ∀ (v : View) (i : Instr), i.wellFormed = true →
    (∀ x, i.codeword? = some x → x < 2 ^ v.width ∧ ∃ c, v.classify x = some c ∧ c.instr x = i) →
    decode v (encode v i) = .ok (i.spelling v)

/-- The other direction: a port word that decodes is the encoding of what it decodes to, which is well formed: no two words
stand for one instruction and no bit of a word is dropped (log entries 3 and 11). -/
def Obligations.EncodeInvertsDecode : Prop :=
  ∀ (v : View) (w : PortWord) (i : Instr), decode v w = .ok i →
    encode v i = w ∧ i.wellFormed = true ∧ i.spelling v = i

/-- R110, R91, R94, R97: a few words written out from the spec's encodings: select codes, the policy bytes, a field's bit
offset, codewords of `W = 3` bits after the example of R252. -/
def Obligations.WordsWrittenOutDecode : Prop :=
  (∀ v, decode v (.opsel [0x11]) = .ok .bwClose ∧ decode v (.opsel [0x21]) = .ok .brEmpty ∧
    decode v (.opsel [0x33]) = .ok .cbInit ∧ decode v (.opsel [0x43]) = .ok .ctInit ∧
    decode v (.opsel [0x70]) = .ok .hdrWrite ∧ decode v (.opsel [0x71]) = .ok .hdrRead ∧
    decode v (.opsel [0x80]) = .ok .encStart ∧ decode v (.opsel [0x90]) = .ok .decStart ∧
    decode v (.opsel [0x91]) = .ok .decStep ∧ decode v (.policyByte 0x02) = .ok .policyLru ∧
    decode v (.field .get 24) = .ok (.fieldAlphabetSize .get)) ∧
  ∀ v : View, v.decPhase = .run → v.width = 3 → v.policy = .freeze → v.alphabetSize = 4 → v.eofCode = 4 →
    v.initialNextCode = 5 → v.nextCode = 6 → v.present 5 = true →
    decode v (.codeword [false, true, false]) = .ok (.cwAlpha 2) ∧
    decode v (.codeword [true, false, false]) = .ok (.cwEof 4) ∧
    decode v (.codeword [true, false, true]) = .ok (.cwDict 5) ∧
    decode v (.codeword [true, true, false]) = .ok (.cwKwkwk 6) ∧
    decode v (.codeword [true, true, true]) = .ok (.cwIllegal 7)

/-- R28, R74: a step decodes the first operation issued and performs it on the machine with that operation taken off the
port; a word that is no instruction is refused; with nothing issued nothing moves (R308). The port
and the rejection of other words are the model's (log entries 3 and 11). -/
def Obligations.StepPerformsTheDecodedInstruction : Prop :=
  ∀ (s : State) (rest : List PortWord),
    (∀ i : Instr, i.wellFormed = true → i.codeword? = none → s.port = encode s.view i :: rest →
      step s = exec (i.spelling s.view) { s with port := rest }) ∧
    (∀ w i, s.port = w :: rest → decode s.view w = .ok i → step s = exec i { s with port := rest }) ∧
    (∀ w e, s.port = w :: rest → decode s.view w = .error e → step s = .refused (.badEncoding e)) ∧
    (s.port = [] → step s = .next s)

/-! ### Round trip -/

/-- P1 with the corrected precondition (R344): for every configuration with `LegalCfg ∧ WidthSafe` and every input in `A*`,
the decoder run on the encoder's output ends in `DONE` with that input as its output. -/
def Obligations.RoundTrip : Prop :=
  ∀ (minW maxW : Nat) (policy : Policy) (alphabet x : Bytes) (s : State),
    s = State.reset.hostWritesCfg minW maxW policy alphabet → LegalCfg s.enc.cfg →
    (if policy = .reset then alphabet.length + 2 else alphabet.length + 1) ≤ 2 ^ minW → (∀ c ∈ x, c ∈ alphabet) →
    ∃ (t : State), performs (.encStart :: (x.map Instr.encByte ++ [.encEnd])) s = some t ∧ t.enc.phase = .done ∧
      ∃ (n : Nat) (u : State),
        performs (.decStart :: List.replicate n .decStep) (State.reset.hostSuppliesInput t.enc.bw.out) = some u ∧
          u.dec.phase = .done ∧ u.dec.fault = none ∧ u.dec.out = x
end

