-- ==== Sys2Proof/Laws/Bits.lean ====
section
/-! SUPPORT. Laws of bit sequences and of the bit stream units: what `BW.WRITE` and `BW.CLOSE` add to the bits written, what
`BR.READ` takes from the bits of the input. -/

namespace Sys2Proof

@[simp] theorem length_bitsOf (w v : Nat) : (bitsOf w v).length = w := by
  induction w with
  | zero => rfl
  | succ w ih => simp [bitsOf, ih]

theorem natOfBitsFrom_eq (acc : Nat) (bs : Bits) : natOfBitsFrom acc bs = acc * 2 ^ bs.length + natOfBits bs := by
  induction bs generalizing acc with
  | nil => simp [natOfBitsFrom, natOfBits]
  | cons b bs ih =>
    rw [natOfBits]
    simp only [natOfBitsFrom, List.length_cons]
    rw [ih, ih (2 * 0 + b.toNat), pow_succ]
    ring

theorem natOfBits_cons (b : Bool) (bs : Bits) : natOfBits (b :: bs) = b.toNat * 2 ^ bs.length + natOfBits bs := by
  rw [natOfBits, natOfBitsFrom, natOfBitsFrom_eq]; simp

theorem natOfBits_append (as bs : Bits) : natOfBits (as ++ bs) = natOfBits as * 2 ^ bs.length + natOfBits bs := by
  induction as with
  | nil => simp [natOfBits, natOfBitsFrom]
  | cons a as ih => rw [List.cons_append, natOfBits_cons, natOfBits_cons, ih, List.length_append, pow_add]; ring

theorem natOfBits_lt (bs : Bits) : natOfBits bs < 2 ^ bs.length := by
  induction bs with
  | nil => simp [natOfBits, natOfBitsFrom]
  | cons b bs ih =>
    rw [natOfBits_cons, List.length_cons, pow_succ]
    cases b <;> simp <;> omega

/-- Writing a natural in `w` bits and reading it back gives `low_w` of it (R16). -/
theorem natOfBits_bitsOf (w v : Nat) : natOfBits (bitsOf w v) = v % 2 ^ w := by
  induction w with
  | zero => simp [bitsOf, natOfBits, natOfBitsFrom, Nat.mod_one]
  | succ w ih =>
    rw [bitsOf, natOfBits_cons, ih, length_bitsOf, Nat.mod_pow_succ]
    have : (v.testBit w).toNat = v / 2 ^ w % 2 := by
      rw [Nat.testBit_eq_decide_div_mod_eq]
      rcases Nat.mod_two_eq_zero_or_one (v / 2 ^ w) with h | h <;> simp [h]
    rw [this]; ring

/-- Bit `i` of the value stands at place `w - 1 - i` of its `w` bits (R16). -/
theorem testBit_natOfBits (bs : Bits) (i : Nat) (h : i < bs.length) :
    (natOfBits bs).testBit (bs.length - 1 - i) = bs[i] := by
  induction bs generalizing i with
  | nil => simp at h
  | cons b bs ih =>
    have hlt := natOfBits_lt bs
    rw [natOfBits_cons, mul_comm]
    cases i with
    | zero =>
      simp only [List.length_cons, Nat.add_sub_cancel, Nat.sub_zero, List.getElem_cons_zero]
      rw [Nat.testBit_two_pow_mul_add _ hlt]
      cases b <;> simp
    | succ i =>
      have hi : i < bs.length := by simpa using h
      have : (b :: bs).length - 1 - (i + 1) = bs.length - 1 - i := by simp; omega
      rw [this, Nat.testBit_two_pow_mul_add _ hlt, if_pos (by omega)]
      simpa using ih i hi

theorem natOfBits_inj {as bs : Bits} (hl : as.length = bs.length) (h : natOfBits as = natOfBits bs) : as = bs :=
  List.ext_getElem hl fun i h₁ h₂ => by rw [← testBit_natOfBits as i h₁, ← testBit_natOfBits bs i h₂, hl, h]

theorem bitsOf_natOfBits (bs : Bits) : bitsOf bs.length (natOfBits bs) = bs :=
  natOfBits_inj (by simp) (by rw [natOfBits_bitsOf, Nat.mod_eq_of_lt (natOfBits_lt bs)])

theorem bitsOf_mod (w v : Nat) : bitsOf w (v % 2 ^ w) = bitsOf w v :=
  natOfBits_inj (by simp) (by simp [natOfBits_bitsOf])

namespace Machine

@[simp] theorem length_bitsOfByte (b : Byte) : (bitsOfByte b).length = 8 := length_bitsOf 8 _

theorem bitsOfByte_byteOfBits {bs : Bits} (h : bs.length = 8) : bitsOfByte (byteOfBits bs) = bs := by
  have hlt := natOfBits_lt bs
  rw [h] at hlt
  rw [bitsOfByte, byteOfBits, BitVec.toNat_ofNat, Nat.mod_eq_of_lt hlt]
  conv_lhs => rw [← h]
  exact bitsOf_natOfBits bs

theorem byteOfBits_bitsOfByte (b : Byte) : byteOfBits (bitsOfByte b) = b := by
  rw [byteOfBits, bitsOfByte, natOfBits_bitsOf, Nat.mod_eq_of_lt b.isLt]
  simp

theorem bitsOfByte_inj {a b : Byte} (h : bitsOfByte a = bitsOfByte b) : a = b := by
  rw [← byteOfBits_bitsOfByte a, h, byteOfBits_bitsOfByte]

theorem length_flatMap_bitsOfByte (bs : Bytes) : (bs.flatMap bitsOfByte).length = 8 * bs.length := by
  induction bs with
  | nil => rfl
  | cons b bs ih => simp [ih]; ring

theorem flatMap_bitsOfByte_inj {as bs : Bytes} (h : as.flatMap bitsOfByte = bs.flatMap bitsOfByte) : as = bs := by
  have hl := congrArg List.length h
  rw [length_flatMap_bitsOfByte, length_flatMap_bitsOfByte] at hl
  induction as generalizing bs with
  | nil => exact (List.length_eq_zero_iff.1 (by simpa using hl.symm)).symm
  | cons a as ih =>
    obtain ⟨b, bs, rfl⟩ := List.exists_cons_of_length_pos (l := bs) (by simp only [List.length_cons] at hl; omega)
    rw [List.flatMap_cons, List.flatMap_cons] at h
    have ⟨h₁, h₂⟩ := List.append_inj h (by simp)
    rw [bitsOfByte_inj h₁, ih h₂ (by simpa using hl)]

/-- `n` rounds of the loop of R121 keep the bits and take `8·n` of them. -/
theorem packBytes_spec {n : Nat} {bits : Bits} (h : 8 * n ≤ bits.length) :
    (packBytes n bits).1.flatMap bitsOfByte ++ (packBytes n bits).2 = bits ∧
      (packBytes n bits).2.length = bits.length - 8 * n := by
  induction n generalizing bits with
  | zero => exact ⟨rfl, rfl⟩
  | succ n ih =>
    have ⟨ih₁, ih₂⟩ := ih (bits := bits.drop 8) (by rw [List.length_drop]; omega)
    rw [packBytes, List.flatMap_cons, bitsOfByte_byteOfBits (by rw [List.length_take]; omega), List.append_assoc, ih₁, ih₂,
      List.take_append_drop, List.length_drop]
    exact ⟨rfl, by omega⟩

/-- `BW.WRITE` appends `bits_width(value)` to the bits written (R121). -/
theorem Bw.bits_write (b : Bw) (value width : Nat) : (b.write value width).bits = b.bits ++ bitsOf width value := by
  simp only [Bw.write, Bw.bits, List.flatMap_append, List.append_assoc]
  rw [(packBytes_spec (Nat.mul_div_le _ 8)).1]

/-- Fewer than eight bits stay buffered (R33). -/
theorem Bw.pend_write (b : Bw) (value width : Nat) : (b.write value width).pend.length < 8 := by
  rw [Bw.write, (packBytes_spec (Nat.mul_div_le _ 8)).2]
  omega

@[simp] theorem Bw.closed_write (b : Bw) (value width : Nat) : (b.write value width).closed = b.closed := rfl

/-- `BW.out` is append-only (R33, R69). -/
theorem Bw.out_write (b : Bw) (value width : Nat) : b.out <+: (b.write value width).out := by
  simp [Bw.write]

theorem Bw.length_bits (b : Bw) : b.bits.length = b.bitCount := by
  rw [Bw.bits, List.length_append, length_flatMap_bitsOfByte, Bw.bitCount]

theorem Bw.bitCount_write (b : Bw) (value width : Nat) : (b.write value width).bitCount = b.bitCount + width := by
  rw [← Bw.length_bits, Bw.bits_write, List.length_append, Bw.length_bits, length_bitsOf]

@[simp] theorem Bw.closed_close (b : Bw) : b.close.closed = true := by unfold Bw.close; split <;> rfl

@[simp] theorem Bw.pend_close (b : Bw) : b.close.pend = [] := by
  unfold Bw.close; split
  · next h => exact h
  · rfl

/-- `BW.CLOSE` pads the last byte with zero bits on the LSB side (R122). -/
theorem Bw.bits_close (b : Bw) (h : b.pend.length < 8) :
    b.close.bits = b.bits ++ List.replicate ((8 - b.pend.length) % 8) false := by
  unfold Bw.close
  split
  · next hp => simp [Bw.bits, hp]
  · next hp =>
    have hpos : 0 < b.pend.length := List.length_pos_iff.2 hp
    simp only [Bw.bits, List.flatMap_append, List.flatMap_cons, List.flatMap_nil, List.append_nil, List.append_assoc]
    rw [bitsOfByte_byteOfBits (by simp; omega), Nat.mod_eq_of_lt (by omega)]

/-- The bits written, with fewer than eight buffered, determine `BW.out` and `BW.pend` (R33). -/
theorem Bw.ext_bits {a b : Bw} (ha : a.pend.length < 8) (hb : b.pend.length < 8) (hc : a.closed = b.closed)
    (h : a.bits = b.bits) : a = b := by
  have hl := congrArg List.length h
  rw [Bw.length_bits, Bw.length_bits, Bw.bitCount, Bw.bitCount] at hl
  have ho : a.out.length = b.out.length := by omega
  have ⟨h₁, h₂⟩ := List.append_inj h (by rw [length_flatMap_bitsOfByte, length_flatMap_bitsOfByte, ho])
  obtain ⟨ao, ap, ac⟩ := a
  obtain ⟨bo, bp, bc⟩ := b
  simp only at h₁ h₂ hc
  rw [flatMap_bitsOfByte_inj h₁, h₂, hc]

/-- Two writes in a row are one write of both bit sequences, so mixed widths are cuts of one sequence (R64). -/
theorem Bw.write_congr (b : Bw) {v w v' w' : Nat} (h : bitsOf w v = bitsOf w' v') : b.write v w = b.write v' w' := by
  simp [Bw.write, h]

/-! ### The reader -/

theorem Br.length_bits (b : Br) : b.bits.length = 8 * b.input.length := length_flatMap_bitsOfByte _

theorem getElem_flatMap_bitsOfByte (bs : Bytes) (p : Nat) (h : p < (bs.flatMap bitsOfByte).length) :
    ((bs.flatMap bitsOfByte)[p]).toNat = ((bs[p / 8]?).getD 0).toNat / 2 ^ (7 - p % 8) % 2 := by
  induction bs generalizing p with
  | nil => simp at h
  | cons b bs ih =>
    simp only [List.flatMap_cons]
    by_cases hp : p < 8
    · rw [List.getElem_append_left (by simpa using hp)]
      have hd : p / 8 = 0 := by omega
      have hm : p % 8 = p := by omega
      have ht := testBit_natOfBits (bitsOfByte b) p (by simpa using hp)
      simp only [length_bitsOfByte] at ht
      rw [← ht, bitsOfByte, natOfBits_bitsOf, Nat.mod_eq_of_lt b.isLt, Nat.testBit_eq_decide_div_mod_eq, hd, hm]
      have e : 8 - 1 - p = 7 - p := by omega
      rw [e]
      simp only [List.getElem?_cons_zero, Option.getD_some]
      rcases Nat.mod_two_eq_zero_or_one (b.toNat / 2 ^ (7 - p)) with h | h <;> simp [h]
    · rw [List.getElem_append_right (by simp; omega)]
      simp only [List.flatMap_cons, List.length_append, length_bitsOfByte] at h
      have := ih (p - 8) (by omega)
      simp only [length_bitsOfByte]
      rw [this]
      have hd : p / 8 = (p - 8) / 8 + 1 := by omega
      have hm : p % 8 = (p - 8) % 8 := by omega
      rw [hd, hm, List.getElem?_cons_succ]

/-- Bit `p` of the input is bit `7 − (p mod 8)` of byte `p div 8` (R34, R62). -/
theorem Br.bitAt_eq (b : Br) (p : Nat) (h : p < b.bits.length) : b.bitAt p = (b.bits[p]).toNat :=
  (getElem_flatMap_bitsOfByte b.input p h).symm

theorem Br.readFrom_eq (b : Br) (w pos v : Nat) (h : pos + w ≤ b.bits.length) :
    b.readFrom w pos v = natOfBitsFrom v ((b.bits.drop pos).take w) := by
  induction w generalizing pos v with
  | zero => simp [Br.readFrom, natOfBitsFrom]
  | succ w ih =>
    have hp : pos < b.bits.length := by omega
    rw [Br.readFrom, ih _ _ (by omega), List.drop_eq_getElem_cons hp, List.take_succ_cons, natOfBitsFrom,
      Br.bitAt_eq b pos hp]

/-- `BR.READ` assembles the next `width` bits, most significant first (R123). -/
theorem Br.read_eq (b : Br) (w : Nat) (h : w ≤ b.remaining) :
    b.read w = some (natOfBits ((b.bits.drop b.pos).take w), { b with pos := b.pos + w }) := by
  rw [Br.read, if_neg (by omega)]
  by_cases hw : w = 0
  · subst hw; simp [Br.readFrom, natOfBits, natOfBitsFrom]
  · rw [Br.readFrom_eq, natOfBits]
    rw [Br.length_bits]
    simp only [Br.remaining] at h
    omega

theorem Br.read_none (b : Br) (w : Nat) (h : b.remaining < w) : b.read w = none := by rw [Br.read, if_pos h]

/-- Everything a read can do. -/
theorem Br.read_cases (b : Br) (w : Nat) :
    (b.remaining < w ∧ b.read w = none) ∨
      (w ≤ b.remaining ∧ b.read w = some (natOfBits ((b.bits.drop b.pos).take w), { b with pos := b.pos + w })) := by
  rcases Nat.lt_or_ge b.remaining w with h | h
  · exact .inl ⟨h, b.read_none w h⟩
  · exact .inr ⟨h, b.read_eq w h⟩

theorem Br.read_lt {b br : Br} {w x : Nat} (h : b.read w = some (x, br)) : x < 2 ^ w := by
  rcases b.read_cases w with ⟨_, h'⟩ | ⟨_, h'⟩
  · rw [h] at h'; cases h'
  · rw [h] at h'
    simp only [Option.some.injEq, Prod.mk.injEq] at h'
    rw [h'.1]
    refine lt_of_lt_of_le (natOfBits_lt _) (Nat.pow_le_pow_right (by omega) ?_)
    simp

theorem Br.read_next {b br : Br} {w x : Nat} (h : b.read w = some (x, br)) :
    br = { b with pos := b.pos + w } ∧ w ≤ b.remaining := by
  rcases b.read_cases w with ⟨_, h'⟩ | ⟨hw, h'⟩
  · rw [h] at h'; cases h'
  · rw [h] at h'
    simp only [Option.some.injEq, Prod.mk.injEq] at h'
    exact ⟨h'.2, hw⟩

end Machine

end Sys2Proof
end

