-- ==== Sys2Proof/Laws/Codec.lean ====
section
/-! SUPPORT. Laws of the operand bytes: each operand reader reads back what its writer wrote and leaves the rest, and
reads nothing else. -/

namespace Sys2Proof

theorem byte_toNat_ofNat {n : Nat} (h : n < 256) : (BitVec.ofNat 8 n).toNat = n := by
  rw [BitVec.toNat_ofNat, Nat.mod_eq_of_lt (by omega)]

theorem byte_ofNat_toNat (b : Byte) : BitVec.ofNat 8 b.toNat = b := by simp

/-! ### Naturals -/

theorem encodeNatFuel_eq {fuel n : Nat} (h : n ≤ fuel) :
    encodeNatFuel fuel n =
      if n < 128 then [BitVec.ofNat 8 n] else BitVec.ofNat 8 (n % 128 + 128) :: encodeNatFuel (fuel - 1) (n / 128) := by
  cases fuel with
  | zero =>
    have : n = 0 := by omega
    subst this
    rfl
  | succ fuel => rfl

theorem encodeNatFuel_enough {fuel fuel' n : Nat} (h : n ≤ fuel) (h' : n ≤ fuel') :
    encodeNatFuel fuel n = encodeNatFuel fuel' n := by
  induction n using Nat.strongRecOn generalizing fuel fuel' with
  | ind n ih =>
    rw [encodeNatFuel_eq h, encodeNatFuel_eq h']
    split
    · rfl
    · rw [ih (n / 128) (by omega) (fuel := fuel - 1) (fuel' := fuel' - 1) (by omega) (by omega)]

/-- A natural below 128 is one byte; a larger one is a digit with bit 7 set, then the rest. -/
theorem encodeNat_eq (n : Nat) :
    encodeNat n = if n < 128 then [BitVec.ofNat 8 n] else BitVec.ofNat 8 (n % 128 + 128) :: encodeNat (n / 128) := by
  rw [encodeNat, encodeNatFuel_eq (le_refl n)]
  split
  · rfl
  · rw [encodeNat, encodeNatFuel_enough (fuel := n - 1) (fuel' := n / 128) (by omega) (le_refl _)]

theorem decodeNat_encodeNat (n : Nat) (rest : Bytes) : decodeNat (encodeNat n ++ rest) = .ok (n, rest) := by
  induction n using Nat.strongRecOn with
  | ind n ih =>
    rw [encodeNat_eq]
    split
    · next h =>
      rw [List.singleton_append, decodeNat, byte_toNat_ofNat (by omega), if_pos h]
    · next h =>
      rw [List.cons_append, decodeNat, byte_toNat_ofNat (by omega), if_neg (by omega), ih (n / 128) (by omega)]
      simp only
      rw [if_neg (by omega)]
      congr 2
      omega

/-! ### Reading one operand after another -/

/-- What is read and then made of it, both ways. -/
theorem readThen_ok {α β : Type} {read : Bytes → Except DecodeError (α × Bytes)} {next : α → Bytes → Except DecodeError β}
    {bs : Bytes} {r : β} :
    readThen read next bs = .ok r ↔ ∃ a rest, read bs = .ok (a, rest) ∧ next a rest = .ok r := by
  rw [readThen]
  constructor
  · intro h
    split at h
    · cases h
    · next p hp => exact ⟨p.1, p.2, hp, h⟩
  · rintro ⟨a, rest, hr, hn⟩
    rw [hr]
    exact hn

theorem takeBytes_ok {n : Nat} {bs str rest : Bytes} : takeBytes n bs = .ok (str, rest) ↔ str.length = n ∧ bs = str ++ rest := by
  rw [takeBytes]
  constructor
  · intro h
    split at h
    · next hn =>
      cases h
      exact ⟨List.length_take_of_le hn, (List.take_append_drop n bs).symm⟩
    · cases h
  · rintro ⟨rfl, rfl⟩
    rw [if_pos (by simp), List.take_left, List.drop_left]

/-- What stands behind a tag byte. -/
theorem decodeTagged_ok {α : Type} {zero one : Bytes → Except DecodeError (α × Bytes)} {bs : Bytes} {p : α × Bytes} :
    decodeTagged zero one bs = .ok p ↔
      (∃ rest, bs = 0 :: rest ∧ zero rest = .ok p) ∨ ∃ rest, bs = 1 :: rest ∧ one rest = .ok p := by
  constructor
  · intro h
    cases bs with
    | nil => cases h
    | cons t rest =>
      rw [decodeTagged] at h
      split_ifs at h with h0 h1
      · exact .inl ⟨rest, by rw [h0], h⟩
      · exact .inr ⟨rest, by rw [h1], h⟩
  · rintro (⟨rest, rfl, h⟩ | ⟨rest, rfl, h⟩) <;> exact h

/-! ### What each reader reads: what its writer wrote, and nothing else -/

theorem decodeNat_ok {bs rest : Bytes} {n : Nat} : decodeNat bs = .ok (n, rest) ↔ bs = encodeNat n ++ rest := by
  refine ⟨fun h => ?_, fun h => h ▸ decodeNat_encodeNat n rest⟩
  induction bs generalizing n with
  | nil => cases h
  | cons b bs ih =>
    rw [decodeNat] at h
    by_cases hb : b.toNat < 128
    · rw [if_pos hb] at h
      cases h
      rw [encodeNat_eq, if_pos hb, byte_ofNat_toNat]
      rfl
    · rw [if_neg hb] at h
      split at h
      · cases h
      next m r hm =>
      split_ifs at h with h0
      cases h
      have hlt := b.isLt
      rw [encodeNat_eq, if_neg (by omega), show (b.toNat - 128 + 128 * m) % 128 + 128 = b.toNat by omega,
        show (b.toNat - 128 + 128 * m) / 128 = m by omega, byte_ofNat_toNat, List.cons_append, ← ih hm]

theorem decodeStr_ok {bs str rest : Bytes} : decodeStr bs = .ok (str, rest) ↔ str ≠ [] ∧ bs = encodeStr str ++ rest := by
  simp only [decodeStr, readThen_ok, decodeNat_ok, takeBytes_ok, encodeStr, List.append_assoc]
  constructor
  · rintro ⟨n, _, rfl, hl, rfl⟩
    exact ⟨List.length_pos_iff.1 (by omega), by rw [hl, Nat.add_sub_cancel]⟩
  · rintro ⟨hne, rfl⟩
    exact ⟨_, _, rfl, (Nat.sub_add_cancel (List.length_pos_iff.2 hne)).symm, rfl⟩

theorem decodeKey_ok {bs rest : Bytes} {k : Key} : decodeKey bs = .ok (k, rest) ↔ bs = encodeKey k ++ rest := by
  simp only [decodeKey, decodeTagged_ok, readThen_ok, decodeNat_ok, takeBytes_ok, Except.ok.injEq, Prod.mk.injEq]
  cases k with
  | str str =>
    constructor
    · rintro (⟨_, rfl, n, _, rfl, _, _, ⟨rfl, rfl⟩, h, rfl⟩ | ⟨_, -, _, _, -, h, -⟩)
      · cases h
        simp [encodeKey]
      · cases h
    · rintro rfl
      exact .inl ⟨_, rfl, _, _, List.append_assoc _ _ _, _, _, ⟨rfl, rfl⟩, rfl, rfl⟩
  | code x =>
    constructor
    · rintro (⟨_, -, _, _, -, _, _, -, h, -⟩ | ⟨_, rfl, _, _, rfl, h, rfl⟩)
      · cases h
      · cases h
        rfl
    · rintro rfl
      exact .inr ⟨_, rfl, _, _, rfl, rfl, rfl⟩

theorem decodeSide_ok {bs rest : Bytes} {side : Side} : decodeSide bs = .ok (side, rest) ↔ bs = encodeSide side ++ rest := by
  simp only [decodeSide, decodeTagged_ok, Except.ok.injEq, Prod.mk.injEq]
  cases side <;> simp [encodeSide]

theorem decodeCode_ok {bs rest : Bytes} {v : Option Nat} : decodeCode bs = .ok (v, rest) ↔ bs = encodeCode v ++ rest := by
  simp only [decodeCode, decodeTagged_ok, readThen_ok, decodeNat_ok, Except.ok.injEq, Prod.mk.injEq]
  cases v <;> simp [encodeCode]

/-! ### Whole words -/

theorem wholeWord_ok {i j : Instr} {rest : Bytes} : wholeWord i rest = .ok j ↔ rest = [] ∧ i = j := by
  rw [wholeWord]
  split_ifs with h <;> simp [h]

theorem oneOperand_ok {α : Type} {read : Bytes → Except DecodeError (α × Bytes)} {mk : α → Instr} {bs : Bytes} {i : Instr} :
    oneOperand read mk bs = .ok i ↔ ∃ a, read bs = .ok (a, []) ∧ i = mk a := by
  simp only [oneOperand, readThen_ok, wholeWord_ok]
  exact ⟨fun ⟨a, _, hr, h0, hi⟩ => ⟨a, h0 ▸ hr, hi.symm⟩, fun ⟨a, hr, hi⟩ => ⟨a, _, hr, rfl, hi.symm⟩⟩

theorem twoOperands_ok {α β : Type} {read₁ : Bytes → Except DecodeError (α × Bytes)}
    {read₂ : Bytes → Except DecodeError (β × Bytes)} {mk : α → β → Instr} {bs : Bytes} {i : Instr} :
    twoOperands read₁ read₂ mk bs = .ok i ↔
      ∃ a b rest, read₁ bs = .ok (a, rest) ∧ read₂ rest = .ok (b, []) ∧ i = mk a b := by
  simp only [twoOperands, readThen_ok, oneOperand_ok]
  exact ⟨fun ⟨a, rest, h₁, b, h₂, hi⟩ => ⟨a, b, rest, h₁, h₂, hi⟩, fun ⟨a, b, rest, h₁, h₂, hi⟩ => ⟨a, rest, h₁, b, h₂, hi⟩⟩

end Sys2Proof
end

