-- ==== Sys2Proof/Laws/Maps.lean ====
section
/-! SUPPORT. Laws of the maps of Machine/Ops.lean: read after write, other keys untouched, and that every map operation
keeps the canonical form. -/

namespace Sys2Proof.Machine

variable {K V : Type} [DecidableEq K]

/-- What the canonical form needs of an order of keys. -/
structure KeyOrder (lt : K → K → Bool) : Prop where
  irrefl : ∀ a, lt a a = false
  trans : ∀ a b c, lt a b = true → lt b c = true → lt a c = true
  tri : ∀ a b, a ≠ b → lt a b = false → lt b a = true

theorem natLt_order : KeyOrder natLt where
  irrefl a := by simp [natLt]
  trans a b c := by simp only [natLt, decide_eq_true_eq]; omega
  tri a b := by simp only [natLt, decide_eq_true_eq, decide_eq_false_iff_not]; omega

theorem bytesLt_irrefl (a : Bytes) : bytesLt a a = false := by
  induction a with
  | nil => rfl
  | cons x xs ih => simp [bytesLt, ih]

/-- The order of two strings that are not empty. -/
theorem bytesLt_cons (x y : Byte) (xs ys : Bytes) :
    bytesLt (x :: xs) (y :: ys) = true ↔ x.toNat < y.toNat ∨ x = y ∧ bytesLt xs ys = true := by
  simp [bytesLt]

theorem bytesLt_trans {a b c : Bytes} (hab : bytesLt a b = true) (hbc : bytesLt b c = true) : bytesLt a c = true := by
  induction c generalizing a b with
  | nil => simp [bytesLt] at hbc
  | cons z zs ih =>
    cases a with
    | nil => rfl
    | cons x xs =>
      cases b with
      | nil => simp [bytesLt] at hab
      | cons y ys =>
        rw [bytesLt_cons] at hab hbc ⊢
        obtain hxy | ⟨rfl, hs⟩ := hab
        · exact .inl (hbc.elim hxy.trans fun h => h.1 ▸ hxy)
        · exact hbc.imp_right fun h => ⟨h.1, ih hs h.2⟩

/-- Of two different strings one comes first. -/
theorem bytesLt_tri {a b : Bytes} (hne : a ≠ b) : bytesLt a b = true ∨ bytesLt b a = true := by
  induction a generalizing b with
  | nil => exact .inl (by cases b <;> simp_all [bytesLt])
  | cons x xs ih =>
    cases b with
    | nil => exact .inr rfl
    | cons y ys =>
      simp only [bytesLt_cons]
      rcases lt_trichotomy x.toNat y.toNat with h | h | h
      · exact .inl (.inl h)
      · obtain rfl := BitVec.eq_of_toNat_eq h
        exact (ih fun e => hne (e ▸ rfl)).imp (fun h => .inr ⟨rfl, h⟩) fun h => .inr ⟨rfl, h⟩
      · exact .inr (.inl h)

theorem bytesLt_order : KeyOrder bytesLt where
  irrefl := bytesLt_irrefl
  trans _ _ _ := bytesLt_trans
  tri _ _ hne h := (bytesLt_tri hne).resolve_left (by simp [h])

@[simp] theorem mapGet_nil (k : K) : mapGet k ([] : List (K × V)) = none := rfl

/-- Read after write. -/
theorem mapGet_put (lt : K → K → Bool) (k : K) (v : V) (m : List (K × V)) (k' : K) :
    mapGet k' (mapPut lt k v m) = if k' = k then some v else mapGet k' m := by
  induction m with
  | nil => simp [mapPut, mapGet]
  | cons e m ih =>
    unfold mapPut
    split
    · next h => subst h; by_cases h' : k' = e.1 <;> simp [mapGet, h']
    · split
      · simp [mapGet]
      · next h _ =>
        simp only [mapGet, ih]
        by_cases h' : k' = e.1
        · subst h'; simp [Ne.symm h]
        · simp [h']

/-- Read after removal. -/
theorem mapGet_erase (k : K) (m : List (K × V)) (k' : K) :
    mapGet k' (mapErase k m) = if k' = k then none else mapGet k' m := by
  induction m with
  | nil => simp [mapErase, mapGet]
  | cons e m ih =>
    rw [mapErase] at ih ⊢
    rw [List.filter_cons]
    by_cases h : e.1 = k
    · subst h; simp only [ne_eq, not_true, decide_false, Bool.false_eq_true, if_false, ih, mapGet]
      by_cases h' : k' = e.1 <;> simp [h']
    · simp only [ne_eq, h, not_false_eq_true, decide_true, if_true, mapGet, ih]
      by_cases h' : k' = e.1
      · subst h'; simp [h]
      · simp [h']

theorem mem_mapPut {lt : K → K → Bool} {k : K} {v : V} {m : List (K × V)} {e : K × V} (h : e ∈ mapPut lt k v m) :
    e = (k, v) ∨ e ∈ m := by
  induction m with
  | nil => simpa [mapPut] using h
  | cons a m ih =>
    rw [mapPut] at h
    rw [List.mem_cons]
    split_ifs at h <;> simp only [List.mem_cons] at h <;> tauto

theorem mapGet_mem {k : K} {v : V} {m : List (K × V)} (h : mapGet k m = some v) : (k, v) ∈ m := by
  induction m with
  | nil => simp at h
  | cons e m ih =>
    simp only [mapGet] at h
    split at h
    · next hk => subst hk; simp only [Option.some.injEq] at h; subst h; exact List.mem_cons_self
    · exact List.mem_cons_of_mem _ (ih h)

/-- Writing keeps the canonical form. -/
theorem mapWf_put {lt : K → K → Bool} (o : KeyOrder lt) (k : K) (v : V) {m : List (K × V)} (h : mapWf lt m) :
    mapWf lt (mapPut lt k v m) := by
  induction m with
  | nil => simp [mapWf, mapPut]
  | cons e m ih =>
    have ⟨h₁, h₂⟩ := List.pairwise_cons.1 h
    unfold mapPut
    split
    · next hk => subst hk; exact List.pairwise_cons.2 ⟨h₁, h₂⟩
    · next hk =>
      split
      · next hlt =>
        refine List.pairwise_cons.2 ⟨fun a ha => ?_, h⟩
        rcases List.mem_cons.1 ha with rfl | ha
        · exact hlt
        · exact o.trans _ _ _ hlt (h₁ a ha)
      · next hlt =>
        refine List.pairwise_cons.2 ⟨fun a ha => ?_, ih h₂⟩
        rcases mem_mapPut ha with rfl | ha
        · exact o.tri _ _ hk (by simpa using hlt)
        · exact h₁ a ha

/-- Removing keeps the canonical form. -/
theorem mapWf_erase {lt : K → K → Bool} (k : K) {m : List (K × V)} (h : mapWf lt m) : mapWf lt (mapErase k m) :=
  List.Pairwise.filter _ h

theorem mem_mapErase {k : K} {m : List (K × V)} {e : K × V} (h : e ∈ mapErase k m) : e ∈ m := (List.mem_filter.1 h).1

/-- In a canonical map an entry is what its key reads as. -/
theorem mapGet_of_mem {lt : K → K → Bool} (o : KeyOrder lt) {m : List (K × V)} (h : mapWf lt m) {k : K} {v : V}
    (hm : (k, v) ∈ m) : mapGet k m = some v := by
  induction m with
  | nil => cases hm
  | cons e m ih =>
    have ⟨h₁, h₂⟩ := List.pairwise_cons.1 h
    rcases List.mem_cons.1 hm with rfl | hm
    · simp [mapGet]
    · have : k ≠ e.1 := by
        rintro rfl
        have := h₁ _ hm
        simp [o.irrefl] at this
      simp [mapGet, this, ih h₂ hm]

/-- The entries of a canonical map are what its keys read as. -/
theorem mem_iff_mapGet {lt : K → K → Bool} (o : KeyOrder lt) {m : List (K × V)} (h : mapWf lt m) (k : K) (v : V) :
    (k, v) ∈ m ↔ mapGet k m = some v := ⟨mapGet_of_mem o h, mapGet_mem⟩

/-- Equal readings are equal maps: the form is canonical. -/
theorem map_ext {lt : K → K → Bool} (o : KeyOrder lt) {m n : List (K × V)} (hm : mapWf lt m) (hn : mapWf lt n)
    (h : ∀ k, mapGet k m = mapGet k n) : m = n := by
  have once {l : List (K × V)} (hl : mapWf lt l) : l.Nodup :=
    hl.imp fun {a b} hab e => by rw [e, o.irrefl] at hab; cases hab
  refine List.Perm.eq_of_pairwise (fun a b _ _ hab hba => ?_) hm hn
    ((List.perm_ext_iff_of_nodup (once hm) (once hn)).2 fun ⟨k, v⟩ => by
      rw [mem_iff_mapGet o hm, mem_iff_mapGet o hn, h])
  have := o.trans _ _ _ hab hba
  rw [o.irrefl] at this
  cases this

end Sys2Proof.Machine
end

