-- ==== Sys2Proof/Laws/Dictionaries.lean ====
section
/-! SUPPORT. Laws of the two dictionaries: what each operation makes every key read as, and that each keeps the canonical
form. -/

namespace Sys2Proof.Machine

/-! ### `CB` -/

@[simp] theorem cbLookup_nil (s : Bytes) : cbLookup s [] = none := rfl

/-- R143, R144. -/
theorem cbLookup_store (s : Bytes) (v : Option Nat) (cb : List (Bytes × Nat)) (t : Bytes) :
    cbLookup t (cbStore s v cb) = if t = s then v else cbLookup t cb := by
  cases v with
  | none => exact mapGet_erase s cb t
  | some c => exact mapGet_put bytesLt s c cb t

theorem cbStore_wf (s : Bytes) (v : Option Nat) {cb : List (Bytes × Nat)} (h : mapWf bytesLt cb) :
    mapWf bytesLt (cbStore s v cb) := by
  cases v with
  | none => exact mapWf_erase s h
  | some c => exact mapWf_put bytesLt_order s c h

theorem cbStore_keys {P : Bytes → Prop} {s : Bytes} {v : Option Nat} {cb : List (Bytes × Nat)} (hs : P s)
    (h : ∀ e ∈ cb, P e.1) : ∀ e ∈ cbStore s v cb, P e.1 := by
  intro e he
  cases v with
  | none => exact h e (mem_mapErase he)
  | some c =>
    rcases mem_mapPut he with rfl | he
    · exact hs
    · exact h e he

theorem cbAlphabet_wf (i : Nat) (as : Bytes) {cb : List (Bytes × Nat)} (h : mapWf bytesLt cb) :
    mapWf bytesLt (cbAlphabet i as cb) := by
  induction as generalizing i cb with
  | nil => exact h
  | cons a as ih => exact ih (i + 1) (mapWf_put bytesLt_order [a] i h)

theorem cbAlphabet_keys (i : Nat) (as : Bytes) {cb : List (Bytes × Nat)} (h : ∀ e ∈ cb, e.1.length = 1) :
    ∀ e ∈ cbAlphabet i as cb, e.1.length = 1 := by
  induction as generalizing i cb with
  | nil => exact h
  | cons a as ih =>
    refine ih (i + 1) fun e he => ?_
    rcases mem_mapPut he with rfl | he
    · rfl
    · exact h e he

theorem cbLookup_alphabet_of_not_mem (i : Nat) (as : Bytes) (cb : List (Bytes × Nat)) {s : Bytes}
    (h : ∀ b ∈ as, s ≠ [b]) : cbLookup s (cbAlphabet i as cb) = cbLookup s cb := by
  induction as generalizing i cb with
  | nil => rfl
  | cons a as ih =>
    rw [cbAlphabet, ih (i + 1) _ fun b hb => h b (List.mem_cons_of_mem a hb), cbLookup, mapGet_put,
      if_neg (h a List.mem_cons_self)]
    rfl

theorem cbLookup_alphabet_getElem (i : Nat) {as : Bytes} (cb : List (Bytes × Nat)) (h : as.Nodup) {c : Nat} {b : Byte}
    (hc : as[c]? = some b) : cbLookup [b] (cbAlphabet i as cb) = some (i + c) := by
  induction as generalizing i cb c with
  | nil => simp at hc
  | cons a as ih =>
    rw [List.nodup_cons] at h
    rw [cbAlphabet]
    cases c with
    | zero =>
      have hab : a = b := by simpa using hc
      subst hab
      rw [cbLookup_alphabet_of_not_mem _ _ _ fun b hb he => ?_, cbLookup, mapGet_put, if_pos rfl, Nat.add_zero]
      have : a = b := by simpa using he
      exact h.1 (this ▸ hb)
    | succ c =>
      rw [ih (i + 1) _ h.2 (by simpa using hc)]
      congr 1
      omega

theorem cbInitial_wf (alphabet : Bytes) : mapWf bytesLt (cbInitial alphabet) := cbAlphabet_wf 0 alphabet List.Pairwise.nil

theorem cbInitial_keys (alphabet : Bytes) : ∀ e ∈ cbInitial alphabet, e.1.length = 1 :=
  cbAlphabet_keys 0 alphabet fun _ he => nomatch he

/-- R145: the map `{ ⟨A[i]⟩ ↦ i : 0 ≤ i < |A| }`, for pairwise distinct bytes. -/
theorem cbLookup_initial {alphabet : Bytes} (h : alphabet.Nodup) (s : Bytes) (c : Nat) :
    cbLookup s (cbInitial alphabet) = some c ↔ ∃ b, s = [b] ∧ alphabet[c]? = some b := by
  constructor
  · intro hs
    by_cases hm : ∀ b ∈ alphabet, s ≠ [b]
    · rw [cbInitial, cbLookup_alphabet_of_not_mem _ _ _ hm] at hs
      cases hs
    · push Not at hm
      obtain ⟨b, hb, rfl⟩ := hm
      obtain ⟨n, hn⟩ := List.getElem?_of_mem hb
      rw [cbInitial, cbLookup_alphabet_getElem 0 _ h hn] at hs
      simp only [Nat.zero_add, Option.some.injEq] at hs
      exact ⟨b, rfl, hs ▸ hn⟩
  · rintro ⟨b, rfl, hb⟩
    rw [cbInitial, cbLookup_alphabet_getElem 0 _ h hb, Nat.zero_add]

/-! ### `CT` -/

@[simp] theorem ctLookup_nil (x : Nat) : ctLookup x [] = none := rfl

/-- R151. -/
theorem ctLookup_store (x : Nat) (s : Bytes) (ct : List (Nat × Bytes)) (y : Nat) :
    ctLookup y (ctStore x s ct) = if y = x then some s else ctLookup y ct := mapGet_put natLt x s ct y

/-- R152. -/
theorem ctLookup_erase (x : Nat) (ct : List (Nat × Bytes)) (y : Nat) :
    ctLookup y (ctErase x ct) = if y = x then none else ctLookup y ct := mapGet_erase x ct y

theorem ctStore_wf (x : Nat) (s : Bytes) {ct : List (Nat × Bytes)} (h : mapWf natLt ct) : mapWf natLt (ctStore x s ct) :=
  mapWf_put natLt_order x s h

theorem ctErase_wf (x : Nat) {ct : List (Nat × Bytes)} (h : mapWf natLt ct) : mapWf natLt (ctErase x ct) := mapWf_erase x h

theorem ctLookup_alphabet (size i : Nat) (as : Bytes) (x : Nat) :
    ctLookup x (ctAlphabet size i as) = if i ≤ x ∧ x < size then (as[x - i]?).map fun b => [b] else none := by
  induction as generalizing i with
  | nil => simp [ctAlphabet]
  | cons a as ih =>
    rw [ctAlphabet]
    by_cases hi : i < size
    · rw [if_pos hi]
      by_cases hx : x = i
      · subst hx
        rw [ctLookup, mapGet, if_pos rfl, if_pos ⟨le_refl _, hi⟩]
        simp
      · have := ih (i + 1)
        rw [ctLookup] at this ⊢
        rw [mapGet, if_neg hx, this]
        by_cases hle : i ≤ x
        · have e : x - i = x - (i + 1) + 1 := by omega
          rw [e, List.getElem?_cons_succ]
          by_cases hs : x < size
          · rw [if_pos ⟨by omega, hs⟩, if_pos ⟨hle, hs⟩]
          · rw [if_neg (by omega), if_neg (by omega)]
        · rw [if_neg (by omega), if_neg (by omega)]
    · rw [if_neg hi, if_neg (by omega)]
      rfl

/-- R153: slot `x` is `⟨A[x]⟩` for `x < |A|`, absent otherwise; only the first `size` codes have slots. -/
theorem ctLookup_initial (size : Nat) (alphabet : Bytes) (x : Nat) :
    ctLookup x (ctInitial size alphabet) = if x < size then (alphabet[x]?).map fun b => [b] else none := by
  rw [ctInitial, ctLookup_alphabet]
  simp

theorem mem_ctAlphabet {size i : Nat} {as : Bytes} {e : Nat × Bytes} (h : e ∈ ctAlphabet size i as) :
    i ≤ e.1 ∧ e.1 < size ∧ e.2.length = 1 := by
  induction as generalizing i with
  | nil => cases h
  | cons a as ih =>
    rw [ctAlphabet] at h
    split at h
    · next hi =>
      rcases List.mem_cons.1 h with rfl | h
      · exact ⟨le_refl _, hi, rfl⟩
      · have := ih h
        exact ⟨by omega, this.2⟩
    · cases h

theorem ctAlphabet_wf (size i : Nat) (as : Bytes) : mapWf natLt (ctAlphabet size i as) := by
  induction as generalizing i with
  | nil => exact List.Pairwise.nil
  | cons a as ih =>
    rw [ctAlphabet]
    split
    · refine List.Pairwise.cons (fun e he => ?_) (ih (i + 1))
      have := (mem_ctAlphabet he).1
      simp only [natLt, decide_eq_true_eq]
      omega
    · exact List.Pairwise.nil

theorem ctInitial_wf (size : Nat) (alphabet : Bytes) : mapWf natLt (ctInitial size alphabet) := ctAlphabet_wf size 0 alphabet

end Sys2Proof.Machine
end

