-- ==== Sys2Proof/Laws/State.lean ====
section
/-! SUPPORT. One lemma per field per named update of the state, so that no later proof unfolds an update. A field an update
writes has its new value; every other field is unchanged. -/

namespace Sys2Proof.Machine

/-! `Enc.raise` -/

@[simp] theorem Enc.raise_cfg (c : Cause) (e : Enc) : (e.raise c).cfg = e.cfg := rfl
@[simp] theorem Enc.raise_M (c : Cause) (e : Enc) : (e.raise c).M = e.M := rfl
@[simp] theorem Enc.raise_eofCode (c : Cause) (e : Enc) : (e.raise c).eofCode = e.eofCode := rfl
@[simp] theorem Enc.raise_resetCode (c : Cause) (e : Enc) : (e.raise c).resetCode = e.resetCode := rfl
@[simp] theorem Enc.raise_initialNextCode (c : Cause) (e : Enc) : (e.raise c).initialNextCode = e.initialNextCode := rfl
@[simp] theorem Enc.raise_nextCode (c : Cause) (e : Enc) : (e.raise c).nextCode = e.nextCode := rfl
@[simp] theorem Enc.raise_W (c : Cause) (e : Enc) : (e.raise c).W = e.W := rfl
@[simp] theorem Enc.raise_T (c : Cause) (e : Enc) : (e.raise c).T = e.T := rfl
@[simp] theorem Enc.raise_current (c : Cause) (e : Enc) : (e.raise c).current = e.current := rfl
@[simp] theorem Enc.raise_phase (c : Cause) (e : Enc) : (e.raise c).phase = .fault := rfl
@[simp] theorem Enc.raise_fault (c : Cause) (e : Enc) : (e.raise c).fault = some c := rfl
@[simp] theorem Enc.raise_cb (c : Cause) (e : Enc) : (e.raise c).cb = e.cb := rfl
@[simp] theorem Enc.raise_trk (c : Cause) (e : Enc) : (e.raise c).trk = e.trk := rfl
@[simp] theorem Enc.raise_bw (c : Cause) (e : Enc) : (e.raise c).bw = e.bw := rfl

/-! `Enc.emit` -/

@[simp] theorem Enc.emit_cfg (code : Nat) (e : Enc) : (e.emit code).cfg = e.cfg := rfl
@[simp] theorem Enc.emit_M (code : Nat) (e : Enc) : (e.emit code).M = e.M := rfl
@[simp] theorem Enc.emit_eofCode (code : Nat) (e : Enc) : (e.emit code).eofCode = e.eofCode := rfl
@[simp] theorem Enc.emit_resetCode (code : Nat) (e : Enc) : (e.emit code).resetCode = e.resetCode := rfl
@[simp] theorem Enc.emit_initialNextCode (code : Nat) (e : Enc) : (e.emit code).initialNextCode = e.initialNextCode := rfl
@[simp] theorem Enc.emit_nextCode (code : Nat) (e : Enc) : (e.emit code).nextCode = e.nextCode := rfl
@[simp] theorem Enc.emit_W (code : Nat) (e : Enc) : (e.emit code).W = e.W := rfl
@[simp] theorem Enc.emit_T (code : Nat) (e : Enc) : (e.emit code).T = e.T := rfl
@[simp] theorem Enc.emit_current (code : Nat) (e : Enc) : (e.emit code).current = e.current := rfl
@[simp] theorem Enc.emit_phase (code : Nat) (e : Enc) : (e.emit code).phase = e.phase := rfl
@[simp] theorem Enc.emit_fault (code : Nat) (e : Enc) : (e.emit code).fault = e.fault := rfl
@[simp] theorem Enc.emit_cb (code : Nat) (e : Enc) : (e.emit code).cb = e.cb := rfl
@[simp] theorem Enc.emit_trk (code : Nat) (e : Enc) : (e.emit code).trk = e.trk := rfl
@[simp] theorem Enc.emit_bw (code : Nat) (e : Enc) : (e.emit code).bw = e.bw.write code e.W := rfl

/-! `Enc.useCurrent` -/

@[simp] theorem Enc.useCurrent_cfg (e : Enc) : (e.useCurrent).cfg = e.cfg := by
  unfold Enc.useCurrent; split <;> rfl
@[simp] theorem Enc.useCurrent_M (e : Enc) : (e.useCurrent).M = e.M := by
  unfold Enc.useCurrent; split <;> rfl
@[simp] theorem Enc.useCurrent_eofCode (e : Enc) : (e.useCurrent).eofCode = e.eofCode := by
  unfold Enc.useCurrent; split <;> rfl
@[simp] theorem Enc.useCurrent_resetCode (e : Enc) : (e.useCurrent).resetCode = e.resetCode := by
  unfold Enc.useCurrent; split <;> rfl
@[simp] theorem Enc.useCurrent_initialNextCode (e : Enc) : (e.useCurrent).initialNextCode = e.initialNextCode := by
  unfold Enc.useCurrent; split <;> rfl
@[simp] theorem Enc.useCurrent_nextCode (e : Enc) : (e.useCurrent).nextCode = e.nextCode := by
  unfold Enc.useCurrent; split <;> rfl
@[simp] theorem Enc.useCurrent_W (e : Enc) : (e.useCurrent).W = e.W := by
  unfold Enc.useCurrent; split <;> rfl
@[simp] theorem Enc.useCurrent_T (e : Enc) : (e.useCurrent).T = e.T := by
  unfold Enc.useCurrent; split <;> rfl
@[simp] theorem Enc.useCurrent_current (e : Enc) : (e.useCurrent).current = e.current := by
  unfold Enc.useCurrent; split <;> rfl
@[simp] theorem Enc.useCurrent_phase (e : Enc) : (e.useCurrent).phase = e.phase := by
  unfold Enc.useCurrent; split <;> rfl
@[simp] theorem Enc.useCurrent_fault (e : Enc) : (e.useCurrent).fault = e.fault := by
  unfold Enc.useCurrent; split <;> rfl
@[simp] theorem Enc.useCurrent_cb (e : Enc) : (e.useCurrent).cb = e.cb := by
  unfold Enc.useCurrent; split <;> rfl
@[simp] theorem Enc.useCurrent_trk (e : Enc) : (e.useCurrent).trk = if 2 ≤ e.current.length then e.trk.use bytesLt e.cfg.policy e.current else e.trk := by
  unfold Enc.useCurrent; split <;> rfl
@[simp] theorem Enc.useCurrent_bw (e : Enc) : (e.useCurrent).bw = e.bw := by
  unfold Enc.useCurrent; split <;> rfl

/-! `Enc.widthCheck` -/

@[simp] theorem Enc.widthCheck_cfg (e : Enc) : (e.widthCheck).cfg = e.cfg := by
  unfold Enc.widthCheck; split <;> rfl
@[simp] theorem Enc.widthCheck_M (e : Enc) : (e.widthCheck).M = e.M := by
  unfold Enc.widthCheck; split <;> rfl
@[simp] theorem Enc.widthCheck_eofCode (e : Enc) : (e.widthCheck).eofCode = e.eofCode := by
  unfold Enc.widthCheck; split <;> rfl
@[simp] theorem Enc.widthCheck_resetCode (e : Enc) : (e.widthCheck).resetCode = e.resetCode := by
  unfold Enc.widthCheck; split <;> rfl
@[simp] theorem Enc.widthCheck_initialNextCode (e : Enc) : (e.widthCheck).initialNextCode = e.initialNextCode := by
  unfold Enc.widthCheck; split <;> rfl
@[simp] theorem Enc.widthCheck_nextCode (e : Enc) : (e.widthCheck).nextCode = e.nextCode := by
  unfold Enc.widthCheck; split <;> rfl
@[simp] theorem Enc.widthCheck_W (e : Enc) : (e.widthCheck).W = if e.T ≤ e.nextCode ∧ e.W < e.cfg.maxW then e.W + 1 else e.W := by
  unfold Enc.widthCheck; split <;> rfl
@[simp] theorem Enc.widthCheck_T (e : Enc) : (e.widthCheck).T = if e.T ≤ e.nextCode ∧ e.W < e.cfg.maxW then 2 ^ (e.W + 1) else e.T := by
  unfold Enc.widthCheck; split <;> rfl
@[simp] theorem Enc.widthCheck_current (e : Enc) : (e.widthCheck).current = e.current := by
  unfold Enc.widthCheck; split <;> rfl
@[simp] theorem Enc.widthCheck_phase (e : Enc) : (e.widthCheck).phase = e.phase := by
  unfold Enc.widthCheck; split <;> rfl
@[simp] theorem Enc.widthCheck_fault (e : Enc) : (e.widthCheck).fault = e.fault := by
  unfold Enc.widthCheck; split <;> rfl
@[simp] theorem Enc.widthCheck_cb (e : Enc) : (e.widthCheck).cb = e.cb := by
  unfold Enc.widthCheck; split <;> rfl
@[simp] theorem Enc.widthCheck_trk (e : Enc) : (e.widthCheck).trk = e.trk := by
  unfold Enc.widthCheck; split <;> rfl
@[simp] theorem Enc.widthCheck_bw (e : Enc) : (e.widthCheck).bw = e.bw := by
  unfold Enc.widthCheck; split <;> rfl

/-! `Enc.evict` -/

@[simp] theorem Enc.evict_cfg (e : Enc) : (e.evict).cfg = e.cfg := by
  unfold Enc.evict; split
  · split <;> rfl
  · rfl
@[simp] theorem Enc.evict_M (e : Enc) : (e.evict).M = e.M := by
  unfold Enc.evict; split
  · split <;> rfl
  · rfl
@[simp] theorem Enc.evict_eofCode (e : Enc) : (e.evict).eofCode = e.eofCode := by
  unfold Enc.evict; split
  · split <;> rfl
  · rfl
@[simp] theorem Enc.evict_resetCode (e : Enc) : (e.evict).resetCode = e.resetCode := by
  unfold Enc.evict; split
  · split <;> rfl
  · rfl
@[simp] theorem Enc.evict_initialNextCode (e : Enc) : (e.evict).initialNextCode = e.initialNextCode := by
  unfold Enc.evict; split
  · split <;> rfl
  · rfl
@[simp] theorem Enc.evict_nextCode (e : Enc) : (e.evict).nextCode = e.nextCode := by
  unfold Enc.evict; split
  · split <;> rfl
  · rfl
@[simp] theorem Enc.evict_W (e : Enc) : (e.evict).W = e.W := by
  unfold Enc.evict; split
  · split <;> rfl
  · rfl
@[simp] theorem Enc.evict_T (e : Enc) : (e.evict).T = e.T := by
  unfold Enc.evict; split
  · split <;> rfl
  · rfl
@[simp] theorem Enc.evict_current (e : Enc) : (e.evict).current = e.current := by
  unfold Enc.evict; split
  · split <;> rfl
  · rfl
@[simp] theorem Enc.evict_phase (e : Enc) : (e.evict).phase = e.phase := by
  unfold Enc.evict; split
  · split <;> rfl
  · rfl
@[simp] theorem Enc.evict_fault (e : Enc) : (e.evict).fault = e.fault := by
  unfold Enc.evict; split
  · split <;> rfl
  · rfl
@[simp] theorem Enc.evict_bw (e : Enc) : (e.evict).bw = e.bw := by
  unfold Enc.evict; split
  · split <;> rfl
  · rfl

/-! `Enc.insert` -/

@[simp] theorem Enc.insert_cfg (next : Bytes) (e : Enc) : (e.insert next).cfg = e.cfg := rfl
@[simp] theorem Enc.insert_M (next : Bytes) (e : Enc) : (e.insert next).M = e.M := rfl
@[simp] theorem Enc.insert_eofCode (next : Bytes) (e : Enc) : (e.insert next).eofCode = e.eofCode := rfl
@[simp] theorem Enc.insert_resetCode (next : Bytes) (e : Enc) : (e.insert next).resetCode = e.resetCode := rfl
@[simp] theorem Enc.insert_initialNextCode (next : Bytes) (e : Enc) : (e.insert next).initialNextCode = e.initialNextCode := rfl
@[simp] theorem Enc.insert_nextCode (next : Bytes) (e : Enc) : (e.insert next).nextCode = e.nextCode + 1 := rfl
@[simp] theorem Enc.insert_W (next : Bytes) (e : Enc) : (e.insert next).W = e.W := rfl
@[simp] theorem Enc.insert_T (next : Bytes) (e : Enc) : (e.insert next).T = e.T := rfl
@[simp] theorem Enc.insert_current (next : Bytes) (e : Enc) : (e.insert next).current = e.current := rfl
@[simp] theorem Enc.insert_phase (next : Bytes) (e : Enc) : (e.insert next).phase = e.phase := rfl
@[simp] theorem Enc.insert_fault (next : Bytes) (e : Enc) : (e.insert next).fault = e.fault := rfl
@[simp] theorem Enc.insert_cb (next : Bytes) (e : Enc) : (e.insert next).cb = cbStore next (some e.nextCode) e.cb := rfl
@[simp] theorem Enc.insert_trk (next : Bytes) (e : Enc) : (e.insert next).trk = e.trk.use bytesLt e.cfg.policy next := rfl
@[simp] theorem Enc.insert_bw (next : Bytes) (e : Enc) : (e.insert next).bw = e.bw := rfl

/-! `Enc.flush` -/

@[simp] theorem Enc.flush_cfg (e : Enc) : (e.flush).cfg = e.cfg := rfl
@[simp] theorem Enc.flush_M (e : Enc) : (e.flush).M = e.M := rfl
@[simp] theorem Enc.flush_eofCode (e : Enc) : (e.flush).eofCode = e.eofCode := rfl
@[simp] theorem Enc.flush_resetCode (e : Enc) : (e.flush).resetCode = e.resetCode := rfl
@[simp] theorem Enc.flush_initialNextCode (e : Enc) : (e.flush).initialNextCode = e.initialNextCode := rfl
@[simp] theorem Enc.flush_nextCode (e : Enc) : (e.flush).nextCode = e.initialNextCode := rfl
@[simp] theorem Enc.flush_W (e : Enc) : (e.flush).W = e.cfg.minW := rfl
@[simp] theorem Enc.flush_T (e : Enc) : (e.flush).T = 2 ^ e.cfg.minW := rfl
@[simp] theorem Enc.flush_current (e : Enc) : (e.flush).current = e.current := rfl
@[simp] theorem Enc.flush_phase (e : Enc) : (e.flush).phase = e.phase := rfl
@[simp] theorem Enc.flush_fault (e : Enc) : (e.flush).fault = e.fault := rfl
@[simp] theorem Enc.flush_cb (e : Enc) : (e.flush).cb = cbInitial e.cfg.alphabet := rfl
@[simp] theorem Enc.flush_trk (e : Enc) : (e.flush).trk = e.trk := rfl
@[simp] theorem Enc.flush_bw (e : Enc) : (e.flush).bw = e.bw := rfl

/-! `Enc.finish` -/

@[simp] theorem Enc.finish_cfg (e : Enc) : (e.finish).cfg = e.cfg := rfl
@[simp] theorem Enc.finish_M (e : Enc) : (e.finish).M = e.M := rfl
@[simp] theorem Enc.finish_eofCode (e : Enc) : (e.finish).eofCode = e.eofCode := rfl
@[simp] theorem Enc.finish_resetCode (e : Enc) : (e.finish).resetCode = e.resetCode := rfl
@[simp] theorem Enc.finish_initialNextCode (e : Enc) : (e.finish).initialNextCode = e.initialNextCode := rfl
@[simp] theorem Enc.finish_nextCode (e : Enc) : (e.finish).nextCode = e.nextCode := rfl
@[simp] theorem Enc.finish_W (e : Enc) : (e.finish).W = e.W := rfl
@[simp] theorem Enc.finish_T (e : Enc) : (e.finish).T = e.T := rfl
@[simp] theorem Enc.finish_current (e : Enc) : (e.finish).current = e.current := rfl
@[simp] theorem Enc.finish_phase (e : Enc) : (e.finish).phase = .done := rfl
@[simp] theorem Enc.finish_fault (e : Enc) : (e.finish).fault = e.fault := rfl
@[simp] theorem Enc.finish_cb (e : Enc) : (e.finish).cb = e.cb := rfl
@[simp] theorem Enc.finish_trk (e : Enc) : (e.finish).trk = e.trk := rfl
@[simp] theorem Enc.finish_bw (e : Enc) : (e.finish).bw = e.bw.close := rfl

/-! `Enc.hdrWrite` -/

@[simp] theorem Enc.hdrWrite_cfg (e : Enc) : (e.hdrWrite).cfg = e.cfg := rfl
@[simp] theorem Enc.hdrWrite_M (e : Enc) : (e.hdrWrite).M = e.M := rfl
@[simp] theorem Enc.hdrWrite_eofCode (e : Enc) : (e.hdrWrite).eofCode = e.eofCode := rfl
@[simp] theorem Enc.hdrWrite_resetCode (e : Enc) : (e.hdrWrite).resetCode = e.resetCode := rfl
@[simp] theorem Enc.hdrWrite_initialNextCode (e : Enc) : (e.hdrWrite).initialNextCode = e.initialNextCode := rfl
@[simp] theorem Enc.hdrWrite_nextCode (e : Enc) : (e.hdrWrite).nextCode = e.nextCode := rfl
@[simp] theorem Enc.hdrWrite_W (e : Enc) : (e.hdrWrite).W = e.W := rfl
@[simp] theorem Enc.hdrWrite_T (e : Enc) : (e.hdrWrite).T = e.T := rfl
@[simp] theorem Enc.hdrWrite_current (e : Enc) : (e.hdrWrite).current = e.current := rfl
@[simp] theorem Enc.hdrWrite_phase (e : Enc) : (e.hdrWrite).phase = e.phase := rfl
@[simp] theorem Enc.hdrWrite_fault (e : Enc) : (e.hdrWrite).fault = e.fault := rfl
@[simp] theorem Enc.hdrWrite_cb (e : Enc) : (e.hdrWrite).cb = e.cb := rfl
@[simp] theorem Enc.hdrWrite_trk (e : Enc) : (e.hdrWrite).trk = e.trk := rfl

/-! `Enc.start` -/

@[simp] theorem Enc.start_cfg (e : Enc) : (e.start).cfg = e.cfg := rfl
@[simp] theorem Enc.start_M (e : Enc) : (e.start).M = tableSize e.cfg := rfl
@[simp] theorem Enc.start_eofCode (e : Enc) : (e.start).eofCode = e.cfg.alphabetSize := rfl
@[simp] theorem Enc.start_resetCode (e : Enc) : (e.start).resetCode = if e.cfg.policy = .reset then e.cfg.alphabetSize + 1 else e.resetCode := rfl
@[simp] theorem Enc.start_initialNextCode (e : Enc) : (e.start).initialNextCode = firstUserCode e.cfg := rfl
@[simp] theorem Enc.start_nextCode (e : Enc) : (e.start).nextCode = firstUserCode e.cfg := rfl
@[simp] theorem Enc.start_W (e : Enc) : (e.start).W = e.cfg.minW := rfl
@[simp] theorem Enc.start_T (e : Enc) : (e.start).T = 2 ^ e.cfg.minW := rfl
@[simp] theorem Enc.start_current (e : Enc) : (e.start).current = [] := rfl
@[simp] theorem Enc.start_phase (e : Enc) : (e.start).phase = .first := rfl
@[simp] theorem Enc.start_fault (e : Enc) : (e.start).fault = e.fault := rfl
@[simp] theorem Enc.start_cb (e : Enc) : (e.start).cb = cbInitial e.cfg.alphabet := rfl
@[simp] theorem Enc.start_trk (e : Enc) : (e.start).trk = Trk.empty := rfl
@[simp] theorem Enc.start_bw (e : Enc) : (e.start).bw = e.hdrWrite.bw := rfl

/-! `Dec.raise` -/

@[simp] theorem Dec.raise_cfg (c : Cause) (d : Dec) : (d.raise c).cfg = d.cfg := rfl
@[simp] theorem Dec.raise_M (c : Cause) (d : Dec) : (d.raise c).M = d.M := rfl
@[simp] theorem Dec.raise_eofCode (c : Cause) (d : Dec) : (d.raise c).eofCode = d.eofCode := rfl
@[simp] theorem Dec.raise_resetCode (c : Cause) (d : Dec) : (d.raise c).resetCode = d.resetCode := rfl
@[simp] theorem Dec.raise_initialNextCode (c : Cause) (d : Dec) : (d.raise c).initialNextCode = d.initialNextCode := rfl
@[simp] theorem Dec.raise_nextCode (c : Cause) (d : Dec) : (d.raise c).nextCode = d.nextCode := rfl
@[simp] theorem Dec.raise_W (c : Cause) (d : Dec) : (d.raise c).W = d.W := rfl
@[simp] theorem Dec.raise_T (c : Cause) (d : Dec) : (d.raise c).T = d.T := rfl
@[simp] theorem Dec.raise_prev (c : Cause) (d : Dec) : (d.raise c).prev = d.prev := rfl
@[simp] theorem Dec.raise_out (c : Cause) (d : Dec) : (d.raise c).out = d.out := rfl
@[simp] theorem Dec.raise_phase (c : Cause) (d : Dec) : (d.raise c).phase = .fault := rfl
@[simp] theorem Dec.raise_fault (c : Cause) (d : Dec) : (d.raise c).fault = some c := rfl
@[simp] theorem Dec.raise_ct (c : Cause) (d : Dec) : (d.raise c).ct = d.ct := rfl
@[simp] theorem Dec.raise_trk (c : Cause) (d : Dec) : (d.raise c).trk = d.trk := rfl
@[simp] theorem Dec.raise_br (c : Cause) (d : Dec) : (d.raise c).br = d.br := rfl

/-! `Dec.stop` -/

@[simp] theorem Dec.stop_cfg (d : Dec) : (d.stop).cfg = d.cfg := rfl
@[simp] theorem Dec.stop_M (d : Dec) : (d.stop).M = d.M := rfl
@[simp] theorem Dec.stop_eofCode (d : Dec) : (d.stop).eofCode = d.eofCode := rfl
@[simp] theorem Dec.stop_resetCode (d : Dec) : (d.stop).resetCode = d.resetCode := rfl
@[simp] theorem Dec.stop_initialNextCode (d : Dec) : (d.stop).initialNextCode = d.initialNextCode := rfl
@[simp] theorem Dec.stop_nextCode (d : Dec) : (d.stop).nextCode = d.nextCode := rfl
@[simp] theorem Dec.stop_W (d : Dec) : (d.stop).W = d.W := rfl
@[simp] theorem Dec.stop_T (d : Dec) : (d.stop).T = d.T := rfl
@[simp] theorem Dec.stop_prev (d : Dec) : (d.stop).prev = d.prev := rfl
@[simp] theorem Dec.stop_out (d : Dec) : (d.stop).out = d.out := rfl
@[simp] theorem Dec.stop_phase (d : Dec) : (d.stop).phase = .done := rfl
@[simp] theorem Dec.stop_fault (d : Dec) : (d.stop).fault = d.fault := rfl
@[simp] theorem Dec.stop_ct (d : Dec) : (d.stop).ct = d.ct := rfl
@[simp] theorem Dec.stop_trk (d : Dec) : (d.stop).trk = d.trk := rfl
@[simp] theorem Dec.stop_br (d : Dec) : (d.stop).br = d.br := rfl

/-! `Dec.flush` -/

@[simp] theorem Dec.flush_cfg (d : Dec) : (d.flush).cfg = d.cfg := rfl
@[simp] theorem Dec.flush_M (d : Dec) : (d.flush).M = d.M := rfl
@[simp] theorem Dec.flush_eofCode (d : Dec) : (d.flush).eofCode = d.eofCode := rfl
@[simp] theorem Dec.flush_resetCode (d : Dec) : (d.flush).resetCode = d.resetCode := rfl
@[simp] theorem Dec.flush_initialNextCode (d : Dec) : (d.flush).initialNextCode = d.initialNextCode := rfl
@[simp] theorem Dec.flush_nextCode (d : Dec) : (d.flush).nextCode = d.initialNextCode := rfl
@[simp] theorem Dec.flush_W (d : Dec) : (d.flush).W = d.cfg.minW := rfl
@[simp] theorem Dec.flush_T (d : Dec) : (d.flush).T = 2 ^ d.cfg.minW := rfl
@[simp] theorem Dec.flush_prev (d : Dec) : (d.flush).prev = d.prev := rfl
@[simp] theorem Dec.flush_out (d : Dec) : (d.flush).out = d.out := rfl
@[simp] theorem Dec.flush_phase (d : Dec) : (d.flush).phase = .postReset := rfl
@[simp] theorem Dec.flush_fault (d : Dec) : (d.flush).fault = d.fault := rfl
@[simp] theorem Dec.flush_ct (d : Dec) : (d.flush).ct = ctInitial (tableSize d.cfg) d.cfg.alphabet := rfl
@[simp] theorem Dec.flush_trk (d : Dec) : (d.flush).trk = d.trk := rfl
@[simp] theorem Dec.flush_br (d : Dec) : (d.flush).br = d.br := rfl

/-! `Dec.emit` -/

@[simp] theorem Dec.emit_cfg (str : Bytes) (d : Dec) : (d.emit str).cfg = d.cfg := rfl
@[simp] theorem Dec.emit_M (str : Bytes) (d : Dec) : (d.emit str).M = d.M := rfl
@[simp] theorem Dec.emit_eofCode (str : Bytes) (d : Dec) : (d.emit str).eofCode = d.eofCode := rfl
@[simp] theorem Dec.emit_resetCode (str : Bytes) (d : Dec) : (d.emit str).resetCode = d.resetCode := rfl
@[simp] theorem Dec.emit_initialNextCode (str : Bytes) (d : Dec) : (d.emit str).initialNextCode = d.initialNextCode := rfl
@[simp] theorem Dec.emit_nextCode (str : Bytes) (d : Dec) : (d.emit str).nextCode = d.nextCode := rfl
@[simp] theorem Dec.emit_W (str : Bytes) (d : Dec) : (d.emit str).W = d.W := rfl
@[simp] theorem Dec.emit_T (str : Bytes) (d : Dec) : (d.emit str).T = d.T := rfl
@[simp] theorem Dec.emit_prev (str : Bytes) (d : Dec) : (d.emit str).prev = d.prev := rfl
@[simp] theorem Dec.emit_out (str : Bytes) (d : Dec) : (d.emit str).out = d.out ++ str := rfl
@[simp] theorem Dec.emit_phase (str : Bytes) (d : Dec) : (d.emit str).phase = d.phase := rfl
@[simp] theorem Dec.emit_fault (str : Bytes) (d : Dec) : (d.emit str).fault = d.fault := rfl
@[simp] theorem Dec.emit_ct (str : Bytes) (d : Dec) : (d.emit str).ct = d.ct := rfl
@[simp] theorem Dec.emit_trk (str : Bytes) (d : Dec) : (d.emit str).trk = d.trk := rfl
@[simp] theorem Dec.emit_br (str : Bytes) (d : Dec) : (d.emit str).br = d.br := rfl

/-! `Dec.restart` -/

@[simp] theorem Dec.restart_cfg (str : Bytes) (d : Dec) : (d.restart str).cfg = d.cfg := rfl
@[simp] theorem Dec.restart_M (str : Bytes) (d : Dec) : (d.restart str).M = d.M := rfl
@[simp] theorem Dec.restart_eofCode (str : Bytes) (d : Dec) : (d.restart str).eofCode = d.eofCode := rfl
@[simp] theorem Dec.restart_resetCode (str : Bytes) (d : Dec) : (d.restart str).resetCode = d.resetCode := rfl
@[simp] theorem Dec.restart_initialNextCode (str : Bytes) (d : Dec) : (d.restart str).initialNextCode = d.initialNextCode := rfl
@[simp] theorem Dec.restart_nextCode (str : Bytes) (d : Dec) : (d.restart str).nextCode = d.nextCode := rfl
@[simp] theorem Dec.restart_W (str : Bytes) (d : Dec) : (d.restart str).W = d.W := rfl
@[simp] theorem Dec.restart_T (str : Bytes) (d : Dec) : (d.restart str).T = d.T := rfl
@[simp] theorem Dec.restart_prev (str : Bytes) (d : Dec) : (d.restart str).prev = str := rfl
@[simp] theorem Dec.restart_out (str : Bytes) (d : Dec) : (d.restart str).out = d.out ++ str := rfl
@[simp] theorem Dec.restart_phase (str : Bytes) (d : Dec) : (d.restart str).phase = .run := rfl
@[simp] theorem Dec.restart_fault (str : Bytes) (d : Dec) : (d.restart str).fault = d.fault := rfl
@[simp] theorem Dec.restart_ct (str : Bytes) (d : Dec) : (d.restart str).ct = d.ct := rfl
@[simp] theorem Dec.restart_trk (str : Bytes) (d : Dec) : (d.restart str).trk = d.trk := rfl
@[simp] theorem Dec.restart_br (str : Bytes) (d : Dec) : (d.restart str).br = d.br := rfl

/-! `Dec.insert` -/

@[simp] theorem Dec.insert_cfg (new : Bytes) (d : Dec) : (d.insert new).cfg = d.cfg := rfl
@[simp] theorem Dec.insert_M (new : Bytes) (d : Dec) : (d.insert new).M = d.M := rfl
@[simp] theorem Dec.insert_eofCode (new : Bytes) (d : Dec) : (d.insert new).eofCode = d.eofCode := rfl
@[simp] theorem Dec.insert_resetCode (new : Bytes) (d : Dec) : (d.insert new).resetCode = d.resetCode := rfl
@[simp] theorem Dec.insert_initialNextCode (new : Bytes) (d : Dec) : (d.insert new).initialNextCode = d.initialNextCode := rfl
@[simp] theorem Dec.insert_nextCode (new : Bytes) (d : Dec) : (d.insert new).nextCode = d.nextCode + 1 := rfl
@[simp] theorem Dec.insert_W (new : Bytes) (d : Dec) : (d.insert new).W = d.W := rfl
@[simp] theorem Dec.insert_T (new : Bytes) (d : Dec) : (d.insert new).T = d.T := rfl
@[simp] theorem Dec.insert_prev (new : Bytes) (d : Dec) : (d.insert new).prev = d.prev := rfl
@[simp] theorem Dec.insert_out (new : Bytes) (d : Dec) : (d.insert new).out = d.out := rfl
@[simp] theorem Dec.insert_phase (new : Bytes) (d : Dec) : (d.insert new).phase = d.phase := rfl
@[simp] theorem Dec.insert_fault (new : Bytes) (d : Dec) : (d.insert new).fault = d.fault := rfl
@[simp] theorem Dec.insert_ct (new : Bytes) (d : Dec) : (d.insert new).ct = ctStore d.nextCode new d.ct := rfl
@[simp] theorem Dec.insert_trk (new : Bytes) (d : Dec) : (d.insert new).trk = d.trk.use natLt d.cfg.policy d.nextCode := rfl
@[simp] theorem Dec.insert_br (new : Bytes) (d : Dec) : (d.insert new).br = d.br := rfl

/-! `Dec.useCode` -/

@[simp] theorem Dec.useCode_cfg (x : Nat) (d : Dec) : (d.useCode x).cfg = d.cfg := by
  unfold Dec.useCode; split <;> rfl
@[simp] theorem Dec.useCode_M (x : Nat) (d : Dec) : (d.useCode x).M = d.M := by
  unfold Dec.useCode; split <;> rfl
@[simp] theorem Dec.useCode_eofCode (x : Nat) (d : Dec) : (d.useCode x).eofCode = d.eofCode := by
  unfold Dec.useCode; split <;> rfl
@[simp] theorem Dec.useCode_resetCode (x : Nat) (d : Dec) : (d.useCode x).resetCode = d.resetCode := by
  unfold Dec.useCode; split <;> rfl
@[simp] theorem Dec.useCode_initialNextCode (x : Nat) (d : Dec) : (d.useCode x).initialNextCode = d.initialNextCode := by
  unfold Dec.useCode; split <;> rfl
@[simp] theorem Dec.useCode_nextCode (x : Nat) (d : Dec) : (d.useCode x).nextCode = d.nextCode := by
  unfold Dec.useCode; split <;> rfl
@[simp] theorem Dec.useCode_W (x : Nat) (d : Dec) : (d.useCode x).W = d.W := by
  unfold Dec.useCode; split <;> rfl
@[simp] theorem Dec.useCode_T (x : Nat) (d : Dec) : (d.useCode x).T = d.T := by
  unfold Dec.useCode; split <;> rfl
@[simp] theorem Dec.useCode_prev (x : Nat) (d : Dec) : (d.useCode x).prev = d.prev := by
  unfold Dec.useCode; split <;> rfl
@[simp] theorem Dec.useCode_out (x : Nat) (d : Dec) : (d.useCode x).out = d.out := by
  unfold Dec.useCode; split <;> rfl
@[simp] theorem Dec.useCode_phase (x : Nat) (d : Dec) : (d.useCode x).phase = d.phase := by
  unfold Dec.useCode; split <;> rfl
@[simp] theorem Dec.useCode_fault (x : Nat) (d : Dec) : (d.useCode x).fault = d.fault := by
  unfold Dec.useCode; split <;> rfl
@[simp] theorem Dec.useCode_ct (x : Nat) (d : Dec) : (d.useCode x).ct = d.ct := by
  unfold Dec.useCode; split <;> rfl
@[simp] theorem Dec.useCode_trk (x : Nat) (d : Dec) : (d.useCode x).trk = if d.initialNextCode ≤ x then d.trk.use natLt d.cfg.policy x else d.trk := by
  unfold Dec.useCode; split <;> rfl
@[simp] theorem Dec.useCode_br (x : Nat) (d : Dec) : (d.useCode x).br = d.br := by
  unfold Dec.useCode; split <;> rfl

/-! `Dec.widthCheck` -/

@[simp] theorem Dec.widthCheck_cfg (d : Dec) : (d.widthCheck).cfg = d.cfg := by
  unfold Dec.widthCheck; split <;> rfl
@[simp] theorem Dec.widthCheck_M (d : Dec) : (d.widthCheck).M = d.M := by
  unfold Dec.widthCheck; split <;> rfl
@[simp] theorem Dec.widthCheck_eofCode (d : Dec) : (d.widthCheck).eofCode = d.eofCode := by
  unfold Dec.widthCheck; split <;> rfl
@[simp] theorem Dec.widthCheck_resetCode (d : Dec) : (d.widthCheck).resetCode = d.resetCode := by
  unfold Dec.widthCheck; split <;> rfl
@[simp] theorem Dec.widthCheck_initialNextCode (d : Dec) : (d.widthCheck).initialNextCode = d.initialNextCode := by
  unfold Dec.widthCheck; split <;> rfl
@[simp] theorem Dec.widthCheck_nextCode (d : Dec) : (d.widthCheck).nextCode = d.nextCode := by
  unfold Dec.widthCheck; split <;> rfl
@[simp] theorem Dec.widthCheck_W (d : Dec) : (d.widthCheck).W = if d.T ≤ d.nextCode ∧ d.W < d.cfg.maxW then d.W + 1 else d.W := by
  unfold Dec.widthCheck; split <;> rfl
@[simp] theorem Dec.widthCheck_T (d : Dec) : (d.widthCheck).T = if d.T ≤ d.nextCode ∧ d.W < d.cfg.maxW then 2 ^ (d.W + 1) else d.T := by
  unfold Dec.widthCheck; split <;> rfl
@[simp] theorem Dec.widthCheck_prev (d : Dec) : (d.widthCheck).prev = d.prev := by
  unfold Dec.widthCheck; split <;> rfl
@[simp] theorem Dec.widthCheck_out (d : Dec) : (d.widthCheck).out = d.out := by
  unfold Dec.widthCheck; split <;> rfl
@[simp] theorem Dec.widthCheck_phase (d : Dec) : (d.widthCheck).phase = d.phase := by
  unfold Dec.widthCheck; split <;> rfl
@[simp] theorem Dec.widthCheck_fault (d : Dec) : (d.widthCheck).fault = d.fault := by
  unfold Dec.widthCheck; split <;> rfl
@[simp] theorem Dec.widthCheck_ct (d : Dec) : (d.widthCheck).ct = d.ct := by
  unfold Dec.widthCheck; split <;> rfl
@[simp] theorem Dec.widthCheck_trk (d : Dec) : (d.widthCheck).trk = d.trk := by
  unfold Dec.widthCheck; split <;> rfl
@[simp] theorem Dec.widthCheck_br (d : Dec) : (d.widthCheck).br = d.br := by
  unfold Dec.widthCheck; split <;> rfl

/-! `Dec.setPolicy` -/

@[simp] theorem Dec.setPolicy_cfg (p : Policy) (d : Dec) : (d.setPolicy p).cfg = { d.cfg with policy := p } := rfl
@[simp] theorem Dec.setPolicy_M (p : Policy) (d : Dec) : (d.setPolicy p).M = d.M := rfl
@[simp] theorem Dec.setPolicy_eofCode (p : Policy) (d : Dec) : (d.setPolicy p).eofCode = d.eofCode := rfl
@[simp] theorem Dec.setPolicy_resetCode (p : Policy) (d : Dec) : (d.setPolicy p).resetCode = d.resetCode := rfl
@[simp] theorem Dec.setPolicy_initialNextCode (p : Policy) (d : Dec) : (d.setPolicy p).initialNextCode = d.initialNextCode := rfl
@[simp] theorem Dec.setPolicy_nextCode (p : Policy) (d : Dec) : (d.setPolicy p).nextCode = d.nextCode := rfl
@[simp] theorem Dec.setPolicy_W (p : Policy) (d : Dec) : (d.setPolicy p).W = d.W := rfl
@[simp] theorem Dec.setPolicy_T (p : Policy) (d : Dec) : (d.setPolicy p).T = d.T := rfl
@[simp] theorem Dec.setPolicy_prev (p : Policy) (d : Dec) : (d.setPolicy p).prev = d.prev := rfl
@[simp] theorem Dec.setPolicy_out (p : Policy) (d : Dec) : (d.setPolicy p).out = d.out := rfl
@[simp] theorem Dec.setPolicy_phase (p : Policy) (d : Dec) : (d.setPolicy p).phase = d.phase := rfl
@[simp] theorem Dec.setPolicy_fault (p : Policy) (d : Dec) : (d.setPolicy p).fault = d.fault := rfl
@[simp] theorem Dec.setPolicy_ct (p : Policy) (d : Dec) : (d.setPolicy p).ct = d.ct := rfl
@[simp] theorem Dec.setPolicy_trk (p : Policy) (d : Dec) : (d.setPolicy p).trk = d.trk := rfl
@[simp] theorem Dec.setPolicy_br (p : Policy) (d : Dec) : (d.setPolicy p).br = d.br := rfl

/-! The instance on one side -/

@[simp] theorem State.raise_enc (c : Cause) (s : State) : s.raise .enc c = { s with enc := s.enc.raise c } := rfl
@[simp] theorem State.raise_dec (c : Cause) (s : State) : s.raise .dec c = { s with dec := s.dec.raise c } := rfl
@[simp] theorem State.withEnc_ok (e : Enc) (s : State) : s.withEnc (.ok e) = .next { s with enc := e } := rfl
@[simp] theorem State.withEnc_error (q : Refusal) (s : State) : s.withEnc (.error q) = .refused q := rfl
@[simp] theorem State.withDec_ok (d : Dec) (s : State) : s.withDec (.ok d) = .next { s with dec := d } := rfl
@[simp] theorem State.withDec_error (q : Refusal) (s : State) : s.withDec (.error q) = .refused q := rfl

end Sys2Proof.Machine
end

