-- ==== Sys2Proof/Laws/Operands.lean ====
section
/-! SUPPORT. When an operation has a step: what each precondition check of Machine/Operands.lean and each outcome of
Machine/Ops.lean says, in both directions. -/

namespace Sys2Proof.Machine

variable {s t : State} {k : Host.Outcome State Fault Refusal} {q : Refusal}

@[simp] theorem require_true : require true q k = k := rfl

@[simp] theorem require_false : require false q k = .refused q := rfl

@[simp] theorem require_next {ok : Bool} : require ok q k = .next t ↔ ok = true ∧ k = .next t := by
  cases ok <;> simp [require]

theorem require_not_fault {ok : Bool} {f : Fault} (h : k ≠ .fault f) : require ok q k ≠ .fault f := by
  cases ok
  · exact fun h => nomatch h
  · exact h

@[simp] theorem encEnded_eq_false {p : EncPhase} : encEnded p = false ↔ p = .idle ∨ p = .first ∨ p = .run := by
  cases p <;> simp [encEnded]

@[simp] theorem decEnded_eq_false {p : DecPhase} :
    decEnded p = false ↔ p = .idle ∨ p = .first ∨ p = .run ∨ p = .postReset := by
  cases p <;> simp [decEnded]

/-- R211: an operation of an encoder instance has a step only while the run has not ended. -/
theorem onEnc_next : onEnc s k = .next t ↔ encEnded s.enc.phase = false ∧ k = .next t := by
  simp [onEnc]

theorem onEnc_live (h : encEnded s.enc.phase = false) : onEnc s k = k := by simp [onEnc, h]

theorem onEnc_ended (h : encEnded s.enc.phase = true) : onEnc s k = .refused .runEnded := by simp [onEnc, h]

/-- R251: an operation of a decoder instance has a step only while the run has not ended. -/
theorem onDec_next : onDec s k = .next t ↔ decEnded s.dec.phase = false ∧ k = .next t := by
  simp [onDec]

theorem onDec_live (h : decEnded s.dec.phase = false) : onDec s k = k := by simp [onDec, h]

theorem onDec_ended (h : decEnded s.dec.phase = true) : onDec s k = .refused .runEnded := by simp [onDec, h]

theorem withStr_next {str : Bytes} : withStr str k = .next t ↔ str ≠ [] ∧ k = .next t := by
  simp [withStr]

theorem withStr_nonempty {str : Bytes} (h : str ≠ []) : withStr str k = k := by
  cases str with
  | nil => exact absurd rfl h
  | cons _ _ => rfl

theorem withEnc_next {r : Except Refusal Enc} : s.withEnc r = .next t ↔ ∃ e, r = .ok e ∧ t = { s with enc := e } := by
  cases r <;> simp [eq_comm]

theorem withDec_next {r : Except Refusal Dec} : s.withDec r = .next t ↔ ∃ d, r = .ok d ∧ t = { s with dec := d } := by
  cases r <;> simp [eq_comm]

/-- R37, R22: the unit of a policy exists under that policy, once it has been written. -/
theorem hasTracker_iff {p : Policy} {c : Cfg} : hasTracker p c = true ↔ c.written = true ∧ c.policy = p := by
  simp [hasTracker]

/-- What an operation that reaches one slot of `CT` can do. -/
theorem onSlot_next {x : Nat} :
    onSlot x s k = .next t ↔
      decEnded s.dec.phase = false ∧ s.dec.cfg.written = true ∧ x < tableSize s.dec.cfg ∧ k = .next t := by
  simp only [onSlot, onDec_next, require_next, decide_eq_true_eq]

/-- What a tracker operation can do. -/
theorem onTracker_next {p : Policy} {key : Key} {str : Bytes → Trk Bytes → Trk Bytes} {code : Nat → Trk Nat → Trk Nat} :
    onTracker p key s str code = .next t ↔
      match key with
      | .str k => encEnded s.enc.phase = false ∧ hasTracker p s.enc.cfg = true ∧
          t = { s with enc := { s.enc with trk := str k s.enc.trk } }
      | .code x => decEnded s.dec.phase = false ∧ hasTracker p s.dec.cfg = true ∧
          t = { s with dec := { s.dec with trk := code x s.dec.trk } } := by
  cases key <;>
    simp only [onTracker, onEnc_next, onDec_next, require_next, Host.Outcome.next.injEq, @eq_comm _ t]

/-- What a tracker's `FIND` can do. -/
theorem onFind_next {p : Policy} {side : Side} :
    onFind p side s = .next t ↔
      match side with
      | .enc => encEnded s.enc.phase = false ∧ hasTracker p s.enc.cfg = true ∧
          t = { s with ret := .key ((s.enc.trk.find p).map Key.str) }
      | .dec => decEnded s.dec.phase = false ∧ hasTracker p s.dec.cfg = true ∧
          t = { s with ret := .key ((s.dec.trk.find p).map Key.code) } := by
  cases side <;>
    simp only [onFind, onEnc_next, onDec_next, require_next, Host.Outcome.next.injEq, @eq_comm _ t]

/-- What a policy byte that has been read can do. -/
theorem onPolicyByte_next {p : Policy} :
    onPolicyByte p s = .next t ↔ s.dec.phase = .idle ∧ t = { s with dec := s.dec.setPolicy p } := by
  simp only [onPolicyByte, onDec_next, require_next, decide_eq_true_eq, Host.Outcome.next.injEq]
  constructor
  · rintro ⟨_, h, rfl⟩; exact ⟨h, rfl⟩
  · rintro ⟨h, rfl⟩; exact ⟨by simp [h], h, rfl⟩

/-- What a header field can do. -/
theorem onField_next {offset : Nat} {put : Enc → Enc} {get : Dec → Dec} {dir : Dir} :
    onField offset put get dir s = .next t ↔
      match dir with
      | .put => encEnded s.enc.phase = false ∧ s.enc.cfg.written = true ∧ s.enc.bw.closed = false ∧
          s.enc.bw.bitCount = offset ∧ t = { s with enc := put s.enc }
      | .get => s.dec.phase = .idle ∧ s.dec.br.pos = offset ∧ t = { s with dec := get s.dec } := by
  cases dir
  · simp only [onField, onEnc_next, require_next, Host.Outcome.next.injEq, decide_eq_true_eq, Bool.not_eq_true',
      @eq_comm _ t]
  · simp only [onField, onDec_next, require_next, decide_eq_true_eq, Host.Outcome.next.injEq]
    constructor
    · rintro ⟨_, h, hp, rfl⟩; exact ⟨h, hp, rfl⟩
    · rintro ⟨h, hp, rfl⟩; exact ⟨by simp [h], h, hp, rfl⟩

/-- What a codeword that has been read can do (R97). -/
theorem onCodeword_next {c : CwClass} {x : Nat} {effect : Dec → Except Refusal Dec} :
    onCodeword c x s effect = .next t ↔
      x < 2 ^ s.dec.W ∧ s.view.classify x = some c ∧ ∃ d, effect s.dec = .ok d ∧ t = { s with dec := d } := by
  simp only [onCodeword, onDec_next, require_next, decide_eq_true_eq, withDec_next]
  constructor
  · rintro ⟨_, ⟨hx, hc⟩, h⟩; exact ⟨hx, hc, h⟩
  · rintro ⟨hx, hc, h⟩
    refine ⟨?_, ⟨hx, hc⟩, h⟩
    cases hp : s.dec.phase <;> simp [View.classify, State.view, hp] at hc ⊢

end Sys2Proof.Machine
end

