-- ==== Sys2Proof/Laws/Moves.lean ====
section
/-! SUPPORT. Everything one instruction can do, said once: on an encoder instance it makes one `Enc.Move`, on a decoder
instance one `Dec.Move`, and it leaves the other instance and the port alone. Every invariant is a case split on these. -/

namespace Sys2Proof.Machine

/-- What one instruction can make of an encoder instance. -/
inductive Enc.Move (e : Enc) : Enc → Prop
  | stay : Move e e
  | write (value width : Nat) (hc : e.bw.closed = false) : Move e { e with bw := e.bw.write value width }
  | close (hc : e.bw.closed = false) : Move e { e with bw := e.bw.close }
  | header (hw : e.cfg.written = true) (hc : e.bw.closed = false) (hb : e.bw.bitCount = 0) : Move e e.hdrWrite
  | store (str : Bytes) (v : Option Nat) (hs : str ≠ []) : Move e { e with cb := cbStore str v e.cb }
  | cbInit (hw : e.cfg.written = true) : Move e { e with cb := cbInitial e.cfg.alphabet }
  | trackerUse (p : Policy) (k : Bytes) (hp : hasTracker p e.cfg = true) :
      Move e { e with trk := e.trk.use bytesLt p k }
  | trackerRemove (p : Policy) (k : Bytes) (hp : hasTracker p e.cfg = true) :
      Move e { e with trk := e.trk.remove p k }
  | start (hp : e.phase = .idle) (hw : e.cfg.written = true) (hl : legalCfg e.cfg = true) (hc : e.bw.closed = false)
      (hb : e.bw.bitCount = 0) : Move e e.start
  | firstByte (c : Byte) (hp : e.phase = .first) : Move e (e.firstByte c)
  | runByte (c : Byte) (e' : Enc) (hp : e.phase = .run) (h : e.runByte c = .ok e') : Move e e'
  | endEmpty (e' : Enc) (hp : e.phase = .first) (h : e.endEmpty = .ok e') : Move e e'
  | endRun (e' : Enc) (hp : e.phase = .run) (h : e.endRun = .ok e') : Move e e'

/-- What one instruction can make of a decoder instance. -/
inductive Dec.Move (d : Dec) : Dec → Prop
  | stay : Move d d
  | truncated (width : Nat) (hp : decEnded d.phase = false) (hb : d.br.remaining < width) :
      Move d (d.raise (.truncated width d.br.remaining))
  | advance (width : Nat) (hb : width ≤ d.br.remaining) : Move d { d with br := { d.br with pos := d.br.pos + width } }
  | insert (x : Nat) (str : Bytes) (hs : str ≠ []) (hx : x < tableSize d.cfg) : Move d { d with ct := ctStore x str d.ct }
  | clear (x : Nat) (hx : x < tableSize d.cfg) : Move d { d with ct := ctErase x d.ct }
  | ctInit (hw : d.cfg.written = true) : Move d { d with ct := ctInitial (tableSize d.cfg) d.cfg.alphabet }
  | trackerUse (p : Policy) (x : Nat) (hp : hasTracker p d.cfg = true) : Move d { d with trk := d.trk.use natLt p x }
  | trackerRemove (p : Policy) (x : Nat) (hp : hasTracker p d.cfg = true) : Move d { d with trk := d.trk.remove p x }
  | header (hp : d.phase = .idle) (hb : d.br.pos = 0) : Move d d.hdrRead
  | getMinW (hp : d.phase = .idle) : Move d d.getMinW
  | getMaxW (hp : d.phase = .idle) : Move d d.getMaxW
  | getPolicy (hp : d.phase = .idle) : Move d d.getPolicy
  | getAlphabetSize (hp : d.phase = .idle) : Move d d.getAlphabetSize
  | getAlphabet (i : Nat) (hp : d.phase = .idle) (hi : i < d.cfg.alphabetSize) : Move d (d.getAlphabet i)
  | policy (p : Policy) (hp : d.phase = .idle) : Move d (d.setPolicy p)
  | start (d' : Dec) (hp : d.phase = .idle) (hb : d.br.pos = 0) (h : d.startFromHeader = .ok d') : Move d d'
  | step (d' : Dec) (hp : decEnded d.phase = false) (h : d.step = .ok d') : Move d d'
  | cwStop (hp : d.phase = .first ∨ d.phase = .run ∨ d.phase = .postReset) : Move d d.stop
  | cwRestart (x : Nat) (hp : d.phase = .first ∨ d.phase = .postReset) (hx : x < 2 ^ d.W) (ha : x < d.cfg.alphabetSize) :
      Move d (d.restart (d.alphabetString x))
  | cwRaise (c : Cause) (hc : c ≠ .ioFailure) (hp : d.phase = .first ∨ d.phase = .run ∨ d.phase = .postReset) :
      Move d (d.raise c)
  | cwFlush (hp : d.phase = .run) (hr : d.cfg.policy = .reset) : Move d d.flush
  | cwAccept (x : Nat) (str : Bytes) (d' : Dec) (hp : d.phase = .run) (hx : x < 2 ^ d.W)
      (hs : x < d.cfg.alphabetSize ∧ str = d.alphabetString x ∨
        (d.initialNextCode ≤ x ∧ x < d.nextCode) ∧ ctLookup x d.ct = some str ∨ x = d.nextCode ∧ str = d.kwkwk)
      (h : d.accept x str = .ok d') : Move d d'

/-- What classification says of a codeword (R97). -/
theorem classify_some {s : State} {x : Nat} {c : CwClass} (h : s.view.classify x = some c) :
    match c with
    | .eofFirst => s.dec.phase = .first ∧ x = s.dec.eofCode
    | .alphaFirst => s.dec.phase = .first ∧ x ≠ s.dec.eofCode ∧ x < s.dec.cfg.alphabetSize
    | .illegalFirst => s.dec.phase = .first ∧ x ≠ s.dec.eofCode ∧ ¬ x < s.dec.cfg.alphabetSize
    | .eofPostReset => s.dec.phase = .postReset ∧ x = s.dec.eofCode
    | .alphaPostReset => s.dec.phase = .postReset ∧ x ≠ s.dec.eofCode ∧ x < s.dec.cfg.alphabetSize
    | .illegalPostReset => s.dec.phase = .postReset ∧ x ≠ s.dec.eofCode ∧ ¬ x < s.dec.cfg.alphabetSize
    | .eof => s.dec.phase = .run ∧ x = s.dec.eofCode
    | .reset => s.dec.phase = .run ∧ x ≠ s.dec.eofCode ∧ s.dec.cfg.policy = .reset ∧ x = s.dec.resetCode
    | .alpha => s.dec.phase = .run ∧ x ≠ s.dec.eofCode ∧ ¬ (s.dec.cfg.policy = .reset ∧ x = s.dec.resetCode) ∧
        x < s.dec.cfg.alphabetSize
    | .dict => s.dec.phase = .run ∧ x ≠ s.dec.eofCode ∧ ¬ (s.dec.cfg.policy = .reset ∧ x = s.dec.resetCode) ∧
        ¬ x < s.dec.cfg.alphabetSize ∧ s.dec.initialNextCode ≤ x ∧ x < s.dec.nextCode ∧
        (ctLookup x s.dec.ct).isSome = true
    | .kwkwk => s.dec.phase = .run ∧ x ≠ s.dec.eofCode ∧ ¬ (s.dec.cfg.policy = .reset ∧ x = s.dec.resetCode) ∧
        ¬ x < s.dec.cfg.alphabetSize ∧ x = s.dec.nextCode
    | .illegal => s.dec.phase = .run ∧ x ≠ s.dec.eofCode ∧ ¬ (s.dec.cfg.policy = .reset ∧ x = s.dec.resetCode) ∧
        ¬ x < s.dec.cfg.alphabetSize ∧ ¬ (s.dec.initialNextCode ≤ x ∧ x < s.dec.nextCode ∧
          (ctLookup x s.dec.ct).isSome = true) ∧ x ≠ s.dec.nextCode := by
  have hv : s.view.decPhase = s.dec.phase := rfl
  cases hp : s.dec.phase <;> simp only [View.classify, hv, hp] at h
  case idle | done | fault => cases h
  all_goals split_ifs at h <;> cases h <;> simp_all [State.view]

variable {i : Instr} {s t : State}

/-- The encoder instance made one move; the decoder instance and the port are as they were. -/
def EncMoved (s t : State) : Prop := s.enc.Move t.enc ∧ t.dec = s.dec ∧ t.port = s.port

/-- The decoder instance made one move; the encoder instance and the port are as they were. -/
def DecMoved (s t : State) : Prop := s.dec.Move t.dec ∧ t.enc = s.enc ∧ t.port = s.port

theorem execBwWrite_moves (value width : Nat) (h : execBwWrite value width s = .next t) : EncMoved s t := by
  simp only [execBwWrite, onEnc_next, require_next, Host.Outcome.next.injEq, Bool.not_eq_true'] at h
  obtain ⟨-, hc, rfl⟩ := h
  exact ⟨.write value width hc, rfl, rfl⟩

theorem execBwClose_moves (h : execBwClose s = .next t) : EncMoved s t := by
  simp only [execBwClose, onEnc_next, require_next, Host.Outcome.next.injEq, Bool.not_eq_true'] at h
  obtain ⟨-, hc, rfl⟩ := h
  exact ⟨.close hc, rfl, rfl⟩

theorem execBrRead_moves (width : Nat) (h : execBrRead width s = .next t) : DecMoved s t := by
  simp only [execBrRead, onDec_next] at h
  obtain ⟨hp, h⟩ := h
  unfold Br.read at h
  split at h
  · next hr =>
    split at hr
    · next hb =>
      cases h
      exact ⟨.truncated width hp hb, rfl, rfl⟩
    · cases hr
  · next v br hr =>
    split at hr
    · cases hr
    · next hb =>
      cases hr
      cases h
      exact ⟨.advance width (Nat.le_of_not_lt hb), rfl, rfl⟩

theorem execBrEmpty_moves (h : execBrEmpty s = .next t) : DecMoved s t := by
  simp only [execBrEmpty, onDec_next, Host.Outcome.next.injEq] at h
  obtain ⟨-, rfl⟩ := h
  exact ⟨.stay, rfl, rfl⟩

theorem execCbContains_moves (str : Bytes) (h : execCbContains str s = .next t) : EncMoved s t := by
  simp only [execCbContains, onEnc_next, withStr_next, Host.Outcome.next.injEq] at h
  obtain ⟨-, -, rfl⟩ := h
  exact ⟨.stay, rfl, rfl⟩

theorem execCbGet_moves (str : Bytes) (h : execCbGet str s = .next t) : EncMoved s t := by
  simp only [execCbGet, onEnc_next, withStr_next] at h
  obtain ⟨-, -, h⟩ := h
  split at h
  · cases h
  · cases h
    exact ⟨.stay, rfl, rfl⟩

theorem execCbPut_moves (str : Bytes) (v : Option Nat) (h : execCbPut str v s = .next t) : EncMoved s t := by
  simp only [execCbPut, onEnc_next, withStr_next, Host.Outcome.next.injEq] at h
  obtain ⟨-, hs, rfl⟩ := h
  exact ⟨.store str v hs, rfl, rfl⟩

theorem execCbRemove_moves (str : Bytes) (h : execCbRemove str s = .next t) : EncMoved s t := by
  simp only [execCbRemove, onEnc_next, withStr_next, Host.Outcome.next.injEq] at h
  obtain ⟨-, hs, rfl⟩ := h
  exact ⟨.store str none hs, rfl, rfl⟩

theorem execCbInit_moves (h : execCbInit s = .next t) : EncMoved s t := by
  simp only [execCbInit, onEnc_next, require_next, Host.Outcome.next.injEq] at h
  obtain ⟨-, hw, rfl⟩ := h
  exact ⟨.cbInit hw, rfl, rfl⟩

theorem execCtLookup_moves (x : Nat) (h : execCtLookup x s = .next t) : DecMoved s t := by
  simp only [execCtLookup, onSlot_next, Host.Outcome.next.injEq] at h
  obtain ⟨-, -, -, rfl⟩ := h
  exact ⟨.stay, rfl, rfl⟩

theorem execCtInsert_moves (x : Nat) (str : Bytes) (h : execCtInsert x str s = .next t) : DecMoved s t := by
  simp only [execCtInsert, onSlot_next, withStr_next, Host.Outcome.next.injEq] at h
  obtain ⟨-, -, hx, hs, rfl⟩ := h
  exact ⟨.insert x str hs hx, rfl, rfl⟩

theorem execCtClear_moves (x : Nat) (h : execCtClear x s = .next t) : DecMoved s t := by
  simp only [execCtClear, onSlot_next, Host.Outcome.next.injEq] at h
  obtain ⟨-, -, hx, rfl⟩ := h
  exact ⟨.clear x hx, rfl, rfl⟩

theorem execCtInit_moves (h : execCtInit s = .next t) : DecMoved s t := by
  simp only [execCtInit, onDec_next, require_next, Host.Outcome.next.injEq] at h
  obtain ⟨-, hw, rfl⟩ := h
  exact ⟨.ctInit hw, rfl, rfl⟩

theorem execLruUse_moves (k : Key) (h : execLruUse k s = .next t) : instrSide (.lruUse k) = .enc ∧ EncMoved s t ∨
    instrSide (.lruUse k) = .dec ∧ DecMoved s t := by
  have h := onTracker_next.1 h
  cases k with
  | str k =>
    obtain ⟨-, hp, rfl⟩ := h
    exact .inl ⟨rfl, .trackerUse .lru k hp, rfl, rfl⟩
  | code x =>
    obtain ⟨-, hp, rfl⟩ := h
    exact .inr ⟨rfl, .trackerUse .lru x hp, rfl, rfl⟩

theorem execLruRemove_moves (k : Key) (h : execLruRemove k s = .next t) : instrSide (.lruRemove k) = .enc ∧ EncMoved s t ∨
    instrSide (.lruRemove k) = .dec ∧ DecMoved s t := by
  have h := onTracker_next.1 h
  cases k with
  | str k =>
    obtain ⟨-, hp, rfl⟩ := h
    exact .inl ⟨rfl, .trackerRemove .lru k hp, rfl, rfl⟩
  | code x =>
    obtain ⟨-, hp, rfl⟩ := h
    exact .inr ⟨rfl, .trackerRemove .lru x hp, rfl, rfl⟩

theorem execLruFind_moves (side : Side) (h : execLruFind side s = .next t) : instrSide (.lruFind side) = .enc ∧ EncMoved s t ∨
    instrSide (.lruFind side) = .dec ∧ DecMoved s t := by
  have h := onFind_next.1 h
  cases side with
  | enc =>
    obtain ⟨-, -, rfl⟩ := h
    exact .inl ⟨rfl, .stay, rfl, rfl⟩
  | dec =>
    obtain ⟨-, -, rfl⟩ := h
    exact .inr ⟨rfl, .stay, rfl, rfl⟩

theorem execLfuUse_moves (k : Key) (h : execLfuUse k s = .next t) : instrSide (.lfuUse k) = .enc ∧ EncMoved s t ∨
    instrSide (.lfuUse k) = .dec ∧ DecMoved s t := by
  have h := onTracker_next.1 h
  cases k with
  | str k =>
    obtain ⟨-, hp, rfl⟩ := h
    exact .inl ⟨rfl, .trackerUse .lfu k hp, rfl, rfl⟩
  | code x =>
    obtain ⟨-, hp, rfl⟩ := h
    exact .inr ⟨rfl, .trackerUse .lfu x hp, rfl, rfl⟩

theorem execLfuRemove_moves (k : Key) (h : execLfuRemove k s = .next t) : instrSide (.lfuRemove k) = .enc ∧ EncMoved s t ∨
    instrSide (.lfuRemove k) = .dec ∧ DecMoved s t := by
  have h := onTracker_next.1 h
  cases k with
  | str k =>
    obtain ⟨-, hp, rfl⟩ := h
    exact .inl ⟨rfl, .trackerRemove .lfu k hp, rfl, rfl⟩
  | code x =>
    obtain ⟨-, hp, rfl⟩ := h
    exact .inr ⟨rfl, .trackerRemove .lfu x hp, rfl, rfl⟩

theorem execLfuFind_moves (side : Side) (h : execLfuFind side s = .next t) : instrSide (.lfuFind side) = .enc ∧ EncMoved s t ∨
    instrSide (.lfuFind side) = .dec ∧ DecMoved s t := by
  have h := onFind_next.1 h
  cases side with
  | enc =>
    obtain ⟨-, -, rfl⟩ := h
    exact .inl ⟨rfl, .stay, rfl, rfl⟩
  | dec =>
    obtain ⟨-, -, rfl⟩ := h
    exact .inr ⟨rfl, .stay, rfl, rfl⟩

theorem execHdrWrite_moves (h : execHdrWrite s = .next t) : EncMoved s t := by
  simp only [execHdrWrite, onEnc_next, require_next, Host.Outcome.next.injEq, Bool.not_eq_true', decide_eq_true_eq] at h
  obtain ⟨-, hw, hc, hb, rfl⟩ := h
  exact ⟨.header hw hc hb, rfl, rfl⟩

theorem execHdrRead_moves (h : execHdrRead s = .next t) : DecMoved s t := by
  simp only [execHdrRead, onDec_next, require_next, Host.Outcome.next.injEq, decide_eq_true_eq] at h
  obtain ⟨-, hp, hb, h⟩ := h
  subst h
  refine ⟨?_, rfl, rfl⟩
  dsimp only
  exact .header hp hb

theorem execEncStart_moves (h : execEncStart s = .next t) : EncMoved s t := by
  simp only [execEncStart, onEnc_next, require_next, Host.Outcome.next.injEq, Bool.not_eq_true', decide_eq_true_eq] at h
  obtain ⟨-, hp, hw, hl, hc, hb, rfl⟩ := h
  exact ⟨.start hp hw hl hc hb, rfl, rfl⟩

theorem execEncByte_moves (c : Byte) (h : execEncByte c s = .next t) : EncMoved s t := by
  simp only [execEncByte, onEnc_next] at h
  obtain ⟨-, h⟩ := h
  split at h
  · next hp => cases h; exact ⟨.firstByte c hp, rfl, rfl⟩
  · next hp =>
    obtain ⟨e, he, rfl⟩ := withEnc_next.1 h
    exact ⟨.runByte c e hp he, rfl, rfl⟩
  · cases h
  · cases h
  · cases h

theorem execEncByteRun_moves (c : Byte) (h : execEncByteRun c s = .next t) : EncMoved s t := by
  simp only [execEncByteRun, onEnc_next, require_next, withEnc_next, decide_eq_true_eq] at h
  obtain ⟨-, hp, e, he, rfl⟩ := h
  exact ⟨.runByte c e hp he, rfl, rfl⟩

theorem execEncEnd_moves (h : execEncEnd s = .next t) : EncMoved s t := by
  simp only [execEncEnd, onEnc_next] at h
  obtain ⟨-, h⟩ := h
  split at h
  · next hp =>
    obtain ⟨e, he, rfl⟩ := withEnc_next.1 h
    exact ⟨.endEmpty e hp he, rfl, rfl⟩
  · next hp =>
    obtain ⟨e, he, rfl⟩ := withEnc_next.1 h
    exact ⟨.endRun e hp he, rfl, rfl⟩
  · cases h
  · cases h
  · cases h

theorem execEncEndRun_moves (h : execEncEndRun s = .next t) : EncMoved s t := by
  simp only [execEncEndRun, onEnc_next, require_next, withEnc_next, decide_eq_true_eq] at h
  obtain ⟨-, hp, e, he, rfl⟩ := h
  exact ⟨.endRun e hp he, rfl, rfl⟩

theorem execDecStart_moves (h : execDecStart s = .next t) : DecMoved s t := by
  simp only [execDecStart, onDec_next, require_next, withDec_next, decide_eq_true_eq] at h
  obtain ⟨-, hp, hb, d, hd, rfl⟩ := h
  exact ⟨.start d hp hb hd, rfl, rfl⟩

theorem execDecStep_moves (h : execDecStep s = .next t) : DecMoved s t := by
  simp only [execDecStep, onDec_next, withDec_next] at h
  obtain ⟨hp, d, hd, rfl⟩ := h
  exact ⟨.step d hp hd, rfl, rfl⟩

theorem execPolicyFreeze_moves (h : execPolicyFreeze s = .next t) : DecMoved s t := by
  obtain ⟨hp, rfl⟩ := onPolicyByte_next.1 h
  exact ⟨.policy .freeze hp, rfl, rfl⟩

theorem execPolicyReset_moves (h : execPolicyReset s = .next t) : DecMoved s t := by
  obtain ⟨hp, rfl⟩ := onPolicyByte_next.1 h
  exact ⟨.policy .reset hp, rfl, rfl⟩

theorem execPolicyLru_moves (h : execPolicyLru s = .next t) : DecMoved s t := by
  obtain ⟨hp, rfl⟩ := onPolicyByte_next.1 h
  exact ⟨.policy .lru hp, rfl, rfl⟩

theorem execPolicyLfu_moves (h : execPolicyLfu s = .next t) : DecMoved s t := by
  obtain ⟨hp, rfl⟩ := onPolicyByte_next.1 h
  exact ⟨.policy .lfu hp, rfl, rfl⟩

theorem execPolicyUnknown_moves (b : Byte) (h : execPolicyUnknown b s = .next t) : DecMoved s t := by
  obtain ⟨hp, rfl⟩ := onPolicyByte_next.1 h
  exact ⟨.policy _ hp, rfl, rfl⟩

theorem execFieldMinW_moves (dir : Dir) (h : execFieldMinW dir s = .next t) :
    instrSide (.fieldMinW dir) = .enc ∧ EncMoved s t ∨ instrSide (.fieldMinW dir) = .dec ∧ DecMoved s t := by
  have h := onField_next.1 h
  cases dir with
  | put =>
    obtain ⟨-, -, hc, -, rfl⟩ := h
    exact .inl ⟨rfl, .write s.enc.cfg.minW 8 hc, rfl, rfl⟩
  | get =>
    obtain ⟨hp, -, rfl⟩ := h
    exact .inr ⟨rfl, .getMinW hp, rfl, rfl⟩

theorem execFieldMaxW_moves (dir : Dir) (h : execFieldMaxW dir s = .next t) :
    instrSide (.fieldMaxW dir) = .enc ∧ EncMoved s t ∨ instrSide (.fieldMaxW dir) = .dec ∧ DecMoved s t := by
  have h := onField_next.1 h
  cases dir with
  | put =>
    obtain ⟨-, -, hc, -, rfl⟩ := h
    exact .inl ⟨rfl, .write s.enc.cfg.maxW 8 hc, rfl, rfl⟩
  | get =>
    obtain ⟨hp, -, rfl⟩ := h
    exact .inr ⟨rfl, .getMaxW hp, rfl, rfl⟩

theorem execFieldPolicy_moves (dir : Dir) (h : execFieldPolicy dir s = .next t) :
    instrSide (.fieldPolicy dir) = .enc ∧ EncMoved s t ∨ instrSide (.fieldPolicy dir) = .dec ∧ DecMoved s t := by
  have h := onField_next.1 h
  cases dir with
  | put =>
    obtain ⟨-, -, hc, -, rfl⟩ := h
    exact .inl ⟨rfl, .write s.enc.cfg.policy.code 8 hc, rfl, rfl⟩
  | get =>
    obtain ⟨hp, -, rfl⟩ := h
    exact .inr ⟨rfl, .getPolicy hp, rfl, rfl⟩

theorem execFieldAlphabetSize_moves (dir : Dir) (h : execFieldAlphabetSize dir s = .next t) :
    instrSide (.fieldAlphabetSize dir) = .enc ∧ EncMoved s t ∨ instrSide (.fieldAlphabetSize dir) = .dec ∧ DecMoved s t := by
  have h := onField_next.1 h
  cases dir with
  | put =>
    obtain ⟨-, -, hc, -, rfl⟩ := h
    exact .inl ⟨rfl, .write s.enc.cfg.alphabetSize 16 hc, rfl, rfl⟩
  | get =>
    obtain ⟨hp, -, rfl⟩ := h
    exact .inr ⟨rfl, .getAlphabetSize hp, rfl, rfl⟩

theorem execFieldAlphabet_moves (dir : Dir) (n : Nat) (h : execFieldAlphabet dir n s = .next t) :
    instrSide (.fieldAlphabet dir n) = .enc ∧ EncMoved s t ∨ instrSide (.fieldAlphabet dir n) = .dec ∧ DecMoved s t := by
  simp only [execFieldAlphabet, require_next, decide_eq_true_eq] at h
  have ⟨hi, h⟩ := h
  have h := onField_next.1 h
  cases dir with
  | put =>
    obtain ⟨-, -, hc, -, rfl⟩ := h
    exact .inl ⟨rfl, .write ((s.enc.cfg.alphabet[n]?).getD 0).toNat 8 hc, rfl, rfl⟩
  | get =>
    obtain ⟨hp, -, rfl⟩ := h
    exact .inr ⟨rfl, .getAlphabet n hp hi, rfl, rfl⟩

theorem execCwEofFirst_moves (x : Nat) (h : execCwEofFirst x s = .next t) : DecMoved s t := by
  obtain ⟨hx, hc, d, hd, rfl⟩ := onCodeword_next.1 h
  have hc := classify_some hc
  cases hd
  exact ⟨.cwStop (.inl hc.1), rfl, rfl⟩

theorem execCwAlphaFirst_moves (x : Nat) (h : execCwAlphaFirst x s = .next t) : DecMoved s t := by
  obtain ⟨hx, hc, d, hd, rfl⟩ := onCodeword_next.1 h
  have hc := classify_some hc
  cases hd
  exact ⟨.cwRestart x (.inl hc.1) hx hc.2.2, rfl, rfl⟩

theorem execCwIllegalFirst_moves (x : Nat) (h : execCwIllegalFirst x s = .next t) : DecMoved s t := by
  obtain ⟨hx, hc, d, hd, rfl⟩ := onCodeword_next.1 h
  have hc := classify_some hc
  cases hd
  exact ⟨.cwRaise _ nofun (.inl hc.1), rfl, rfl⟩

theorem execCwEofPostReset_moves (x : Nat) (h : execCwEofPostReset x s = .next t) : DecMoved s t := by
  obtain ⟨hx, hc, d, hd, rfl⟩ := onCodeword_next.1 h
  have hc := classify_some hc
  cases hd
  exact ⟨.cwStop (.inr (.inr hc.1)), rfl, rfl⟩

theorem execCwAlphaPostReset_moves (x : Nat) (h : execCwAlphaPostReset x s = .next t) : DecMoved s t := by
  obtain ⟨hx, hc, d, hd, rfl⟩ := onCodeword_next.1 h
  have hc := classify_some hc
  cases hd
  exact ⟨.cwRestart x (.inr hc.1) hx hc.2.2, rfl, rfl⟩

theorem execCwIllegalPostReset_moves (x : Nat) (h : execCwIllegalPostReset x s = .next t) : DecMoved s t := by
  obtain ⟨hx, hc, d, hd, rfl⟩ := onCodeword_next.1 h
  have hc := classify_some hc
  cases hd
  exact ⟨.cwRaise _ nofun (.inr (.inr hc.1)), rfl, rfl⟩

theorem execCwEof_moves (x : Nat) (h : execCwEof x s = .next t) : DecMoved s t := by
  obtain ⟨hx, hc, d, hd, rfl⟩ := onCodeword_next.1 h
  have hc := classify_some hc
  cases hd
  exact ⟨.cwStop (.inr (.inl hc.1)), rfl, rfl⟩

theorem execCwReset_moves (x : Nat) (h : execCwReset x s = .next t) : DecMoved s t := by
  obtain ⟨hx, hc, d, hd, rfl⟩ := onCodeword_next.1 h
  have hc := classify_some hc
  cases hd
  exact ⟨.cwFlush hc.1 hc.2.2.1, rfl, rfl⟩

theorem execCwAlpha_moves (x : Nat) (h : execCwAlpha x s = .next t) : DecMoved s t := by
  obtain ⟨hx, hc, d, hd, rfl⟩ := onCodeword_next.1 h
  have hc := classify_some hc
  exact ⟨.cwAccept x _ d hc.1 hx (.inl ⟨hc.2.2.2, rfl⟩) hd, rfl, rfl⟩

theorem execCwDict_moves (x : Nat) (h : execCwDict x s = .next t) : DecMoved s t := by
  obtain ⟨hx, hc, d, hd, rfl⟩ := onCodeword_next.1 h
  obtain ⟨hp, -, -, -, hi, hn, hc⟩ := classify_some hc
  obtain ⟨str, hs⟩ := Option.isSome_iff_exists.1 hc
  rw [hs] at hd
  exact ⟨.cwAccept x str d hp hx (.inr (.inl ⟨⟨hi, hn⟩, hs⟩)) hd, rfl, rfl⟩

theorem execCwKwkwk_moves (x : Nat) (h : execCwKwkwk x s = .next t) : DecMoved s t := by
  obtain ⟨hx, hc, d, hd, rfl⟩ := onCodeword_next.1 h
  have hc := classify_some hc
  exact ⟨.cwAccept x _ d hc.1 hx (.inr (.inr ⟨hc.2.2.2.2, rfl⟩)) hd, rfl, rfl⟩

theorem execCwIllegal_moves (x : Nat) (h : execCwIllegal x s = .next t) : DecMoved s t := by
  obtain ⟨hx, hc, d, hd, rfl⟩ := onCodeword_next.1 h
  have hc := classify_some hc
  cases hd
  exact ⟨.cwRaise _ nofun (.inr (.inl hc.1)), rfl, rfl⟩

/-- One instruction works on one instance and leaves the other and the port alone. -/
theorem exec_moves (h : exec i s = .next t) :
    instrSide i = .enc ∧ EncMoved s t ∨ instrSide i = .dec ∧ DecMoved s t := by
  cases i with
  | bwWrite _ _ => exact .inl ⟨rfl, execBwWrite_moves _ _ h⟩
  | bwClose => exact .inl ⟨rfl, execBwClose_moves h⟩
  | brRead _ => exact .inr ⟨rfl, execBrRead_moves _ h⟩
  | brEmpty => exact .inr ⟨rfl, execBrEmpty_moves h⟩
  | cbContains _ => exact .inl ⟨rfl, execCbContains_moves _ h⟩
  | cbGet _ => exact .inl ⟨rfl, execCbGet_moves _ h⟩
  | cbPut _ _ => exact .inl ⟨rfl, execCbPut_moves _ _ h⟩
  | cbRemove _ => exact .inl ⟨rfl, execCbRemove_moves _ h⟩
  | cbInit => exact .inl ⟨rfl, execCbInit_moves h⟩
  | ctLookup _ => exact .inr ⟨rfl, execCtLookup_moves _ h⟩
  | ctInsert _ _ => exact .inr ⟨rfl, execCtInsert_moves _ _ h⟩
  | ctClear _ => exact .inr ⟨rfl, execCtClear_moves _ h⟩
  | ctInit => exact .inr ⟨rfl, execCtInit_moves h⟩
  | lruUse _ => exact execLruUse_moves _ h
  | lruRemove _ => exact execLruRemove_moves _ h
  | lruFind _ => exact execLruFind_moves _ h
  | lfuUse _ => exact execLfuUse_moves _ h
  | lfuRemove _ => exact execLfuRemove_moves _ h
  | lfuFind _ => exact execLfuFind_moves _ h
  | hdrWrite => exact .inl ⟨rfl, execHdrWrite_moves h⟩
  | hdrRead => exact .inr ⟨rfl, execHdrRead_moves h⟩
  | encStart => exact .inl ⟨rfl, execEncStart_moves h⟩
  | encByte _ => exact .inl ⟨rfl, execEncByte_moves _ h⟩
  | encByteRun _ => exact .inl ⟨rfl, execEncByteRun_moves _ h⟩
  | encEnd => exact .inl ⟨rfl, execEncEnd_moves h⟩
  | encEndRun => exact .inl ⟨rfl, execEncEndRun_moves h⟩
  | decStart => exact .inr ⟨rfl, execDecStart_moves h⟩
  | decStep => exact .inr ⟨rfl, execDecStep_moves h⟩
  | policyFreeze => exact .inr ⟨rfl, execPolicyFreeze_moves h⟩
  | policyReset => exact .inr ⟨rfl, execPolicyReset_moves h⟩
  | policyLru => exact .inr ⟨rfl, execPolicyLru_moves h⟩
  | policyLfu => exact .inr ⟨rfl, execPolicyLfu_moves h⟩
  | policyUnknown _ => exact .inr ⟨rfl, execPolicyUnknown_moves _ h⟩
  | fieldMinW _ => exact execFieldMinW_moves _ h
  | fieldMaxW _ => exact execFieldMaxW_moves _ h
  | fieldPolicy _ => exact execFieldPolicy_moves _ h
  | fieldAlphabetSize _ => exact execFieldAlphabetSize_moves _ h
  | fieldAlphabet _ _ => exact execFieldAlphabet_moves _ _ h
  | cwEofFirst _ => exact .inr ⟨rfl, execCwEofFirst_moves _ h⟩
  | cwAlphaFirst _ => exact .inr ⟨rfl, execCwAlphaFirst_moves _ h⟩
  | cwIllegalFirst _ => exact .inr ⟨rfl, execCwIllegalFirst_moves _ h⟩
  | cwEofPostReset _ => exact .inr ⟨rfl, execCwEofPostReset_moves _ h⟩
  | cwAlphaPostReset _ => exact .inr ⟨rfl, execCwAlphaPostReset_moves _ h⟩
  | cwIllegalPostReset _ => exact .inr ⟨rfl, execCwIllegalPostReset_moves _ h⟩
  | cwEof _ => exact .inr ⟨rfl, execCwEof_moves _ h⟩
  | cwReset _ => exact .inr ⟨rfl, execCwReset_moves _ h⟩
  | cwAlpha _ => exact .inr ⟨rfl, execCwAlpha_moves _ h⟩
  | cwDict _ => exact .inr ⟨rfl, execCwDict_moves _ h⟩
  | cwKwkwk _ => exact .inr ⟨rfl, execCwKwkwk_moves _ h⟩
  | cwIllegal _ => exact .inr ⟨rfl, execCwIllegal_moves _ h⟩

end Sys2Proof.Machine
end

