-- ==== Sys2Proof/Laws/Trackers.lean ====
section
/-! SUPPORT. Laws of the trackers: what each operation does to every key, bucket and to `minFreq`, and that each keeps
what R38 and R39 say of the state "at all times". -/

namespace Sys2Proof.Machine

variable {K : Type} [DecidableEq K]

/-! ### Lists without a key -/

@[simp] theorem mem_without {k x : K} {ks : List K} : x ∈ without k ks ↔ x ∈ ks ∧ x ≠ k := by
  simp [without]

theorem without_nodup {k : K} {ks : List K} (h : ks.Nodup) : (without k ks).Nodup := h.filter _

/-- Whichever lawful comparison `erase` compares with: byte strings have two. -/
theorem without_eq_erase [BEq K] [LawfulBEq K] {k : K} {ks : List K} (h : ks.Nodup) : without k ks = ks.erase k := by
  rw [h.erase_eq_filter]
  exact List.filter_congr fun x _ => by by_cases hx : x = k <;> simp [hx]

theorem without_of_not_mem {k : K} {ks : List K} (h : k ∉ ks) : without k ks = ks :=
  List.filter_eq_self.2 fun x hx => decide_eq_true fun he : x = k => h (he ▸ hx)

/-! ### LRU (R161, R162) -/

theorem mem_lruTouch {k x : K} {ks : List K} : x ∈ lruTouch k ks ↔ x = k ∨ x ∈ ks := by
  by_cases h : x = k <;> simp [lruTouch, h]

theorem lruTouch_nodup {k : K} {ks : List K} (h : ks.Nodup) : (lruTouch k ks).Nodup :=
  List.nodup_cons.2 ⟨by simp, without_nodup h⟩

theorem mem_lruDrop {k x : K} {ks : List K} : x ∈ lruDrop k ks ↔ x ∈ ks ∧ x ≠ k := mem_without

theorem lruDrop_nodup {k : K} {ks : List K} (h : ks.Nodup) : (lruDrop k ks).Nodup := without_nodup h

/-! ### LFU -/

omit [DecidableEq K] in
@[simp] theorem Lfu.setBucket_freq (f : Nat) (ks : List K) (l : Lfu K) : (l.setBucket f ks).freq = l.freq := rfl
omit [DecidableEq K] in
@[simp] theorem Lfu.setBucket_minFreq (f : Nat) (ks : List K) (l : Lfu K) : (l.setBucket f ks).minFreq = l.minFreq := rfl
@[simp] theorem Lfu.setFreq_bucket (lt : K → K → Bool) (k : K) (f : Nat) (l : Lfu K) :
    (l.setFreq lt k f).bucket = l.bucket := rfl
@[simp] theorem Lfu.setFreq_minFreq (lt : K → K → Bool) (k : K) (f : Nat) (l : Lfu K) :
    (l.setFreq lt k f).minFreq = l.minFreq := rfl
@[simp] theorem Lfu.setFreq_at (lt : K → K → Bool) (k : K) (f g : Nat) (l : Lfu K) : (l.setFreq lt k f).at g = l.at g := rfl
@[simp] theorem Lfu.setFreq_freq (lt : K → K → Bool) (k : K) (f : Nat) (l : Lfu K) :
    (l.setFreq lt k f).freq = mapPut lt k f l.freq := rfl

omit [DecidableEq K] in
theorem Lfu.at_congr {l m : Lfu K} (h : l.bucket = m.bucket) (g : Nat) : l.at g = m.at g := by rw [Lfu.at, Lfu.at, h]

omit [DecidableEq K] in
@[simp] theorem Lfu.at_setBucket (f : Nat) (ks : List K) (l : Lfu K) (g : Nat) :
    (l.setBucket f ks).at g = if g = f then ks else l.at g := by
  unfold Lfu.at Lfu.setBucket
  by_cases hks : ks = []
  · simp only [if_pos hks, mapGet_erase]
    by_cases hg : g = f <;> simp [hg, hks]
  · simp only [if_neg hks, mapGet_put]
    by_cases hg : g = f <;> simp [hg]

omit [DecidableEq K] in
theorem Lfu.setBucket_wf (f : Nat) (ks : List K) {l : Lfu K} (h : mapWf natLt l.bucket) :
    mapWf natLt (l.setBucket f ks).bucket := by
  unfold Lfu.setBucket
  split
  · exact mapWf_erase f h
  · exact mapWf_put natLt_order f ks h

omit [DecidableEq K] in
theorem Lfu.setBucket_listed (f : Nat) (ks : List K) {l : Lfu K} (h : ∀ e ∈ l.bucket, e.2 ≠ []) :
    ∀ e ∈ (l.setBucket f ks).bucket, e.2 ≠ [] := by
  unfold Lfu.setBucket
  intro e he
  split at he
  · exact h e (mem_mapErase he)
  · next hk =>
    rcases mem_mapPut he with rfl | he
    · exact hk
    · exact h e he

/-- `LFU.USE` of a new key (R177). -/
theorem Lfu.touch_new {lt : K → K → Bool} {k : K} {l : Lfu K} (h : mapGet k l.freq = none) :
    (∀ k', mapGet k' (l.touch lt k).freq = if k' = k then some 1 else mapGet k' l.freq) ∧
    (∀ g, (l.touch lt k).at g = if g = 1 then k :: l.at 1 else l.at g) ∧ (l.touch lt k).minFreq = 1 := by
  rw [Lfu.touch, h]
  refine ⟨fun k' => mapGet_put lt k 1 l.freq k', fun g => ?_, rfl⟩
  rw [← Lfu.setFreq_at lt k 1 1, ← Lfu.setFreq_at lt k 1 g, ← Lfu.at_setBucket]
  rfl

/-- `LFU.USE` of a key at frequency `f` (R178). -/
theorem Lfu.touch_old {lt : K → K → Bool} {k : K} {f : Nat} {l : Lfu K} (h : mapGet k l.freq = some f) :
    (∀ k', mapGet k' (l.touch lt k).freq = if k' = k then some (f + 1) else mapGet k' l.freq) ∧
    (∀ g, (l.touch lt k).at g =
      if g = f + 1 then k :: l.at (f + 1) else if g = f then without k (l.at f) else l.at g) ∧
    (l.touch lt k).minFreq = if without k (l.at f) = [] ∧ f = l.minFreq then f + 1 else l.minFreq := by
  rw [Lfu.touch, h]
  have hb : ∀ g, ((l.setBucket f (without k (l.at f))).at g) = if g = f then without k (l.at f) else l.at g :=
    Lfu.at_setBucket f _ l
  have h2 : ∀ g, (if (l.setBucket f (without k (l.at f))).at f = [] ∧ f = (l.setBucket f (without k (l.at f))).minFreq then
      { l.setBucket f (without k (l.at f)) with minFreq := f + 1 } else l.setBucket f (without k (l.at f))).at g =
      if g = f then without k (l.at f) else l.at g := by
    intro g
    rw [← hb g]
    split <;> rfl
  refine ⟨fun k' => ?_, fun g => ?_, ?_⟩
  · simp only [Lfu.promote, Lfu.setBucket_freq, Lfu.setFreq_freq, mapGet_put]
    split
    · rfl
    · split <;> rfl
  · simp only [Lfu.promote]
    rw [Lfu.at_setBucket, Lfu.setFreq_at, Lfu.setFreq_at, h2, h2]
    simp
  · simp only [Lfu.promote, Lfu.setBucket_minFreq, Lfu.setFreq_minFreq, hb, if_true]
    split <;> rfl

/-- `LFU.REMOVE` (R179). -/
theorem Lfu.drop_spec (k : K) (l : Lfu K) :
    (∀ k', mapGet k' (l.drop k).freq = if k' = k then none else mapGet k' l.freq) ∧
    (∀ g, (l.drop k).at g = if mapGet k l.freq = some g then without k (l.at g) else l.at g) ∧
    (l.drop k).minFreq = l.minFreq := by
  cases h : mapGet k l.freq with
  | none =>
    have e : l.drop k = l := by rw [Lfu.drop, h]
    rw [e]
    refine ⟨fun k' => ?_, fun g => by simp, rfl⟩
    split
    · next he => rw [he, h]
    · rfl
  | some f =>
    have e : l.drop k = { l.setBucket f (without k (l.at f)) with freq := mapErase k l.freq } := by rw [Lfu.drop, h]
    rw [e]
    refine ⟨fun k' => mapGet_erase k l.freq k', fun g => ?_, rfl⟩
    have : (({ l.setBucket f (without k (l.at f)) with freq := mapErase k l.freq } : Lfu K).at g) =
        (l.setBucket f (without k (l.at f))).at g := rfl
    rw [this, Lfu.at_setBucket]
    by_cases hg : g = f
    · subst hg; simp
    · rw [if_neg hg, if_neg (by simpa using Ne.symm hg)]

theorem Lfu.touch_wf {lt : K → K → Bool} (o : KeyOrder lt) (k : K) {l : Lfu K} (hf : mapWf lt l.freq)
    (hb : mapWf natLt l.bucket) : mapWf lt (l.touch lt k).freq ∧ mapWf natLt (l.touch lt k).bucket := by
  unfold Lfu.touch
  split
  · exact ⟨mapWf_put o k 1 hf, Lfu.setBucket_wf (l := l.setFreq lt k 1) 1 (k :: (l.setFreq lt k 1).at 1) hb⟩
  · next f _ =>
    unfold Lfu.promote
    dsimp only
    refine ⟨?_, ?_⟩
    · simp only [Lfu.setBucket_freq, Lfu.setFreq_freq]
      refine mapWf_put o k (f + 1) ?_
      split <;> exact hf
    · refine Lfu.setBucket_wf (f + 1) _ ?_
      rw [Lfu.setFreq_bucket]
      split <;> exact Lfu.setBucket_wf f _ hb

theorem Lfu.touch_listed (lt : K → K → Bool) (k : K) {l : Lfu K} (h : ∀ e ∈ l.bucket, e.2 ≠ []) :
    ∀ e ∈ (l.touch lt k).bucket, e.2 ≠ [] := by
  unfold Lfu.touch
  split
  · exact Lfu.setBucket_listed (l := l.setFreq lt k 1) 1 (k :: (l.setFreq lt k 1).at 1) h
  · next f _ =>
    unfold Lfu.promote
    dsimp only
    refine Lfu.setBucket_listed (f + 1) _ ?_
    rw [Lfu.setFreq_bucket]
    split <;> exact Lfu.setBucket_listed f _ h

theorem Lfu.empty_consistent (lt : K → K → Bool) :
    ({ freq := [], bucket := [], minFreq := 0 } : Lfu K).Consistent lt where
  freqWf := List.Pairwise.nil
  bucketWf := List.Pairwise.nil
  bucketListed _ h := nomatch h
  once _ := List.Pairwise.nil
  member k f := by simp [Lfu.at]
  positive k f h := by simp at h

theorem Lfu.empty_fresh : ({ freq := [], bucket := [], minFreq := 0 } : Lfu K).Fresh := fun _ _ h => by simp at h

/-- `LFU.USE` keeps R39. -/
theorem Lfu.touch_consistent {lt : K → K → Bool} (o : KeyOrder lt) (k : K) {l : Lfu K} (h : l.Consistent lt) :
    (l.touch lt k).Consistent lt := by
  have hwf := Lfu.touch_wf o k h.freqWf h.bucketWf
  have hl := Lfu.touch_listed lt k h.bucketListed
  cases hk : mapGet k l.freq with
  | none =>
    have ⟨hf, ha, _⟩ := Lfu.touch_new (lt := lt) hk
    have hnot : ∀ f, k ∉ l.at f := fun f hm => by rw [(h.member k f).1 hm] at hk; cases hk
    refine ⟨hwf.1, hwf.2, hl, fun f => ?_, fun k' f => ?_, fun k' f hf' => ?_⟩
    · rw [ha]
      split
      · exact List.nodup_cons.2 ⟨hnot 1, h.once 1⟩
      · exact h.once f
    · rw [ha, hf]
      by_cases hkk : k' = k
      · subst hkk
        by_cases h1 : f = 1
        · subst h1; simp
        · rw [if_neg h1, if_pos rfl]
          exact ⟨fun hm => absurd hm (hnot f), fun he => absurd (Option.some.inj he).symm h1⟩
      · rw [if_neg hkk, ← h.member k' f]
        by_cases h1 : f = 1
        · subst h1; simp [hkk]
        · rw [if_neg h1]
    · rw [hf] at hf'
      by_cases hkk : k' = k
      · rw [if_pos hkk] at hf'; simp at hf'; omega
      · rw [if_neg hkk] at hf'; exact h.positive k' f hf'
  | some f₀ =>
    have ⟨hf, ha, _⟩ := Lfu.touch_old (lt := lt) hk
    have hone : ∀ f, k ∈ l.at f ↔ f = f₀ := fun f => by
      rw [h.member k f, hk]; simp [eq_comm]
    refine ⟨hwf.1, hwf.2, hl, fun f => ?_, fun k' f => ?_, fun k' f hf' => ?_⟩
    · rw [ha]
      split
      · exact List.nodup_cons.2 ⟨fun hm => by have := (hone _).1 hm; omega, h.once _⟩
      · split
        · exact without_nodup (h.once _)
        · exact h.once f
    · rw [ha, hf]
      by_cases hkk : k' = k
      · subst hkk
        rw [if_pos rfl]
        by_cases h1 : f = f₀ + 1
        · subst h1; simp
        · rw [if_neg h1]
          have hr : (some (f₀ + 1) = some f) ↔ False := by
            simp only [Option.some.injEq, iff_false]; omega
          rw [hr, iff_false]
          by_cases h2 : f = f₀
          · rw [if_pos h2]; simp
          · rw [if_neg h2, hone]; exact h2
      · rw [if_neg hkk, ← h.member k' f]
        by_cases h1 : f = f₀ + 1
        · subst h1; simp [hkk]
        · rw [if_neg h1]
          by_cases h2 : f = f₀
          · subst h2; simp [hkk]
          · rw [if_neg h2]
    · rw [hf] at hf'
      by_cases hkk : k' = k
      · rw [if_pos hkk] at hf'; simp at hf'; omega
      · rw [if_neg hkk] at hf'; exact h.positive k' f hf'

/-- `LFU.REMOVE` keeps R39. -/
theorem Lfu.drop_consistent {lt : K → K → Bool} (k : K) {l : Lfu K} (h : l.Consistent lt) : (l.drop k).Consistent lt := by
  have ⟨hf, ha, _⟩ := Lfu.drop_spec k l
  refine ⟨?_, ?_, ?_, fun f => ?_, fun k' f => ?_, fun k' f hf' => ?_⟩
  · unfold Lfu.drop
    split
    · exact h.freqWf
    · exact mapWf_erase k h.freqWf
  · unfold Lfu.drop
    split
    · exact h.bucketWf
    · exact Lfu.setBucket_wf _ _ h.bucketWf
  · unfold Lfu.drop
    split
    · exact h.bucketListed
    · exact Lfu.setBucket_listed _ _ h.bucketListed
  · rw [ha]
    split
    · exact without_nodup (h.once f)
    · exact h.once f
  · rw [ha, hf]
    by_cases hkk : k' = k
    · subst hkk
      rw [if_pos rfl]
      by_cases h1 : mapGet k' l.freq = some f
      · rw [if_pos h1]; simp
      · rw [if_neg h1, h.member]; simp [h1]
    · rw [if_neg hkk, ← h.member k' f]
      split
      · simp [hkk]
      · rfl
  · rw [hf] at hf'
    split at hf'
    · cases hf'
    · exact h.positive k' f hf'

/-- After `LFU.USE`, `minFreq` is the smallest frequency of a live key if it was before (R183). -/
theorem Lfu.touch_fresh {lt : K → K → Bool} (k : K) {l : Lfu K} (hc : l.Consistent lt)
    (h : l.Fresh ∨ mapGet k l.freq = none) : (l.touch lt k).Fresh := by
  intro k' f hkf
  cases hk : mapGet k l.freq with
  | none =>
    have ⟨hf, ha, hm⟩ := Lfu.touch_new (lt := lt) hk
    rw [hm, ha, if_pos rfl]
    refine ⟨?_, by simp⟩
    rw [hf] at hkf
    split at hkf
    · have := Option.some.inj hkf; omega
    · exact hc.positive k' f hkf
  | some f₀ =>
    have h := h.resolve_right (by rw [hk]; simp)
    have ⟨hf, ha, hm⟩ := Lfu.touch_old (lt := lt) hk
    have ⟨hmin, hne⟩ := h k f₀ hk
    have hbound : k' ≠ k → l.minFreq ≤ f := fun hn => by rw [hf, if_neg hn] at hkf; exact (h k' f hkf).1
    rw [hm]
    by_cases he : without k (l.at f₀) = [] ∧ f₀ = l.minFreq
    · rw [if_pos he, ha, if_pos rfl]
      refine ⟨?_, by simp⟩
      rw [hf] at hkf
      split at hkf
      · have := Option.some.inj hkf; omega
      · next hn =>
        have hle := (h k' f hkf).1
        have : f ≠ f₀ := fun hff => by
          subst hff
          have : k' ∈ without k (l.at f) := mem_without.2 ⟨(hc.member k' f).2 hkf, hn⟩
          rw [he.1] at this
          cases this
        omega
    · rw [if_neg he]
      refine ⟨?_, ?_⟩
      · by_cases hn : k' = k
        · rw [hf, if_pos hn] at hkf
          have := Option.some.inj hkf
          omega
        · exact hbound hn
      · rw [ha]
        split
        · simp
        · split
          · next h1 h2 =>
            intro h0
            exact he ⟨h0, h2.symm⟩
          · exact hne

/-- Property P5 (R183): while `minFreq` is not stale and some key is live, `FIND` answers a live key of the smallest
frequency, the one pushed into its bucket longest ago. -/
theorem Lfu.victim_fresh {lt : K → K → Bool} {l : Lfu K} (hc : l.Consistent lt) (h : l.Fresh) {k : K} {f : Nat}
    (hk : mapGet k l.freq = some f) :
    ∃ v, l.victim = some v ∧ mapGet v l.freq = some l.minFreq ∧ l.minFreq ≤ f := by
  have ⟨hle, hne⟩ := h k f hk
  obtain ⟨v, hv⟩ : ∃ v, l.victim = some v := by
    rw [Lfu.victim]
    exact ⟨_, List.getLast?_eq_some_getLast hne⟩
  exact ⟨v, hv, (hc.member v _).1 (List.mem_of_getLast? hv), hle⟩

/-! ### The instance's tracker -/

theorem Trk.empty_wf (lt : K → K → Bool) : (Trk.empty : Trk K).Wf lt := ⟨List.nodup_nil, Lfu.empty_consistent lt⟩

omit [DecidableEq K] in
theorem Trk.empty_allocated (p : Policy) : (Trk.empty : Trk K).Allocated p := ⟨fun _ => rfl, fun _ => rfl⟩

theorem Trk.use_wf {lt : K → K → Bool} (o : KeyOrder lt) (p : Policy) (k : K) {t : Trk K} (h : t.Wf lt) :
    (t.use lt p k).Wf lt := by
  cases p
  · exact h
  · exact h
  · exact ⟨lruTouch_nodup h.lru, h.lfu⟩
  · exact ⟨h.lru, Lfu.touch_consistent o k h.lfu⟩

theorem Trk.remove_wf {lt : K → K → Bool} (p : Policy) (k : K) {t : Trk K} (h : t.Wf lt) : (t.remove p k).Wf lt := by
  cases p
  · exact h
  · exact h
  · exact ⟨lruDrop_nodup h.lru, h.lfu⟩
  · exact ⟨h.lru, Lfu.drop_consistent k h.lfu⟩

theorem Trk.use_allocated (lt : K → K → Bool) (p : Policy) (k : K) {t : Trk K} (h : t.Allocated p) :
    (t.use lt p k).Allocated p := by
  cases p
  · exact h
  · exact h
  · exact ⟨fun hp => absurd rfl hp, h.noLfu⟩
  · exact ⟨h.noLru, fun hp => absurd rfl hp⟩

theorem Trk.remove_allocated (p : Policy) (k : K) {t : Trk K} (h : t.Allocated p) : (t.remove p k).Allocated p := by
  cases p
  · exact h
  · exact h
  · exact ⟨fun hp => absurd rfl hp, h.noLfu⟩
  · exact ⟨h.noLru, fun hp => absurd rfl hp⟩

/-- A use makes `k` tracked and leaves every other key as it was. -/
theorem Trk.tracks_use {lt : K → K → Bool} {p : Policy} (hp : trackerActive p = true) (k : K) (t : Trk K) (x : K) :
    (t.use lt p k).tracks p x ↔ x = k ∨ t.tracks p x := by
  cases p
  · simp [trackerActive] at hp
  · simp [trackerActive] at hp
  · exact mem_lruTouch
  · simp only [Trk.use, Trk.tracks]
    cases hg : mapGet k t.lfu.freq with
    | none => rw [(Lfu.touch_new hg).1]; by_cases hx : x = k <;> simp [hx]
    | some f => rw [(Lfu.touch_old hg).1]; by_cases hx : x = k <;> simp [hx, hg]

/-- A removal makes `k` untracked and leaves every other key as it was. -/
theorem Trk.tracks_remove {p : Policy} (k : K) (t : Trk K) (x : K) :
    (t.remove p k).tracks p x ↔ t.tracks p x ∧ x ≠ k := by
  cases p
  · simp [Trk.tracks]
  · simp [Trk.tracks]
  · exact mem_lruDrop
  · simp only [Trk.remove, Trk.tracks]
    rw [(Lfu.drop_spec k t.lfu).1]
    by_cases hx : x = k <;> simp [hx]

/-- The victim is a tracked key. -/
theorem Trk.tracks_find {lt : K → K → Bool} {p : Policy} {t : Trk K} (h : t.Wf lt) {v : K} (hv : t.find p = some v) :
    t.tracks p v := by
  cases p
  · cases hv
  · cases hv
  · exact List.mem_of_getLast? hv
  · have := (h.lfu.member v _).1 (List.mem_of_getLast? hv)
    simp [Trk.tracks, this]

end Sys2Proof.Machine
end

