-- ==== Sys2Proof/Laws/Encoder.lean ====
section
/-! SUPPORT. Laws of the encoder's sub-steps: what each can do, and that each keeps the invariants of Safety.lean. -/

namespace Sys2Proof.Machine

/-! ### Legal configurations -/

/-- `LegalCfg` (R13), field by field. -/
theorem legalCfg_iff {c : Cfg} : legalCfg c = true ↔
    c.alphabet ≠ [] ∧ c.alphabet.Nodup ∧ c.alphabetSize = c.alphabet.length ∧ Config.carriageReturn ∈ c.alphabet ∧
      Config.lineFeed ∈ c.alphabet ∧ 1 ≤ c.minW ∧ c.minW ≤ c.maxW ∧ c.maxW ≤ 255 := by
  simp only [legalCfg, Bool.and_eq_true, decide_eq_true_eq, Bool.not_eq_true', List.isEmpty_eq_false_iff,
    List.contains_iff_mem, and_assoc]
  exact Iff.rfl

theorem firstUserCode_gt (c : Cfg) : c.alphabetSize < firstUserCode c := by
  unfold firstUserCode
  split <;> omega

/-! ### The header -/

theorem writeBytes_bits (as : Bytes) (b : Bw) : (writeBytes as b).bits = b.bits ++ as.flatMap bitsOfByte := by
  induction as generalizing b with
  | nil => simp [writeBytes]
  | cons a as ih => rw [writeBytes, ih, Bw.bits_write, List.flatMap_cons, List.append_assoc]; rfl

@[simp] theorem writeBytes_closed (as : Bytes) (b : Bw) : (writeBytes as b).closed = b.closed := by
  induction as generalizing b with
  | nil => rfl
  | cons a as ih => rw [writeBytes, ih]; rfl

theorem writeBytes_pend (as : Bytes) {b : Bw} (h : b.pend.length < 8) : (writeBytes as b).pend.length < 8 := by
  induction as generalizing b with
  | nil => exact h
  | cons a as ih => exact ih (Bw.pend_write b a.toNat 8)

@[simp] theorem Enc.hdrWrite_closed (e : Enc) : e.hdrWrite.bw.closed = e.bw.closed := by
  simp [Enc.hdrWrite, Enc.putMinW, Enc.putMaxW, Enc.putPolicy, Enc.putAlphabetSize]

theorem Enc.hdrWrite_pend (e : Enc) : e.hdrWrite.bw.pend.length < 8 := writeBytes_pend _ (Bw.pend_write _ _ _)

/-- The header's bits, field by field (R196, R91). -/
theorem Enc.hdrWrite_bits (e : Enc) : e.hdrWrite.bw.bits = e.bw.bits ++ bitsOf 8 e.cfg.minW ++ bitsOf 8 e.cfg.maxW ++
    bitsOf 8 e.cfg.policy.code ++ bitsOf 16 e.cfg.alphabetSize ++ e.cfg.alphabet.flatMap bitsOfByte := by
  simp [Enc.hdrWrite, Enc.putMinW, Enc.putMaxW, Enc.putPolicy, Enc.putAlphabetSize, writeBytes_bits, Bw.bits_write]

/-! ### What the sub-steps can do -/

/-- R222: nothing, or the removal of the tracker's victim at the eviction point. -/
theorem Enc.evict_cases (e : Enc) :
    (e.evict = e ∧ ¬ (trackerActive e.cfg.policy = true ∧ e.nextCode = e.M - 1 ∧ (e.trk.find e.cfg.policy).isSome)) ∨
      ∃ v, trackerActive e.cfg.policy = true ∧ e.nextCode = e.M - 1 ∧ e.trk.find e.cfg.policy = some v ∧
        e.evict = { e with cb := cbStore v none e.cb, trk := e.trk.remove e.cfg.policy v } := by
  unfold Enc.evict
  split
  · next h =>
    split
    · next hv => exact .inl ⟨rfl, by simp [hv]⟩
    · next v hv => exact .inr ⟨v, h.1, h.2, hv, rfl⟩
  · next h => exact .inl ⟨rfl, fun h' => h ⟨h'.1, h'.2.1⟩⟩

/-- R213, R229. -/
theorem Enc.firstByte_cases (c : Byte) (e : Enc) :
    (c ∈ e.cfg.alphabet ∧ e.firstByte c = { e with current := [c], phase := .run }) ∨
      (c ∉ e.cfg.alphabet ∧ e.firstByte c = e.raise (.notInAlphabet c)) := by
  unfold Enc.firstByte
  split
  · next h => exact .inl ⟨h, rfl⟩
  · next h => exact .inr ⟨h, rfl⟩

/-- R215: fault, hit or miss. -/
theorem Enc.runByte_cases {c : Byte} {e e' : Enc} (h : e.runByte c = .ok e') :
    (c ∉ e.cfg.alphabet ∧ e' = e.raise (.notInAlphabet c)) ∨
    (c ∈ e.cfg.alphabet ∧ (∃ x, cbLookup (e.current ++ [c]) e.cb = some x) ∧
      e' = { e with current := e.current ++ [c] }) ∨
    (∃ code, c ∈ e.cfg.alphabet ∧ cbLookup (e.current ++ [c]) e.cb = none ∧ cbLookup e.current e.cb = some code ∧
      e.bw.closed = false ∧ e' = e.miss code (e.current ++ [c]) c) := by
  unfold Enc.runByte at h
  split at h
  · next hc =>
    split at h
    · next hn =>
      cases h
      exact .inr (.inl ⟨hc, Option.isSome_iff_exists.1 hn, rfl⟩)
    · next hn =>
      split at h
      · cases h
      · next code hcode =>
        split at h
        · cases h
        · next hcl =>
          cases h
          exact .inr (.inr ⟨code, hc, by simpa using hn, hcode, by simpa using hcl, rfl⟩)
  · next hc =>
    cases h
    exact .inl ⟨hc, rfl⟩

/-- R214. -/
theorem Enc.endEmpty_ok {e e' : Enc} (h : e.endEmpty = .ok e') : e.bw.closed = false ∧ e' = e.finish := by
  unfold Enc.endEmpty at h
  split at h
  · cases h
  · next hc => cases h; exact ⟨by simpa using hc, rfl⟩

/-- R228. -/
theorem Enc.endRun_ok {e e' : Enc} (h : e.endRun = .ok e') :
    ∃ code, cbLookup e.current e.cb = some code ∧ e.bw.closed = false ∧
      e' = ((e.emit code).useCurrent.widthCheck.emit e.eofCode).finish := by
  unfold Enc.endRun at h
  split at h
  · cases h
  · next code hcode =>
    split at h
    · cases h
    · next hc =>
      cases h
      refine ⟨code, hcode, by simpa using hc, ?_⟩
      simp

/-! ### The sub-steps keep `Enc.Inv` -/

namespace Enc.Inv

variable {e : Enc}

theorem raise (h : e.Inv) (hp : e.phase ≠ .idle) (c : Cause) : (e.raise c).Inv :=
  { h with
    fault_iff := ⟨fun _ => by simp, fun _ => rfl⟩
    started := fun _ => { h.started hp with }
    running := fun h' => nomatch h'
    done_closed := fun h' => nomatch h' }

theorem emit (h : e.Inv) (hc : e.bw.closed = false) (code : Nat) : (e.emit code).Inv :=
  { h with
    pend_lt := Bw.pend_write _ _ _
    closed_pend := fun h' => by rw [Enc.emit_bw, Bw.closed_write, hc] at h'; cases h'
    started := fun hp => { h.started hp with }
    done_closed := fun hp => by rw [Enc.emit_bw, Bw.closed_write]; exact h.done_closed hp }

theorem useCurrent (h : e.Inv) : e.useCurrent.Inv := by
  unfold Enc.useCurrent
  split
  · exact
      { h with
        trk_wf := Trk.use_wf bytesLt_order _ _ h.trk_wf
        started := fun hp =>
          { h.started hp with allocated := Trk.use_allocated bytesLt _ _ (h.started hp).allocated } }
  · exact h

theorem widthCheck (h : e.Inv) : e.widthCheck.Inv := by
  unfold Enc.widthCheck
  split
  · next hw =>
    exact
      { h with
        threshold := rfl
        started := fun hp =>
          { h.started hp with
            width_low := Nat.le_succ_of_le (h.started hp).width_low
            width_high := hw.2 } }
  · exact h

theorem evict (h : e.Inv) : e.evict.Inv := by
  rcases e.evict_cases with ⟨he, -⟩ | ⟨v, -, -, -, he⟩
  · rw [he]; exact h
  · rw [he]
    exact
      { h with
        cb_wf := cbStore_wf v none h.cb_wf
        cb_keys := fun x hx => h.cb_keys x (mem_mapErase hx)
        trk_wf := Trk.remove_wf _ _ h.trk_wf
        started := fun hp =>
          { h.started hp with allocated := Trk.remove_allocated _ _ (h.started hp).allocated } }

theorem insert (h : e.Inv) {next : Bytes} (hn : next ≠ []) (hm : e.nextCode < e.M) : (e.insert next).Inv :=
  { h with
    cb_wf := cbStore_wf next (some e.nextCode) h.cb_wf
    cb_keys := cbStore_keys (P := fun k => k ≠ []) (v := some e.nextCode) hn h.cb_keys
    trk_wf := Trk.use_wf bytesLt_order _ _ h.trk_wf
    started := fun hp =>
      { h.started hp with
        next_low := Nat.le_succ_of_le (h.started hp).next_low
        next_high := le_trans hm (le_max_left _ _)
        allocated := Trk.use_allocated bytesLt _ _ (h.started hp).allocated } }

theorem flush (h : e.Inv) (hp : e.phase ≠ .idle) : e.flush.Inv :=
  { h with
    threshold := rfl
    cb_wf := cbInitial_wf _
    cb_keys := fun x hx h0 => by have := cbInitial_keys _ x hx; rw [h0] at this; simp at this
    started := fun _ =>
      { h.started hp with
        next_low := le_refl _
        next_high := le_max_right _ _
        width_low := le_refl _
        width_high := (legalCfg_iff.1 (h.started hp).legal).2.2.2.2.2.2.1 } }

theorem current (h : e.Inv) {str : Bytes} (hs : str ≠ []) : ({ e with current := str } : Enc).Inv :=
  { h with started := fun hp => { h.started hp with }, running := fun _ => hs }

theorem finish (h : e.Inv) (hp : e.phase ≠ .idle) (hf : e.phase ≠ .fault) : e.finish.Inv :=
  { h with
    fault_iff := ⟨fun h' => (nomatch h'), fun h' => absurd (h.fault_iff.2 h') hf⟩
    pend_lt := by rw [Enc.finish_bw, Bw.pend_close]; simp
    closed_pend := fun _ => Bw.pend_close _
    started := fun _ => { h.started hp with }
    running := fun h' => nomatch h'
    done_closed := fun _ => Bw.closed_close _ }

theorem miss (h : e.Inv) (hp : e.phase ≠ .idle) (hc : e.bw.closed = false) (code : Nat) {next : Bytes} (hn : next ≠ [])
    (c : Byte) : (e.miss code next c).Inv := by
  have h₁ : ((e.emit code).useCurrent).Inv := (h.emit hc code).useCurrent
  have hp₁ : ((e.emit code).useCurrent).phase ≠ .idle := by simpa using hp
  have hc₁ : ((e.emit code).useCurrent).bw.closed = false := by simpa using hc
  unfold Enc.miss
  dsimp only
  refine current ?_ (by simp)
  split
  · next hm => exact (h₁.widthCheck.evict).insert hn (by simpa using hm)
  · unfold Enc.tableFull
    split
    · exact (h₁.widthCheck.emit (by simpa using hc₁) _).flush (by simpa using hp₁)
    · exact h₁

theorem start (h : e.Inv) (hp : e.phase = .idle) (hw : e.cfg.written = true) (hl : legalCfg e.cfg = true)
    (hc : e.bw.closed = false) : e.start.Inv where
  threshold := rfl
  fault_iff := by
    have : e.fault = none := by
      by_contra hf
      have := h.fault_iff.2 hf
      rw [hp] at this
      cases this
    constructor
    · exact fun h' => nomatch h'
    · exact fun h' => absurd this h'
  pend_lt := e.hdrWrite_pend
  closed_pend := fun h' => by
    have h' : e.hdrWrite.bw.closed = true := h'
    rw [Enc.hdrWrite_closed, hc] at h'
    cases h'
  cb_wf := cbInitial_wf _
  cb_keys := fun x hx h0 => by have := cbInitial_keys _ x hx; rw [h0] at this; simp at this
  trk_wf := Trk.empty_wf _
  started := fun _ =>
    { written := hw
      legal := hl
      M_eq := rfl
      eof_eq := rfl
      reset_eq := fun hr => if_pos hr
      initial_eq := rfl
      next_low := le_refl _
      next_high := le_max_right _ _
      width_low := le_refl _
      width_high := (legalCfg_iff.1 hl).2.2.2.2.2.2.1
      allocated := Trk.empty_allocated _ }
  running := fun h' => nomatch h'
  done_closed := fun h' => nomatch h'

end Enc.Inv

end Sys2Proof.Machine
end

