-- ==== Sys2Proof/Laws/Header.lean ====
section
/-! SUPPORT. Laws of the header: what the decoder reads where, a header cut short, and what reading it can change. -/

namespace Sys2Proof.Machine

/-! ### Whole bytes of the input -/

theorem drop_flatMap_bitsOfByte (bs : Bytes) (k : Nat) :
    (bs.flatMap bitsOfByte).drop (8 * k) = (bs.drop k).flatMap bitsOfByte := by
  induction k generalizing bs with
  | zero => simp
  | succ k ih =>
    cases bs with
    | nil => simp
    | cons b bs =>
      have e : 8 * (k + 1) = (bitsOfByte b).length + 8 * k := by simp; ring
      rw [List.flatMap_cons, List.drop_succ_cons, e, List.drop_append, Nat.add_sub_cancel_left, ih,
        List.drop_eq_nil_of_le (Nat.le_add_right _ _), List.nil_append]

theorem natOfBits_bitsOfByte (b : Byte) : natOfBits (bitsOfByte b) = b.toNat := by
  rw [bitsOfByte, natOfBits_bitsOf, Nat.mod_eq_of_lt b.isLt]

/-- A read of 8 bits at a byte boundary is the byte. -/
theorem Br.read_byte {b : Br} {k : Nat} {v : Byte} (hp : b.pos = 8 * k) (hv : b.input[k]? = some v) :
    b.read 8 = some (v.toNat, { b with pos := b.pos + 8 }) := by
  obtain ⟨hk, hv⟩ := List.getElem?_eq_some_iff.1 hv
  rw [b.read_eq 8 (by rw [Br.remaining, hp]; omega), hp, Br.bits, drop_flatMap_bitsOfByte,
    List.drop_eq_getElem_cons hk, hv, List.flatMap_cons, List.take_left' (length_bitsOfByte v), natOfBits_bitsOfByte]

/-- A read of 16 bits at a byte boundary has the first byte as its high byte (R63, R64). -/
theorem Br.read_two_bytes {b : Br} {k : Nat} {v w : Byte} (hp : b.pos = 8 * k) (hv : b.input[k]? = some v)
    (hw : b.input[k + 1]? = some w) : b.read 16 = some (256 * v.toNat + w.toNat, { b with pos := b.pos + 16 }) := by
  obtain ⟨hk, hv⟩ := List.getElem?_eq_some_iff.1 hv
  obtain ⟨hk', hw⟩ := List.getElem?_eq_some_iff.1 hw
  rw [b.read_eq 16 (by rw [Br.remaining, hp]; omega), hp, Br.bits, drop_flatMap_bitsOfByte,
    List.drop_eq_getElem_cons hk, hv, List.flatMap_cons, List.drop_eq_getElem_cons hk', hw, List.flatMap_cons,
    ← List.append_assoc, List.take_left' (by simp), natOfBits_append, natOfBits_bitsOfByte, natOfBits_bitsOfByte,
    length_bitsOfByte]
  congr 2
  ring

/-! ### One field -/

theorem Dec.readField_some {d : Dec} {width v : Nat} {br : Br} (h : d.br.read width = some (v, br))
    (take : Nat → Dec → Dec) : d.readField width take = take v { d with br := br } := by rw [Dec.readField, h]

theorem Dec.readField_none {d : Dec} {width : Nat} (h : d.br.remaining < width) (take : Nat → Dec → Dec) :
    d.readField width take = d.raise (.truncated width d.br.remaining) := by
  rw [Dec.readField, d.br.read_none width h]

theorem Dec.andThen_live {d : Dec} (h : d.phase ≠ .fault) (f : Dec → Dec) : d.andThen f = f d := by
  rw [Dec.andThen, if_neg h]

theorem Dec.andThen_fault {d : Dec} (h : d.phase = .fault) (f : Dec → Dec) : d.andThen f = d := by
  rw [Dec.andThen, if_pos h]

/-! ### What reading the header can change -/

/-- The decoder with `CFG` and the cursor replaced: all that a read of the header changes. -/
def Dec.headerAt (d : Dec) (cfg : Cfg) (pos : Nat) : Dec := { d with cfg := cfg, br := { d.br with pos := pos } }

@[simp] theorem Dec.headerAt_cfg (d : Dec) (cfg : Cfg) (pos : Nat) : (d.headerAt cfg pos).cfg = cfg := rfl
@[simp] theorem Dec.headerAt_phase (d : Dec) (cfg : Cfg) (pos : Nat) : (d.headerAt cfg pos).phase = d.phase := rfl
@[simp] theorem Dec.headerAt_pos (d : Dec) (cfg : Cfg) (pos : Nat) : (d.headerAt cfg pos).br.pos = pos := rfl
@[simp] theorem Dec.headerAt_input (d : Dec) (cfg : Cfg) (pos : Nat) : (d.headerAt cfg pos).br.input = d.br.input := rfl
@[simp] theorem Dec.headerAt_headerAt (d : Dec) (cfg cfg' : Cfg) (pos pos' : Nat) :
    (d.headerAt cfg pos).headerAt cfg' pos' = d.headerAt cfg' pos' := rfl
theorem Dec.headerAt_self (d : Dec) : d.headerAt d.cfg d.br.pos = d := rfl

/-- Some of the header has been read: only `CFG` and the cursor have changed, and the last read may have raised
`Truncated` (R293). -/
def Dec.HeaderRead (d d' : Dec) : Prop :=
  ∃ cfg pos, d.br.pos ≤ pos ∧ (d.br.pos ≤ 8 * d.br.input.length → pos ≤ 8 * d.br.input.length) ∧
    (d' = d.headerAt cfg pos ∨
      ∃ w, 8 * d.br.input.length - pos < w ∧
        d' = (d.headerAt cfg pos).raise (.truncated w (8 * d.br.input.length - pos)))

theorem Dec.HeaderRead.refl (d : Dec) : d.HeaderRead d := ⟨d.cfg, d.br.pos, le_refl _, id, .inl rfl⟩

theorem Dec.HeaderRead.andThen {d d' : Dec} (h : d.HeaderRead d') (hp : d.phase ≠ .fault) {f : Dec → Dec}
    (hf : ∀ e : Dec, e.phase ≠ .fault → e.HeaderRead (f e)) : d.HeaderRead (d'.andThen f) := by
  obtain ⟨cfg, pos, hle, hpos, rfl | ⟨w, hw, rfl⟩⟩ := h
  · have hp' : (d.headerAt cfg pos).phase ≠ .fault := hp
    rw [Dec.andThen_live hp']
    obtain ⟨cfg', pos', hle', hpos', h⟩ := hf (d.headerAt cfg pos) hp'
    exact ⟨cfg', pos', le_trans hle hle', fun hb => hpos' (hpos hb), h⟩
  · rw [Dec.andThen_fault (Dec.raise_phase _ _)]
    exact ⟨cfg, pos, hle, hpos, .inr ⟨w, hw, rfl⟩⟩

theorem Dec.readField_headerRead (d : Dec) (width : Nat) (take : Nat → Dec → Dec)
    (ht : ∀ v (e : Dec), ∃ cfg, take v e = { e with cfg := cfg }) : d.HeaderRead (d.readField width take) := by
  rcases d.br.read_cases width with ⟨hb, -⟩ | ⟨hb, hr⟩
  · rw [Dec.readField_none hb]
    exact ⟨d.cfg, d.br.pos, le_refl _, id, .inr ⟨width, hb, rfl⟩⟩
  · rw [Dec.readField_some hr]
    obtain ⟨cfg, hcfg⟩ := ht (natOfBits ((d.br.bits.drop d.br.pos).take width))
      { d with br := { d.br with pos := d.br.pos + width } }
    rw [hcfg]
    refine ⟨cfg, d.br.pos + width, by omega, fun hp => ?_, .inl rfl⟩
    simp only [Br.remaining] at hb
    omega

theorem Dec.getMinW_headerRead (d : Dec) : d.HeaderRead d.getMinW := d.readField_headerRead _ _ fun _ _ => ⟨_, rfl⟩
theorem Dec.getMaxW_headerRead (d : Dec) : d.HeaderRead d.getMaxW := d.readField_headerRead _ _ fun _ _ => ⟨_, rfl⟩
theorem Dec.getPolicy_headerRead (d : Dec) : d.HeaderRead d.getPolicy := d.readField_headerRead _ _ fun _ _ => ⟨_, rfl⟩
theorem Dec.getAlphabetSize_headerRead (d : Dec) : d.HeaderRead d.getAlphabetSize :=
  d.readField_headerRead _ _ fun _ _ => ⟨_, rfl⟩
theorem Dec.getAlphabet_headerRead (i : Nat) (d : Dec) : d.HeaderRead (d.getAlphabet i) :=
  d.readField_headerRead _ _ fun _ _ => ⟨_, rfl⟩

theorem Dec.getBytes_headerRead (n i : Nat) (d : Dec) (hp : d.phase ≠ .fault) : d.HeaderRead (d.getBytes n i) := by
  induction n generalizing i d with
  | zero => exact .refl d
  | succ n ih => exact (d.getAlphabet_headerRead i).andThen hp fun e he => ih (i + 1) e he

theorem Dec.hdrRead_headerRead (d : Dec) (hp : d.phase ≠ .fault) : d.HeaderRead d.hdrRead := by
  have h₁ := d.getMinW_headerRead.andThen hp fun e _ => e.getMaxW_headerRead
  have h₂ := h₁.andThen hp fun e _ => e.getPolicy_headerRead
  have h₃ := h₂.andThen hp fun e _ => e.getAlphabetSize_headerRead
  have h₄ := h₃.andThen hp fun e he => e.getBytes_headerRead e.cfg.alphabetSize 0 he
  exact h₄.andThen hp fun e _ => ⟨{ e.cfg with written := true }, e.br.pos, le_refl _, id, .inl rfl⟩

/-- A header read to its end has written `CFG` (R22). -/
theorem Dec.hdrRead_written {d : Dec} (h : d.hdrRead.phase ≠ .fault) : d.hdrRead.cfg.written = true := by
  have hlast : ∀ e : Dec, (e.andThen fun d => { d with cfg := { d.cfg with written := true } }).phase ≠ .fault →
      (e.andThen fun d => { d with cfg := { d.cfg with written := true } }).cfg.written = true := fun e he => by
    by_cases hp : e.phase = .fault
    · rw [Dec.andThen_fault hp] at he
      exact absurd hp he
    · rw [Dec.andThen_live hp]
  exact hlast _ h

/-! ### The whole header (R199) -/

theorem length_setByte (i : Nat) (v : Byte) (as : Bytes) : (setByte i v as).length = max as.length (i + 1) := by
  induction i generalizing as with
  | zero => cases as <;> simp [setByte]
  | succ i ih => cases as <;> simp [setByte, ih]

theorem take_setByte {i : Nat} (v : Byte) {as : Bytes} (h : i ≤ as.length) :
    (setByte i v as).take (i + 1) = as.take i ++ [v] := by
  induction i generalizing as with
  | zero => cases as <;> simp [setByte]
  | succ i ih =>
    cases as with
    | nil => simp at h
    | cons a as => simp [setByte, ih (Nat.le_of_succ_le_succ h)]

theorem Dec.getAlphabet_eq {d : Dec} {i k : Nat} {v : Byte} (hpos : d.br.pos = 8 * k) (hv : d.br.input[k]? = some v) :
    d.getAlphabet i = d.headerAt { d.cfg with alphabet := setByte i v d.cfg.alphabet } (8 * (k + 1)) := by
  rw [Dec.getAlphabet, Dec.readField_some (Br.read_byte hpos hv), hpos, BitVec.ofNat_toNat, BitVec.setWidth_eq]
  rfl

/-- The loop over the alphabet bytes: with bytes `0 .. i-1` in place and `n` more in the input, all of them. -/
theorem Dec.getBytes_eq (n i : Nat) (d : Dec) (hp : d.phase ≠ .fault) (hpos : d.br.pos = 8 * (5 + i))
    (hlen : 5 + i + n ≤ d.br.input.length) (hdone : d.cfg.alphabet.take i = (d.br.input.drop 5).take i)
    (hi : i ≤ d.cfg.alphabet.length) (hmax : d.cfg.alphabet.length ≤ i + n) :
    d.getBytes n i =
      d.headerAt { d.cfg with alphabet := (d.br.input.drop 5).take (i + n) } (8 * (5 + i + n)) := by
  induction n generalizing i d with
  | zero =>
    have hle : d.cfg.alphabet.length = i := by omega
    have : d.cfg.alphabet = (d.br.input.drop 5).take i := by rw [← hdone, ← hle, List.take_length]
    rw [Dec.getBytes, Nat.add_zero, Nat.add_zero, ← this, ← hpos]
    rfl
  | succ n ih =>
    obtain ⟨v, hv⟩ : ∃ v, d.br.input[5 + i]? = some v := ⟨_, List.getElem?_eq_getElem (by omega)⟩
    have hdrop : (d.br.input.drop 5)[i]? = some v := by rw [List.getElem?_drop, hv]
    obtain ⟨hdi, hde⟩ := List.getElem?_eq_some_iff.1 hdrop
    have hp' : (d.headerAt { d.cfg with alphabet := setByte i v d.cfg.alphabet } (8 * (5 + i + 1))).phase ≠ .fault := hp
    rw [Dec.getBytes, Dec.getAlphabet_eq hpos hv, Dec.andThen_live hp', ih (i + 1) _ hp' rfl]
    · have e₁ : i + 1 + n = i + (n + 1) := by omega
      have e₂ : 5 + (i + 1) + n = 5 + i + (n + 1) := by omega
      rw [e₁, e₂]
      rfl
    · simp only [Dec.headerAt_input]; omega
    · simp only [Dec.headerAt_cfg, Dec.headerAt_input]
      rw [take_setByte v hi, hdone, List.take_succ_eq_append_getElem hdi, hde]
    · simp only [Dec.headerAt_cfg, length_setByte]; omega
    · simp only [Dec.headerAt_cfg, length_setByte]; omega

/-- R199 on a complete header: every register of `CFG` is written and the cursor stands after the header. -/
theorem Dec.hdrRead_complete {d : Dec} (hp : d.phase ≠ .fault) (hpos : d.br.pos = 0) {a b p h l : Byte} {rest : Bytes}
    (hin : d.br.input = a :: b :: p :: h :: l :: rest) (hlen : 256 * h.toNat + l.toNat ≤ rest.length) :
    d.hdrRead = d.headerAt
      { minW := a.toNat, maxW := b.toNat, policy := Policy.ofCode p.toNat, alphabetSize := 256 * h.toNat + l.toNat,
        alphabet := rest.take (256 * h.toNat + l.toNat), written := true }
      (8 * (5 + (256 * h.toNat + l.toNat))) := by
  have h₁ : d.getMinW = d.headerAt { d.cfg with minW := a.toNat } 8 := by
    rw [Dec.getMinW, Dec.readField_some (Br.read_byte (k := 0) hpos (by rw [hin]; rfl)), hpos]
    rfl
  have h₂ : ∀ c, (d.headerAt c 8).getMaxW = d.headerAt { c with maxW := b.toNat } 16 := fun c => by
    rw [Dec.getMaxW, Dec.readField_some (Br.read_byte (k := 1) rfl (by rw [Dec.headerAt_input, hin]; rfl))]
    rfl
  have h₃ : ∀ c, (d.headerAt c 16).getPolicy = d.headerAt { c with policy := Policy.ofCode p.toNat } 24 := fun c => by
    rw [Dec.getPolicy, Dec.readField_some (Br.read_byte (k := 2) rfl (by rw [Dec.headerAt_input, hin]; rfl))]
    rfl
  have h₄ : ∀ c, (d.headerAt c 24).getAlphabetSize = d.headerAt
      { c with alphabetSize := 256 * h.toNat + l.toNat, alphabet := c.alphabet.take (256 * h.toNat + l.toNat) } 40 :=
    fun c => by
      rw [Dec.getAlphabetSize, Dec.readField_some (Br.read_two_bytes (k := 3) rfl
        (by rw [Dec.headerAt_input, hin]; rfl) (by rw [Dec.headerAt_input, hin]; rfl))]
      rfl
  have hl : ∀ c n, (d.headerAt c n).phase ≠ .fault := fun _ _ => hp
  unfold Dec.hdrRead
  rw [h₁, Dec.andThen_live (hl _ _), h₂, Dec.andThen_live (hl _ _), h₃, Dec.andThen_live (hl _ _), h₄,
    Dec.andThen_live (hl _ _), Dec.getBytes_eq _ 0 _ (hl _ _) rfl, Dec.headerAt_headerAt, Dec.andThen_live (hl _ _)]
  · simp only [Dec.headerAt_cfg, Dec.headerAt_input, hin, List.drop_succ_cons, List.drop_zero, Nat.zero_add, Nat.add_zero]
    rfl
  · simp only [Dec.headerAt_cfg, Dec.headerAt_input, hin, List.length_cons]; omega
  · simp
  · simp
  · simp only [Dec.headerAt_cfg, List.length_take]; omega

end Sys2Proof.Machine
end

