-- ==== Sys2Proof/Laws/Decoder.lean ====
section
/-! SUPPORT. Laws of the decoder's sub-steps: what each can do, and that each keeps the invariants of Safety.lean. -/

namespace Sys2Proof.Machine

/-! ### What the sub-steps can do -/

/-- R259: the string a codeword denotes. -/
theorem Dec.stringOf_some {x : Nat} {d : Dec} {str : Bytes} :
    d.stringOf x = some str ↔ x < d.nextCode ∧ ctLookup x d.ct = some str ∨ x = d.nextCode ∧ str = d.kwkwk := by
  unfold Dec.stringOf
  by_cases hx : x < d.nextCode
  · rw [if_pos hx]
    have hne : x ≠ d.nextCode := by omega
    cases h : ctLookup x d.ct with
    | none => simp [hne]
    | some s => simp [hx, hne]
  · rw [if_neg hx]
    by_cases he : x = d.nextCode <;> simp [hx, he, eq_comm]

/-- R259: a codeword that denotes no string. -/
theorem Dec.stringOf_none {x : Nat} {d : Dec} :
    d.stringOf x = none ↔ x ≠ d.nextCode ∧ (x < d.nextCode → ctLookup x d.ct = none) := by
  unfold Dec.stringOf
  by_cases hx : x < d.nextCode
  · rw [if_pos hx]
    have hne : x ≠ d.nextCode := by omega
    cases h : ctLookup x d.ct with
    | none => simp [hne]
    | some s => simp [hx]
  · rw [if_neg hx]
    by_cases he : x = d.nextCode <;> simp [hx, he]

/-- R260: nothing, or the removal of the tracker's victim at the eviction point. -/
theorem Dec.evict_cases (d : Dec) :
    (d.evict = .ok d ∧ ¬ (trackerActive d.cfg.policy = true ∧ d.nextCode = d.M - 1 ∧ (d.trk.find d.cfg.policy).isSome)) ∨
      ∃ v, trackerActive d.cfg.policy = true ∧ d.nextCode = d.M - 1 ∧ d.trk.find d.cfg.policy = some v ∧
        (v < tableSize d.cfg ∧
            d.evict = .ok { d with ct := ctErase v d.ct, trk := d.trk.remove d.cfg.policy v } ∨
          ¬ v < tableSize d.cfg ∧ d.evict = .error .codeOutOfRange) := by
  unfold Dec.evict
  split
  · next h =>
    split
    · next hv => exact .inl ⟨rfl, by simp [hv]⟩
    · next v hv =>
      refine .inr ⟨v, h.1, h.2, hv, ?_⟩
      split
      · next hl => exact .inl ⟨hl, rfl⟩
      · next hl => exact .inr ⟨hl, rfl⟩
  · next h => exact .inl ⟨rfl, fun h' => h ⟨h'.1, h'.2.1⟩⟩

theorem Dec.insertPhase_ok {str : Bytes} {d d' : Dec} (h : d.insertPhase str = .ok d') :
    (¬ d.nextCode < d.M ∧ d' = d) ∨
      (d.nextCode < d.M ∧ ∃ d₁, d.evict = .ok d₁ ∧ d' = d₁.insert (d.prev ++ str.take 1)) := by
  unfold Dec.insertPhase at h
  split at h
  · next hm =>
    split at h
    · cases h
    · next d₁ hd => cases h; exact .inr ⟨hm, d₁, hd, rfl⟩
  · next hm => cases h; exact .inl ⟨hm, rfl⟩

theorem Dec.accept_ok {x : Nat} {str : Bytes} {d d' : Dec} (h : d.accept x str = .ok d') :
    ∃ d₁, (d.emit str).insertPhase str = .ok d₁ ∧ d' = { d₁.useCode x with prev := str } := by
  unfold Dec.accept at h
  split at h
  · cases h
  · next d₁ hd => cases h; exact ⟨d₁, hd, rfl⟩

/-- R254, R262. -/
theorem Dec.firstCode_ok {x : Nat} {d d' : Dec} (h : d.firstCode x = .ok d') :
    (x = d.eofCode ∧ d' = d.stop) ∨
    (x ≠ d.eofCode ∧ x < d.cfg.alphabetSize ∧ d' = d.restart ((ctLookup x d.ct).getD (d.alphabetString x))) ∨
    (x ≠ d.eofCode ∧ ¬ x < d.cfg.alphabetSize ∧ d' = d.raise (.badFirstCode x)) := by
  unfold Dec.firstCode at h
  split_ifs at h with he ha <;> cases h
  · exact .inl ⟨he, rfl⟩
  · exact .inr (.inl ⟨he, ha, rfl⟩)
  · exact .inr (.inr ⟨he, ha, rfl⟩)

/-- R257 to R259. -/
theorem Dec.runCode_ok {x : Nat} {d d' : Dec} (h : d.runCode x = .ok d') :
    (x = d.eofCode ∧ d' = d.stop) ∨
    (x ≠ d.eofCode ∧ d.cfg.policy = .reset ∧ x = d.resetCode ∧ d' = d.flush) ∨
    (x ≠ d.eofCode ∧ ¬ (d.cfg.policy = .reset ∧ x = d.resetCode) ∧ d.stringOf x = none ∧ d' = d.raise (.badCode x)) ∨
    (x ≠ d.eofCode ∧ ¬ (d.cfg.policy = .reset ∧ x = d.resetCode) ∧ ∃ str, d.stringOf x = some str ∧
      d.accept x str = .ok d') := by
  unfold Dec.runCode at h
  split at h
  · next he => cases h; exact .inl ⟨he, rfl⟩
  · next he =>
    split at h
    · next hr => cases h; exact .inr (.inl ⟨he, hr.1, hr.2, rfl⟩)
    · next hr =>
      split at h
      · next hs => cases h; exact .inr (.inr (.inl ⟨he, hr, hs, rfl⟩))
      · next str hs => exact .inr (.inr (.inr ⟨he, hr, str, hs, h⟩))

/-- The decoder with the cursor moved over `width` bits. -/
def Dec.advance (width : Nat) (d : Dec) : Dec := { d with br := { d.br with pos := d.br.pos + width } }

/-- The next `width` bits as an unsigned integer, most significant first. -/
def Dec.nextBits (width : Nat) (d : Dec) : Nat := natOfBits ((d.br.bits.drop d.br.pos).take width)

theorem Dec.nextBits_lt (width : Nat) (d : Dec) : d.nextBits width < 2 ^ width :=
  lt_of_lt_of_le (natOfBits_lt _) (Nat.pow_le_pow_right (by omega) (by simp))

/-- A fetch: `Truncated`, or the next `W` bits handed on (R123). -/
theorem Dec.fetch_eq (k : Nat → Dec → Except Refusal Dec) (d : Dec) :
    (d.br.remaining < d.W ∧ d.fetch k = .ok (d.raise (.truncated d.W d.br.remaining))) ∨
      (d.W ≤ d.br.remaining ∧ d.fetch k = k (d.nextBits d.W) (d.advance d.W)) := by
  rcases d.br.read_cases d.W with ⟨hb, hr⟩ | ⟨hb, hr⟩
  · exact .inl ⟨hb, by rw [Dec.fetch, hr]⟩
  · exact .inr ⟨hb, by rw [Dec.fetch, hr]; rfl⟩

/-- Everything a fetch can do. -/
theorem Dec.fetch_ok {k : Nat → Dec → Except Refusal Dec} {d d' : Dec} (h : d.fetch k = .ok d') :
    (d.br.remaining < d.W ∧ d' = d.raise (.truncated d.W d.br.remaining)) ∨
      (d.W ≤ d.br.remaining ∧ k (d.nextBits d.W) (d.advance d.W) = .ok d') := by
  refine (d.fetch_eq k).imp ?_ ?_ <;> rintro ⟨hb, hf⟩ <;> rw [hf] at h
  · exact ⟨hb, (Except.ok.inj h).symm⟩
  · exact ⟨hb, h⟩

/-- Everything `DEC.STEP` can do (R253 to R262). -/
theorem Dec.step_ok {d d' : Dec} (h : d.step = .ok d') :
    (d.phase = .first ∧ d.br.remaining = 0 ∧ d' = d.stop) ∨
    ((d.phase = .first ∧ d.br.remaining ≠ 0 ∨ d.phase = .postReset) ∧ d.br.remaining < d.W ∧
      d' = d.raise (.truncated d.W d.br.remaining)) ∨
    ((d.phase = .first ∨ d.phase = .postReset) ∧ d.W ≤ d.br.remaining ∧
      (d.advance d.W).firstCode (d.nextBits d.W) = .ok d') ∨
    (d.phase = .run ∧ d.br.remaining < d.widthCheck.W ∧
      d' = d.widthCheck.raise (.truncated d.widthCheck.W d.br.remaining)) ∨
    (d.phase = .run ∧ d.widthCheck.W ≤ d.br.remaining ∧
      (d.widthCheck.advance d.widthCheck.W).runCode (d.nextBits d.widthCheck.W) = .ok d') := by
  cases hp : d.phase <;> simp only [Dec.step, hp] at h
  case idle | done | fault => cases h
  case first =>
    by_cases he : d.br.remaining = 0
    · rw [Br.isEmpty, if_pos (decide_eq_true he)] at h
      exact .inl ⟨rfl, he, (Except.ok.inj h).symm⟩
    · rw [if_neg (by simpa [Br.isEmpty] using he)] at h
      have := Dec.fetch_ok h
      tauto
  case run =>
    have := Dec.fetch_ok h
    simp only [Dec.widthCheck_br, Dec.nextBits] at this ⊢
    tauto
  case postReset =>
    have := Dec.fetch_ok h
    tauto

/-- R252: a header cut short, or a legal header and the start values. -/
theorem Dec.startFromHeader_ok {d d' : Dec} (h : d.startFromHeader = .ok d') :
    (d.hdrRead.phase = .fault ∧ d' = d.hdrRead) ∨
      (d.hdrRead.phase ≠ .fault ∧ legalCfg d.hdrRead.cfg = true ∧ d' = d.hdrRead.start) := by
  simp only [Dec.startFromHeader] at h
  split at h
  · next hf => exact .inl ⟨hf, (Except.ok.inj h).symm⟩
  · next hf =>
    split at h
    · next hl => exact .inr ⟨hf, hl, (Except.ok.inj h).symm⟩
    · cases h

/-! ### The sub-steps keep `Dec.Inv` -/

theorem decStarted_of_ne {p : DecPhase} (h : p = .first ∨ p = .run ∨ p = .postReset) : decStarted p = true := by
  rcases h with rfl | rfl | rfl <;> rfl

theorem Dec.kwkwk_ne_nil {d : Dec} (h : d.prev ≠ []) : d.kwkwk ≠ [] := fun h0 => h (List.append_eq_nil_iff.1 h0).1

/-- With a legal configuration the string of an alphabet code is its byte. -/
theorem Dec.alphabetString_eq {d : Dec} {x : Nat} {b : Byte} (h : d.cfg.alphabet[x]? = some b) :
    d.alphabetString x = [b] := by
  obtain ⟨hx, hb⟩ := List.getElem?_eq_some_iff.1 h
  rw [Dec.alphabetString, List.drop_eq_getElem_cons hx, hb]
  rfl

namespace Dec.Inv

variable {d : Dec}

theorem fault_none (h : d.Inv) (hp : d.phase ≠ .fault) : d.fault = none := by
  by_contra hf
  exact hp (h.fault_iff.2 hf)

theorem raise (h : d.Inv) (c : Cause) : (d.raise c).Inv :=
  { h with
    fault_iff := ⟨fun _ => by simp, fun _ => rfl⟩
    started := fun h' => nomatch h'
    running := fun h' => nomatch h' }

theorem stop (h : d.Inv) (hp : d.phase = .first ∨ d.phase = .run ∨ d.phase = .postReset) : d.stop.Inv :=
  { h with
    fault_iff := ⟨fun h' => (nomatch h'), fun h' => by
      have := h.fault_iff.2 h'
      rcases hp with hp | hp | hp <;> rw [hp] at this <;> cases this⟩
    started := fun _ => { h.started (decStarted_of_ne hp) with postReset := fun h' => nomatch h' }
    running := fun h' => nomatch h' }

theorem restart (h : d.Inv) (hp : d.phase = .first ∨ d.phase = .postReset) {str : Bytes} (hs : str ≠ []) :
    (d.restart str).Inv :=
  { h with
    fault_iff := ⟨fun h' => (nomatch h'), fun h' => by
      have := h.fault_iff.2 h'
      rcases hp with hp | hp <;> rw [hp] at this <;> cases this⟩
    started := fun _ =>
      { h.started (decStarted_of_ne (by tauto)) with postReset := fun h' => nomatch h' }
    running := fun _ => hs }

/-- The string an alphabet code denotes is not empty (R254, R262). -/
theorem alphabetCode_ne_nil (h : d.Inv) (hp : decStarted d.phase = true) {x : Nat} (hx : x < d.cfg.alphabetSize) :
    (ctLookup x d.ct).getD (d.alphabetString x) ≠ [] := by
  cases hs : ctLookup x d.ct with
  | some str => exact h.ct_strings (x, str) (mapGet_mem hs)
  | none =>
    rw [(legalCfg_iff.1 (h.started hp).legal).2.2.1] at hx
    rw [Option.getD_none, Dec.alphabetString_eq (List.getElem?_eq_getElem hx)]
    nofun

theorem flush (h : d.Inv) (hp : d.phase = .run) (hr : d.cfg.policy = .reset) : d.flush.Inv :=
  have hst := h.started (decStarted_of_ne (.inr (.inl hp)))
  { h with
    threshold := rfl
    fault_iff := ⟨fun h' => (nomatch h'), fun h' => by
      have := h.fault_iff.2 h'
      rw [hp] at this
      cases this⟩
    ct_wf := ctInitial_wf _ _
    ct_strings := fun x hx h0 => by have := (mem_ctAlphabet hx).2.2; rw [h0] at this; simp at this
    started := fun _ =>
      { hst with
        next_low := le_refl _
        next_high := le_max_right _ _
        width_low := le_refl _
        width_high := (legalCfg_iff.1 hst.legal).2.2.2.2.2.2.1
        ct_slots := fun x hx => by
          have := (mem_ctAlphabet hx).2.1
          rw [tableSize, ← hst.M_eq] at this
          exact this
        postReset := fun _ => hr }
    running := fun h' => nomatch h' }

theorem advance (h : d.Inv) {width : Nat} (hb : width ≤ d.br.remaining) : (d.advance width).Inv :=
  { h with
    pos_le := by
      have := h.pos_le
      simp only [Br.remaining] at hb
      show d.br.pos + width ≤ 8 * d.br.input.length
      omega
    started := fun hp => { h.started hp with } }

theorem widthCheck (h : d.Inv) : d.widthCheck.Inv := by
  unfold Dec.widthCheck
  split
  · next hw =>
    exact
      { h with
        threshold := rfl
        started := fun hp =>
          { h.started hp with
            width_low := Nat.le_succ_of_le (h.started hp).width_low
            width_high := hw.2 } }
  · exact h

theorem emit (h : d.Inv) (str : Bytes) : (d.emit str).Inv := { h with started := fun hp => { h.started hp with } }

theorem evict (h : d.Inv) {d' : Dec} (he : d.evict = .ok d') : d'.Inv := by
  rcases d.evict_cases with ⟨hv, -⟩ | ⟨v, -, -, -, ⟨-, hv⟩ | ⟨-, hv⟩⟩
  · rw [hv] at he; cases he; exact h
  · rw [hv] at he
    cases he
    exact
      { h with
        ct_wf := ctErase_wf v h.ct_wf
        ct_strings := fun x hx => h.ct_strings x (mem_mapErase hx)
        trk_wf := Trk.remove_wf _ _ h.trk_wf
        started := fun hp =>
          { h.started hp with
            ct_slots := fun x hx => (h.started hp).ct_slots x (mem_mapErase hx)
            allocated := Trk.remove_allocated _ _ (h.started hp).allocated } }
  · rw [hv] at he; cases he

theorem insert (h : d.Inv) {new : Bytes} (hn : new ≠ []) (hm : d.nextCode < d.M) : (d.insert new).Inv :=
  { h with
    ct_wf := ctStore_wf _ _ h.ct_wf
    ct_strings := fun x hx => by
      rcases mem_mapPut hx with rfl | hx
      · exact hn
      · exact h.ct_strings x hx
    trk_wf := Trk.use_wf natLt_order _ _ h.trk_wf
    started := fun hp =>
      { h.started hp with
        next_low := Nat.le_succ_of_le (h.started hp).next_low
        next_high := le_trans hm (le_max_left _ _)
        ct_slots := fun x hx => by
          rcases mem_mapPut hx with rfl | hx
          · exact hm
          · exact (h.started hp).ct_slots x hx
        allocated := Trk.use_allocated natLt _ _ (h.started hp).allocated } }

theorem useCode (h : d.Inv) (x : Nat) : (d.useCode x).Inv := by
  unfold Dec.useCode
  split
  · exact
      { h with
        trk_wf := Trk.use_wf natLt_order _ _ h.trk_wf
        started := fun hp =>
          { h.started hp with allocated := Trk.use_allocated natLt _ _ (h.started hp).allocated } }
  · exact h

theorem prev (h : d.Inv) {str : Bytes} (hs : str ≠ []) : ({ d with prev := str } : Dec).Inv :=
  { h with started := fun hp => { h.started hp with }, running := fun _ => hs }

theorem accept (h : d.Inv) (hp : d.phase = .run) {x : Nat} {str : Bytes} (hs : str ≠ []) {d' : Dec}
    (ha : d.accept x str = .ok d') : d'.Inv := by
  obtain ⟨d₁, h₁, rfl⟩ := Dec.accept_ok ha
  have hne : d.prev ++ str.take 1 ≠ [] := fun h0 => h.running hp (List.append_eq_nil_iff.1 h0).1
  refine prev (useCode ?_ x) hs
  rcases Dec.insertPhase_ok h₁ with ⟨-, rfl⟩ | ⟨hm, d₂, h₂, rfl⟩
  · exact h.emit str
  · have hi := (h.emit str).evict h₂
    refine hi.insert hne ?_
    rcases (d.emit str).evict_cases with ⟨hv, -⟩ | ⟨v, -, -, -, ⟨-, hv⟩ | ⟨-, hv⟩⟩
    · rw [hv] at h₂; cases h₂; exact hm
    · rw [hv] at h₂; cases h₂; exact hm
    · rw [hv] at h₂; cases h₂

/-- What `stringOf` answers is not empty. -/
theorem stringOf_ne_nil (h : d.Inv) (hp : d.phase = .run) {x : Nat} {str : Bytes} (hs : d.stringOf x = some str) :
    str ≠ [] := by
  rcases Dec.stringOf_some.1 hs with ⟨-, hs⟩ | ⟨-, rfl⟩
  · exact h.ct_strings (x, str) (mapGet_mem hs)
  · exact Dec.kwkwk_ne_nil (h.running hp)

/-- Reading the header, whole or in part, before the run has started. -/
theorem headerRead (h : d.Inv) (hp : d.phase = .idle) {d' : Dec} (hr : d.HeaderRead d') : d'.Inv := by
  have hbase : ∀ cfg pos, (d.br.pos ≤ 8 * d.br.input.length → pos ≤ 8 * d.br.input.length) →
      (d.headerAt cfg pos).Inv := fun cfg pos hpos =>
    { h with
      pos_le := hpos h.pos_le
      started := fun h' => by
        have h' : decStarted d.phase = true := h'
        rw [hp] at h'
        cases h' }
  obtain ⟨cfg, pos, -, hpos, rfl | ⟨w, -, rfl⟩⟩ := hr
  · exact hbase cfg pos hpos
  · exact (hbase cfg pos hpos).raise _

theorem setPolicy (h : d.Inv) (hp : d.phase = .idle) (p : Policy) : (d.setPolicy p).Inv :=
  { h with
    started := fun h' => by
      have h' : decStarted d.phase = true := h'
      rw [hp] at h'
      cases h' }

theorem start (h : d.Inv) (hp : d.phase ≠ .fault) (hw : d.cfg.written = true) (hl : legalCfg d.cfg = true) :
    d.start.Inv where
  threshold := rfl
  fault_iff := ⟨fun h' => (nomatch h'), fun h' => absurd (h.fault_none hp) h'⟩
  pos_le := h.pos_le
  ct_wf := ctInitial_wf _ _
  ct_strings := fun x hx h0 => by have := (mem_ctAlphabet hx).2.2; rw [h0] at this; simp at this
  trk_wf := Trk.empty_wf _
  started := fun _ =>
    { written := hw
      legal := hl
      M_eq := rfl
      eof_eq := rfl
      reset_eq := fun hr => if_pos hr
      initial_eq := rfl
      next_low := le_refl _
      next_high := le_max_right _ _
      width_low := le_refl _
      width_high := (legalCfg_iff.1 hl).2.2.2.2.2.2.1
      ct_slots := fun x hx => (mem_ctAlphabet hx).2.1
      postReset := fun h' => nomatch h'
      allocated := Trk.empty_allocated _ }
  running := fun h' => nomatch h'

end Dec.Inv

end Sys2Proof.Machine
end

