-- ==== Sys2Proof/Laws/DecoderRun.lean ====
section
/-! SUPPORT. Laws of a run of the decoder that the host drives: each operation of such a run keeps `Dec.Coherent`, and
`DEC.STEP` always has a step. -/

namespace Sys2Proof.Machine

/-- A codeword in `FIRST` or `POSTRESET` always has a step (R254, R262). -/
theorem Dec.firstCode_completes (d : Dec) (x : Nat) : ∃ d', d.firstCode x = .ok d' := by
  unfold Dec.firstCode
  split_ifs <;> exact ⟨_, rfl⟩

namespace Dec.Coherent

variable {d : Dec}

/-- A table of the alphabet only, with a tracker that holds nothing it could evict (R153, R252, R258). -/
theorem initial (hn : d.cfg.alphabetSize = d.cfg.alphabet.length) (hct : d.ct = ctInitial d.M d.cfg.alphabet)
    (ht : trackerActive d.cfg.policy = true → ∀ x, ¬ d.trk.tracks d.cfg.policy x) : d.Coherent where
  alphabet x b hb hx := by rw [hct, ctLookup_initial, if_pos hx, hb]; rfl
  user x str hs ha := by
    rw [hct, ctLookup_initial] at hs
    split at hs
    · obtain ⟨b, hb, -⟩ := Option.map_eq_some_iff.1 hs
      have := (List.getElem?_eq_some_iff.1 hb).1
      omega
    · cases hs
  tracked ha x hx := absurd hx (ht ha x)

theorem start (hl : legalCfg d.cfg = true) : d.start.Coherent :=
  initial (legalCfg_iff.1 hl).2.2.1 rfl fun _ x => by
    show ¬ (Trk.empty : Trk Nat).tracks d.cfg.policy x
    cases d.cfg.policy <;> simp [Trk.tracks, Trk.empty]

theorem flush (hi : d.Inv) (hp : d.phase = .run) (hr : d.cfg.policy = .reset) : d.flush.Coherent :=
  have hst := hi.started (decStarted_of_ne (.inr (.inl hp)))
  initial (legalCfg_iff.1 hst.legal).2.2.1 (by rw [Dec.flush_ct, tableSize, ← hst.M_eq]; rfl) fun ha => by
    have ha : trackerActive d.cfg.policy = true := ha
    rw [hr] at ha
    cases ha

/-- `CFG`, the constants, the table and the tracker decide coherence. -/
theorem congr (h : d.Coherent) {d' : Dec} (hc : d'.cfg = d.cfg) (hm : d'.M = d.M)
    (hi : d'.initialNextCode = d.initialNextCode) (hn : d'.nextCode = d.nextCode) (hct : d'.ct = d.ct)
    (ht : d'.trk = d.trk) : d'.Coherent := by
  constructor
  · rw [hc, hm, hct]; exact h.alphabet
  · rw [hc, hi, hn, hct]; exact h.user
  · rw [hc, hi, hn, ht]; exact h.tracked

theorem widthCheck (h : d.Coherent) : d.widthCheck.Coherent := h.congr (by simp) (by simp) (by simp) (by simp) (by simp) (by simp)

/-- An alphabet code that `W` bits can hold has its slot (R254, R262). -/
theorem alphabet_slot (h : d.Coherent) (hst : d.Started) {x : Nat} (hx : x < 2 ^ d.W) (ha : x < d.cfg.alphabetSize) :
    ∃ b, d.cfg.alphabet[x]? = some b ∧ ctLookup x d.ct = some [b] := by
  have hsize := (legalCfg_iff.1 hst.legal).2.2.1
  have hM : x < d.M := by
    rw [hst.M_eq]
    exact lt_of_lt_of_le hx (Nat.pow_le_pow_right (by omega) hst.width_high)
  exact ⟨_, List.getElem?_eq_getElem (by omega), h.alphabet x _ (List.getElem?_eq_getElem (by omega)) hM⟩

/-- The eviction point never asks for a slot that does not exist. -/
theorem evict_ok (h : d.Coherent) (hi : d.Inv) (hst : d.Started) (hm : d.nextCode < d.M) : ∃ d', d.evict = .ok d' := by
  rcases d.evict_cases with ⟨hv, -⟩ | ⟨v, ha, hat, hv, ⟨-, hv'⟩ | ⟨hlt, -⟩⟩
  · exact ⟨_, hv⟩
  · exact ⟨_, hv'⟩
  · have := h.tracked ha v (Trk.tracks_find hi.trk_wf hv)
    rw [tableSize, ← hst.M_eq] at hlt
    omega

/-- R260: the insert phase keeps coherence. -/
theorem insertPhase (h : d.Coherent) (hi : d.Inv) (hst : d.Started) {str : Bytes} {d' : Dec}
    (hd : d.insertPhase str = .ok d') : d'.Coherent := by
  rcases Dec.insertPhase_ok hd with ⟨-, rfl⟩ | ⟨hm, d₁, h₁, rfl⟩
  · exact h
  have hsize := (legalCfg_iff.1 hst.legal).2.2.1
  have hgt := firstUserCode_gt d.cfg
  have hinit := hst.initial_eq
  have hlow := hst.next_low
  -- the table after the eviction: some user slots may be gone
  obtain ⟨gone, hgone, hct, htr, hcfg, hM, hini, hnext⟩ : ∃ gone : Nat → Prop,
      (∀ x, gone x → d.initialNextCode ≤ x) ∧
      (∀ x s, ctLookup x d₁.ct = some s ↔ ¬ gone x ∧ ctLookup x d.ct = some s) ∧
      (∀ x, d₁.trk.tracks d.cfg.policy x → d.trk.tracks d.cfg.policy x) ∧
      d₁.cfg = d.cfg ∧ d₁.M = d.M ∧ d₁.initialNextCode = d.initialNextCode ∧ d₁.nextCode = d.nextCode := by
    rcases d.evict_cases with ⟨hv, -⟩ | ⟨v, ha, -, hv, ⟨-, hv'⟩ | ⟨-, hv'⟩⟩
    · rw [hv] at h₁
      cases h₁
      exact ⟨fun _ => False, fun _ h => h.elim, by simp, fun _ => id, rfl, rfl, rfl, rfl⟩
    · rw [hv'] at h₁
      cases h₁
      refine ⟨fun x => x = v, ?_, fun x s => ?_, fun x hx => ((Trk.tracks_remove v d.trk x).1 hx).1, rfl, rfl, rfl, rfl⟩
      · rintro x rfl
        exact (h.tracked ha x (Trk.tracks_find hi.trk_wf hv)).1
      · show ctLookup x (ctErase v d.ct) = some s ↔ _
        rw [ctLookup_erase]
        by_cases hx : x = v <;> simp [hx]
    · rw [hv'] at h₁
      cases h₁
  have hput : ∀ x s, ctLookup x (d₁.insert (d.prev ++ str.take 1)).ct = some s ↔
      x = d.nextCode ∧ s = d.prev ++ str.take 1 ∨ x ≠ d.nextCode ∧ ¬ gone x ∧ ctLookup x d.ct = some s := by
    intro x s
    rw [Dec.insert_ct, hnext, ctLookup_store, ← hct]
    by_cases hx : x = d.nextCode <;> simp [hx, eq_comm]
  refine ⟨fun x b hb hx => ?_, fun x s hs ha => ?_, fun ha x hx => ?_⟩
  · rw [Dec.insert_cfg, hcfg] at hb
    rw [Dec.insert_M, hM] at hx
    have hxl := (List.getElem?_eq_some_iff.1 hb).1
    rw [hput]
    exact .inr ⟨by omega, fun hg => by have := hgone x hg; omega, h.alphabet x b hb hx⟩
  · rw [hput] at hs
    rw [Dec.insert_cfg, hcfg] at ha
    rw [Dec.insert_initialNextCode, Dec.insert_nextCode, hini, hnext]
    rcases hs with ⟨rfl, -⟩ | ⟨-, -, hs⟩
    · exact ⟨hlow, by omega⟩
    · have := h.user x s hs ha
      exact ⟨this.1, by omega⟩
  · rw [Dec.insert_cfg, hcfg] at ha hx
    rw [Dec.insert_initialNextCode, Dec.insert_nextCode, hini, hnext]
    rw [Dec.insert_trk, hcfg, hnext, Trk.tracks_use ha] at hx
    rcases hx with rfl | hx
    · exact ⟨hlow, by omega⟩
    · have := h.tracked ha x (htr x hx)
      exact ⟨this.1, by omega⟩

/-- R261: the use update of a user code that has been assigned keeps coherence. -/
theorem useCode (h : d.Coherent) {x : Nat} (hx : d.initialNextCode ≤ x → x < d.nextCode) : (d.useCode x).Coherent := by
  refine ⟨?_, ?_, fun ha y hy => ?_⟩
  · simpa using h.alphabet
  · simpa using h.user
  · rw [Dec.useCode_cfg] at ha hy
    rw [Dec.useCode_initialNextCode, Dec.useCode_nextCode]
    rw [Dec.useCode_trk] at hy
    split at hy
    · next hi =>
      rw [Trk.tracks_use ha] at hy
      rcases hy with rfl | hy
      · exact ⟨hi, hx hi⟩
      · exact h.tracked ha y hy
    · exact h.tracked ha y hy

/-- The insert phase advances `nextCode` when it inserts and changes nothing else the rules after it read. -/
theorem insertPhase_next {str : Bytes} {d' : Dec} (hd : d.insertPhase str = .ok d') :
    (d.nextCode < d.M → d'.nextCode = d.nextCode + 1) ∧ (¬ d.nextCode < d.M → d'.nextCode = d.nextCode) ∧
      d'.initialNextCode = d.initialNextCode := by
  rcases Dec.insertPhase_ok hd with ⟨hm, rfl⟩ | ⟨hm, d₁, h₁, rfl⟩
  · exact ⟨fun h => absurd h hm, fun _ => rfl, rfl⟩
  · rw [Dec.insert_nextCode, Dec.insert_initialNextCode]
    rcases d.evict_cases with ⟨hv, -⟩ | ⟨v, -, -, -, ⟨-, hv⟩ | ⟨-, hv⟩⟩ <;> rw [hv] at h₁ <;> cases h₁ <;>
      exact ⟨fun _ => rfl, fun h => absurd hm h, rfl⟩

/-- R255, steps 6 to 9, for a code that `W` bits hold and that is at most `nextCode`. -/
theorem accept (h : d.Coherent) (hi : d.Inv) (hst : d.Started) {x : Nat} {str : Bytes} (hx : x < 2 ^ d.W)
    (hle : x ≤ d.nextCode) {d' : Dec} (ha : d.accept x str = .ok d') : d'.Coherent := by
  obtain ⟨d₁, h₁, rfl⟩ := Dec.accept_ok ha
  have hc : (d.emit str).Coherent := h.congr rfl rfl rfl rfl rfl rfl
  have hc₁ := hc.insertPhase (hi.emit str) { hst with } h₁
  have ⟨hn, hn', _⟩ := insertPhase_next h₁
  have hM : x < d.M := by
    rw [hst.M_eq]
    exact lt_of_lt_of_le hx (Nat.pow_le_pow_right (by omega) hst.width_high)
  have hc₂ := hc₁.useCode (x := x) fun _ => by
    rcases Nat.lt_or_ge d.nextCode d.M with hm | hm
    · rw [hn hm, Dec.emit_nextCode]; omega
    · rw [hn' (Nat.not_lt.2 hm), Dec.emit_nextCode]; omega
  exact hc₂.congr rfl rfl rfl rfl rfl rfl

/-- R255, steps 6 to 9: there is always a next state. -/
theorem accept_completes (h : d.Coherent) (hi : d.Inv) (hst : d.Started) (x : Nat) (str : Bytes) :
    ∃ d', d.accept x str = .ok d' := by
  have hc : (d.emit str).Coherent := h.congr rfl rfl rfl rfl rfl rfl
  have : ∃ d₁, (d.emit str).insertPhase str = .ok d₁ := by
    unfold Dec.insertPhase
    split
    · next hm =>
      obtain ⟨d₁, h₁⟩ := hc.evict_ok (hi.emit str) { hst with } hm
      rw [h₁]
      exact ⟨_, rfl⟩
    · exact ⟨_, rfl⟩
  obtain ⟨d₁, h₁⟩ := this
  rw [Dec.accept, h₁]
  exact ⟨_, rfl⟩

/-- A codeword in `RUN` always has a step (R255). -/
theorem runCode_completes (h : d.Coherent) (hi : d.Inv) (hst : d.Started) (x : Nat) : ∃ d', d.runCode x = .ok d' := by
  unfold Dec.runCode
  split
  · exact ⟨_, rfl⟩
  · split
    · exact ⟨_, rfl⟩
    · split
      · exact ⟨_, rfl⟩
      · exact h.accept_completes hi hst x _

end Dec.Coherent

end Sys2Proof.Machine
end

