-- ==== Sys2Proof/Laws/EncoderRun.lean ====
section
/-! SUPPORT. Laws of a run of the encoder that the host drives: each operation of such a run keeps `Enc.Coherent`. -/

namespace Sys2Proof.Machine

namespace Enc.Coherent

variable {e : Enc}

/-- R212: `ENC.START` leaves the alphabet-only dictionary and an empty tracker. -/
theorem start (hn : e.cfg.alphabet.Nodup) (hc : e.bw.closed = false) : e.start.Coherent where
  writer_open := (e.hdrWrite_closed).trans hc
  alphabet b c := by
    rw [Enc.start_cb, cbLookup_initial hn, Enc.start_cfg]
    constructor
    · rintro ⟨b', hb, h⟩
      obtain rfl : b = b' := by simpa using hb
      exact h
    · exact fun h => ⟨b, rfl, h⟩
  user str c h hl := by
    rw [Enc.start_cb, cbLookup_initial hn] at h
    obtain ⟨b, rfl, -⟩ := h
    simp at hl
  distinct s t c hs ht := by
    rw [Enc.start_cb, cbLookup_initial hn] at hs ht
    obtain ⟨b, rfl, hb⟩ := hs
    obtain ⟨b', rfl, hb'⟩ := ht
    rw [hb] at hb'
    rw [Option.some.inj hb']
  current_present h := by cases h
  tracked ha str := by
    have hno : ¬ (e.start).trk.tracks (e.start).cfg.policy str := by
      rw [Enc.start_trk, Enc.start_cfg]
      cases e.cfg.policy <;> simp [Trk.tracks, Trk.empty]
    refine ⟨fun h => absurd h hno, ?_⟩
    rintro ⟨hl, c, h⟩
    rw [Enc.start_cb, cbLookup_initial hn] at h
    obtain ⟨b, rfl, -⟩ := h
    simp at hl
  fresh _ := Lfu.empty_fresh

/-- A byte of the alphabet is a key of the dictionary. -/
theorem alphabet_present (h : e.Coherent) {c : Byte} (hc : c ∈ e.cfg.alphabet) : ∃ x, cbLookup [c] e.cb = some x := by
  obtain ⟨n, hn⟩ := List.getElem?_of_mem hc
  exact ⟨n, (h.alphabet c n).2 hn⟩

/-- R213, R227: a new prefix of one alphabet byte. -/
theorem single (h : e.Coherent) {c : Byte} (hc : c ∈ e.cfg.alphabet) (p : EncPhase) :
    ({ e with current := [c], phase := p } : Enc).Coherent :=
  { h with current_present := fun _ => h.alphabet_present hc }

/-- R215, a hit. -/
theorem hit (h : e.Coherent) {str : Bytes} (hs : ∃ x, cbLookup str e.cb = some x) :
    ({ e with current := str } : Enc).Coherent :=
  { h with current_present := fun _ => hs }

theorem emit (h : e.Coherent) (code : Nat) : (e.emit code).Coherent :=
  { h with writer_open := h.writer_open }

/-- R219: the entry used is one of the dictionary, so the tracked keys stay the same. -/
theorem useCurrent (h : e.Coherent) (hi : e.Inv) (hp : e.phase = .run) : e.useCurrent.Coherent := by
  unfold Enc.useCurrent
  split
  · next hl =>
    obtain ⟨x, hx⟩ := h.current_present hp
    refine { h with tracked := fun ha str => ?_, fresh := fun hm => ?_ }
    · rw [Trk.tracks_use ha, h.tracked ha]
      constructor
      · rintro (rfl | hs)
        · exact ⟨hl, x, hx⟩
        · exact hs
      · exact .inr
    · have hf := h.fresh hm
      have hc := hi.trk_wf.lfu
      show ((e.trk.use bytesLt e.cfg.policy e.current).lfu).Fresh
      cases e.cfg.policy
      · exact hf
      · exact hf
      · exact hf
      · exact Lfu.touch_fresh _ hc (.inl hf)
  · exact h

theorem widthCheck (h : e.Coherent) : e.widthCheck.Coherent := by
  unfold Enc.widthCheck
  split
  · exact { h with }
  · exact h

/-- R222, R223: eviction and insertion, then the new prefix. -/
theorem grow (h : e.Coherent) (hi : e.Inv) (hp : e.phase = .run) (hm : e.nextCode < e.M) {next : Bytes}
    (hn : cbLookup next e.cb = none) (hl : 2 ≤ next.length) {c : Byte} (hc : c ∈ e.cfg.alphabet) :
    ({ (e.evict.insert next) with current := [c] } : Enc).Coherent := by
  have hst := hi.started (by rw [hp]; simp)
  -- the dictionary after the eviction: some set of keys of two bytes or more may be gone
  obtain ⟨gone, hgone, hcb, htr, hfr⟩ : ∃ gone : Bytes → Prop, (∀ s, gone s → 2 ≤ s.length) ∧
      (∀ s x, cbLookup s e.evict.cb = some x ↔ ¬ gone s ∧ cbLookup s e.cb = some x) ∧
      (trackerActive e.cfg.policy = true → ∀ s, e.evict.trk.tracks e.cfg.policy s ↔
        ¬ gone s ∧ e.trk.tracks e.cfg.policy s) ∧
      (e.nextCode + 1 < e.M → e.evict.trk = e.trk) := by
    rcases e.evict_cases with ⟨he, -⟩ | ⟨v, ha, hat, hv, he⟩
    · exact ⟨fun _ => False, fun _ h => h.elim, by simp [he], fun _ => by simp [he], fun _ => by rw [he]⟩
    · refine ⟨fun s => s = v, ?_, ?_, ?_, ?_⟩
      · rintro s rfl
        exact ((h.tracked ha s).1 (Trk.tracks_find hi.trk_wf hv)).1
      · intro s x
        rw [he]
        show cbLookup s (cbStore v none e.cb) = some x ↔ _
        rw [cbLookup_store]
        by_cases hs : s = v <;> simp [hs]
      · intro _ s
        rw [he]
        show (e.trk.remove e.cfg.policy v).tracks e.cfg.policy s ↔ _
        rw [Trk.tracks_remove]
        exact and_comm
      · intro hlt
        omega
  have hput : ∀ s x, cbLookup s (e.evict.insert next).cb = some x ↔
      s = next ∧ x = e.nextCode ∨ s ≠ next ∧ ¬ gone s ∧ cbLookup s e.cb = some x := by
    intro s x
    rw [Enc.insert_cb, Enc.evict_nextCode, cbLookup_store, ← hcb]
    by_cases hs : s = next <;> simp [hs, eq_comm]
  have hold : ∀ s x, 2 ≤ s.length → cbLookup s e.cb = some x → x < e.nextCode := fun s x hs hx => (h.user s x hx hs).2
  have halpha : ∀ b x, cbLookup [b] e.cb = some x → x < e.nextCode := fun b x hx => by
    have hb := (h.alphabet b x).1 hx
    have hlt := (List.getElem?_eq_some_iff.1 hb).1
    have hsize := (legalCfg_iff.1 hst.legal).2.2.1
    have := firstUserCode_gt e.cfg
    have := hst.initial_eq
    have := hst.next_low
    omega
  have hlt : ∀ s x, cbLookup s e.cb = some x → x < e.nextCode := by
    intro s x hx
    match s, hx with
    | [], hx => exact absurd rfl (hi.cb_keys _ (mapGet_mem hx))
    | [b], hx => exact halpha b x hx
    | a :: b :: s, hx => exact hold _ x (by simp) hx
  have hsingle : ∀ b : Byte, [b] ≠ next := fun b hb => by rw [← hb] at hl; simp at hl
  have hone : ∀ b : Byte, ¬ gone [b] := fun b hg => by have := hgone _ hg; simp at this
  have halphabet : ∀ b x, cbLookup [b] (e.evict.insert next).cb = some x ↔ e.cfg.alphabet[x]? = some b := fun b x => by
    rw [hput, ← h.alphabet]
    simp [hsingle, hone]
  refine ⟨?_, ?_, ?_, ?_, ?_, ?_, ?_⟩
  · simpa using h.writer_open
  · intro b x
    have := halphabet b x
    simpa using this
  · intro str x hx hs
    have hx : cbLookup str (e.evict.insert next).cb = some x := hx
    rw [hput] at hx
    simp only [Enc.insert_initialNextCode, Enc.evict_initialNextCode, Enc.insert_nextCode, Enc.evict_nextCode]
    rcases hx with ⟨-, rfl⟩ | ⟨-, -, hx⟩
    · exact ⟨hst.next_low, by omega⟩
    · have := h.user str x hx hs
      exact ⟨this.1, by omega⟩
  · intro s t x hs ht
    have hs : cbLookup s (e.evict.insert next).cb = some x := hs
    have ht : cbLookup t (e.evict.insert next).cb = some x := ht
    rw [hput] at hs ht
    rcases hs with ⟨rfl, rfl⟩ | ⟨-, -, hs⟩
    · rcases ht with ⟨rfl, -⟩ | ⟨-, -, ht⟩
      · rfl
      · have := hlt t _ ht; omega
    · rcases ht with ⟨-, rfl⟩ | ⟨-, -, ht⟩
      · have := hlt s _ hs; omega
      · exact h.distinct s t x hs ht
  · intro _
    obtain ⟨n, hn⟩ := List.getElem?_of_mem hc
    exact ⟨n, (halphabet c n).2 hn⟩
  · intro ha str
    have ha : trackerActive e.cfg.policy = true := by simpa using ha
    have hg : (∃ x, cbLookup str (e.evict.insert next).cb = some x) ↔
        str = next ∨ ¬ gone str ∧ ∃ x, cbLookup str e.cb = some x := by
      simp only [hput]
      by_cases hs : str = next
      · simp [hs]
      · simp [hs]
    have ht : (e.evict.insert next).trk.tracks e.cfg.policy str ↔
        str = next ∨ ¬ gone str ∧ e.trk.tracks e.cfg.policy str := by
      rw [Enc.insert_trk, Enc.evict_cfg, Trk.tracks_use ha, htr ha]
    show (e.evict.insert next).trk.tracks (e.evict.insert next).cfg.policy str ↔
      2 ≤ str.length ∧ ∃ x, cbLookup str (e.evict.insert next).cb = some x
    rw [Enc.insert_cfg, Enc.evict_cfg, ht, hg, h.tracked ha]
    constructor
    · rintro (rfl | ⟨hg, hs, hx⟩)
      · exact ⟨hl, .inl rfl⟩
      · exact ⟨hs, .inr ⟨hg, hx⟩⟩
    · rintro ⟨hs, rfl | ⟨hg, hx⟩⟩
      · exact .inl rfl
      · exact .inr ⟨hg, hs, hx⟩
  · intro hm'
    have hm' : e.nextCode + 1 < e.M := by simpa using hm'
    show ((e.evict.insert next).trk.lfu).Fresh
    rw [Enc.insert_trk, Enc.evict_cfg, hfr hm']
    have hf := h.fresh hm
    have hcn := hi.trk_wf.lfu
    cases e.cfg.policy
    · exact hf
    · exact hf
    · exact hf
    · exact Lfu.touch_fresh _ hcn (.inl hf)

/-- R226: the in-band reset leaves the alphabet-only dictionary; there is no tracker under policy `reset`. -/
theorem flush (h : e.Coherent) (hi : e.Inv) (hp : e.phase = .run) (hr : e.cfg.policy = .reset) {c : Byte}
    (hc : c ∈ e.cfg.alphabet) : ({ e.flush with current := [c] } : Enc).Coherent := by
  have hst := hi.started (by rw [hp]; simp)
  have hn := (legalCfg_iff.1 hst.legal).2.1
  have halphabet : ∀ b x, cbLookup [b] (e.flush).cb = some x ↔ e.cfg.alphabet[x]? = some b := fun b x => by
    rw [Enc.flush_cb, cbLookup_initial hn]
    simp
  have hno : ¬ trackerActive e.cfg.policy = true := by rw [hr]; decide
  refine ⟨h.writer_open, halphabet, ?_, ?_, ?_, fun ha => absurd ha hno, fun _ => ?_⟩
  · intro str x hx hs
    have hx : cbLookup str (cbInitial e.cfg.alphabet) = some x := hx
    rw [cbLookup_initial hn] at hx
    obtain ⟨b, rfl, -⟩ := hx
    simp at hs
  · intro s t x hs ht
    have hs : cbLookup s (cbInitial e.cfg.alphabet) = some x := hs
    have ht : cbLookup t (cbInitial e.cfg.alphabet) = some x := ht
    rw [cbLookup_initial hn] at hs ht
    obtain ⟨b, rfl, hb⟩ := hs
    obtain ⟨b', rfl, hb'⟩ := ht
    rw [hb] at hb'
    rw [Option.some.inj hb']
  · intro _
    obtain ⟨n, hn⟩ := List.getElem?_of_mem hc
    exact ⟨n, (halphabet c n).2 hn⟩
  · show e.trk.lfu.Fresh
    rw [hst.allocated.noLfu (by rw [hr]; simp)]
    exact Lfu.empty_fresh

/-- R215, a miss. -/
theorem miss (h : e.Coherent) (hi : e.Inv) (hp : e.phase = .run) (code : Nat) {next : Bytes}
    (hn : cbLookup next e.cb = none) (hl : 2 ≤ next.length) {c : Byte} (hc : c ∈ e.cfg.alphabet) :
    (e.miss code next c).Coherent := by
  have h₁ : ((e.emit code).useCurrent).Coherent := (h.emit code).useCurrent (hi.emit h.writer_open code) (by simpa using hp)
  have hi₁ : ((e.emit code).useCurrent).Inv := (hi.emit h.writer_open code).useCurrent
  have hp₁ : ((e.emit code).useCurrent).phase = .run := by simpa using hp
  have hc₁ : c ∈ ((e.emit code).useCurrent).cfg.alphabet := by simpa using hc
  unfold Enc.miss
  dsimp only
  split
  · next hm =>
    exact (h₁.widthCheck).grow hi₁.widthCheck (by simpa using hp₁) (by simpa using hm) (by simpa using hn) hl
      (by simpa using hc₁)
  · unfold Enc.tableFull
    split
    · next hr =>
      exact ((h₁.widthCheck).emit _).flush (hi₁.widthCheck.emit (by simpa using h₁.writer_open) _) (by simpa using hp₁)
        (by simpa using hr) (by simpa using hc₁)
    · exact { h₁ with current_present := fun _ => h₁.alphabet_present hc₁ }

end Enc.Coherent

end Sys2Proof.Machine
end

