-- ==== Sys2Proof/Laws/Paired.lean ====
section
/-! SUPPORT. Two trackers whose keys correspond, the encoder's by byte string and the decoder's by code (R263, R351): the
same operations on corresponding keys keep them corresponding, and `FIND` answers corresponding victims. -/

namespace Sys2Proof.Machine

variable {A B : Type} [DecidableEq A] [DecidableEq B]

/-- The relation pairs each key with at most one key, both ways. -/
def OneToOne (rel : A → B → Prop) : Prop := ∀ a b a' b', rel a b → rel a' b' → (a = a' ↔ b = b')

/-- The tracker of policy `p` on both sides, key by key. -/
structure Paired (p : Policy) (rel : A → B → Prop) (t : Trk A) (u : Trk B) : Prop where
  lru : p = .lru → List.Forall₂ rel t.lru u.lru
  bucket : p = .lfu → ∀ f, List.Forall₂ rel (t.lfu.at f) (u.lfu.at f)
  freq : p = .lfu → ∀ a b, rel a b → mapGet a t.lfu.freq = mapGet b u.lfu.freq
  minFreq : p = .lfu → t.lfu.minFreq = u.lfu.minFreq

/-- Corresponding lists without corresponding keys correspond, and the key is gone from the relation. -/
theorem forall₂_without {rel : A → B → Prop} (h1 : OneToOne rel) {a : A} {b : B} (hab : rel a b) :
    ∀ {l : List A} {m : List B}, List.Forall₂ rel l m →
      List.Forall₂ (fun a' b' => rel a' b' ∧ a' ≠ a) (without a l) (without b m)
  | [], [], .nil => .nil
  | x :: l, y :: m, .cons hxy h => by
    have ih := forall₂_without h1 hab h
    have hiff := h1 x y a b hxy hab
    unfold without at ih ⊢
    by_cases hx : x = a
    · have hy : y = b := hiff.1 hx
      simpa [hx, hy] using ih
    · have hy : y ≠ b := fun hy => hx (hiff.2 hy)
      rw [List.filter_cons_of_pos (by simpa using hx), List.filter_cons_of_pos (by simpa using hy)]
      exact .cons ⟨hxy, hx⟩ ih

omit [DecidableEq A] [DecidableEq B] in
theorem forall₂_nil_iff {rel : A → B → Prop} {l : List A} {m : List B} (h : List.Forall₂ rel l m) : l = [] ↔ m = [] := by
  cases h <;> simp

omit [DecidableEq A] [DecidableEq B] in
/-- The backs of corresponding lists correspond. -/
theorem forall₂_getLast? {rel : A → B → Prop} {l : List A} {m : List B} (h : List.Forall₂ rel l m) :
    (l.getLast? = none ∧ m.getLast? = none) ∨ ∃ a b, l.getLast? = some a ∧ m.getLast? = some b ∧ rel a b := by
  induction h with
  | nil => exact .inl ⟨rfl, rfl⟩
  | @cons a b l m hab h ih =>
    right
    rcases ih with ⟨hl, hm⟩ | ⟨a', b', hl, hm, hr⟩
    · rw [List.getLast?_eq_none_iff] at hl hm
      subst hl
      subst hm
      exact ⟨a, b, rfl, rfl, hab⟩
    · exact ⟨a', b', by simp [List.getLast?_cons, hl], by simp [List.getLast?_cons, hm], hr⟩

namespace Paired

variable {p : Policy} {rel : A → B → Prop} {t : Trk A} {u : Trk B} {ltA : A → A → Bool} {ltB : B → B → Bool}

/-- `USE` of corresponding keys. -/
theorem use (h : Paired p rel t u) (h1 : OneToOne rel) {a : A} {b : B} (hab : rel a b) :
    Paired p rel (t.use ltA p a) (u.use ltB p b) := by
  cases p with
  | freeze => exact h
  | reset => exact h
  | lru =>
    exact ⟨fun _ => .cons hab ((forall₂_without h1 hab (h.lru rfl)).imp fun _ _ h => h.1), nofun, nofun, nofun⟩
  | lfu =>
    have hf := h.freq rfl a b hab
    refine ⟨nofun, fun _ => ?_, fun _ => ?_, fun _ => ?_⟩ <;> simp only [Trk.use]
    all_goals
      cases hg : mapGet a t.lfu.freq with
      | none =>
        have ⟨f₁, b₁, m₁⟩ := Lfu.touch_new (lt := ltA) hg
        have ⟨f₂, b₂, m₂⟩ := Lfu.touch_new (lt := ltB) (hf.symm.trans hg)
        first
        | exact m₁.trans m₂.symm
        | (intro g
           rw [b₁, b₂]
           split
           · exact .cons hab (h.bucket rfl 1)
           · exact h.bucket rfl g)
        | (intro a' b' hr
           rw [f₁, f₂]
           by_cases ha : a' = a
           · rw [if_pos ha, if_pos ((h1 _ _ _ _ hr hab).1 ha)]
           · rw [if_neg ha, if_neg fun hb => ha ((h1 _ _ _ _ hr hab).2 hb)]
             exact h.freq rfl a' b' hr)
      | some f =>
        have ⟨f₁, b₁, m₁⟩ := Lfu.touch_old (lt := ltA) hg
        have ⟨f₂, b₂, m₂⟩ := Lfu.touch_old (lt := ltB) (hf.symm.trans hg)
        have hw := (forall₂_without h1 hab (h.bucket rfl f)).imp fun _ _ h => h.1
        first
        | (rw [m₁, m₂]
           have hm := h.minFreq rfl
           by_cases hc : without a (t.lfu.at f) = [] ∧ f = t.lfu.minFreq
           · rw [if_pos hc, if_pos ⟨(forall₂_nil_iff hw).1 hc.1, hc.2.trans hm⟩]
           · rw [if_neg hc, if_neg fun hc' => hc ⟨(forall₂_nil_iff hw).2 hc'.1, hc'.2.trans hm.symm⟩, hm])
        | (intro g
           rw [b₁, b₂]
           split
           · exact .cons hab (h.bucket rfl (f + 1))
           · split
             · exact hw
             · exact h.bucket rfl g)
        | (intro a' b' hr
           rw [f₁, f₂]
           by_cases ha : a' = a
           · rw [if_pos ha, if_pos ((h1 _ _ _ _ hr hab).1 ha)]
           · rw [if_neg ha, if_neg fun hb => ha ((h1 _ _ _ _ hr hab).2 hb)]
             exact h.freq rfl a' b' hr)

/-- `REMOVE` of corresponding keys takes the pair out of the relation. -/
theorem remove (h : Paired p rel t u) (h1 : OneToOne rel) (ht : t.Wf ltA) {a : A} {b : B} (hab : rel a b) :
    Paired p (fun a' b' => rel a' b' ∧ a' ≠ a) (t.remove p a) (u.remove p b) := by
  cases p with
  | freeze => exact ⟨nofun, nofun, nofun, nofun⟩
  | reset => exact ⟨nofun, nofun, nofun, nofun⟩
  | lru => exact ⟨fun _ => forall₂_without h1 hab (h.lru rfl), nofun, nofun, nofun⟩
  | lfu =>
    have hf := h.freq rfl a b hab
    have ⟨f₁, b₁, m₁⟩ := Lfu.drop_spec a t.lfu
    have ⟨f₂, b₂, m₂⟩ := Lfu.drop_spec b u.lfu
    refine ⟨nofun, fun _ g => ?_, fun _ a' b' hr => ?_, fun _ => ?_⟩ <;> simp only [Trk.remove]
    · rw [b₁, b₂, ← hf]
      by_cases hg : mapGet a t.lfu.freq = some g
      · rw [if_pos hg, if_pos hg]
        exact forall₂_without h1 hab (h.bucket rfl g)
      · rw [if_neg hg, if_neg hg]
        have hno : a ∉ t.lfu.at g := fun hm => hg ((ht.lfu.member a g).1 hm)
        have := forall₂_without h1 hab (h.bucket rfl g)
        have hb : b ∉ u.lfu.at g := by
          intro hb
          obtain ⟨a', ha', hr⟩ : ∃ a' ∈ t.lfu.at g, rel a' b := by
            obtain ⟨i, hi, he⟩ := List.getElem_of_mem hb
            have hl := (h.bucket rfl g).length_eq
            have hr := (List.forall₂_iff_get.1 (h.bucket rfl g)).2 i (by omega) hi
            rw [List.get_eq_getElem, List.get_eq_getElem, he] at hr
            exact ⟨_, List.getElem_mem _, hr⟩
          rw [(h1 _ _ _ _ hr hab).2 rfl] at ha'
          exact hno ha'
        rwa [without_of_not_mem hno, without_of_not_mem hb] at this
    · rw [f₁, f₂, if_neg hr.2, if_neg fun hb => hr.2 ((h1 _ _ _ _ hr.1 hab).2 hb)]
      exact h.freq rfl a' b' hr.1
    · rw [m₁, m₂, h.minFreq rfl]

omit [DecidableEq A] [DecidableEq B] in
/-- `FIND` answers corresponding keys. -/
theorem find [DecidableEq A] [DecidableEq B] (h : Paired p rel t u) :
    (t.find p = none ∧ u.find p = none) ∨ ∃ a b, t.find p = some a ∧ u.find p = some b ∧ rel a b := by
  cases p with
  | freeze => exact .inl ⟨rfl, rfl⟩
  | reset => exact .inl ⟨rfl, rfl⟩
  | lru => exact forall₂_getLast? (h.lru rfl)
  | lfu =>
    have := forall₂_getLast? (h.bucket rfl t.lfu.minFreq)
    simp only [Trk.find, Lfu.victim, ← h.minFreq rfl]
    exact this

/-- A relation with one pair more, of keys that are not tracked. -/
theorem extend (h : Paired p rel t u) {rel' : A → B → Prop} (hle : ∀ a b, rel a b → rel' a b)
    (hnew : p = .lfu → ∀ a b, rel' a b → ¬ rel a b → mapGet a t.lfu.freq = none ∧ mapGet b u.lfu.freq = none) :
    Paired p rel' t u where
  lru hp := (h.lru hp).imp hle
  bucket hp f := (h.bucket hp f).imp hle
  freq hp a b hr := by
    by_cases hab : rel a b
    · exact h.freq hp a b hab
    · obtain ⟨h₁, h₂⟩ := hnew hp a b hr hab
      rw [h₁, h₂]
  minFreq := h.minFreq

/-- The same relation in other words. -/
theorem congr (h : Paired p rel t u) {rel' : A → B → Prop} (hr : ∀ a b, rel a b ↔ rel' a b) : Paired p rel' t u := by
  have : rel = rel' := funext fun a => funext fun b => propext (hr a b)
  exact this ▸ h

omit [DecidableEq A] [DecidableEq B] in
theorem empty [DecidableEq A] [DecidableEq B] (p : Policy) (rel : A → B → Prop) : Paired p rel Trk.empty Trk.empty :=
  ⟨fun _ => .nil, fun _ _ => .nil, fun _ _ _ _ => rfl, fun _ => rfl⟩

end Paired

end Sys2Proof.Machine
end

