-- ==== Sys2Proof/Laws/Stated.lean ====
section
/-! SUPPORT. The words the statements use (`msbFirst`, `Br.NextIs`, membership in a map, `List.erase`, `LegalCfg`,
`UsedTo`, `headerBytes`) tied to the model's operations, one lemma each. -/

namespace Sys2Proof.Machine

/-! ### Bits -/

theorem bitsOf_eq_msbFirst (w v : Nat) : bitsOf w v = msbFirst w v := by
  induction w with
  | zero => rfl
  | succ w ih =>
    rw [bitsOf, ih, msbFirst, msbFirst, List.range_succ_eq_map]
    simp only [List.map_cons, List.map_map, Nat.add_sub_cancel, Nat.sub_zero, List.cons.injEq, true_and]
    refine List.map_congr_left fun i hi => ?_
    simp only [Function.comp_apply, Nat.succ_eq_add_one]
    congr 1
    omega

theorem getElem_bits {b : Br} {p : Nat} (h : p < b.bits.length) :
    b.bits[p] = ((b.input[p / 8]?).getD 0).toNat.testBit (7 - p % 8) := by
  have h₁ : (b.bits[p]).toNat = _ := getElem_flatMap_bitsOfByte b.input p h
  rw [Nat.testBit_eq_decide_div_mod_eq, ← h₁]
  cases b.bits[p] <;> rfl

/-- The next `w` bits of the input, as a number, are what `Br.NextIs` says. -/
theorem Br.nextIs_take {b : Br} {w : Nat} (h : b.pos + w ≤ 8 * b.input.length) :
    b.NextIs w (natOfBits ((b.bits.drop b.pos).take w)) := by
  have hl : ((b.bits.drop b.pos).take w).length = w := by simp [Br.length_bits]; omega
  refine ⟨Nat.lt_of_lt_of_eq (natOfBits_lt _) (congrArg (2 ^ ·) hl), fun i hi => ?_⟩
  have := testBit_natOfBits ((b.bits.drop b.pos).take w) i (by omega)
  simp only [hl] at this
  rw [this]
  simp only [List.getElem_take, List.getElem_drop]
  exact getElem_bits _

theorem Br.nextIs_unique {b : Br} {w v v' : Nat} (h : b.NextIs w v) (h' : b.NextIs w v') : v = v' := by
  apply Nat.eq_of_testBit_eq
  intro i
  by_cases hi : i < w
  · have e := h.2 (w - 1 - i) (by omega)
    have e' := h'.2 (w - 1 - i) (by omega)
    rw [show w - 1 - (w - 1 - i) = i by omega] at e e'
    rw [e, e']
  · have hw : (2 : Nat) ^ w ≤ 2 ^ i := Nat.pow_le_pow_right (by omega) (by omega)
    rw [Nat.testBit_lt_two_pow (Nat.lt_of_lt_of_le h.1 hw), Nat.testBit_lt_two_pow (Nat.lt_of_lt_of_le h'.1 hw)]

/-- A read answers the value whose bits come next. -/
theorem Br.read_of_nextIs {b : Br} {w v : Nat} (h : b.pos + w ≤ 8 * b.input.length) (hv : b.NextIs w v) :
    b.read w = some (v, { b with pos := b.pos + w }) := by
  rw [b.read_eq w (by rw [Br.remaining]; omega), Br.nextIs_unique (Br.nextIs_take h) hv]

/-! ### Maps -/

theorem mem_cb {cb : List (Bytes × Nat)} (h : mapWf bytesLt cb) (t : Bytes) (c : Nat) :
    (t, c) ∈ cb ↔ cbLookup t cb = some c := mem_iff_mapGet bytesLt_order h t c

theorem mem_ct {ct : List (Nat × Bytes)} (h : mapWf natLt ct) (x : Nat) (t : Bytes) :
    (x, t) ∈ ct ↔ ctLookup x ct = some t := mem_iff_mapGet natLt_order h x t

theorem cbLookup_eq_none {cb : List (Bytes × Nat)} {t : Bytes} (h : ∀ x, (t, x) ∉ cb) : cbLookup t cb = none := by
  cases he : cbLookup t cb with
  | none => rfl
  | some x => exact absurd (mapGet_mem he) (h x)

theorem ctLookup_eq_none {ct : List (Nat × Bytes)} {x : Nat} (h : ∀ t, (x, t) ∉ ct) : ctLookup x ct = none := by
  cases he : ctLookup x ct with
  | none => rfl
  | some t => exact absurd (mapGet_mem he) (h t)

/-- `CB.INIT`, entry by entry. -/
theorem mem_cbInitial {alphabet : Bytes} (h : alphabet.Nodup) (t : Bytes) (c : Nat) :
    (t, c) ∈ cbInitial alphabet ↔ ∃ b, t = [b] ∧ alphabet[c]? = some b :=
  (mem_cb (cbInitial_wf alphabet) t c).trans (cbLookup_initial h t c)

/-- `CT.INIT`, slot by slot. -/
theorem mem_ctInitial (size : Nat) (alphabet : Bytes) (x : Nat) (t : Bytes) :
    (x, t) ∈ ctInitial size alphabet ↔ x < size ∧ ∃ b, alphabet[x]? = some b ∧ t = [b] := by
  rw [mem_ct (ctInitial_wf size alphabet), ctLookup_initial]
  by_cases hx : x < size
  · simp [hx, eq_comm]
  · simp [hx]

/-! ### Trackers -/

variable {K : Type} [DecidableEq K]

theorem erase_eq_nil {k : K} {ks : List K} (hm : k ∈ ks) : ks.erase k = [] ↔ ks = [k] := by
  constructor
  · intro h
    have := List.perm_cons_erase hm
    rw [h] at this
    exact List.perm_singleton.1 this
  · rintro rfl
    simp

theorem Lfu.touch_usedTo {lt : K → K → Bool} (k : K) {l : Lfu K} (h : l.Consistent lt) : l.UsedTo k (l.touch lt k) := by
  refine ⟨fun hn => Lfu.touch_new hn, fun f hf => ?_⟩
  have ⟨h₁, h₂, h₃⟩ := Lfu.touch_old (lt := lt) hf
  rw [without_eq_erase (h.once f)] at h₂ h₃
  simp only [erase_eq_nil ((h.member k f).2 hf)] at h₃
  exact ⟨h₁, h₂, h₃⟩

theorem Lfu.drop_removedTo {lt : K → K → Bool} (k : K) {l : Lfu K} (h : l.Consistent lt) : l.RemovedTo k (l.drop k) := by
  have ⟨h₁, h₂, h₃⟩ := Lfu.drop_spec k l
  refine ⟨h₁, fun g => ?_, h₃⟩
  rw [h₂, without_eq_erase (h.once g)]

theorem Trk.use_usedTo {lt : K → K → Bool} (p : Policy) (k : K) {t : Trk K} (h : t.Wf lt) :
    t.UsedTo p k (t.use lt p k) := by
  cases p
  · rfl
  · rfl
  · simp only [Trk.UsedTo, Trk.use, lruTouch, without_eq_erase h.lru]
  · exact ⟨rfl, Lfu.touch_usedTo k h.lfu⟩

theorem Trk.remove_removedTo {lt : K → K → Bool} (p : Policy) (k : K) {t : Trk K} (h : t.Wf lt) :
    t.RemovedTo p k (t.remove p k) := by
  cases p
  · rfl
  · rfl
  · simp only [Trk.RemovedTo, Trk.remove, lruDrop, without_eq_erase h.lru]
  · exact ⟨rfl, Lfu.drop_removedTo k h.lfu⟩

omit [DecidableEq K] in
theorem Trk.find_eq_answer (p : Policy) (t : Trk K) : t.find p = t.answer p := by cases p <;> rfl

omit [DecidableEq K] in
theorem Trk.answer_eq_none {p : Policy} (h : trackerActive p = false) (t : Trk K) : t.answer p = none := by
  cases p
  · rfl
  · rfl
  · cases h
  · cases h

/-! ### Configurations and headers -/

theorem legalCfg_iff_LegalCfg {c : Cfg} : legalCfg c = true ↔ LegalCfg c := by
  rw [legalCfg_iff]
  constructor
  · rintro ⟨h₁, h₂, h₃, h₄, h₅, h₆, h₇, h₈⟩
    refine ⟨h₁, fun i j b hi hj => ?_, h₃, h₄, h₅, h₆, h₇, h₈⟩
    obtain ⟨hi, ei⟩ := List.getElem?_eq_some_iff.1 hi
    obtain ⟨hj, ej⟩ := List.getElem?_eq_some_iff.1 hj
    exact (List.Nodup.getElem_inj_iff h₂).1 (ei.trans ej.symm)
  · intro h
    refine ⟨h.nonempty, ?_, h.size, h.carriageReturn, h.lineFeed, h.minW_pos, h.ordered, h.maxW_high⟩
    rw [List.nodup_iff_getElem?_ne_getElem?]
    intro i j hij hj he
    obtain ⟨b, hb⟩ : ∃ b, c.alphabet[j]? = some b := ⟨_, List.getElem?_eq_getElem hj⟩
    exact absurd (h.distinct i j b (he.trans hb) hb) (by omega)

theorem bitsOf_append_bytes (v : Nat) : bitsOf 16 v = bitsOf 8 (v / 256) ++ bitsOf 8 v := by
  apply natOfBits_inj
  · simp
  · rw [natOfBits_append, natOfBits_bitsOf, natOfBits_bitsOf, natOfBits_bitsOf, length_bitsOf]
    omega

theorem bitsOf_eight (v : Nat) : bitsOf 8 v = bitsOfByte (BitVec.ofNat 8 v) := by
  rw [bitsOfByte, BitVec.toNat_ofNat, bitsOf_mod]

/-- `HDR.WRITE` from the writer as created, as bytes. -/
theorem Enc.hdrWrite_created {e : Enc} (h : e.bw = { out := [], pend := [], closed := false }) :
    e.hdrWrite.bw = { out := headerBytes e.cfg, pend := [], closed := false } := by
  refine Bw.ext_bits e.hdrWrite_pend (by simp) (by rw [Enc.hdrWrite_closed, h]) ?_
  rw [Enc.hdrWrite_bits, h]
  simp only [Bw.bits, headerBytes, List.flatMap_nil, List.nil_append, List.append_nil, List.flatMap_append,
    List.flatMap_cons, List.append_assoc, bitsOf_append_bytes, bitsOf_eight]
  cases e.cfg.policy <;> rfl

/-! ### The sub-steps of a miss and of a data codeword -/

/-- The use update of the encoder (R219), in the statements' words. -/
theorem Enc.useCurrent_spec {e : Enc} (h : e.trk.Wf bytesLt) :
    (2 ≤ e.current.length → e.trk.UsedTo e.cfg.policy e.current e.useCurrent.trk) ∧
      (e.current.length < 2 → e.useCurrent.trk = e.trk) ∧ e.useCurrent.trk.Wf bytesLt ∧
      e.useCurrent = { e with trk := e.useCurrent.trk } := by
  unfold Enc.useCurrent
  split
  · next hl => exact ⟨fun _ => Trk.use_usedTo _ _ h, fun hl' => absurd hl (by omega), Trk.use_wf bytesLt_order _ _ h, rfl⟩
  · next hl => exact ⟨fun hl' => absurd hl' hl, fun _ => rfl, h, rfl⟩

/-- The eviction of the encoder (R222), in the statements' words. -/
theorem Enc.evict_spec {e : Enc} (h : e.trk.Wf bytesLt) (hw : mapWf bytesLt e.cb) :
    ∃ (victim : Option Bytes) (t₂ : Trk Bytes) (cb₂ : List (Bytes × Nat)),
      e.evict = { e with cb := cb₂, trk := t₂ } ∧
      victim = (if e.nextCode = e.M - 1 then e.trk.answer e.cfg.policy else none) ∧
      (victim = none → t₂ = e.trk) ∧ (∀ v, victim = some v → e.trk.RemovedTo e.cfg.policy v t₂) ∧ t₂.Wf bytesLt ∧
      mapWf bytesLt cb₂ ∧ ∀ t, cbLookup t cb₂ = if victim = some t then none else cbLookup t e.cb := by
  rcases e.evict_cases with ⟨he, hno⟩ | ⟨v, ha, hn, hv, he⟩
  · refine ⟨none, e.trk, e.cb, he, ?_, fun _ => rfl, fun v hv => (nomatch hv), h, hw, fun t => by simp⟩
    by_cases hn : e.nextCode = e.M - 1
    · rw [if_pos hn]
      cases ha : trackerActive e.cfg.policy with
      | false => exact (Trk.answer_eq_none ha _).symm
      | true =>
        rw [← Trk.find_eq_answer]
        cases hf : e.trk.find e.cfg.policy with
        | none => rfl
        | some v => exact absurd ⟨ha, hn, by rw [hf]; rfl⟩ hno
    · rw [if_neg hn]
  · refine ⟨some v, _, _, he, ?_, fun h => (nomatch h), fun w hw => ?_, Trk.remove_wf _ _ h, cbStore_wf _ _ hw,
      fun t => ?_⟩
    · rw [if_pos hn, ← Trk.find_eq_answer, hv]
    · cases hw
      exact Trk.remove_removedTo (lt := bytesLt) _ _ h
    · rw [cbLookup_store]
      by_cases ht : t = v
      · simp [ht]
      · simp [ht, Ne.symm ht]

/-- A miss has a step (R215). -/
theorem Enc.runByte_miss {c : Byte} {code : Nat} {e : Enc} (hc : c ∈ e.cfg.alphabet) (hb : e.bw.closed = false)
    (hcur : cbLookup e.current e.cb = some code) (hn : cbLookup (e.current ++ [c]) e.cb = none) :
    e.runByte c = .ok (e.miss code (e.current ++ [c]) c) := by
  simp [Enc.runByte, hc, hn, hcur, hb]

/-- The eviction of the decoder (R260), in the statements' words; the victim has a slot. -/
theorem Dec.evict_spec {d : Dec} (h : d.trk.Wf natLt) (hw : mapWf natLt d.ct)
    (hv : ∀ v, d.trk.answer d.cfg.policy = some v → v < 2 ^ d.cfg.maxW) :
    ∃ (victim : Option Nat) (t₁ : Trk Nat) (ct₁ : List (Nat × Bytes)),
      d.evict = .ok { d with ct := ct₁, trk := t₁ } ∧
      victim = (if d.nextCode = d.M - 1 then d.trk.answer d.cfg.policy else none) ∧
      (victim = none → t₁ = d.trk) ∧ (∀ v, victim = some v → d.trk.RemovedTo d.cfg.policy v t₁) ∧ t₁.Wf natLt ∧
      mapWf natLt ct₁ ∧ ∀ y, ctLookup y ct₁ = if victim = some y then none else ctLookup y d.ct := by
  rcases d.evict_cases with ⟨he, hno⟩ | ⟨v, ha, hn, hf, he⟩
  · refine ⟨none, d.trk, d.ct, he, ?_, fun _ => rfl, fun v hv => (nomatch hv), h, hw, fun t => by simp⟩
    by_cases hn : d.nextCode = d.M - 1
    · rw [if_pos hn]
      cases ha : trackerActive d.cfg.policy with
      | false => exact (Trk.answer_eq_none ha _).symm
      | true =>
        rw [← Trk.find_eq_answer]
        cases hf : d.trk.find d.cfg.policy with
        | none => rfl
        | some v => exact absurd ⟨ha, hn, by rw [hf]; rfl⟩ hno
    · rw [if_neg hn]
  · rcases he with ⟨-, he⟩ | ⟨hlt, -⟩
    · refine ⟨some v, _, _, he, ?_, fun h => (nomatch h), fun w hw => ?_, Trk.remove_wf _ _ h, ctErase_wf _ hw,
        fun t => ?_⟩
      · rw [if_pos hn, ← Trk.find_eq_answer, hf]
      · cases hw
        exact Trk.remove_removedTo (lt := natLt) _ _ h
      · rw [ctLookup_erase]
        by_cases ht : t = v
        · simp [ht]
        · simp [ht, Ne.symm ht]
    · exact absurd (hv v (by rw [← Trk.find_eq_answer, hf])) hlt

theorem Dec.useCode_eq (x : Nat) (d : Dec) :
    d.useCode x = { d with trk := if d.initialNextCode ≤ x then d.trk.use natLt d.cfg.policy x else d.trk } := by
  unfold Dec.useCode
  split <;> rfl

/-- Steps 6 to 9 for a data codeword (R255) are what `Dec.DecodedTo` says, and they complete. -/
theorem Dec.accept_decodedTo {d : Dec} {x : Nat} {str : Bytes} (hm : mapWf natLt d.ct) (ht : d.trk.Wf natLt) (hs : str ≠ [])
    (hv : ∀ v, d.trk.answer d.cfg.policy = some v → v < 2 ^ d.cfg.maxW) :
    ∃ d', d.accept x str = .ok d' ∧ d.DecodedTo x str d' := by
  obtain ⟨b, bs, rfl⟩ := List.exists_cons_of_ne_nil hs
  by_cases hlt : d.nextCode < d.M
  · obtain ⟨victim, t₁, ct₁, he, v₁, v₂, v₃, v₄, v₅, v₆⟩ := Dec.evict_spec (d := d.emit (b :: bs)) ht hm hv
    refine ⟨_, by simp only [Dec.accept, Dec.insertPhase]; rw [if_pos (by exact hlt), he], ?_⟩
    refine ⟨fun _ => ⟨_, victim, t₁, t₁.use natLt d.cfg.policy d.nextCode,
      if d.initialNextCode ≤ x then (t₁.use natLt d.cfg.policy d.nextCode).use natLt d.cfg.policy x
      else t₁.use natLt d.cfg.policy d.nextCode, ?_, v₁, v₂, v₃,
      Trk.use_usedTo _ _ v₄, ?_, ?_, ?_, ctStore_wf d.nextCode (d.prev ++ [b]) v₅, ?_⟩,
      fun h => absurd hlt (by omega)⟩
    · rw [Dec.useCode_eq]
      rfl
    · intro hx
      rw [if_pos hx]
      exact Trk.use_usedTo (lt := natLt) _ _ (Trk.use_wf natLt_order _ _ v₄)
    · intro hx; rw [if_neg (by omega)]
    · split
      · exact Trk.use_wf natLt_order _ _ (Trk.use_wf natLt_order _ _ v₄)
      · exact Trk.use_wf natLt_order _ _ v₄
    · intro y new
      rw [mem_ct hm, mem_ct (ctStore_wf _ _ v₅), ctLookup_store, v₆]
      by_cases he : y = d.nextCode
      · simp [he, eq_comm]
      · by_cases hv : victim = some y <;> simp [he, hv, Dec.emit]
  · refine ⟨_, by simp only [Dec.accept, Dec.insertPhase]; rw [if_neg (by exact hlt)], fun h => absurd h hlt, fun _ =>
      ⟨if d.initialNextCode ≤ x then d.trk.use natLt d.cfg.policy x else d.trk, ?_, ?_, ?_, ?_⟩⟩
    · rw [Dec.useCode_eq]
      rfl
    · intro hx
      rw [if_pos hx]
      exact Trk.use_usedTo _ _ ht
    · intro hx; rw [if_neg (by omega)]
    · split
      · exact Trk.use_wf natLt_order _ _ ht
      · exact ht

end Sys2Proof.Machine
end

