-- ==== Sys2Proof/Laws/Whole.lean ====
section
/-! SUPPORT. The rules of the whole machine, from one case split over the moves of an instance: configuration and
constants stay, widths and codes only rise but for the in-band reset, output is not taken back, a fault is recorded once. -/

namespace Sys2Proof.Machine

/-- What every move of an encoder instance keeps, one field per rule of the whole machine: R22 and R24, I2 (R56), R300
with R303, R31, R296. -/
structure Enc.Facts (e e' : Enc) : Prop where
  const : e.phase ≠ .idle → e'.cfg = e.cfg ∧ e'.M = e.M ∧ e'.eofCode = e.eofCode ∧ e'.resetCode = e.resetCode ∧
    e'.initialNextCode = e.initialNextCode
  rise : e.phase ≠ .idle →
    (e.W ≤ e'.W ∧ e'.W ≤ e.W + 1 ∧ e.nextCode ≤ e'.nextCode ∧ e'.nextCode ≤ e.nextCode + 1) ∨
      (e.cfg.policy = .reset ∧ e.M ≤ e.nextCode ∧ e'.W = e.cfg.minW ∧ e'.nextCode = e.initialNextCode)
  out : e.bw.out <+: e'.bw.out
  still : e.phase ≠ .fault → e'.phase = .fault → e'.bw = e.bw
  fault : (e.phase = .fault ↔ e.fault ≠ none) →
    (e'.phase = .fault ↔ e'.fault ≠ none) ∧ (e.fault ≠ none → e'.fault = e.fault)
  io : e.fault ≠ some .ioFailure → e'.fault ≠ some .ioFailure

theorem Bw.out_close (b : Bw) : b.out <+: b.close.out := by
  unfold Bw.close; split
  · exact List.prefix_refl _
  · exact List.prefix_append _ _

theorem writeBytes_out (as : Bytes) (b : Bw) : b.out <+: (writeBytes as b).out := by
  induction as generalizing b with
  | nil => exact List.prefix_refl _
  | cons a as ih => exact (Bw.out_write b a.toNat 8).trans (ih _)

theorem Enc.hdrWrite_out (e : Enc) : e.bw.out <+: e.hdrWrite.bw.out :=
  ((((Bw.out_write _ _ _).trans (Bw.out_write _ _ _)).trans (Bw.out_write _ _ _)).trans (Bw.out_write _ _ _)).trans
    (writeBytes_out _ _)

theorem Enc.widthCheck_rises (e : Enc) : e.W ≤ e.widthCheck.W ∧ e.widthCheck.W ≤ e.W + 1 := by
  unfold Enc.widthCheck; split <;> simp
theorem Dec.widthCheck_rises (e : Dec) : e.W ≤ e.widthCheck.W ∧ e.widthCheck.W ≤ e.W + 1 := by
  unfold Dec.widthCheck; split <;> simp
/-- Every move of an encoder instance. -/
theorem Enc.Move.facts {e e' : Enc} (h : e.Move e') : Enc.Facts e e' := by
  cases h with
  | stay => constructor <;> simp_all
  | write v w hc => constructor <;> simp_all [Bw.out_write]
  | close hc => constructor <;> simp_all [Bw.out_close]
  | header hw hc hb =>
    have := Enc.hdrWrite_out e
    constructor <;> simp_all [Enc.hdrWrite]
  | store => constructor <;> simp_all
  | cbInit => constructor <;> simp_all
  | trackerUse => constructor <;> simp_all
  | trackerRemove => constructor <;> simp_all
  | start hp hw hl hc hb =>
    have := Enc.hdrWrite_out e
    constructor <;> simp_all [Enc.start]
  | firstByte c hp => 
    rcases e.firstByte_cases c with ⟨_, h⟩ | ⟨_, h⟩ <;> rw [h] <;> constructor <;> simp_all
  | runByte c _ hp h =>
    rcases Enc.runByte_cases h with ⟨_, rfl⟩ | ⟨_, _, rfl⟩ | ⟨code, hc, hn, hcur, hb, rfl⟩
    · constructor <;> simp_all
    · constructor <;> simp_all
    · obtain ⟨w1, w2⟩ := Enc.widthCheck_rises (e.emit code).useCurrent
      simp only [Enc.useCurrent_W, Enc.emit_W] at w1 w2
      by_cases hm : e.nextCode < e.M
      · have hmiss : e.miss code (e.current ++ [c]) c =
            { ((e.emit code).useCurrent.grow (e.current ++ [c])) with current := [c] } := by
          simp only [Enc.miss, Enc.useCurrent_nextCode, Enc.emit_nextCode, Enc.useCurrent_M, Enc.emit_M]
          rw [if_pos hm]
        rw [hmiss]
        constructor
        · intro _; simp [Enc.grow, Enc.insert]
        · intro _; left; simp only [Enc.grow, Enc.insert, Enc.evict_W]; exact ⟨w1, w2, by simp, by simp⟩
        · simp [Enc.grow, Enc.insert, Bw.out_write]
        · intro _ h; simp [Enc.grow, Enc.insert] at h; rw [hp] at h; cases h
        · intro h; simp [Enc.grow, Enc.insert, h]
        · simp [Enc.grow, Enc.insert]
      · by_cases hr : e.cfg.policy = .reset
        · have hmiss : e.miss code (e.current ++ [c]) c =
            { ((e.emit code).useCurrent.resetTable) with current := [c] } := by
            simp only [Enc.miss, Enc.useCurrent_nextCode, Enc.emit_nextCode, Enc.useCurrent_M, Enc.emit_M]
            rw [if_neg hm, Enc.tableFull, if_pos (by simpa using hr)]
          rw [hmiss]
          constructor
          · intro _; simp [Enc.resetTable, Enc.flush]
          · intro _; right; simp [Enc.resetTable, Enc.flush, hr]; omega
          · simp [Enc.resetTable, Enc.flush]; exact (Bw.out_write _ _ _).trans (Bw.out_write _ _ _)
          · intro _ h; simp [Enc.resetTable, Enc.flush, hp] at h
          · intro h; simp [Enc.resetTable, Enc.flush, h]
          · simp [Enc.resetTable, Enc.flush]
        · have hmiss : e.miss code (e.current ++ [c]) c =
            { ((e.emit code).useCurrent) with current := [c] } := by
            simp only [Enc.miss]
            rw [if_neg (by simpa using hm), Enc.tableFull, if_neg (by simpa using hr)]
          rw [hmiss]
          constructor
          · intro _; simp
          · intro _; left; simp
          · simp [Bw.out_write]
          · intro _ h; simp [hp] at h
          · intro h; simp [h]
          · simp
  | endEmpty _ hp h =>
    obtain ⟨_, rfl⟩ := Enc.endEmpty_ok h
    constructor <;> simp_all [Enc.finish, Bw.out_close]
  | endRun _ hp h =>
    obtain ⟨code, _, _, rfl⟩ := Enc.endRun_ok h
    obtain ⟨w1, w2⟩ := Enc.widthCheck_rises (e.emit code).useCurrent
    constructor
    · intro _; simp [Enc.finish]
    · intro _; left
      simp only [Enc.finish, Enc.emit_W, Enc.emit_nextCode, Enc.widthCheck_nextCode, Enc.useCurrent_nextCode]
      rw [Enc.useCurrent_W, Enc.emit_W] at w1 w2
      exact ⟨w1, w2, le_refl _, by omega⟩
    · simp [Enc.finish]; exact ((Bw.out_write _ _ _).trans (Bw.out_write _ _ _)).trans (Bw.out_close _)
    · intro _ h; simp [Enc.finish] at h
    · intro h; rw [hp] at h; simp [Enc.finish]; simp_all
    · simp [Enc.finish]

/-- What every move of a decoder instance keeps, one field per rule of the whole machine: R22 and R24, I2 (R56), R265,
R31, R296. -/
structure Dec.Facts (e e' : Dec) : Prop where
  const : e.phase ≠ .idle → e'.cfg = e.cfg ∧ e'.M = e.M ∧ e'.eofCode = e.eofCode ∧ e'.resetCode = e.resetCode ∧
    e'.initialNextCode = e.initialNextCode ∧ e'.br.input = e.br.input
  rise : e.phase ≠ .idle →
    (e.W ≤ e'.W ∧ e'.W ≤ e.W + 1 ∧ e.nextCode ≤ e'.nextCode ∧ e'.nextCode ≤ e.nextCode + 1) ∨
      (e.cfg.policy = .reset ∧ e'.phase = .postReset ∧ e'.W = e.cfg.minW ∧ e'.nextCode = e.initialNextCode)
  out : e.phase ≠ .idle → e.out <+: e'.out
  still : e.phase ≠ .fault → e'.phase = .fault → 
    e'.out = e.out ∧ e'.ct = e.ct ∧ e'.trk = e.trk ∧ e'.nextCode = e.nextCode
  fault : (e.phase = .fault ↔ e.fault ≠ none) →
    (e'.phase = .fault ↔ e'.fault ≠ none) ∧ (e.fault ≠ none → e'.fault = e.fault)
  io : e.fault ≠ some .ioFailure → e'.fault ≠ some .ioFailure

/-- The registers a data codeword writes. -/
theorem Dec.accept_eq {d d' : Dec} {x : Nat} {str : Bytes} (h : d.accept x str = .ok d') :
    ∃ ct trk n, d.nextCode ≤ n ∧ n ≤ d.nextCode + 1 ∧
      d' = { d with out := d.out ++ str, ct := ct, trk := trk, nextCode := n, prev := str } := by
  obtain ⟨d₁, h1, rfl⟩ := Dec.accept_ok h
  rcases Dec.insertPhase_ok h1 with ⟨_, rfl⟩ | ⟨_, d₂, h2, rfl⟩
  · rw [Dec.useCode_eq]
    exact ⟨d.ct, _, d.nextCode, le_refl _, by omega, rfl⟩
  · have : ∃ ct trk, d₂ = { d.emit str with ct := ct, trk := trk } := by
      rcases (d.emit str).evict_cases with ⟨he, -⟩ | ⟨v, -, -, -, h | h⟩
      · rw [h2] at he; cases he; exact ⟨d.ct, d.trk, rfl⟩
      · rw [h2] at h; cases h.2; exact ⟨_, _, rfl⟩
      · rw [h2] at h; cases h.2
    obtain ⟨ct, trk, rfl⟩ := this
    rw [Dec.useCode_eq]
    exact ⟨_, _, d.nextCode + 1, by omega, le_refl _, rfl⟩

theorem Dec.HeaderRead.facts {d d' : Dec} (hp : d.phase = .idle) (h : d.HeaderRead d') :
    Dec.Facts d d' ∧ (d'.phase = .idle ∨ d'.phase = .fault) := by
  obtain ⟨cfg, pos, _, _, rfl | ⟨w, _, rfl⟩⟩ := h
  · refine ⟨?_, .inl hp⟩
    constructor <;> simp_all [Dec.headerAt]
  · refine ⟨?_, .inr rfl⟩
    constructor <;> simp_all [Dec.headerAt]

theorem Dec.firstCode_facts {d d' : Dec} {x : Nat} (hp : d.phase = .first ∨ d.phase = .postReset) (h : d.firstCode x = .ok d') :
    Dec.Facts d d' := by
  rcases Dec.firstCode_ok h with ⟨_, rfl⟩ | ⟨_, _, rfl⟩ | ⟨_, _, rfl⟩
  · constructor <;> rcases hp with hp | hp <;> simp_all [Dec.stop]
  · constructor <;> rcases hp with hp | hp <;> simp_all [Dec.restart]
  · constructor <;> rcases hp with hp | hp <;> simp_all [Dec.raise]

theorem Dec.accept_facts {d d' : Dec} {x : Nat} {str : Bytes} (hp : d.phase = .run) (h : d.accept x str = .ok d') :
    Dec.Facts d d' := by
  obtain ⟨ct, trk, n, h1, h2, rfl⟩ := Dec.accept_eq h
  constructor <;> simp_all

theorem Dec.flush_facts {d : Dec} (hp : d.phase = .run) (hr : d.cfg.policy = .reset) : Dec.Facts d d.flush := by
  constructor <;> simp_all [Dec.flush]

theorem Dec.runCode_facts {d d' : Dec} {x : Nat} (hp : d.phase = .run) (h : d.runCode x = .ok d') :
    Dec.Facts d d' ∧
      (d'.W = d.W ∨ d.cfg.policy = .reset ∧ d'.phase = .postReset ∧ d'.W = d.cfg.minW ∧ d'.nextCode = d.initialNextCode) := by
  rcases Dec.runCode_ok h with ⟨_, rfl⟩ | ⟨_, h1, _, rfl⟩ | ⟨_, _, _, rfl⟩ | ⟨_, _, str, _, h⟩
  · exact ⟨by constructor <;> simp_all [Dec.stop], .inl rfl⟩
  · exact ⟨Dec.flush_facts hp h1, .inr ⟨h1, rfl, rfl, rfl⟩⟩
  · exact ⟨by constructor <;> simp_all [Dec.raise], .inl rfl⟩
  · refine ⟨Dec.accept_facts hp h, .inl ?_⟩
    obtain ⟨_, _, _, _, _, rfl⟩ := Dec.accept_eq h
    rfl

/-- Every move of a decoder instance. -/
theorem Dec.Move.facts {d d' : Dec} (h : d.Move d') : Dec.Facts d d' := by
  cases h with
  | stay => constructor <;> simp_all
  | truncated w hp hb =>
    constructor <;> simp_all [Dec.raise]
    intro h1 h2
    exact absurd (h1.2 h2) (by rcases hp with h | h | h | h <;> simp [h])
  | advance => constructor <;> simp_all
  | insert => constructor <;> simp_all
  | clear => constructor <;> simp_all
  | ctInit => constructor <;> simp_all
  | trackerUse => constructor <;> simp_all
  | trackerRemove => constructor <;> simp_all
  | header hp hb => exact (Dec.HeaderRead.facts hp (d.hdrRead_headerRead (by rw [hp]; simp))).1
  | getMinW hp => exact (Dec.HeaderRead.facts hp d.getMinW_headerRead).1
  | getMaxW hp => exact (Dec.HeaderRead.facts hp d.getMaxW_headerRead).1
  | getPolicy hp => exact (Dec.HeaderRead.facts hp d.getPolicy_headerRead).1
  | getAlphabetSize hp => exact (Dec.HeaderRead.facts hp d.getAlphabetSize_headerRead).1
  | getAlphabet i hp hi => exact (Dec.HeaderRead.facts hp (d.getAlphabet_headerRead i)).1
  | policy p hp => constructor <;> simp_all [Dec.setPolicy]
  | start _ hp hb h =>
    have hf := Dec.HeaderRead.facts hp (d.hdrRead_headerRead (by rw [hp]; simp))
    rcases Dec.startFromHeader_ok h with ⟨_, rfl⟩ | ⟨h1, _, rfl⟩
    · exact hf.1
    · have := hf.1.fault
      have := hf.1.io
      have := hf.2
      constructor <;> simp_all [Dec.start]
  | step _ hp h =>
    rcases Dec.step_ok h with ⟨h1, _, rfl⟩ | ⟨h1, _, rfl⟩ | ⟨h1, _, h2⟩ | ⟨h1, _, rfl⟩ | ⟨h1, _, h2⟩
    · constructor <;> simp_all [Dec.stop]
    · constructor <;> rcases h1 with h1 | h1 <;> simp_all [Dec.raise]
    · have := Dec.firstCode_facts (by simpa [Dec.advance] using h1) h2
      constructor
      · exact this.const
      · exact this.rise
      · exact this.out
      · exact this.still
      · exact this.fault
      · exact this.io
    · obtain ⟨w1, w2⟩ := Dec.widthCheck_rises d
      constructor <;> simp_all [Dec.raise]
    · obtain ⟨w1, w2⟩ := Dec.widthCheck_rises d
      obtain ⟨this, hW⟩ := Dec.runCode_facts (by simpa [Dec.advance] using h1) h2
      constructor
      · simpa [Dec.advance] using this.const
      · intro hi
        rcases this.rise (by simpa [Dec.advance] using hi) with h | h
        · rcases hW with hW | hW
          · left
            have e : d'.W = d.widthCheck.W := hW
            exact ⟨e ▸ w1, e ▸ w2, by simpa [Dec.advance] using h.2.2.1, by simpa [Dec.advance] using h.2.2.2⟩
          · right; simpa [Dec.advance] using hW
        · right; simpa [Dec.advance] using h
      · simpa [Dec.advance] using this.out
      · simpa [Dec.advance] using this.still
      · simpa [Dec.advance] using this.fault
      · simpa [Dec.advance] using this.io
  | cwStop hp => constructor <;> rcases hp with hp | hp | hp <;> simp_all [Dec.stop]
  | cwRestart x hp => constructor <;> rcases hp with hp | hp <;> simp_all [Dec.restart]
  | cwRaise c hc hp => constructor <;> rcases hp with hp | hp | hp <;> simp_all [Dec.raise]
  | cwFlush hp hr => exact Dec.flush_facts hp hr
  | cwAccept x str _ hp hx hs h => exact Dec.accept_facts hp h

end Sys2Proof.Machine
end

