-- ==== Sys2Proof/Laws/Lockstep.lean ====
section
/-! SUPPORT. The lock-step of an encoder and the decoder that reads its output (R263, R350, R351): the decoder, after
reading a codeword, holds what the encoder held right after emitting it and updating its use; the insertion and the width
check that follow in the encoder's miss are made by the decoder around its next read. -/

namespace Sys2Proof.Machine

/-- `c` maps strings to codes and `t` maps those codes back (I1, R56). -/
def Inverse (cb : List (Bytes × Nat)) (ct : List (Nat × Bytes)) : Prop :=
  ∀ s x, cbLookup s cb = some x ↔ ctLookup x ct = some s

theorem Inverse.oneToOne {cb : List (Bytes × Nat)} {ct : List (Nat × Bytes)} (h : Inverse cb ct) :
    OneToOne fun s x => cbLookup s cb = some x := by
  intro s x s' x' hs hs'
  constructor
  · rintro rfl
    exact Option.some.inj (hs.symm.trans hs')
  · rintro rfl
    exact Option.some.inj (((h s x).1 hs).symm.trans ((h s' x).1 hs'))

/-- What an encoder right after the use update of a codeword and a decoder right after decoding it have in common. -/
structure Shared (e : Enc) (d : Dec) : Prop where
  inv : e.Inv
  coherent : e.Coherent
  run : e.phase = .run
  /-- `WidthSafe` (R14). -/
  safe : firstUserCode e.cfg ≤ 2 ^ e.cfg.minW
  /-- R57 (g). -/
  legible : e.W < e.cfg.maxW → e.nextCode ≤ 2 ^ e.W
  cfg : d.cfg = e.cfg
  M : d.M = e.M
  eofCode : d.eofCode = e.eofCode
  resetCode : e.cfg.policy = .reset → d.resetCode = e.resetCode
  initial : d.initialNextCode = e.initialNextCode
  next : d.nextCode = e.nextCode
  W : d.W = e.W
  T : d.T = e.T
  dict : Inverse e.cb d.ct
  trk : Paired e.cfg.policy (fun s x => cbLookup s e.cb = some x) e.trk d.trk
  trk_wf : d.trk.Wf natLt

/-- A code of the dictionary is an alphabet code of a one-byte string or an assigned user code (R57 (c), (d)). -/
theorem Enc.Coherent.code_cases {e : Enc} (h : e.Coherent) (hi : e.Inv) (hp : e.phase = .run) {s : Bytes} {x : Nat}
    (hs : cbLookup s e.cb = some x) :
    (s.length < 2 ∧ x < e.cfg.alphabetSize) ∨ (2 ≤ s.length ∧ e.initialNextCode ≤ x ∧ x < e.nextCode) := by
  by_cases hl : 2 ≤ s.length
  · exact .inr ⟨hl, h.user s x hs hl⟩
  · refine .inl ⟨by omega, ?_⟩
    have hne := hi.cb_keys _ (mapGet_mem hs)
    obtain ⟨b, rfl⟩ : ∃ b, s = [b] := by
      match s, hne, hl with
      | [b], _, _ => exact ⟨b, rfl⟩
      | _ :: _ :: _, _, hl => simp at hl
    have hx := (List.getElem?_eq_some_iff.1 ((h.alphabet b x).1 hs)).1
    have := (legalCfg_iff.1 (hi.started (by rw [hp]; simp)).legal).2.2.1
    omega

namespace Shared

variable {e : Enc} {d : Dec}

theorem started (h : Shared e d) : e.Started := h.inv.started (by rw [h.run]; simp)

theorem initial_gt (h : Shared e d) : e.cfg.alphabetSize < e.initialNextCode := by
  rw [h.started.initial_eq]
  exact firstUserCode_gt _

/-- Every assigned code is below `nextCode`. -/
theorem code_lt (h : Shared e d) {s : Bytes} {x : Nat} (hs : cbLookup s e.cb = some x) : x < e.nextCode := by
  have := h.started.next_low
  have := h.initial_gt
  rcases h.coherent.code_cases h.inv h.run hs with ⟨_, h'⟩ | ⟨_, _, h'⟩ <;> omega

/-- Eviction on both sides (R222, R260): corresponding victims, or none on either. -/
theorem evict (h : Shared e d) (hm : e.nextCode < e.M) :
    ∃ ct u, d.evict = .ok { d with ct := ct, trk := u } ∧ u.Wf natLt ∧ Inverse e.evict.cb ct ∧
      (∀ s x, cbLookup s e.evict.cb = some x → cbLookup s e.cb = some x) ∧
      (∀ s, mapGet s e.trk.lfu.freq = none → mapGet s e.evict.trk.lfu.freq = none) ∧
      Paired e.cfg.policy (fun s x => cbLookup s e.evict.cb = some x) e.evict.trk u := by
  by_cases hev : trackerActive e.cfg.policy = true ∧ e.nextCode = e.M - 1
  · rcases h.trk.find with ⟨hf, hf'⟩ | ⟨v, w, hf, hf', hvw⟩
    · have he : e.evict = e := by
        rw [Enc.evict, if_pos hev, hf]
      have hd : d.evict = .ok d := by
        rw [Dec.evict, h.cfg, h.next, h.M, if_pos hev, hf']
      rw [he]
      exact ⟨d.ct, d.trk, hd, h.trk_wf, h.dict, fun _ _ hs => hs, fun _ hs => hs, h.trk⟩
    · have hwlt : w < tableSize d.cfg := by
        have := h.code_lt hvw
        rw [h.cfg]
        show w < 2 ^ e.cfg.maxW
        rw [← h.started.M_eq]
        omega
      have he : e.evict = { e with cb := cbStore v none e.cb, trk := e.trk.remove e.cfg.policy v } := by
        rw [Enc.evict, if_pos hev, hf]
      have hd : d.evict = .ok { d with ct := ctErase w d.ct, trk := d.trk.remove e.cfg.policy w } := by
        rw [Dec.evict, h.cfg, h.next, h.M, if_pos hev, hf']
        dsimp only
        rw [← h.cfg, if_pos hwlt]
      rw [he]
      refine ⟨_, _, hd, Trk.remove_wf _ _ h.trk_wf, fun s x => ?_, fun s x hs => ?_, fun s hs => ?_, ?_⟩
      · rw [cbLookup_store, ctLookup_erase]
        have h1 := h.dict.oneToOne
        by_cases hs : s = v
        · by_cases hx : x = w
          · simp [hs, hx]
          · rw [if_pos hs, if_neg hx, hs, ← h.dict v x]
            exact ⟨nofun, fun hv => absurd (Option.some.inj (hv.symm.trans hvw)) hx⟩
        · rw [if_neg hs]
          by_cases hx : x = w
          · rw [if_pos hx, hx]
            exact ⟨fun hv => absurd ((h1 _ _ _ _ hv hvw).2 rfl) hs, nofun⟩
          · rw [if_neg hx, h.dict s x]
      · rw [cbLookup_store] at hs
        split at hs
        · cases hs
        · exact hs
      · show mapGet s (e.trk.remove e.cfg.policy v).lfu.freq = none
        cases e.cfg.policy
        · exact hs
        · exact hs
        · exact hs
        · show mapGet s (e.trk.lfu.drop v).freq = none
          rw [(Lfu.drop_spec v e.trk.lfu).1, hs, ite_self]
      · refine (h.trk.remove h.dict.oneToOne h.inv.trk_wf hvw).congr fun s x => ?_
        rw [cbLookup_store]
        by_cases hs : s = v <;> simp [hs]
  · have he : e.evict = e := by rw [Enc.evict, if_neg hev]
    have hd : d.evict = .ok d := by rw [Dec.evict, h.cfg, h.next, h.M, if_neg hev]
    rw [he]
    exact ⟨d.ct, d.trk, hd, h.trk_wf, h.dict, fun _ _ hs => hs, fun _ hs => hs, h.trk⟩

/-- Eviction and insertion on both sides (R223, R260). -/
theorem insert (h : Shared e d) (hm : e.nextCode < e.M) {next : Bytes} (hn : cbLookup next e.cb = none)
    (hl : 2 ≤ next.length) :
    ∃ d₁ ct u, d.evict = .ok d₁ ∧
      d₁.insert next = { d with ct := ct, trk := u, nextCode := d.nextCode + 1 } ∧ u.Wf natLt ∧
      Inverse (e.evict.insert next).cb ct ∧
      Paired e.cfg.policy (fun s x => cbLookup s (e.evict.insert next).cb = some x) (e.evict.insert next).trk u := by
  obtain ⟨ct, u, hd, hu, hdict, hsub, hun, htrk⟩ := h.evict hm
  have hn' : cbLookup next e.evict.cb = none := by
    cases hc : cbLookup next e.evict.cb with
    | none => rfl
    | some x => rw [hsub next x hc] at hn; cases hn
  have hfree : ∀ s, cbLookup s e.evict.cb ≠ some e.nextCode := fun s hs => by
    have := h.code_lt (hsub s _ hs)
    omega
  have hinv : Inverse (cbStore next (some e.nextCode) e.evict.cb) (ctStore e.nextCode next ct) := fun s x => by
    rw [cbLookup_store, ctLookup_store]
    by_cases hs : s = next
    · rw [if_pos hs]
      by_cases hx : x = e.nextCode
      · simp [hx, hs]
      · rw [if_neg hx, ← hdict s x, hs, hn']
        simp [Ne.symm hx]
    · rw [if_neg hs]
      by_cases hx : x = e.nextCode
      · rw [if_pos hx, hx]
        simp [hfree s, Ne.symm hs]
      · rw [if_neg hx, hdict s x]
  have hcb : (e.evict.insert next).cb = cbStore next (some e.nextCode) e.evict.cb := by simp [Enc.insert]
  have htk : (e.evict.insert next).trk = e.evict.trk.use bytesLt e.cfg.policy next := by simp [Enc.insert]
  rw [hcb, htk]
  refine ⟨_, ctStore e.nextCode next ct, u.use natLt e.cfg.policy e.nextCode, hd, ?_, Trk.use_wf natLt_order _ _ hu, hinv,
    Paired.use ?_ hinv.oneToOne (by rw [cbLookup_store, if_pos rfl])⟩
  · simp only [Dec.insert, h.next, h.cfg]
  · refine htrk.extend (fun s x hs => ?_) fun hp s x hs hnot => ?_
    · rw [cbLookup_store]
      split
      · next he => rw [he, hn'] at hs; cases hs
      · exact hs
    · rw [cbLookup_store] at hs
      split at hs
      · next he =>
        cases hs
        subst he
        constructor
        · refine hun s ?_
          have ht := h.coherent.tracked (by rw [hp]; rfl) s
          rw [hp] at ht
          cases hg : mapGet s e.trk.lfu.freq with
          | none => rfl
          | some f =>
            obtain ⟨_, c, hc⟩ := ht.1 (by simp [Trk.tracks, hg])
            rw [hn] at hc
            cases hc
        · cases hg : mapGet e.nextCode u.lfu.freq with
          | none => rfl
          | some f =>
            have hmem := (hu.lfu.member _ _).2 hg
            obtain ⟨i, hi, hei⟩ := List.getElem_of_mem hmem
            have hb := htrk.bucket hp f
            have hr := (List.forall₂_iff_get.1 hb).2 i (by rw [hb.length_eq]; exact hi) hi
            rw [List.get_eq_getElem, List.get_eq_getElem, hei] at hr
            exact absurd hr (hfree _)
      · exact absurd hs hnot

theorem widthCheck_eq (e : Enc) : e.widthCheck = { e with
    W := if e.T ≤ e.nextCode ∧ e.W < e.cfg.maxW then e.W + 1 else e.W
    T := if e.T ≤ e.nextCode ∧ e.W < e.cfg.maxW then 2 ^ (e.W + 1) else e.T } := by
  unfold Enc.widthCheck
  split <;> rfl

theorem widthCheck_eq' (d : Dec) : d.widthCheck = { d with
    W := if d.T ≤ d.nextCode ∧ d.W < d.cfg.maxW then d.W + 1 else d.W
    T := if d.T ≤ d.nextCode ∧ d.W < d.cfg.maxW then 2 ^ (d.W + 1) else d.T } := by
  unfold Dec.widthCheck
  split <;> rfl

/-- Both sides make the same width check (R350). -/
theorem widthCheck (h : Shared e d) : Shared e.widthCheck d.widthCheck where
  inv := h.inv.widthCheck
  coherent := h.coherent.widthCheck
  run := by rw [Enc.widthCheck_phase, h.run]
  safe := by rw [Enc.widthCheck_cfg]; exact h.safe
  legible := by
    have hT := h.inv.threshold
    have hl := h.legible
    rw [widthCheck_eq]
    dsimp only
    split
    · next hc =>
      intro _
      have := hl hc.2
      rw [Nat.pow_succ]
      omega
    · exact hl
  cfg := by rw [Enc.widthCheck_cfg, Dec.widthCheck_cfg, h.cfg]
  M := by rw [Enc.widthCheck_M, Dec.widthCheck_M, h.M]
  eofCode := by rw [Enc.widthCheck_eofCode, Dec.widthCheck_eofCode, h.eofCode]
  resetCode hr := by
    rw [Enc.widthCheck_cfg] at hr
    rw [Enc.widthCheck_resetCode, Dec.widthCheck_resetCode, h.resetCode hr]
  initial := by rw [Enc.widthCheck_initialNextCode, Dec.widthCheck_initialNextCode, h.initial]
  next := by rw [Enc.widthCheck_nextCode, Dec.widthCheck_nextCode, h.next]
  W := by rw [widthCheck_eq, widthCheck_eq', h.T, h.next, h.W, h.cfg]
  T := by rw [widthCheck_eq, widthCheck_eq', h.T, h.next, h.W, h.cfg]
  dict := by rw [Enc.widthCheck_cb, Dec.widthCheck_ct]; exact h.dict
  trk := by rw [Enc.widthCheck_cb, Enc.widthCheck_trk, Dec.widthCheck_trk, Enc.widthCheck_cfg]; exact h.trk
  trk_wf := by rw [Dec.widthCheck_trk]; exact h.trk_wf

/-- After the width check every assigned code fits the width (P2). -/
theorem next_le (h : Shared e d) : e.nextCode ≤ 2 ^ e.W ∨ e.nextCode ≤ e.M ∧ e.W = e.cfg.maxW := by
  by_cases hw : e.W < e.cfg.maxW
  · exact .inl (h.legible hw)
  · right
    have hst := h.started
    have hM : e.initialNextCode ≤ e.M := by
      rw [hst.initial_eq, hst.M_eq]
      exact le_trans h.safe (Nat.pow_le_pow_right (by omega) (legalCfg_iff.1 hst.legal).2.2.2.2.2.2.1)
    have := hst.next_high
    have := hst.width_high
    omega

theorem code_fits (h : Shared e d) {s : Bytes} {x : Nat} (hs : cbLookup s e.cb = some x) : x < 2 ^ e.W := by
  have := h.code_lt hs
  rcases h.next_le with h' | ⟨h', hw⟩
  · omega
  · rw [h.started.M_eq, ← hw] at h'
    omega

/-- The streams, `prev`, `out` and the phase of the decoder do not matter. -/
theorem of_dec (h : Shared e d) {d' : Dec} (hcfg : d'.cfg = d.cfg) (hM : d'.M = d.M) (he : d'.eofCode = d.eofCode)
    (hr : d'.resetCode = d.resetCode) (hi : d'.initialNextCode = d.initialNextCode) (hn : d'.nextCode = d.nextCode)
    (hW : d'.W = d.W) (hT : d'.T = d.T) (hct : d'.ct = d.ct) (ht : d'.trk = d.trk) : Shared e d' where
  inv := h.inv
  coherent := h.coherent
  run := h.run
  safe := h.safe
  legible := h.legible
  cfg := hcfg.trans h.cfg
  M := hM.trans h.M
  eofCode := he.trans h.eofCode
  resetCode hp := hr.trans (h.resetCode hp)
  initial := hi.trans h.initial
  next := hn.trans h.next
  W := hW.trans h.W
  T := hT.trans h.T
  dict := hct ▸ h.dict
  trk := ht ▸ h.trk
  trk_wf := ht ▸ h.trk_wf

/-- The stream and the prefix of the encoder do not matter, as long as its invariants hold. -/
theorem of_enc (h : Shared e d) {e' : Enc} (hi : e'.Inv) (hc : e'.Coherent)
    (he : e' = { e with bw := e'.bw, current := e'.current }) : Shared e' d := by
  rw [he] at hi hc ⊢
  exact { h with inv := hi, coherent := hc, run := h.run }

/-- The use update of the emitted code and of the decoded one (R219, R261): the callers' two filters agree. -/
theorem use (h : Shared e d) {code : Nat} (hcode : cbLookup e.current e.cb = some code) :
    Shared (e.emit code).useCurrent (d.useCode code) := by
  have hi := (h.inv.emit h.coherent.writer_open code).useCurrent
  have hc := (h.coherent.emit code).useCurrent (h.inv.emit h.coherent.writer_open code) h.run
  have hgt := h.initial_gt
  have hlen : 2 ≤ e.current.length ↔ d.initialNextCode ≤ code := by
    rw [h.initial]
    rcases h.coherent.code_cases h.inv h.run hcode with ⟨_, _⟩ | ⟨_, _, _⟩ <;> omega
  rw [Dec.useCode_eq]
  refine
    { inv := hi, coherent := hc, run := by rw [Enc.useCurrent_phase]; exact h.run
      safe := by rw [Enc.useCurrent_cfg]; exact h.safe
      legible := by rw [Enc.useCurrent_W, Enc.useCurrent_cfg, Enc.useCurrent_nextCode]; exact h.legible
      cfg := by rw [Enc.useCurrent_cfg]; exact h.cfg
      M := by rw [Enc.useCurrent_M]; exact h.M
      eofCode := by rw [Enc.useCurrent_eofCode]; exact h.eofCode
      resetCode := by rw [Enc.useCurrent_cfg, Enc.useCurrent_resetCode]; exact h.resetCode
      initial := by rw [Enc.useCurrent_initialNextCode]; exact h.initial
      next := by rw [Enc.useCurrent_nextCode]; exact h.next
      W := by rw [Enc.useCurrent_W]; exact h.W
      T := by rw [Enc.useCurrent_T]; exact h.T
      dict := by rw [Enc.useCurrent_cb]; exact h.dict
      trk := ?_
      trk_wf := ?_ }
  · rw [Enc.useCurrent_cfg, Enc.useCurrent_cb, Enc.useCurrent_trk]
    by_cases hl : 2 ≤ e.current.length
    · rw [if_pos (show 2 ≤ (e.emit code).current.length from hl), if_pos (hlen.1 hl), h.cfg]
      exact h.trk.use h.dict.oneToOne hcode
    · rw [if_neg (show ¬ 2 ≤ (e.emit code).current.length from hl), if_neg fun h' => hl (hlen.2 h')]
      exact h.trk
  · dsimp only
    split
    · exact Trk.use_wf natLt_order _ _ h.trk_wf
    · exact h.trk_wf

end Shared

/-! ### Between two codewords -/

/-- An encoder in `RUN` and the decoder that has read every codeword emitted so far: it waits for its first codeword after
`DEC.START` or a reset, or it has one insertion still to make, or the table is full. -/
inductive Lag : Enc → Dec → Prop
  | fresh {e : Enc} {d : Dec} (hp : d.phase = .first ∨ d.phase = .postReset) (h : Shared e d)
      (hs : ∀ s x, cbLookup s e.cb = some x → s.length < 2) : Lag e d
  | grown {e : Enc} {d : Dec} (c : Byte) (rest : Bytes) (bw : Bw) (hp : d.phase = .run) (h : Shared e d)
      (hprev : d.prev = e.current) (hm : e.nextCode < e.M) (hn : cbLookup (e.current ++ [c]) e.cb = none) :
      Lag { e.grow (e.current ++ [c]) with bw := bw, current := c :: rest } d
  | full {e : Enc} {d : Dec} (hp : d.phase = .run) (h : Shared e d) (hm : e.M ≤ e.nextCode)
      (hr : e.cfg.policy ≠ .reset) : Lag e d

/-- A data codeword is neither `EOF_CODE` nor `RESET_CODE` (R57 (d)). -/
theorem Enc.Coherent.code_ne {e : Enc} (h : e.Coherent) (hi : e.Inv) (hp : e.phase = .run) {s : Bytes} {x : Nat}
    (hs : cbLookup s e.cb = some x) : x ≠ e.eofCode ∧ (e.cfg.policy = .reset → x ≠ e.resetCode) := by
  have hst := hi.started (by rw [hp]; simp)
  have hgt := firstUserCode_gt e.cfg
  have hin := hst.initial_eq
  rw [hst.eof_eq]
  refine ⟨?_, fun hr => ?_⟩
  · rcases h.code_cases hi hp hs with ⟨_, _⟩ | ⟨_, _, _⟩ <;> omega
  · rw [hst.reset_eq hr]
    have : firstUserCode e.cfg = e.cfg.alphabetSize + 2 := by rw [firstUserCode, if_pos hr]
    rcases h.code_cases hi hp hs with ⟨_, _⟩ | ⟨_, _, _⟩ <;> omega

/-- A codeword that denotes `str` is accepted in `RUN`. -/
theorem Dec.runCode_data {d : Dec} {x : Nat} {str : Bytes} (he : x ≠ d.eofCode)
    (hr : d.cfg.policy = .reset → x ≠ d.resetCode) (hs : d.stringOf x = some str) : d.runCode x = d.accept x str := by
  rw [Dec.runCode, if_neg he, if_neg fun h => hr h.1 h.2, hs]

/-- The decoder reads the code of `current` (R263): it decodes it to `current` and is where the encoder is after emitting
it and updating its use. -/
theorem Lag.read {e : Enc} {d : Dec} (h : Lag e d) (hi : e.Inv) (hc : e.Coherent) (hp : e.phase = .run) {code : Nat}
    (hcode : cbLookup e.current e.cb = some code) {br : Br} (hr : d.br.read e.W = some (code, br)) :
    ∃ d', d.step = .ok d' ∧ d'.phase = .run ∧ Shared (e.emit code).useCurrent d' ∧ d'.prev = e.current ∧
      d'.out = d.out ++ e.current ∧ d'.br = br := by
  obtain ⟨hne, hnr⟩ := hc.code_ne hi hp hcode
  cases h with
  | fresh hph h hs =>
    have hlt : code < e.cfg.alphabetSize := by
      rcases hc.code_cases hi hp hcode with ⟨_, h'⟩ | ⟨h', _⟩
      · exact h'
      · have := hs _ _ hcode
        omega
    have hfirst : Dec.firstCode code { d with br := br } = .ok ({ d with br := br }.restart e.current) := by
      rw [Dec.firstCode, if_neg (by exact fun h' => hne (h'.trans h.eofCode)), if_pos (by rw [h.cfg]; exact hlt),
        (h.dict _ _).1 hcode, Option.getD_some]
    have hstep : d.step = .ok ({ d with br := br }.restart e.current) := by
      rw [← h.W] at hr
      rcases hph with hph | hph
      · have hw : 1 ≤ d.W := by
          have h1 := h.started.width_low
          have h2 := (legalCfg_iff.1 h.started.legal).2.2.2.2.2.1
          rw [h.W]
          omega
        have hle := (Br.read_next hr).2
        have hem : d.br.isEmpty = false := by rw [Br.isEmpty]; exact decide_eq_false (by omega)
        rw [Dec.step, hph]
        dsimp only
        rw [hem, if_neg (by simp), Dec.fetch, hr]
        exact hfirst
      · rw [Dec.step, hph]
        dsimp only
        rw [Dec.fetch, hr]
        exact hfirst
    have hu := h.use hcode
    rw [Dec.useCode_eq, if_neg (by rw [h.initial]; have := h.initial_gt; omega)] at hu
    exact ⟨_, hstep, rfl, hu.of_dec rfl rfl rfl rfl rfl rfl rfl rfl rfl rfl, rfl, rfl, rfl⟩
  | full hph h hm hpol =>
    have hW : ¬ e.W < e.cfg.maxW := fun hw => by
      have h1 := h.legible hw
      have h2 := h.started.M_eq
      have h3 : 2 ^ e.W < 2 ^ e.cfg.maxW := Nat.pow_lt_pow_right (by omega) hw
      omega
    have hwc : d.widthCheck = d := by rw [Dec.widthCheck, if_neg (by rw [h.W, h.cfg]; exact fun h' => hW h'.2)]
    have hso : Dec.stringOf code { d with br := br } = some e.current :=
      Dec.stringOf_some.2 (.inl ⟨by rw [h.next]; exact h.code_lt hcode, (h.dict _ _).1 hcode⟩)
    have hrun := Dec.runCode_data (d := { d with br := br }) (x := code) (fun h' => hne (h'.trans h.eofCode))
      (fun hq => absurd (h.cfg ▸ hq) hpol) hso
    have hacc : Dec.accept code e.current { d with br := br } =
        .ok { ({ d with br := br }.emit e.current).useCode code with prev := e.current } := by
      simp only [Dec.accept, Dec.insertPhase]
      rw [if_neg (by rw [Dec.emit_nextCode, Dec.emit_M, h.next, h.M]; omega)]
    rw [← h.W] at hr
    refine ⟨_, by rw [Dec.step, hph]; dsimp only; rw [hwc, Dec.fetch, hr]; exact hrun.trans hacc, ?_, ?_, rfl, ?_, ?_⟩
    · rw [Dec.useCode_eq]; exact hph
    · have := (h.of_dec (d' := { d with br := br }.emit e.current) rfl rfl rfl rfl rfl rfl rfl rfl rfl rfl).use hcode
      exact this.of_dec rfl rfl rfl rfl rfl rfl rfl rfl rfl rfl
    · rw [Dec.useCode_eq]; rfl
    · rw [Dec.useCode_eq]; rfl
  | @grown e₀ _ c rest bw hph h hprev hm hn =>
    have hw := h.widthCheck
    have hne0 := h.inv.running h.run
    have hnext : 2 ≤ (e₀.current ++ [c]).length := by
      have := List.length_pos_iff.2 hne0
      simp
      omega
    set cur : Bytes := c :: rest with hcur
    have hcode' : cbLookup cur (e₀.grow (e₀.current ++ [c])).cb = some code := hcode
    have hr' : d.widthCheck.br.read d.widthCheck.W = some (code, br) := by
      rw [hw.W, Dec.widthCheck_br]
      have : (e₀.grow (e₀.current ++ [c])).W = e₀.widthCheck.W := by simp [Enc.grow, Enc.insert]
      rw [← this]
      exact hr
    -- the decoder after the read, with the string put out
    have h2 : Shared e₀.widthCheck (Dec.emit cur { d.widthCheck with br := br }) :=
      hw.of_dec rfl rfl rfl rfl rfl rfl rfl rfl rfl rfl
    have hm' : e₀.widthCheck.nextCode < e₀.widthCheck.M := by simpa using hm
    have hn' : cbLookup (e₀.current ++ [c]) e₀.widthCheck.cb = none := by simpa using hn
    obtain ⟨d₁, ct, u, hev, hins, hu, hdict, htrk⟩ := h2.insert hm' hn' hnext
    obtain ⟨_, _, _, _, _, hsub, _, _⟩ := h2.evict hm'
    -- what the codeword denotes
    have hso : Dec.stringOf code { d.widthCheck with br := br } = some cur := by
      rw [Enc.grow, Enc.insert_cb, cbLookup_store] at hcode'
      split at hcode'
      · next he =>
        refine Dec.stringOf_some.2 (.inr ⟨?_, ?_⟩)
        · have := Option.some.inj hcode'
          rw [← this]
          simp [h.next]
        · rw [he, Dec.kwkwk]
          simp only [Dec.widthCheck_prev, hprev]
          obtain ⟨b, bs, hb⟩ := List.exists_cons_of_ne_nil hne0
          rw [hb] at he ⊢
          have : c = b := by simpa [hcur] using (List.cons.inj he).1
          simp [this]
      · have := hsub _ _ hcode'
        refine Dec.stringOf_some.2 (.inl ⟨?_, ?_⟩)
        · rw [show ({ d.widthCheck with br := br } : Dec).nextCode = d.widthCheck.nextCode from rfl, hw.next]
          exact hw.code_lt this
        · exact (hw.dict _ _).1 this
    have hcfg : (e₀.grow (e₀.current ++ [c])).cfg = e₀.cfg := by simp [Enc.grow]
    have hrun := Dec.runCode_data (d := { d.widthCheck with br := br }) (x := code)
      (fun h' => hne (by
        rw [h']
        show d.widthCheck.eofCode = (e₀.grow (e₀.current ++ [c])).eofCode
        rw [hw.eofCode]
        simp [Enc.grow]))
      (fun hq h' => hnr (by
          show (e₀.grow (e₀.current ++ [c])).cfg.policy = .reset
          rw [hcfg, ← h.cfg]
          simpa using hq) (by
        rw [h']
        show d.widthCheck.resetCode = (e₀.grow (e₀.current ++ [c])).resetCode
        rw [hw.resetCode (by
          rw [Enc.widthCheck_cfg, ← h.cfg]
          simpa using hq)]
        simp [Enc.grow])) hso
    have hprev2 : (Dec.emit cur { d.widthCheck with br := br }).prev ++ cur.take 1 = e₀.current ++ [c] := by
      simp [hprev, hcur]
    have hacc : Dec.accept code cur { d.widthCheck with br := br } = .ok { Dec.useCode code
        { Dec.emit cur { d.widthCheck with br := br } with
          ct := ct, trk := u, nextCode := (Dec.emit cur { d.widthCheck with br := br }).nextCode + 1 } with
        prev := cur } := by
      simp only [Dec.accept, Dec.insertPhase]
      rw [if_pos (by rw [h2.next, h2.M]; exact hm'), hev]
      dsimp only
      rw [hprev2, hins]
    refine ⟨_, by rw [Dec.step, hph]; dsimp only; rw [Dec.fetch, hr']; exact hrun.trans hacc, ?_, ?_, rfl, ?_, ?_⟩
    · rw [Dec.useCode_eq]
      simp [hph]
    · refine Shared.of_dec (d := Dec.useCode code { Dec.emit cur { d.widthCheck with br := br } with
          ct := ct, trk := u, nextCode := (Dec.emit cur { d.widthCheck with br := br }).nextCode + 1 })
        (Shared.use ?_ hcode) rfl rfl rfl rfl rfl rfl rfl rfl rfl rfl
      have hleg : e₀.widthCheck.W < e₀.cfg.maxW → e₀.nextCode + 1 ≤ 2 ^ e₀.widthCheck.W := by
        have hT := h.inv.threshold
        have hl := h.legible
        by_cases hc : e₀.T ≤ e₀.nextCode ∧ e₀.W < e₀.cfg.maxW
        · rw [Enc.widthCheck, if_pos hc]
          intro _
          have := hl hc.2
          have h1 : 1 ≤ 2 ^ e₀.W := Nat.one_le_two_pow
          dsimp only
          rw [Nat.pow_succ]
          omega
        · rw [Enc.widthCheck, if_neg hc]
          intro hlt
          have : ¬ e₀.T ≤ e₀.nextCode := fun h' => hc ⟨h', hlt⟩
          omega
      exact
        { inv := hi, coherent := hc, run := hp
          safe := by show firstUserCode (e₀.grow (e₀.current ++ [c])).cfg ≤ 2 ^ (e₀.grow (e₀.current ++ [c])).cfg.minW; rw [hcfg]; exact h.safe
          legible := by
            show (e₀.grow (e₀.current ++ [c])).W < (e₀.grow (e₀.current ++ [c])).cfg.maxW → (e₀.grow (e₀.current ++ [c])).nextCode ≤ 2 ^ (e₀.grow (e₀.current ++ [c])).W
            rw [hcfg]
            simpa [Enc.grow, Enc.insert] using hleg
          cfg := by simp [Enc.grow, h.cfg]
          M := by simp [Enc.grow, h.M]
          eofCode := by simp [Enc.grow, h.eofCode]
          resetCode := fun hq => by
            have : e₀.cfg.policy = .reset := by rw [← hcfg]; exact hq
            simp [Enc.grow, h.resetCode this]
          initial := by simp [Enc.grow, h.initial]
          next := by simp [Enc.grow, Enc.insert, h.next]
          W := by simpa [Enc.grow, Enc.insert] using hw.W
          T := by simpa [Enc.grow, Enc.insert] using hw.T
          dict := hdict
          trk := by
            show Paired (e₀.grow (e₀.current ++ [c])).cfg.policy _ _ _
            rw [hcfg]
            simpa [Enc.grow] using htrk
          trk_wf := hu }
    · rw [Dec.useCode_eq]
      simp [Dec.emit]
    · rw [Dec.useCode_eq]
      rfl

end Sys2Proof.Machine
end

