-- ==== Sys2Proof/Laws/LockstepRun.lean ====
section
/-! SUPPORT. The lock-step over a whole run (R263, P1): the decoder that reads what the encoder writes decodes the input,
byte by byte of `ENC.BYTE` and through the last two codewords of `ENC.END`. -/

namespace Sys2Proof.Machine

/-- The bits still to read are `bs`. -/
def Br.Ahead (b : Br) (bs : Bits) : Prop := b.bits.drop b.pos = bs ∧ b.pos ≤ b.bits.length

/-- Reading `w` bits that are those of `v`. -/
theorem Br.Ahead.read {b : Br} {w v : Nat} {rest : Bits} (h : b.Ahead (bitsOf w v ++ rest)) (hv : v < 2 ^ w) :
    ∃ b', b.read w = some (v, b') ∧ b'.Ahead rest ∧ b'.input = b.input := by
  obtain ⟨hd, hp⟩ := h
  have hl := congrArg List.length hd
  rw [List.length_drop, List.length_append, length_bitsOf] at hl
  have hr : w ≤ b.remaining := by
    rw [Br.length_bits] at hl hp
    rw [Br.remaining]
    omega
  refine ⟨{ b with pos := b.pos + w }, ?_, ⟨?_, ?_⟩, rfl⟩
  · rw [b.read_eq w hr, hd, List.take_left' (length_bitsOf w v), natOfBits_bitsOf, Nat.mod_eq_of_lt hv]
  · show b.bits.drop (b.pos + w) = rest
    rw [← List.drop_drop, hd, List.drop_left' (length_bitsOf w v)]
  · show b.pos + w ≤ b.bits.length
    omega

/-- Some number of `DEC.STEP`s, each with its step. -/
abbrev Dec.Steps : Dec → Dec → Prop := Relation.ReflTransGen fun d d' => d.step = .ok d'

@[simp] theorem Enc.emit_bits (code : Nat) (e : Enc) : (e.emit code).bw.bits = e.bw.bits ++ bitsOf e.W code := Bw.bits_write _ _ _

variable {e : Enc} {d : Dec}

/-- `code`s of the dictionary fit the width at which they are emitted (P2). -/
theorem Lag.code_fits (h : Lag e d) (hi : e.Inv) (hc : e.Coherent) (hp : e.phase = .run) {code : Nat}
    (hcode : cbLookup e.current e.cb = some code) : code < 2 ^ e.W := by
  cases h with
  | fresh _ h _ => exact h.code_fits hcode
  | full _ h _ _ => exact h.code_fits hcode
  | @grown e₀ _ c rest bw _ h _ hm _ =>
    have hw := h.widthCheck
    have hlt : code < e₀.nextCode + 1 := by
      have hst := hi.started (by rw [hp]; simp)
      have := firstUserCode_gt (e₀.grow (e₀.current ++ [c])).cfg
      have h1 := hst.initial_eq
      have h2 := hst.next_low
      have h3 : ({ e₀.grow (e₀.current ++ [c]) with bw := bw, current := c :: rest } : Enc).nextCode = e₀.nextCode + 1 := by
        simp [Enc.grow, Enc.insert]
      rcases hc.code_cases hi hp hcode with ⟨_, h'⟩ | ⟨_, _, h'⟩
      · have h' : code < (e₀.grow (e₀.current ++ [c])).cfg.alphabetSize := h'
        have h1 : _ = firstUserCode (e₀.grow (e₀.current ++ [c])).cfg := h1
        omega
      · omega
    show code < 2 ^ (e₀.grow (e₀.current ++ [c])).W
    have hW : (e₀.grow (e₀.current ++ [c])).W = e₀.widthCheck.W := by simp [Enc.grow, Enc.insert]
    rw [hW]
    by_cases hlt' : e₀.widthCheck.W < e₀.cfg.maxW
    · have hT := h.inv.threshold
      have hl := h.legible
      have : e₀.nextCode < 2 ^ e₀.widthCheck.W := by
        rw [Enc.widthCheck] at hlt' ⊢
        split at hlt'
        · next hcnd =>
          rw [if_pos hcnd]
          have := hl hcnd.2
          have h1 : 1 ≤ 2 ^ e₀.W := Nat.one_le_two_pow
          dsimp only
          rw [Nat.pow_succ]
          omega
        · next hcnd =>
          rw [if_neg hcnd]
          have : ¬ e₀.T ≤ e₀.nextCode := fun h' => hcnd ⟨h', hlt'⟩
          omega
      omega
    · have h1 := hw.started.width_high
      rw [Enc.widthCheck_cfg] at h1
      have h2 : e₀.widthCheck.W = e₀.cfg.maxW := by omega
      have h3 := hw.started.M_eq
      rw [Enc.widthCheck_M, Enc.widthCheck_cfg] at h3
      rw [h2, ← h3]
      omega

/-- After the last codeword of a table, `RESET_CODE` and `EOF_CODE` fit (P2). -/
theorem Shared.control_fits (h : Shared e d) :
    e.eofCode < 2 ^ e.W ∧ (e.cfg.policy = .reset → e.resetCode < 2 ^ e.W) := by
  have hst := h.started
  have hle : firstUserCode e.cfg ≤ 2 ^ e.W :=
    le_trans h.safe (Nat.pow_le_pow_right (by omega) hst.width_low)
  have hgt := firstUserCode_gt e.cfg
  refine ⟨by rw [hst.eof_eq]; omega, fun hr => ?_⟩
  rw [hst.reset_eq hr]
  rw [firstUserCode, if_pos hr] at hle
  omega

/-- `RESET_CODE` after the last codeword of a full table: both sides flush (R226, R258). -/
theorem Shared.reset (h : Shared e d) (hd : d.phase = .run) (hr : e.cfg.policy = .reset) {c : Byte}
    (hc : c ∈ e.cfg.alphabet) {rest : Bits} (ha : d.br.Ahead (bitsOf e.widthCheck.W e.resetCode ++ rest)) :
    ∃ d', d.step = .ok d' ∧ Lag { e.resetTable with current := [c] } d' ∧ d'.br.Ahead rest ∧ d'.out = d.out := by
  have hw := h.widthCheck
  have hst := hw.started
  have hrun : e.widthCheck.phase = .run := hw.run
  have hr' : e.widthCheck.cfg.policy = .reset := by rw [Enc.widthCheck_cfg]; exact hr
  have hfit := hw.control_fits.2 hr'
  rw [Enc.widthCheck_resetCode] at hfit
  obtain ⟨br, hread, hahead, hin⟩ := ha.read hfit
  have hdc : d.widthCheck.cfg = e.cfg := by rw [hw.cfg, Enc.widthCheck_cfg]
  have hrc : d.widthCheck.resetCode = e.resetCode := by rw [hw.resetCode hr', Enc.widthCheck_resetCode]
  have hne : e.resetCode ≠ d.widthCheck.eofCode := by
    have h1 := hst.eof_eq
    have h2 := hst.reset_eq hr'
    rw [Enc.widthCheck_resetCode] at h2
    rw [hw.eofCode]
    omega
  have hstep : d.step = .ok ({ d.widthCheck with br := br } : Dec).flush := by
    rw [← hw.W] at hread
    rw [Dec.step, hd]
    dsimp only
    rw [Dec.fetch, Dec.widthCheck_br, hread]
    show Dec.runCode e.resetCode { d.widthCheck with br := br } = _
    rw [Dec.runCode, if_neg (by exact hne), if_pos ⟨by show d.widthCheck.cfg.policy = _; rw [hdc]; exact hr, hrc.symm⟩]
  have hi : ({ e.resetTable with current := [c] } : Enc).Inv :=
    ((hw.inv.emit hw.coherent.writer_open _).flush (by rw [Enc.emit_phase, hrun]; simp)).current (by simp)
  have hcoh : ({ e.resetTable with current := [c] } : Enc).Coherent :=
    (hw.coherent.emit _).flush (hw.inv.emit hw.coherent.writer_open _) hrun hr' (by simpa using hc)
  have hlegal := legalCfg_iff.1 hst.legal
  have hal : e.cfg.alphabet.Nodup := by simpa using hlegal.2.1
  have hsz : e.cfg.alphabetSize = e.cfg.alphabet.length := by simpa using hlegal.2.2.1
  have hM : e.M = tableSize e.cfg := by
    have := hst.M_eq
    rw [Enc.widthCheck_M, Enc.widthCheck_cfg] at this
    exact this
  have hinit : e.initialNextCode = firstUserCode e.cfg := by
    have := hst.initial_eq
    rwa [Enc.widthCheck_initialNextCode, Enc.widthCheck_cfg] at this
  have hmin : e.cfg.minW ≤ e.cfg.maxW := by
    have := hlegal.2.2.2.2.2.2.1
    simpa using this
  have hdict : Inverse (cbInitial e.cfg.alphabet) (ctInitial (tableSize e.cfg) e.cfg.alphabet) := fun s x => by
    rw [cbLookup_initial hal]
    have hiff := mem_ctInitial (tableSize e.cfg) e.cfg.alphabet x s
    rw [ctLookup, ← mem_iff_mapGet natLt_order (ctInitial_wf _ _), hiff]
    constructor
    · rintro ⟨b, rfl, hb⟩
      refine ⟨?_, b, hb, rfl⟩
      have h1 := (List.getElem?_eq_some_iff.1 hb).1
      have h2 := firstUserCode_gt e.cfg
      have h3 : firstUserCode e.cfg ≤ tableSize e.cfg := le_trans h.safe (Nat.pow_le_pow_right (by omega) hmin)
      omega
    · rintro ⟨_, b, hb, rfl⟩
      exact ⟨b, rfl, hb⟩
  refine ⟨_, hstep, .fresh (.inr rfl) ?_ ?_, hahead, by show d.widthCheck.out = _; simp⟩
  · exact
      { inv := hi, coherent := hcoh
        run := hrun
        safe := by show firstUserCode e.widthCheck.cfg ≤ 2 ^ e.widthCheck.cfg.minW; rw [Enc.widthCheck_cfg]; exact h.safe
        legible := fun _ => by
          show e.widthCheck.initialNextCode ≤ 2 ^ e.widthCheck.cfg.minW
          rw [Enc.widthCheck_initialNextCode, Enc.widthCheck_cfg, hinit]
          exact h.safe
        cfg := hw.cfg
        M := hw.M
        eofCode := hw.eofCode
        resetCode := fun _ => hrc.trans (by show _ = e.widthCheck.resetCode; simp)
        initial := hw.initial
        next := hw.initial
        W := by show d.widthCheck.cfg.minW = e.widthCheck.cfg.minW; rw [hw.cfg]
        T := by show 2 ^ d.widthCheck.cfg.minW = 2 ^ e.widthCheck.cfg.minW; rw [hw.cfg]
        dict := by
          show Inverse (cbInitial e.widthCheck.cfg.alphabet)
            (ctInitial (tableSize d.widthCheck.cfg) d.widthCheck.cfg.alphabet)
          rw [hdc, Enc.widthCheck_cfg]
          exact hdict
        trk := by
          show Paired e.widthCheck.cfg.policy (fun s x => cbLookup s (cbInitial e.widthCheck.cfg.alphabet) = some x)
            e.widthCheck.trk d.widthCheck.trk
          have := hw.trk
          rw [hr'] at this ⊢
          exact ⟨nofun, nofun, nofun, nofun⟩
        trk_wf := hw.trk_wf }
  · intro s x hs
    have hs : cbLookup s (cbInitial e.widthCheck.cfg.alphabet) = some x := hs
    rw [Enc.widthCheck_cfg, cbLookup_initial hal] at hs
    obtain ⟨b, rfl, _⟩ := hs
    simp

/-- One `ENC.BYTE` and the codewords it writes (R215, R263). -/
theorem Lag.byte (h : Lag e d) (hi : e.Inv) (hcoh : e.Coherent) (hp : e.phase = .run) {c : Byte}
    (hc : c ∈ e.cfg.alphabet) {e' : Enc} (he : e.runByte c = .ok e') :
    ∃ new, e'.bw.bits = e.bw.bits ++ new ∧ ∀ rest, d.br.Ahead (new ++ rest) →
      ∃ d', d.Steps d' ∧ Lag e' d' ∧ d'.br.Ahead rest ∧ d'.out ++ e'.current = d.out ++ e.current ++ [c] := by
  rw [Enc.runByte, if_pos hc] at he
  split at he
  · next hhit =>
    cases he
    refine ⟨[], by simp, fun rest ha => ⟨d, .refl, ?_, ha, by simp⟩⟩
    have hhit' : ∃ x, cbLookup (e.current ++ [c]) e.cb = some x := Option.isSome_iff_exists.1 hhit
    cases h with
    | fresh hph h hs =>
      obtain ⟨x, hx⟩ := hhit'
      have := hs _ _ hx
      have := List.length_pos_iff.2 (hi.running hp)
      simp only [List.length_append, List.length_singleton] at *
      omega
    | grown b r bw hph h hprev hm hn => exact .grown b (r ++ [c]) bw hph h hprev hm hn
    | full hph h hm hr =>
      exact .full (e := { e with current := e.current ++ [c] }) hph (h.of_enc (hi.current (by simp)) (hcoh.hit hhit') rfl) hm hr
  · next hmiss =>
    have hmiss : cbLookup (e.current ++ [c]) e.cb = none := by simpa using hmiss
    obtain ⟨code, hcode⟩ := hcoh.current_present hp
    rw [hcode] at he
    simp only [hcoh.writer_open, Bool.false_eq_true, if_false, Except.ok.injEq] at he
    have hfit := h.code_fits hi hcoh hp hcode
    have hbits : (e.emit code).useCurrent.bw.bits = e.bw.bits ++ bitsOf e.W code := by rw [Enc.useCurrent_bw, Enc.emit_bits]
    have hcur : (e.emit code).useCurrent.current = e.current := by rw [Enc.useCurrent_current, Enc.emit_current]
    have hcfg : (e.emit code).useCurrent.cfg = e.cfg := by rw [Enc.useCurrent_cfg, Enc.emit_cfg]
    have hnone : cbLookup ((e.emit code).useCurrent.current ++ [c]) (e.emit code).useCurrent.cb = none := by
      rw [hcur, Enc.useCurrent_cb]
      exact hmiss
    have hout : ∀ d' : Dec, d'.out = d.out ++ e.current → d'.out ++ [c] = d.out ++ e.current ++ [c] := fun d' h' => by rw [h']
    rw [← he, Enc.miss]
    dsimp only
    split
    · next hm =>
      refine ⟨bitsOf e.W code, ?_, fun rest ha => ?_⟩
      · show ((e.emit code).useCurrent.grow (e.current ++ [c])).bw.bits = _
        rw [← hbits]
        simp [Enc.grow]
      · obtain ⟨br, hread, hahead, -⟩ := ha.read hfit
        obtain ⟨d', hstep, hrun, hsh, hprev, ho, hbr⟩ := h.read hi hcoh hp hcode hread
        refine ⟨d', .single hstep, ?_, hbr ▸ hahead, hout _ ho⟩
        have := Lag.grown c [] ((e.emit code).useCurrent.grow (e.current ++ [c])).bw hrun hsh (hprev.trans hcur.symm) hm hnone
        rwa [hcur] at this
    · next hm =>
      by_cases hr : e.cfg.policy = .reset
      · have hr' : (e.emit code).useCurrent.cfg.policy = .reset := by rw [hcfg]; exact hr
        refine ⟨bitsOf e.W code ++ bitsOf (e.emit code).useCurrent.widthCheck.W (e.emit code).useCurrent.resetCode, ?_,
          fun rest ha => ?_⟩
        · show ((e.emit code).useCurrent.tableFull).bw.bits = _
          rw [Enc.tableFull, if_pos hr']
          show ((e.emit code).useCurrent.widthCheck.emit (e.emit code).useCurrent.resetCode).bw.bits = _
          rw [Enc.emit_bits, Enc.widthCheck_bw, hbits, List.append_assoc]
        · rw [List.append_assoc] at ha
          obtain ⟨br, hread, hahead, -⟩ := ha.read hfit
          obtain ⟨d₁, hstep, hrun, hsh, hprev, ho, hbr⟩ := h.read hi hcoh hp hcode hread
          obtain ⟨d₂, hstep', hlag, hahead', ho'⟩ := hsh.reset hrun hr' (by rw [hcfg]; exact hc) (hbr ▸ hahead)
          refine ⟨d₂, .tail (.single hstep) hstep', ?_, hahead', hout _ (ho'.trans ho)⟩
          rw [Enc.tableFull, if_pos hr']
          exact hlag
      · have hr' : (e.emit code).useCurrent.cfg.policy ≠ .reset := by rw [hcfg]; exact hr
        rw [Enc.tableFull, if_neg hr']
        refine ⟨bitsOf e.W code, hbits, fun rest ha => ?_⟩
        obtain ⟨br, hread, hahead, -⟩ := ha.read hfit
        obtain ⟨d', hstep, hrun, hsh, hprev, ho, hbr⟩ := h.read hi hcoh hp hcode hread
        refine ⟨d', .single hstep, ?_, hbr ▸ hahead, hout _ ho⟩
        exact .full (e := { (e.emit code).useCurrent with current := [c] }) hrun
          (hsh.of_enc (hsh.inv.current (by simp)) (hsh.coherent.single (by rw [hcfg]; exact hc) _) rfl)
          (Nat.le_of_not_lt hm) hr'

/-- The last two codewords, the code of `current` and `EOF_CODE`, and whatever padding follows (R228, R257). -/
theorem Lag.finish (h : Lag e d) (hi : e.Inv) (hcoh : e.Coherent) (hp : e.phase = .run) {e' : Enc}
    (he : e.endRun = .ok e') :
    ∃ new, e'.bw.bits = e.bw.bits ++ new ∧ (d.br.Ahead new →
      ∃ d', d.Steps d' ∧ d'.phase = .done ∧ d'.out = d.out ++ e.current) := by
  obtain ⟨code, hcode⟩ := hcoh.current_present hp
  rw [Enc.endRun, hcode] at he
  simp only [hcoh.writer_open, Bool.false_eq_true, if_false, Except.ok.injEq] at he
  have hfit := h.code_fits hi hcoh hp hcode
  set e₁ := (e.emit code).useCurrent.widthCheck with he₁
  have hbits : (e₁.emit e₁.eofCode).bw.bits = e.bw.bits ++ (bitsOf e.W code ++ bitsOf e₁.W e₁.eofCode) := by
    rw [Enc.emit_bits, he₁, Enc.widthCheck_bw, Enc.useCurrent_bw, Enc.emit_bits, List.append_assoc]
  refine ⟨bitsOf e.W code ++ (bitsOf e₁.W e₁.eofCode ++
    List.replicate ((8 - (e₁.emit e₁.eofCode).bw.pend.length) % 8) false), ?_, fun ha => ?_⟩
  · rw [← he]
    show ((e₁.emit e₁.eofCode).bw.close).bits = _
    rw [Bw.bits_close (e₁.emit e₁.eofCode).bw (Bw.pend_write _ _ _), hbits]
    simp only [List.append_assoc]
  · obtain ⟨br, hread, hahead, -⟩ := ha.read hfit
    obtain ⟨d₁, hstep, hrun, hsh, hprev, ho, hbr⟩ := h.read hi hcoh hp hcode hread
    have hw := hsh.widthCheck
    rw [← he₁] at hw
    obtain ⟨br', hread', -, -⟩ := (hbr ▸ hahead : d₁.br.Ahead _).read hw.control_fits.1
    rw [← hw.W] at hread'
    refine ⟨({ d₁.widthCheck with br := br' } : Dec).stop, .tail (.single hstep) ?_, rfl, ?_⟩
    · show d₁.step = _
      rw [Dec.step, hrun]
      dsimp only
      rw [Dec.fetch, Dec.widthCheck_br, hread']
      show Dec.runCode e₁.eofCode { d₁.widthCheck with br := br' } = _
      rw [Dec.runCode, if_pos (by exact hw.eofCode.symm)]
    · show d₁.widthCheck.out = _
      rw [Dec.widthCheck_out, ho]

/-- The encoder instance over the bytes `x` and `ENC.END`, in `RUN`. -/
def Enc.encodes : Bytes → Enc → Except Refusal Enc
  | [], e => e.endRun
  | c :: x, e =>
    match e.runByte c with
    | .ok e' => e'.encodes x
    | .error q => .error q

/-- `ENC.BYTE` of an alphabet byte on a coherent encoder has a step (R215). -/
theorem Enc.runByte_run (hi : e.Inv) (hcoh : e.Coherent) (hp : e.phase = .run) {c : Byte} (hc : c ∈ e.cfg.alphabet) :
    ∃ e', e.runByte c = .ok e' ∧ e'.Inv ∧ e'.Coherent ∧ e'.phase = .run ∧ e'.cfg = e.cfg ∧
      e.bw.bits <+: e'.bw.bits := by
  rw [Enc.runByte, if_pos hc]
  split
  · next hhit =>
    exact ⟨_, rfl, hi.current (by simp), hcoh.hit (Option.isSome_iff_exists.1 hhit), hp, rfl, List.prefix_refl _⟩
  · next hmiss =>
    obtain ⟨code, hcode⟩ := hcoh.current_present hp
    have hl : 2 ≤ (e.current ++ [c]).length := by
      have := List.length_pos_iff.2 (hi.running hp)
      simp
      omega
    rw [hcode]
    simp only [hcoh.writer_open, Bool.false_eq_true, if_false, Except.ok.injEq, exists_eq_left']
    refine ⟨hi.miss (by rw [hp]; simp) hcoh.writer_open code (by simp) _, hcoh.miss hi hp code (by simpa using hmiss) hl hc,
      ?_, ?_, ?_⟩
    · simp only [Enc.miss, Enc.grow, Enc.tableFull, Enc.resetTable]
      split <;> [skip; split] <;> simp [hp]
    · simp only [Enc.miss, Enc.grow, Enc.tableFull, Enc.resetTable]
      split <;> [skip; split] <;> simp
    · simp only [Enc.miss, Enc.grow, Enc.tableFull, Enc.resetTable]
      split <;> [skip; split] <;> simp [Bw.bits_write, List.append_assoc]

/-- The rest of the run has its steps, and the bits already written stay. -/
theorem Enc.encodes_run : ∀ (x : Bytes) {e : Enc}, e.Inv → e.Coherent → e.phase = .run →
    (∀ c ∈ x, c ∈ e.cfg.alphabet) → ∃ e', e.encodes x = .ok e' ∧ e.bw.bits <+: e'.bw.bits
  | [], e, hi, hcoh, hp, _ => by
    obtain ⟨code, hcode⟩ := hcoh.current_present hp
    rw [Enc.encodes, Enc.endRun, hcode]
    simp only [hcoh.writer_open, Bool.false_eq_true, if_false, Except.ok.injEq, exists_eq_left']
    show _ <+: (Bw.close _).bits
    rw [Bw.bits_close (Enc.emit _ _).bw (Bw.pend_write _ _ _)]
    simp [Bw.bits_write, List.append_assoc]
  | c :: x, e, hi, hcoh, hp, hx => by
    obtain ⟨e₁, he, hi', hcoh', hp', hcfg, hpre⟩ := Enc.runByte_run hi hcoh hp (hx c (by simp))
    obtain ⟨e', he', hpre'⟩ := Enc.encodes_run x hi' hcoh' hp' fun b hb => by rw [hcfg]; exact hx b (by simp [hb])
    exact ⟨e', by rw [Enc.encodes, he]; exact he', hpre.trans hpre'⟩

/-- A whole run: what the decoder puts out is what the encoder still had in hand and the bytes it was given (P1). -/
theorem Lag.run (x : Bytes) : ∀ {e : Enc} {d : Dec}, Lag e d → e.Inv → e.Coherent → e.phase = .run →
    (∀ c ∈ x, c ∈ e.cfg.alphabet) → ∀ {e' : Enc} {new : Bits}, e.encodes x = .ok e' → e'.bw.bits = e.bw.bits ++ new →
    d.br.Ahead new → ∃ d', d.Steps d' ∧ d'.phase = .done ∧ d'.out = d.out ++ e.current ++ x := by
  induction x with
  | nil =>
    intro e d h hi hcoh hp _ e' new he hnew ha
    obtain ⟨new', hnew', hd⟩ := h.finish hi hcoh hp he
    obtain ⟨d', hs, hp', ho⟩ := hd (List.append_cancel_left (hnew'.symm.trans hnew) ▸ ha)
    exact ⟨d', hs, hp', by rw [ho, List.append_nil]⟩
  | cons c x ih =>
    intro e d h hi hcoh hp hx e' new he hnew ha
    have hc := hx c (by simp)
    obtain ⟨e₁, he₁, hi', hcoh', hp', hcfg, -⟩ := Enc.runByte_run hi hcoh hp hc
    obtain ⟨new₁, hnew₁, hd⟩ := h.byte hi hcoh hp hc he₁
    have hx' : ∀ b ∈ x, b ∈ e₁.cfg.alphabet := fun b hb => by rw [hcfg]; exact hx b (by simp [hb])
    rw [Enc.encodes, he₁] at he
    obtain ⟨e'', he'', rest, hrest⟩ := Enc.encodes_run x hi' hcoh' hp' hx'
    obtain rfl : e'' = e' := Except.ok.inj (he''.symm.trans he)
    have hsplit : new = new₁ ++ rest :=
      List.append_cancel_left (hnew.symm.trans (by rw [← hrest, hnew₁, List.append_assoc]))
    obtain ⟨d₁, hs, hlag, hahead, hout⟩ := hd rest (hsplit ▸ ha)
    obtain ⟨d', hs', hp'', ho'⟩ := ih hlag hi' hcoh' hp' hx' he hrest.symm hahead
    exact ⟨d', hs.trans hs', hp'', by rw [ho', hout]; simp⟩

end Sys2Proof.Machine
end

