-- ==== Sys2Proof/Laws/PerInstr.lean ====
section
/-! SUPPORT. The family `SelectCode`, stated of every instruction as syntax: an instruction of format `OPSEL8` encodes to
its select code of 30_encoding.md rule R110 with the operands beside it, and no other instruction encodes to a select
code. -/

namespace Sys2Proof.Laws.SelectCode

/-- The select codes of R110's table; `none` for the rows of the other three formats (R115). -/
def selectCode? : Instr → Option Byte
  | .bwWrite _ _ => some 0x10
  | .bwClose => some 0x11
  | .brRead _ => some 0x20
  | .brEmpty => some 0x21
  | .cbContains _ => some 0x30
  | .cbGet _ => some 0x31
  | .cbPut _ _ => some 0x32
  | .cbRemove _ => some 0x32
  | .cbInit => some 0x33
  | .ctLookup _ => some 0x40
  | .ctInsert _ _ => some 0x41
  | .ctClear _ => some 0x42
  | .ctInit => some 0x43
  | .lruUse _ => some 0x50
  | .lruRemove _ => some 0x51
  | .lruFind _ => some 0x52
  | .lfuUse _ => some 0x60
  | .lfuRemove _ => some 0x61
  | .lfuFind _ => some 0x62
  | .hdrWrite => some 0x70
  | .hdrRead => some 0x71
  | .encStart => some 0x80
  | .encByte _ => some 0x81
  | .encByteRun _ => some 0x81
  | .encEnd => some 0x82
  | .encEndRun => some 0x82
  | .decStart => some 0x90
  | .decStep => some 0x91
  | .policyFreeze => none
  | .policyReset => none
  | .policyLru => none
  | .policyLfu => none
  | .policyUnknown _ => none
  | .fieldMinW _ => none
  | .fieldMaxW _ => none
  | .fieldPolicy _ => none
  | .fieldAlphabetSize _ => none
  | .fieldAlphabet _ _ => none
  | .cwEofFirst _ => none
  | .cwAlphaFirst _ => none
  | .cwIllegalFirst _ => none
  | .cwEofPostReset _ => none
  | .cwAlphaPostReset _ => none
  | .cwIllegalPostReset _ => none
  | .cwEof _ => none
  | .cwReset _ => none
  | .cwAlpha _ => none
  | .cwDict _ => none
  | .cwKwkwk _ => none
  | .cwIllegal _ => none

/-- The format and the fixed bits of the instruction's encoding, at every view of the machine. -/
def Statement (i : Instr) : Prop :=
  ∀ v, match selectCode? i with
    | some c => ∃ operands, encode v i = .opsel (c :: operands)
    | none => ∀ bs, encode v i ≠ .opsel bs

theorem bwWrite (value width : Nat) : Statement (.bwWrite value width) := fun _ => ⟨_, rfl⟩
theorem bwClose : Statement (.bwClose) := fun _ => ⟨_, rfl⟩
theorem brRead (width : Nat) : Statement (.brRead width) := fun _ => ⟨_, rfl⟩
theorem brEmpty : Statement (.brEmpty) := fun _ => ⟨_, rfl⟩
theorem cbContains (s : Bytes) : Statement (.cbContains s) := fun _ => ⟨_, rfl⟩
theorem cbGet (s : Bytes) : Statement (.cbGet s) := fun _ => ⟨_, rfl⟩
theorem cbPut (s : Bytes) (c : Option Nat) : Statement (.cbPut s c) := fun _ => ⟨_, rfl⟩
theorem cbRemove (s : Bytes) : Statement (.cbRemove s) := fun _ => ⟨_, rfl⟩
theorem cbInit : Statement (.cbInit) := fun _ => ⟨_, rfl⟩
theorem ctLookup (x : Nat) : Statement (.ctLookup x) := fun _ => ⟨_, rfl⟩
theorem ctInsert (x : Nat) (s : Bytes) : Statement (.ctInsert x s) := fun _ => ⟨_, rfl⟩
theorem ctClear (x : Nat) : Statement (.ctClear x) := fun _ => ⟨_, rfl⟩
theorem ctInit : Statement (.ctInit) := fun _ => ⟨_, rfl⟩
theorem lruUse (k : Key) : Statement (.lruUse k) := fun _ => ⟨_, rfl⟩
theorem lruRemove (k : Key) : Statement (.lruRemove k) := fun _ => ⟨_, rfl⟩
theorem lruFind (side : Side) : Statement (.lruFind side) := fun _ => ⟨_, rfl⟩
theorem lfuUse (k : Key) : Statement (.lfuUse k) := fun _ => ⟨_, rfl⟩
theorem lfuRemove (k : Key) : Statement (.lfuRemove k) := fun _ => ⟨_, rfl⟩
theorem lfuFind (side : Side) : Statement (.lfuFind side) := fun _ => ⟨_, rfl⟩
theorem hdrWrite : Statement (.hdrWrite) := fun _ => ⟨_, rfl⟩
theorem hdrRead : Statement (.hdrRead) := fun _ => ⟨_, rfl⟩
theorem encStart : Statement (.encStart) := fun _ => ⟨_, rfl⟩
theorem encByte (c : Byte) : Statement (.encByte c) := fun _ => ⟨_, rfl⟩
theorem encByteRun (c : Byte) : Statement (.encByteRun c) := fun _ => ⟨_, rfl⟩
theorem encEnd : Statement (.encEnd) := fun _ => ⟨_, rfl⟩
theorem encEndRun : Statement (.encEndRun) := fun _ => ⟨_, rfl⟩
theorem decStart : Statement (.decStart) := fun _ => ⟨_, rfl⟩
theorem decStep : Statement (.decStep) := fun _ => ⟨_, rfl⟩
theorem policyFreeze : Statement (.policyFreeze) := fun _ _ h => nomatch h
theorem policyReset : Statement (.policyReset) := fun _ _ h => nomatch h
theorem policyLru : Statement (.policyLru) := fun _ _ h => nomatch h
theorem policyLfu : Statement (.policyLfu) := fun _ _ h => nomatch h
theorem policyUnknown (b : Byte) : Statement (.policyUnknown b) := fun _ _ h => nomatch h
theorem fieldMinW (d : Dir) : Statement (.fieldMinW d) := fun _ _ h => nomatch h
theorem fieldMaxW (d : Dir) : Statement (.fieldMaxW d) := fun _ _ h => nomatch h
theorem fieldPolicy (d : Dir) : Statement (.fieldPolicy d) := fun _ _ h => nomatch h
theorem fieldAlphabetSize (d : Dir) : Statement (.fieldAlphabetSize d) := fun _ _ h => nomatch h
theorem fieldAlphabet (d : Dir) (i : Nat) : Statement (.fieldAlphabet d i) := fun _ _ h => nomatch h
theorem cwEofFirst (x : Nat) : Statement (.cwEofFirst x) := fun _ _ h => nomatch h
theorem cwAlphaFirst (x : Nat) : Statement (.cwAlphaFirst x) := fun _ _ h => nomatch h
theorem cwIllegalFirst (x : Nat) : Statement (.cwIllegalFirst x) := fun _ _ h => nomatch h
theorem cwEofPostReset (x : Nat) : Statement (.cwEofPostReset x) := fun _ _ h => nomatch h
theorem cwAlphaPostReset (x : Nat) : Statement (.cwAlphaPostReset x) := fun _ _ h => nomatch h
theorem cwIllegalPostReset (x : Nat) : Statement (.cwIllegalPostReset x) := fun _ _ h => nomatch h
theorem cwEof (x : Nat) : Statement (.cwEof x) := fun _ _ h => nomatch h
theorem cwReset (x : Nat) : Statement (.cwReset x) := fun _ _ h => nomatch h
theorem cwAlpha (x : Nat) : Statement (.cwAlpha x) := fun _ _ h => nomatch h
theorem cwDict (x : Nat) : Statement (.cwDict x) := fun _ _ h => nomatch h
theorem cwKwkwk (x : Nat) : Statement (.cwKwkwk x) := fun _ _ h => nomatch h
theorem cwIllegal (x : Nat) : Statement (.cwIllegal x) := fun _ _ h => nomatch h

end Sys2Proof.Laws.SelectCode
end

