-- ==== Sys2Proof/Tests/Slice0.lean ====
section
/-! SUPPORT. Tests: ill-formed terms refused, words written out from the spec's encodings, the spec's own examples one
operation at a time, and for every statement of Obligations.lean a state and operands that meet its hypotheses. -/

namespace Sys2Proof.Machine.Tests

/-! ### WellFormed: one ill-formed term per check, and the legal boundary beside it -/

theorem test_wf_cbContains : (Instr.cbContains []).wellFormed = false := by decide
theorem test_wf_cbGet : (Instr.cbGet []).wellFormed = false := by decide
theorem test_wf_cbPut : (Instr.cbPut [] (some 5)).wellFormed = false := by decide
theorem test_wf_cbRemove : (Instr.cbRemove []).wellFormed = false := by decide
theorem test_wf_ctInsert : (Instr.ctInsert 5 []).wellFormed = false := by decide
theorem test_wf_policyUnknown : (Instr.policyUnknown 3).wellFormed = false ∧ (Instr.policyUnknown 4).wellFormed = true := by
  decide
theorem test_wf_fieldAlphabet :
    (Instr.fieldAlphabet .get 65535).wellFormed = false ∧ (Instr.fieldAlphabet .get 65534).wellFormed = true := by decide
theorem test_wf_accepts : (Instr.cbGet [0x61]).wellFormed = true ∧ (Instr.lruUse (.code 0)).wellFormed = true ∧
    (Instr.lfuRemove (.str [])).wellFormed = true ∧ (Instr.bwWrite 0 0).wellFormed = true := by decide

/-! ### Words written out from the spec's encodings (R110, R91, R94, R97) -/

/-- An encoder in `RUN`, a decoder in `RUN` after `DEC.START` on the example of R252 and two codewords (R254, R255). -/
def viewRun : View :=
  { encPhase := .run, decPhase := .run, width := 3, policy := .reset, alphabetSize := 4, eofCode := 4, resetCode := 5,
    initialNextCode := 6, nextCode := 7, present := fun x => decide (x < 4 ∨ x = 6) }

def viewFirst : View := { viewRun with encPhase := .first, decPhase := .first }

def viewPostReset : View := { viewRun with decPhase := .postReset }

theorem test_decode_bw : decode viewRun (.opsel [0x10, 5, 3]) = .ok (.bwWrite 5 3) ∧
    decode viewRun (.opsel [0x11]) = .ok .bwClose := ⟨rfl, rfl⟩

theorem test_decode_br : decode viewRun (.opsel [0x20, 9]) = .ok (.brRead 9) ∧
    decode viewRun (.opsel [0x21]) = .ok .brEmpty := ⟨rfl, rfl⟩

theorem test_decode_cb : decode viewRun (.opsel [0x30, 1, 0x61, 0x62]) = .ok (.cbContains [0x61, 0x62]) ∧
    decode viewRun (.opsel [0x31, 0, 0x61]) = .ok (.cbGet [0x61]) ∧
    decode viewRun (.opsel [0x32, 1, 0x61, 0x62, 0, 7]) = .ok (.cbPut [0x61, 0x62] (some 7)) ∧
    decode viewRun (.opsel [0x32, 1, 0x61, 0x62, 1]) = .ok (.cbRemove [0x61, 0x62]) ∧
    decode viewRun (.opsel [0x33]) = .ok .cbInit := ⟨rfl, rfl, rfl, rfl, rfl⟩

theorem test_decode_ct : decode viewRun (.opsel [0x40, 2]) = .ok (.ctLookup 2) ∧
    decode viewRun (.opsel [0x41, 5, 1, 0x61, 0x62]) = .ok (.ctInsert 5 [0x61, 0x62]) ∧
    decode viewRun (.opsel [0x42, 6]) = .ok (.ctClear 6) ∧ decode viewRun (.opsel [0x43]) = .ok .ctInit :=
  ⟨rfl, rfl, rfl, rfl⟩

theorem test_decode_lru : decode viewRun (.opsel [0x50, 0, 2, 0x61, 0x62]) = .ok (.lruUse (.str [0x61, 0x62])) ∧
    decode viewRun (.opsel [0x50, 0, 0]) = .ok (.lruUse (.str [])) ∧
    decode viewRun (.opsel [0x51, 1, 6]) = .ok (.lruRemove (.code 6)) ∧
    decode viewRun (.opsel [0x52, 0]) = .ok (.lruFind .enc) := ⟨rfl, rfl, rfl, rfl⟩

theorem test_decode_lfu : decode viewRun (.opsel [0x60, 1, 6]) = .ok (.lfuUse (.code 6)) ∧
    decode viewRun (.opsel [0x61, 0, 1, 0x61]) = .ok (.lfuRemove (.str [0x61])) ∧
    decode viewRun (.opsel [0x62, 1]) = .ok (.lfuFind .dec) := ⟨rfl, rfl, rfl⟩

theorem test_decode_hdr : decode viewRun (.opsel [0x70]) = .ok .hdrWrite ∧
    decode viewRun (.opsel [0x71]) = .ok .hdrRead := ⟨rfl, rfl⟩

/-- R115: the phase register, not the code, selects the row. -/
theorem test_decode_enc : decode viewRun (.opsel [0x80]) = .ok .encStart ∧
    decode viewFirst (.opsel [0x81, 0x61]) = .ok (.encByte 0x61) ∧
    decode viewRun (.opsel [0x81, 0x61]) = .ok (.encByteRun 0x61) ∧
    decode viewFirst (.opsel [0x82]) = .ok .encEnd ∧ decode viewRun (.opsel [0x82]) = .ok .encEndRun :=
  ⟨rfl, rfl, rfl, rfl, rfl⟩

theorem test_decode_dec : decode viewRun (.opsel [0x90]) = .ok .decStart ∧
    decode viewRun (.opsel [0x91]) = .ok .decStep := ⟨rfl, rfl⟩

theorem test_decode_policy : decode viewRun (.policyByte 0) = .ok .policyFreeze ∧
    decode viewRun (.policyByte 1) = .ok .policyReset ∧ decode viewRun (.policyByte 2) = .ok .policyLru ∧
    decode viewRun (.policyByte 3) = .ok .policyLfu ∧ decode viewRun (.policyByte 4) = .ok (.policyUnknown 4) ∧
    decode viewRun (.policyByte 0xFF) = .ok (.policyUnknown 0xFF) := ⟨rfl, rfl, rfl, rfl, rfl, rfl⟩

theorem test_decode_fields : decode viewRun (.field .put 0) = .ok (.fieldMinW .put) ∧
    decode viewRun (.field .get 8) = .ok (.fieldMaxW .get) ∧ decode viewRun (.field .put 16) = .ok (.fieldPolicy .put) ∧
    decode viewRun (.field .get 24) = .ok (.fieldAlphabetSize .get) ∧
    decode viewRun (.field .get 40) = .ok (.fieldAlphabet .get 0) ∧
    decode viewRun (.field .put 64) = .ok (.fieldAlphabet .put 3) := ⟨rfl, rfl, rfl, rfl, rfl, rfl⟩

theorem test_decode_codewords_first : decode viewFirst (.codeword [true, false, false]) = .ok (.cwEofFirst 4) ∧
    decode viewFirst (.codeword [false, true, false]) = .ok (.cwAlphaFirst 2) ∧
    decode viewFirst (.codeword [true, false, true]) = .ok (.cwIllegalFirst 5) := ⟨rfl, rfl, rfl⟩

theorem test_decode_codewords_postReset :
    decode viewPostReset (.codeword [true, false, false]) = .ok (.cwEofPostReset 4) ∧
    decode viewPostReset (.codeword [false, true, true]) = .ok (.cwAlphaPostReset 3) ∧
    decode viewPostReset (.codeword [true, false, true]) = .ok (.cwIllegalPostReset 5) := ⟨rfl, rfl, rfl⟩

theorem test_decode_codewords_run : decode viewRun (.codeword [true, false, false]) = .ok (.cwEof 4) ∧
    decode viewRun (.codeword [true, false, true]) = .ok (.cwReset 5) ∧
    decode viewRun (.codeword [false, true, true]) = .ok (.cwAlpha 3) ∧
    decode viewRun (.codeword [true, true, false]) = .ok (.cwDict 6) ∧
    decode viewRun (.codeword [true, true, true]) = .ok (.cwKwkwk 7) ∧
    decode { viewRun with present := fun x => decide (x < 4) } (.codeword [true, true, false]) = .ok (.cwIllegal 6) :=
  ⟨rfl, rfl, rfl, rfl, rfl, rfl⟩

theorem test_decode_refuses : decode viewRun (.opsel []) = .error .noSelectCode ∧
    decode viewRun (.opsel [0x12]) = .error (.unassignedSelectCode 0x12) ∧
    decode viewRun (.opsel [0x11, 0]) = .error .operandsTooLong ∧
    decode viewRun (.opsel [0x81]) = .error .operandsTooShort ∧
    decode viewRun (.opsel [0x20, 0x80, 0]) = .error .nonMinimalNatural ∧
    decode viewRun (.opsel [0x52, 2]) = .error (.badTag 2) ∧
    decode viewRun (.field .get 32) = .error (.noFieldAtOffset 32) ∧
    decode viewRun (.codeword [true]) = .error (.codewordWidth 1 3) ∧
    decode { viewRun with decPhase := .idle } (.codeword [true, true, true]) = .error (.noCodewordInPhase .idle) :=
  ⟨rfl, rfl, rfl, rfl, rfl, rfl, rfl, rfl, rfl⟩

/-- Match values of the opcode table, with operand bytes of zeros. -/
theorem test_decodeTableWord : decodeTableWord 8 0x10 = some (.bwWrite 0 0) ∧ decodeTableWord 8 0x41 = some (.ctInsert 0 [0]) ∧
    decodeTableWord 8 0x81 = some (.encByte 0) ∧ decodeTableWord 8 0x91 = some .decStep ∧
    decodeTableWord 8 0x02 = some .policyLru := ⟨rfl, rfl, rfl, rfl, rfl⟩

/-- The view `decodeTableWord` decodes with is that of the machine right after reset. -/
theorem test_view_atReset : View.atReset = State.reset.view := rfl

theorem test_withFetchWord_steps_first : step (State.reset.withFetchWord 8 0x50) =
    exec (.lruUse (.str [])) State.reset := rfl

/-! ### Small states -/

/-- `A = [0x0D, 0x0A, 0x61, 0x62]` of the spec's examples. -/
def abcd : Bytes := [0x0D, 0x0A, 0x61, 0x62]

/-- A created encoder with its configuration written. -/
def created (p : Policy) (minW maxW : Nat) : State := State.reset.hostWritesCfg minW maxW p abcd

/-- `ENC.START` and the bytes, at width 3. -/
def encAt (p : Policy) (bs : Bytes) : State :=
  (performs (.encStart :: bs.map Instr.encByte) (created p 3 3)).getD State.reset

/-- A created decoder with its input. -/
def fed (bs : Bytes) : State := State.reset.hostSuppliesInput bs

/-- `DEC.START` and `n` `DEC.STEP`s on a header of policy byte `p` at width 3 and the codeword bytes `bs`. -/
def decAt (p : Byte) (bs : Bytes) (n : Nat) : State :=
  (performs (.decStart :: List.replicate n .decStep) (fed ([3, 3, p, 0, 4] ++ abcd ++ bs))).getD State.reset

/-- The next state of an operation, `State.reset` where there is none. -/
def after (i : Instr) (s : State) : State := (performs [i] s).getD State.reset

/-- A created decoder whose configuration, of policy byte `p`, `HDR.READ` has put there. -/
def headed (p : Byte) : State := after .hdrRead (fed ([3, 3, p, 0, 4] ++ abcd))

/-! ### Bit streams: the examples of R121 to R124 -/

theorem test_bwWrite_mixed_widths :
    (after (.bwWrite 0x1FF 9) (after (.bwWrite 1 1) (after (.bwWrite 5 3) State.reset))).enc.bw =
      { out := [0xBF], pend := [true, true, true, true, true], closed := false } := by decide

theorem test_bwWrite_drops_high_bits : (after (.bwWrite 0xABC 8) State.reset).enc.bw.out = [0xBC] := by decide

theorem test_bwClose_pads : (after .bwClose (after (.bwWrite 6 2) State.reset)).enc.bw =
    { out := [0x80], pend := [], closed := true } := by decide

theorem test_bwClose_adds_no_byte : (after .bwClose (after (.bwWrite 0xA5 8) State.reset)).enc.bw.out = [0xA5] := by decide

theorem test_brRead_across_bytes :
    (after (.brRead 9) (after (.brRead 1) (after (.brRead 3) (fed [0xB7, 0xFC])))).ret = .nat 255 := by decide

theorem test_brRead_truncated :
    (after (.brRead 4) (after (.brRead 13) (fed [0xB7, 0xFC]))).dec.fault = some (.truncated 4 3) := by decide

theorem test_brEmpty : (after .brEmpty (fed [])).ret = .bool true ∧ (after .brEmpty (fed [0])).ret = .bool false := by
  decide

/-- R34, R42: a decoder created with its input has the cursor at 0. -/
theorem test_hostSuppliesInput : ((after (.brRead 13) (fed [0xB7, 0xFC])).hostSuppliesInput [1]).dec.br =
    { input := [1], pos := 0 } := by decide

/-! ### Dictionaries: the examples of R141 to R153 -/

/-- The dictionary of the example of R141: the alphabet and `"ab"`. -/
def cbAb : State := after (.cbPut [0x61, 0x62] (some 5)) (after .cbInit (created .freeze 3 3))

theorem test_cbContains : (after (.cbContains [0x61, 0x62]) cbAb).ret = .bool true ∧
    (after (.cbContains [0x61, 0x62, 0x61]) cbAb).ret = .bool false := by decide

theorem test_cbGet : (after (.cbGet [0x61, 0x62]) cbAb).ret = .nat 5 ∧ (after (.cbGet [0x61]) cbAb).ret = .nat 2 := by
  decide

theorem test_cbPut : (after (.cbGet [0x61, 0x62, 0x61]) (after (.cbPut [0x61, 0x62, 0x61] (some 7)) cbAb)).ret = .nat 7 := by
  decide

/-- R35, R144: a removed key's extensions stay. -/
theorem test_cbRemove : cbLookup [0x61, 0x62, 0x61]
      (after (.cbRemove [0x61, 0x62]) (after (.cbPut [0x61, 0x62, 0x61] (some 7)) cbAb)).enc.cb = some 7 ∧
    cbLookup [0x61, 0x62] (after (.cbRemove [0x61, 0x62]) cbAb).enc.cb = none := by decide

theorem test_cbInit : cbLookup [0x62] (after .cbInit cbAb).enc.cb = some 3 ∧
    cbLookup [0x61, 0x62] (after .cbInit cbAb).enc.cb = none := by decide

/-- `CT.INIT` on the example's configuration, put there by `HDR.READ`. -/
def ctAbcd : State := after .ctInit (headed 0)

theorem test_ctInit_and_lookup : (after (.ctLookup 2) ctAbcd).ret = .str (some [0x61]) ∧
    (after (.ctLookup 4) ctAbcd).ret = .str none := by decide

theorem test_ctInsert : (after (.ctLookup 5) (after (.ctInsert 5 [0x61, 0x62]) ctAbcd)).ret =
    .str (some [0x61, 0x62]) := by decide

theorem test_ctClear : (after (.ctLookup 2) (after (.ctClear 2) ctAbcd)).ret = .str none := by decide

theorem test_ct_edge : exec (.ctLookup 8) ctAbcd = .refused .codeOutOfRange := rfl

/-- R22: an operation that reads `CFG` has no step before it is written. -/
theorem test_ct_unwritten : exec (.ctLookup 0) State.reset = .refused .cfgUnwritten ∧
    exec (.ctInsert 0 [0x61]) State.reset = .refused .cfgUnwritten ∧
    exec (.ctClear 0) State.reset = .refused .cfgUnwritten := ⟨rfl, rfl, rfl⟩

/-! ### Trackers: the examples of R161 to R180 -/

/-- `LRU.order = [7, 6, 5]`. -/
def lru765 : State := after (.lruUse (.code 7)) (after (.lruUse (.code 6)) (after (.lruUse (.code 5)) (headed 2)))

theorem test_lruUse : (after (.lruUse (.code 8)) (after (.lruUse (.code 5)) lru765)).dec.trk.lru = [8, 5, 7, 6] := by decide

theorem test_lruRemove : (after (.lruRemove (.code 9)) (after (.lruRemove (.code 6)) (after (.lruUse (.code 5)) lru765))).dec.trk.lru =
    [5, 7] := by decide

theorem test_lruFind : (after (.lruFind .dec) lru765).ret = .key (some (.code 5)) ∧
    (after (.lruFind .enc) (created .lru 3 3)).ret = .key none := by decide

/-- R160: "whatever key it is given, it tracks", the empty string too. -/
theorem test_lruUse_empty_string : (after (.lruUse (.str [])) (created .lru 3 3)).enc.trk.lru = [[]] ∧
    (after (.lruRemove (.str [])) (after (.lruUse (.str [])) (created .lru 3 3))).enc.trk.lru = [] := by decide

/-- R37: no unit under another policy, nor while `CFG` holds none. -/
theorem test_noTracker : exec (.lruUse (.code 5)) (headed 0) = .refused .noTracker ∧
    exec (.lfuUse (.str [0x61])) (created .lru 3 3) = .refused .noTracker ∧
    exec (.lruFind .enc) State.reset = .refused .noTracker := ⟨rfl, rfl, rfl⟩

/-- `{1: [7, 6, 5]}, minFreq = 1`. -/
def lfu765 : State := after (.lfuUse (.code 7)) (after (.lfuUse (.code 6)) (after (.lfuUse (.code 5)) (headed 3)))

theorem test_lfuUse : (after (.lfuUse (.code 5)) lfu765).dec.trk.lfu =
    { freq := [(5, 2), (6, 1), (7, 1)], bucket := [(1, [7, 6]), (2, [5])], minFreq := 1 } := by decide

/-- `{1: [8], 2: [7, 6], 3: [5]}, minFreq = 1` of R179's example. -/
def lfu8 : State :=
  (performs [.lfuUse (.code 5), .lfuUse (.code 5), .lfuUse (.code 5), .lfuUse (.code 6), .lfuUse (.code 6),
    .lfuUse (.code 7), .lfuUse (.code 7), .lfuUse (.code 8)] (headed 3)).getD State.reset

theorem test_lfuRemove_leaves_minFreq : (after (.lfuRemove (.code 8)) lfu8).dec.trk.lfu =
    { freq := [(5, 3), (6, 2), (7, 2)], bucket := [(2, [7, 6]), (3, [5])], minFreq := 1 } := by decide

theorem test_lfuFind : (after (.lfuFind .dec) (after (.lfuUse (.code 5)) lfu765)).ret = .key (some (.code 6)) ∧
    (after (.lfuFind .dec) (after (.lfuRemove (.code 8)) lfu8)).ret = .key none := by decide

/-! ### Header: the examples of R196, R199 and R202 -/

theorem test_hdrWrite : (after .hdrWrite (created .lru 3 4)).enc.bw =
    { out := [0x03, 0x04, 0x02, 0x00, 0x04, 0x0D, 0x0A, 0x61, 0x62], pend := [], closed := false } := by decide

theorem test_hdrRead : (after .hdrRead (fed [0x03, 0x03, 0x09, 0x00, 0x04, 0x0D, 0x0A, 0x61, 0x62])).dec.cfg =
      { minW := 3, maxW := 3, policy := .freeze, alphabetSize := 4, alphabet := abcd, written := true } ∧
    (after .hdrRead (fed [0x03, 0x03, 0x09, 0x00, 0x04, 0x0D, 0x0A, 0x61, 0x62])).dec.br.pos = 72 := by decide

theorem test_hdrRead_truncated : (after .hdrRead (fed [0x03, 0x03, 0x00, 0x00, 0x04, 0x0D])).dec.fault =
    some (.truncated 8 0) := by decide

theorem test_policy_rows : (after .policyLfu State.reset).dec.cfg.policy = .lfu ∧
    (after .policyLru State.reset).dec.cfg.policy = .lru ∧ (after .policyReset State.reset).dec.cfg.policy = .reset ∧
    (after .policyFreeze (after .policyLru State.reset)).dec.cfg.policy = .freeze ∧
    (after (.policyUnknown 9) (after .policyLru State.reset)).dec.cfg.policy = .freeze := by decide

theorem test_fields_put : ((performs [.fieldMinW .put, .fieldMaxW .put, .fieldPolicy .put, .fieldAlphabetSize .put,
      .fieldAlphabet .put 0] (created .lru 3 4)).getD State.reset).enc.bw.out = [0x03, 0x04, 0x02, 0x00, 0x04, 0x0D] := by
  decide

theorem test_fields_get : ((performs [.fieldMinW .get, .fieldMaxW .get, .fieldPolicy .get, .fieldAlphabetSize .get,
      .fieldAlphabet .get 0] (fed [0x03, 0x04, 0x02, 0x01, 0x04, 0x0D])).getD State.reset).dec.cfg =
    { minW := 3, maxW := 4, policy := .lru, alphabetSize := 260, alphabet := [0x0D], written := false } := by decide

theorem test_field_out_of_place : exec (.fieldMaxW .get) (fed [3, 3]) = .refused .notAtField := rfl

/-! ### Encoder: the examples of R212 to R228, and T33's scenarios -/

theorem test_encStart : (encAt .freeze []).enc.bw.out = [0x03, 0x03, 0x00, 0x00, 0x04, 0x0D, 0x0A, 0x61, 0x62] ∧
    (encAt .freeze []).enc.M = 8 ∧ (encAt .freeze []).enc.eofCode = 4 ∧ (encAt .freeze []).enc.nextCode = 5 ∧
    (encAt .freeze []).enc.T = 8 ∧ (encAt .freeze []).enc.phase = .first := by decide

theorem test_encStart_reset : (encAt .reset []).enc.resetCode = 5 ∧ (encAt .reset []).enc.initialNextCode = 6 := by decide

theorem test_encByte_first : (encAt .freeze [0x61]).enc.current = [0x61] ∧ (encAt .freeze [0x61]).enc.phase = .run ∧
    (encAt .freeze [0x61]).enc.bw.out.length = 9 := by decide

theorem test_encByte_notInAlphabet : (encAt .freeze [0x63]).enc.fault = some (.notInAlphabet 0x63) ∧
    (encAt .freeze [0x63]).enc.phase = .fault ∧ (encAt .freeze [0x63]).enc.bw.closed = false := by decide

/-- The miss of R215's example: `2@3`, `"ab" ↦ 5`, `nextCode = 6`, `current = "b"`. -/
theorem test_encByteRun_miss : (after (.encByteRun 0x62) (encAt .freeze [0x61])).enc.bw.pend = [false, true, false] ∧
    cbLookup [0x61, 0x62] (after (.encByteRun 0x62) (encAt .freeze [0x61])).enc.cb = some 5 ∧
    (after (.encByteRun 0x62) (encAt .freeze [0x61])).enc.nextCode = 6 ∧
    (after (.encByteRun 0x62) (encAt .freeze [0x61])).enc.current = [0x62] := by decide

/-- The hit of R215's example: `current = "ab"`, nothing emitted. -/
theorem test_encByteRun_hit : (after (.encByteRun 0x62) (encAt .freeze [0x61, 0x62, 0x61])).enc.current = [0x61, 0x62] ∧
    (after (.encByteRun 0x62) (encAt .freeze [0x61, 0x62, 0x61])).enc.bw = (encAt .freeze [0x61, 0x62, 0x61]).enc.bw := by
  decide

/-- R214's example: no `EOF_CODE` after an empty input. -/
theorem test_encEnd_empty : (after .encEnd (encAt .freeze [])).enc.bw.out =
      [0x03, 0x03, 0x00, 0x00, 0x04, 0x0D, 0x0A, 0x61, 0x62] ∧ (after .encEnd (encAt .freeze [])).enc.phase = .done := by
  decide

/-- R228's example: `a b a b a b` is `2 3 5 5 4` at 3 bits, `4E D8`. -/
theorem test_encEndRun : (after .encEndRun (encAt .freeze [0x61, 0x62, 0x61, 0x62, 0x61, 0x62])).enc.bw.out.drop 9 =
    [0x4E, 0xD8] := by decide

/-! ### Decoder: the examples of R252 to R262 -/

theorem test_decStart : (decAt 0 [0x4E, 0xD8] 0).dec.br.pos = 72 ∧ (decAt 0 [0x4E, 0xD8] 0).dec.M = 8 ∧
    (decAt 0 [0x4E, 0xD8] 0).dec.nextCode = 5 ∧ (decAt 0 [0x4E, 0xD8] 0).dec.phase = .first := by decide

theorem test_decStart_refuses_illegal_header : exec .decStart (fed [0, 3, 0, 0, 1, 0x0D]) = .refused .illegalHeader := rfl

theorem test_decStep_run : (decAt 0 [0x4E, 0xD8] 4).dec.out = [0x61, 0x62, 0x61, 0x62, 0x61, 0x62] ∧
    ctLookup 7 (decAt 0 [0x4E, 0xD8] 4).dec.ct = some [0x61, 0x62, 0x61] ∧
    (decAt 0 [0x4E, 0xD8] 5).dec.phase = .done := by decide

theorem test_decStep_reset : (decAt 1 [0x4F, 0x54, 0xF4] 4).dec.phase = .postReset ∧
    (decAt 1 [0x4F, 0x54, 0xF4] 4).dec.nextCode = 6 ∧
    (decAt 1 [0x4F, 0x54, 0xF4] 8).dec.out = [0x61, 0x62, 0x61, 0x62, 0x61, 0x62, 0x61, 0x62] := by decide

/-- R97, R254: a first code below `|A|` decodes to its alphabet byte, its slot cleared or not. -/
theorem test_decStep_absent_alphabet_slot :
    (after .decStep (after (.ctClear 2) (decAt 0 [0x40] 0))).dec.out = [0x61] := by decide

/-! ### Faults and release: the numbers of R291's table, R333 -/

theorem test_faultNumber : faultNumber (encAt .freeze [0x63]).enc.fault = 1 ∧
    faultNumber (after (.brRead 1) (fed [])).dec.fault = 2 ∧ faultNumber State.reset.dec.fault = 0 := by decide

theorem test_hostReleases : (encAt .freeze [0x63]).hostReleasesEncoder.enc = State.reset.enc ∧
    (decAt 0 [] 1).hostReleasesDecoder.dec = State.reset.dec ∧ (encAt .freeze []).hostReleasesEncoder = encAt .freeze [] := by
  decide

/-! ### Codeword rows (R97, with R254 to R262) -/

theorem test_cw_eof_rows : (after (.cwEofFirst 4) (decAt 0 [] 0)).dec.phase = .done ∧
    (after (.cwEof 4) (decAt 0 [0x4E, 0xD8] 1)).dec.phase = .done ∧
    (after (.cwEofPostReset 4) (decAt 1 [0x4F, 0x54, 0xF4] 4)).dec.phase = .done := by decide

theorem test_cw_alpha_rows : (after (.cwAlphaFirst 2) (decAt 0 [] 0)).dec.out = [0x61] ∧
    (after (.cwAlpha 3) (decAt 0 [0x4E, 0xD8] 1)).dec.out = [0x61, 0x62] ∧
    ctLookup 5 (after (.cwAlpha 3) (decAt 0 [0x4E, 0xD8] 1)).dec.ct = some [0x61, 0x62] ∧
    (after (.cwAlphaPostReset 2) (decAt 1 [0x4F, 0x54, 0xF4] 4)).dec.prev = [0x61] := by decide

theorem test_cw_reset_row : (after (.cwReset 5) (decAt 1 [0x4F, 0x54, 0xF4] 3)).dec.phase = .postReset ∧
    ctLookup 6 (after (.cwReset 5) (decAt 1 [0x4F, 0x54, 0xF4] 3)).dec.ct = none := by decide

theorem test_cw_dict_row : (after (.cwDict 5) (decAt 0 [0x4E, 0xD8] 2)).dec.prev = [0x61, 0x62] ∧
    ctLookup 6 (after (.cwDict 5) (decAt 0 [0x4E, 0xD8] 2)).dec.ct = some [0x62, 0x61] := by decide

theorem test_cw_kwkwk_row : (after (.cwKwkwk 5) (decAt 0 [0x4E, 0xD8] 1)).dec.out = [0x61, 0x61, 0x61] ∧
    ctLookup 5 (after (.cwKwkwk 5) (decAt 0 [0x4E, 0xD8] 1)).dec.ct = some [0x61, 0x61] := by decide

theorem test_cw_illegal_rows : (after (.cwIllegalFirst 5) (decAt 0 [] 0)).dec.fault = some (.badFirstCode 5) ∧
    (after (.cwIllegalPostReset 5) (decAt 1 [0x4F, 0x54, 0xF4] 4)).dec.fault = some (.badFirstCode 5) ∧
    (after (.cwIllegal 6) (decAt 0 [0x4E, 0xD8] 1)).dec.fault = some (.badCode 6) := by decide

/-! ### Witnesses: for every statement with hypotheses, a state and operands that meet them together

Each theorem is named after its statement; a clause with a range of its own is met at a boundary of the range. -/

theorem no_key {cb : List (Bytes × Nat)} {str : Bytes} (hw : mapWf bytesLt cb) (h : cbLookup str cb = none) (x : Nat) :
    (str, x) ∉ cb := fun hx => by rw [mem_cb hw, h] at hx; cases hx

theorem no_slot {ct : List (Nat × Bytes)} {x : Nat} (hw : mapWf natLt ct) (h : ctLookup x ct = none) (str : Bytes) :
    (x, str) ∉ ct := fun hx => by rw [mem_ct hw, h] at hx; cases hx

theorem legal {c : Cfg} (h : legalCfg c = true) : LegalCfg c := legalCfg_iff_LegalCfg.1 h

/-- A closed writer, and one with seven bits buffered. -/
theorem test_witness_BwWriteAppendsLowBits : (encEnded State.reset.enc.phase = false ∧ State.reset.enc.bw.closed = false) ∧
    encEnded (after .bwClose State.reset).enc.phase = false ∧ (after .bwClose State.reset).enc.bw.closed = true := by decide

theorem test_witness_BwCloseFlushesAndPads : (encEnded (after (.bwWrite 0 7) State.reset).enc.phase = false ∧
      (after (.bwWrite 0 7) State.reset).enc.bw.closed = false ∧
      (after (.bwWrite 0 7) State.reset).enc.bw.pend.length = 7) ∧
    encEnded (after .bwClose State.reset).enc.phase = false ∧ (after .bwClose State.reset).enc.bw.closed = true := by decide

/-- Exactly as many bits as asked for, and one fewer. -/
theorem test_witness_BrReadAssemblesOrTruncates : decEnded (fed [0xB7, 0xFC]).dec.phase = false ∧
    (fed [0xB7, 0xFC]).dec.br.pos + 16 ≤ 8 * (fed [0xB7, 0xFC]).dec.br.input.length ∧
    8 * (fed [0xB7, 0xFC]).dec.br.input.length - (fed [0xB7, 0xFC]).dec.br.pos < 17 := by decide

theorem test_witness_BrEmptyAnswersNoBitRemains : decEnded State.reset.dec.phase = false := by decide

theorem test_witness_WriteThenRead : [(5, 3), (0x1FF, 9)][1]? = some (0x1FF, 9) ∧ [(5, 3), (0x1FF, 9)].length ≤ 2 := by decide

theorem test_witness_CbLookupsAnswerForTheExactString : (encEnded cbAb.enc.phase = false ∧ mapWf bytesLt cbAb.enc.cb ∧
      ([0x61, 0x62], 5) ∈ cbAb.enc.cb) ∧ ∀ c, ([0x61, 0x62, 0x61], c) ∉ cbAb.enc.cb :=
  ⟨by decide, no_key (by decide) (by decide)⟩

theorem test_witness_CbPutAndRemoveChangeOneKey : encEnded cbAb.enc.phase = false ∧ ([0x61] : Bytes) ≠ [] ∧
    mapWf bytesLt cbAb.enc.cb := by decide

theorem test_witness_CbInitLeavesTheAlphabet : encEnded (created .lfu 3 3).enc.phase = false ∧
    (created .lfu 3 3).enc.cfg.written = true ∧ (created .lfu 3 3).enc.cfg.alphabet.Nodup := by decide

/-- The last slot of the table, and the first code above it; a table whose size nothing has written. -/
theorem test_witness_CtOperationsReachOneSlot : (decEnded ctAbcd.dec.phase = false ∧ ([0x61] : Bytes) ≠ [] ∧
      mapWf natLt ctAbcd.dec.ct ∧ ctAbcd.dec.cfg.written = true ∧ 7 < 2 ^ ctAbcd.dec.cfg.maxW ∧
      2 ^ ctAbcd.dec.cfg.maxW ≤ 8) ∧
    decEnded State.reset.dec.phase = false ∧ mapWf natLt State.reset.dec.ct ∧ State.reset.dec.cfg.written = false := by
  decide

theorem test_witness_CtInitLeavesTheAlphabet : decEnded ctAbcd.dec.phase = false ∧ ctAbcd.dec.cfg.written = true := by decide

/-- A started encoder of policy `lru`, and a decoder not started. -/
theorem test_witness_LruOperations : (encEnded (encAt .lru [0x61, 0x62]).enc.phase = false ∧
      (encAt .lru [0x61, 0x62]).enc.cfg.written = true ∧ (encAt .lru [0x61, 0x62]).enc.cfg.policy = .lru ∧
      (encAt .lru [0x61, 0x62]).enc.trk.lru.Nodup) ∧
    decEnded lru765.dec.phase = false ∧ lru765.dec.cfg.written = true ∧ lru765.dec.cfg.policy = .lru ∧
      lru765.dec.trk.lru.Nodup := by decide

/-- Before a run, and in one whose tracker is still empty. -/
theorem test_witness_LruFindsTheLeastRecentlyUsed : ∀ s ∈ [headed 2, decAt 2 [] 0], decEnded s.dec.phase = false ∧
    s.dec.cfg.written = true ∧ s.dec.cfg.policy = .lru ∧ s.dec.trk.lru = [] := by decide

theorem test_witness_LfuFindsTheOldestLeastUsed : ∀ s ∈ [headed 3, decAt 3 [] 0], decEnded s.dec.phase = false ∧
    s.dec.cfg.written = true ∧ s.dec.cfg.policy = .lfu ∧ s.dec.trk = Trk.empty := by decide

/-- `{1: [ab]}` in the encoder. -/
theorem trk_lfu_ab : (encAt .lfu [0x61, 0x62]).enc.trk = Trk.use bytesLt .lfu [0x61, 0x62] Trk.empty := by decide

theorem trk_lfu_765 : lfu765.dec.trk =
    Trk.use natLt .lfu 7 (Trk.use natLt .lfu 6 (Trk.use natLt .lfu 5 Trk.empty)) := by decide

theorem wf_lfu_ab : (encAt .lfu [0x61, 0x62]).enc.trk.Wf bytesLt := by
  rw [trk_lfu_ab]
  exact Trk.use_wf bytesLt_order _ _ (Trk.empty_wf _)

theorem wf_lfu_765 : lfu765.dec.trk.Wf natLt := by
  rw [trk_lfu_765]
  exact Trk.use_wf natLt_order _ _ (Trk.use_wf natLt_order _ _ (Trk.use_wf natLt_order _ _ (Trk.empty_wf _)))

theorem test_witness_LfuUseCountsAndPushesToTheFront :
    (encEnded (encAt .lfu [0x61, 0x62]).enc.phase = false ∧ (encAt .lfu [0x61, 0x62]).enc.cfg.written = true ∧
      (encAt .lfu [0x61, 0x62]).enc.cfg.policy = .lfu ∧ (encAt .lfu [0x61, 0x62]).enc.trk.lfu.Consistent bytesLt) ∧
    decEnded lfu765.dec.phase = false ∧ lfu765.dec.cfg.written = true ∧ lfu765.dec.cfg.policy = .lfu ∧
      lfu765.dec.trk.lfu.Consistent natLt :=
  ⟨⟨by decide, by decide, by decide, wf_lfu_ab.lfu⟩, by decide, by decide, by decide, wf_lfu_765.lfu⟩

theorem test_witness_LfuRemoveAndFind :
    (encEnded (encAt .lfu [0x61, 0x62]).enc.phase = false ∧ (encAt .lfu [0x61, 0x62]).enc.cfg.written = true ∧
      (encAt .lfu [0x61, 0x62]).enc.cfg.policy = .lfu ∧ (encAt .lfu [0x61, 0x62]).enc.trk.lfu.Consistent bytesLt) ∧
    decEnded lfu765.dec.phase = false ∧ lfu765.dec.cfg.written = true ∧ lfu765.dec.cfg.policy = .lfu ∧
      lfu765.dec.trk.lfu.Consistent natLt :=
  test_witness_LfuUseCountsAndPushesToTheFront

/-- A run without a unit, a configuration without one, and none written. -/
theorem test_witness_TrackerOperationsNeedTheUnit :
    (∀ s ∈ [encAt .freeze [], created .reset 3 3], encEnded s.enc.phase = false ∧ s.enc.cfg.policy ≠ .lru ∧
      s.enc.cfg.policy ≠ .lfu) ∧
    (∀ s ∈ [decAt 1 [] 0, headed 0], decEnded s.dec.phase = false ∧ s.dec.cfg.policy ≠ .lru ∧ s.dec.cfg.policy ≠ .lfu) ∧
    encEnded State.reset.enc.phase = false ∧ State.reset.enc.cfg.written = false ∧
    decEnded State.reset.dec.phase = false ∧ State.reset.dec.cfg.written = false := by decide

theorem test_witness_HdrWriteLeavesTheHeader : encEnded (created .lru 3 4).enc.phase = false ∧
    (created .lru 3 4).enc.cfg.written = true ∧
    (created .lru 3 4).enc.bw = { out := [], pend := [], closed := false } := by decide

/-- A header that ends with its last byte, one that is a byte short, and one of four bytes. -/
theorem test_witness_HdrReadTakesTheHeaderOrTruncates :
    ((fed [3, 3, 9, 0, 2, 0x0D, 0x0A]).dec.phase = .idle ∧ (fed [3, 3, 9, 0, 2, 0x0D, 0x0A]).dec.br.pos = 0 ∧
      (fed [3, 3, 9, 0, 2, 0x0D, 0x0A]).dec.br.input = 3 :: 3 :: 9 :: 0 :: 2 :: [0x0D, 0x0A] ∧
      256 * (0 : Byte).toNat + (2 : Byte).toNat ≤ ([0x0D, 0x0A] : Bytes).length) ∧
    ((fed [3, 3, 9, 0, 2, 0x0D]).dec.br.input = 3 :: 3 :: 9 :: 0 :: 2 :: [0x0D] ∧
      ([0x0D] : Bytes).length < 256 * (0 : Byte).toNat + (2 : Byte).toNat) ∧
    (fed [3, 3, 9, 0]).dec.br.input.length < 5 := by decide

theorem test_witness_PolicyByteSelects : State.reset.dec.phase = .idle ∧ 4 ≤ (4 : Byte).toNat ∧ 4 ≤ (0xFF : Byte).toNat := by
  decide

/-- The encoder at each field's offset: 0, 8, 16, 24 and, at the last byte, 64. -/
theorem test_witness_HeaderFieldsAreWritten :
    ∀ k ∈ [0, 8, 16, 24, 64], ∃ s : State, encEnded s.enc.phase = false ∧ s.enc.cfg.written = true ∧
      s.enc.bw.closed = false ∧ 8 * s.enc.bw.out.length + s.enc.bw.pend.length = k ∧ s.enc.cfg.alphabet[3]? = some 0x62 ∧
      (k = 64 → k = 40 + 8 * 3) := by
  intro k hk
  refine ⟨after (.bwWrite 0 k) (created .lru 3 4), ?_⟩
  simp only [List.mem_cons, List.not_mem_nil, or_false] at hk
  obtain rfl | rfl | rfl | rfl | rfl := hk <;> decide

/-- The decoder at each field's offset, with exactly the field's bits remaining. -/
theorem test_witness_HeaderFieldsAreRead :
    ((fed [3]).dec.phase = .idle ∧ (fed [3]).dec.br.pos = 0 ∧ (fed [3]).dec.br.pos + 8 ≤ 8 * (fed [3]).dec.br.input.length ∧
      (fed [3]).dec.br.NextIs 8 3) ∧
    (let s := after (.brRead 8) (fed [3, 4]); s.dec.phase = .idle ∧ s.dec.br.pos = 8 ∧
      s.dec.br.pos + 8 ≤ 8 * s.dec.br.input.length ∧ s.dec.br.NextIs 8 4) ∧
    (let s := after (.brRead 16) (fed [3, 4, 2]); s.dec.phase = .idle ∧ s.dec.br.pos = 16 ∧
      s.dec.br.pos + 8 ≤ 8 * s.dec.br.input.length ∧ s.dec.br.NextIs 8 2) ∧
    (let s := after (.brRead 24) (fed [3, 4, 2, 1, 4]); s.dec.phase = .idle ∧ s.dec.br.pos = 24 ∧
      s.dec.br.pos + 16 ≤ 8 * s.dec.br.input.length ∧ s.dec.br.NextIs 16 260) ∧
    (let s := after (.brRead 8) (after (.fieldAlphabetSize .get) (after (.brRead 24) (fed [3, 4, 2, 0, 2, 0x0D, 0x0A])));
      s.dec.phase = .idle ∧ s.dec.br.pos = 40 + 8 * 1 ∧ 1 < s.dec.cfg.alphabetSize ∧
      s.dec.br.pos + 8 ≤ 8 * s.dec.br.input.length ∧ s.dec.br.NextIs 8 0x0A) := by
  simp only [Br.NextIs]
  decide

theorem test_witness_EncStartInitialises : ∃ s : State, s.enc.phase = .idle ∧ s.enc.cfg.written = true ∧
    LegalCfg s.enc.cfg ∧ s.enc.bw = { out := [], pend := [], closed := false } :=
  ⟨created .reset 1 255, by decide, by decide, legal (by decide), by decide⟩

theorem test_witness_EncByteChecksTheAlphabet : ((encAt .lru []).enc.phase = .first ∧
      0x61 ∈ (encAt .lru []).enc.cfg.alphabet ∧ 0x63 ∉ (encAt .lru []).enc.cfg.alphabet) ∧
    (encAt .lru [0x61]).enc.phase = .run ∧ 0x63 ∉ (encAt .lru [0x61]).enc.cfg.alphabet := by decide

theorem test_witness_EncByteHitExtendsThePrefix : (encAt .lru [0x61, 0x62, 0x61]).enc.phase = .run ∧
    0x62 ∈ (encAt .lru [0x61, 0x62, 0x61]).enc.cfg.alphabet ∧ mapWf bytesLt (encAt .lru [0x61, 0x62, 0x61]).enc.cb ∧
    ((encAt .lru [0x61, 0x62, 0x61]).enc.current ++ [0x62], 5) ∈ (encAt .lru [0x61, 0x62, 0x61]).enc.cb := by decide

/-- The tracker after `"ab"` and `"ba"`. -/
theorem wf_lru_abab : (encAt .lru [0x61, 0x62, 0x61, 0x62]).enc.trk.Wf bytesLt := by
  rw [show (encAt .lru [0x61, 0x62, 0x61, 0x62]).enc.trk =
    Trk.use bytesLt .lru [0x62, 0x61] (Trk.use bytesLt .lru [0x61, 0x62] Trk.empty) by decide]
  exact Trk.use_wf bytesLt_order _ _ (Trk.use_wf bytesLt_order _ _ (Trk.empty_wf _))

/-- The miss that evicts: `nextCode = M − 1`, a prefix of two bytes, a victim. -/
theorem test_witness_EncByteMissInserts : ∃ s : State, (s.enc.phase = .run ∧ 0x61 ∈ s.enc.cfg.alphabet ∧
      s.enc.bw.closed = false ∧ mapWf bytesLt s.enc.cb ∧ s.enc.current ≠ [] ∧ (s.enc.current, 5) ∈ s.enc.cb ∧
      s.enc.nextCode < s.enc.M ∧ s.enc.nextCode = s.enc.M - 1 ∧ s.enc.current.length = 2 ∧
      s.enc.trk.answer s.enc.cfg.policy ≠ none) ∧
    s.enc.trk.Wf bytesLt ∧ ∀ x, (s.enc.current ++ [0x61], x) ∉ s.enc.cb :=
  ⟨encAt .lru [0x61, 0x62, 0x61, 0x62], by decide, wf_lru_abab, no_key (by decide) (by decide)⟩

/-- A full table just filled: `nextCode = M`. -/
theorem test_witness_EncByteMissOnAFullTable : ∃ s : State, (s.enc.phase = .run ∧ 0x61 ∈ s.enc.cfg.alphabet ∧
      s.enc.bw.closed = false ∧ mapWf bytesLt s.enc.cb ∧ s.enc.current ≠ [] ∧ (s.enc.current, 2) ∈ s.enc.cb ∧
      s.enc.M ≤ s.enc.nextCode ∧ s.enc.cfg.policy ≠ .reset) ∧
    s.enc.trk.Wf bytesLt ∧ ∀ x, (s.enc.current ++ [0x61], x) ∉ s.enc.cb :=
  ⟨encAt .freeze [0x61, 0x62, 0x61, 0x62, 0x61], by decide,
    (show (encAt .freeze [0x61, 0x62, 0x61, 0x62, 0x61]).enc.trk = Trk.empty by decide) ▸ Trk.empty_wf _,
    no_key (by decide) (by decide)⟩

theorem test_witness_EncByteMissResetsTheTable : ∃ s : State, (s.enc.phase = .run ∧ 0x61 ∈ s.enc.cfg.alphabet ∧
      s.enc.bw.closed = false ∧ mapWf bytesLt s.enc.cb ∧ (s.enc.current, 2) ∈ s.enc.cb ∧ s.enc.M ≤ s.enc.nextCode ∧
      s.enc.cfg.policy = .reset ∧ s.enc.cfg.alphabet.Nodup) ∧ ∀ x, (s.enc.current ++ [0x61], x) ∉ s.enc.cb :=
  ⟨encAt .reset [0x61, 0x62, 0x61], by decide, no_key (by decide) (by decide)⟩

theorem test_witness_EncEndClosesTheStream : ((encAt .lru []).enc.bw.closed = false ∧ (encAt .lru []).enc.phase = .first ∧
      (encAt .lru []).enc.bw.pend.length < 8) ∧
    ∃ s : State, (s.enc.bw.closed = false ∧ s.enc.phase = .run ∧ mapWf bytesLt s.enc.cb ∧ s.enc.current ≠ [] ∧
      (s.enc.current, 5) ∈ s.enc.cb) ∧ s.enc.trk.Wf bytesLt :=
  ⟨by decide, encAt .lru [0x61, 0x62, 0x61, 0x62], by decide, wf_lru_abab⟩

theorem test_witness_OperationsInTheWrongPhaseAreRefused :
    (encEnded (encAt .lru []).enc.phase = false ∧ (encAt .lru []).enc.phase ≠ .idle ∧ (encAt .lru []).enc.phase = .first) ∧
    (State.reset.enc.phase = .idle ∧ State.reset.enc.cfg.written = false) ∧
    ((created .lru 0 3).enc.phase = .idle ∧ (created .lru 0 3).enc.cfg.written = true ∧
      ¬ LegalCfg (created .lru 0 3).enc.cfg) ∧
    (decEnded (decAt 0 [] 0).dec.phase = false ∧ (decAt 0 [] 0).dec.phase ≠ .idle) ∧ State.reset.dec.phase = .idle :=
  ⟨by decide, by decide, ⟨by decide, by decide, fun h => absurd (legalCfg_iff_LegalCfg.2 h) (by decide)⟩, by decide,
    by decide⟩

theorem test_witness_EndedInstancesHaveNoStep : (instrSide .hdrWrite = .enc ∧ (encAt .lru [0x63]).enc.phase = .fault) ∧
    (instrSide .bwClose = .enc ∧ (after .encEnd (encAt .lru [])).enc.phase = .done) ∧
    (instrSide .decStep = .dec ∧ (decAt 0 [] 1).dec.phase = .done) ∧
    instrSide .brEmpty = .dec ∧ (after (.brRead 1) (fed [])).dec.phase = .fault := by decide

/-- The smallest legal alphabet, a header that yields no legal configuration, and the two kinds of short header. -/
theorem test_witness_DecStartInitialises :
    ((fed [1, 255, 1, 0, 2, 0x0D, 0x0A]).dec.phase = .idle ∧ (fed [1, 255, 1, 0, 2, 0x0D, 0x0A]).dec.br.pos = 0 ∧
      (fed [1, 255, 1, 0, 2, 0x0D, 0x0A]).dec.br.input = 1 :: 255 :: 1 :: 0 :: 2 :: [0x0D, 0x0A] ∧
      2 = 256 * (0 : Byte).toNat + (2 : Byte).toNat ∧ 2 ≤ ([0x0D, 0x0A] : Bytes).length) ∧
    LegalCfg { minW := (1 : Byte).toNat, maxW := (255 : Byte).toNat, policy := .reset, alphabetSize := 2,
               alphabet := ([0x0D, 0x0A] : Bytes).take 2, written := true } ∧
    ¬ LegalCfg { minW := (0 : Byte).toNat, maxW := (255 : Byte).toNat, policy := .reset, alphabetSize := 2,
                 alphabet := ([0x0D, 0x0A] : Bytes).take 2, written := true } ∧
    (fed [1, 2, 3, 4]).dec.br.input.length < 5 ∧
    ((fed [1, 2, 0, 0, 2, 0x0D]).dec.br.input = 1 :: 2 :: 0 :: 0 :: 2 :: [0x0D] ∧
      ([0x0D] : Bytes).length < 256 * (0 : Byte).toNat + (2 : Byte).toNat) :=
  ⟨by decide, legal (by decide), fun h => absurd (legalCfg_iff_LegalCfg.2 h) (by decide), by decide, by decide⟩

/-- `POSTRESET` after the fourth codeword of R262's example. -/
def postReset : State := decAt 1 [0x4F, 0x54, 0xF4] 4

/-- In `FIRST`: no bit, two bits (a cursor moved by a read driven alone), `EOF_CODE`, an alphabet code, another code. In
`POSTRESET`: no bit, an alphabet code. -/
theorem test_witness_DecStepFirstAndPostReset :
    ((decAt 0 [] 0).dec.phase = .first ∧ mapWf natLt (decAt 0 [] 0).dec.ct ∧
      8 * (decAt 0 [] 0).dec.br.input.length ≤ (decAt 0 [] 0).dec.br.pos) ∧
    (let s := after (.brRead 6) (decAt 0 [0] 0); s.dec.phase = .first ∧ mapWf natLt s.dec.ct ∧
      s.dec.br.pos < 8 * s.dec.br.input.length ∧ 8 * s.dec.br.input.length < s.dec.br.pos + s.dec.W) ∧
    (let s := after (.brRead 10) postReset; s.dec.phase = .postReset ∧ mapWf natLt s.dec.ct ∧
      8 * s.dec.br.input.length - s.dec.br.pos < s.dec.W) ∧
    (∀ x ∈ [(4, 0x80), (0, 0x00), (3, 0x60), (5, 0xA0), (7, 0xE0)],
      let s := decAt 0 [x.2] 0
      s.dec.br.pos < 8 * s.dec.br.input.length ∧ s.dec.br.pos + s.dec.W ≤ 8 * s.dec.br.input.length ∧
        s.dec.br.NextIs s.dec.W x.1 ∧
        (x.1 = s.dec.eofCode ∨ (x.1 < s.dec.cfg.alphabetSize ∧ (ctLookup x.1 s.dec.ct).isSome = true) ∨
          s.dec.cfg.alphabetSize ≤ x.1)) ∧
    (postReset.dec.phase = .postReset ∧ mapWf natLt postReset.dec.ct ∧ postReset.dec.br.NextIs postReset.dec.W 2 ∧
      (2, [0x61]) ∈ postReset.dec.ct) := by
  simp only [Br.NextIs]
  decide

/-- The decoder of R255's example before `EOF_CODE`, and the one of R262's example before `RESET_CODE`. -/
theorem test_witness_DecStepStopsOrFlushes :
    (let s := decAt 0 [0x4E, 0xD8] 4; s.dec.phase = .run ∧
      3 = (if s.dec.T ≤ s.dec.nextCode ∧ s.dec.W < s.dec.cfg.maxW then s.dec.W + 1 else s.dec.W) ∧
      s.dec.br.pos + 3 ≤ 8 * s.dec.br.input.length ∧ s.dec.br.NextIs 3 4 ∧ 4 = s.dec.eofCode) ∧
    (let s := decAt 1 [0x4F, 0x54, 0xF4] 3; s.dec.phase = .run ∧
      3 = (if s.dec.T ≤ s.dec.nextCode ∧ s.dec.W < s.dec.cfg.maxW then s.dec.W + 1 else s.dec.W) ∧
      s.dec.br.pos + 3 ≤ 8 * s.dec.br.input.length ∧ s.dec.br.NextIs 3 5 ∧ 5 ≠ s.dec.eofCode ∧
      s.dec.cfg.policy = .reset ∧ 5 = s.dec.resetCode) := by
  simp only [Br.NextIs]
  decide

/-- Two bits left in `RUN`; a code one above `nextCode`; an evicted code below it. -/
theorem test_witness_DecStepFaultsArePrecise :
    (let s := after (.brRead 3) (decAt 0 [0x40] 1); s.dec.phase = .run ∧ mapWf natLt s.dec.ct ∧
      3 = (if s.dec.T ≤ s.dec.nextCode ∧ s.dec.W < s.dec.cfg.maxW then s.dec.W + 1 else s.dec.W) ∧
      8 * s.dec.br.input.length - s.dec.br.pos < 3) ∧
    (let s := decAt 0 [0x58] 1; s.dec.phase = .run ∧ mapWf natLt s.dec.ct ∧
      s.dec.br.pos + 3 ≤ 8 * s.dec.br.input.length ∧ s.dec.br.NextIs 3 6 ∧ 6 ≠ s.dec.eofCode ∧ s.dec.cfg.policy ≠ .reset ∧
      6 = s.dec.nextCode + 1) ∧
    (let s := after (.ctClear 5) (decAt 0 [0x4E, 0xD8] 2); s.dec.phase = .run ∧ mapWf natLt s.dec.ct ∧
      s.dec.br.NextIs 3 5 ∧ 5 < s.dec.nextCode ∧ ctLookup 5 s.dec.ct = none) := by
  simp only [Br.NextIs]
  decide

/-- A decoder of policy `lru` at `nextCode = M − 1`, about to read `6@3`. -/
def decEvicting : State := decAt 2 [0x4E, 0xE8] 3

theorem wf_decEvicting : decEvicting.dec.trk.Wf natLt := by
  rw [show decEvicting.dec.trk = Trk.use natLt .lru 5 (Trk.use natLt .lru 6 (Trk.use natLt .lru 5 Trk.empty)) by decide]
  exact Trk.use_wf natLt_order _ _ (Trk.use_wf natLt_order _ _ (Trk.use_wf natLt_order _ _ (Trk.empty_wf _)))

/-- The step that evicts, and the KwKwK case. -/
theorem test_witness_DecStepDecodesData :
    (∃ s : State, (s.dec.phase = .run ∧ mapWf natLt s.dec.ct ∧
        3 = (if s.dec.T ≤ s.dec.nextCode ∧ s.dec.W < s.dec.cfg.maxW then s.dec.W + 1 else s.dec.W) ∧
        s.dec.br.pos + 3 ≤ 8 * s.dec.br.input.length ∧ s.dec.br.NextIs 3 6 ∧ 6 ≠ s.dec.eofCode ∧
        s.dec.cfg.policy ≠ .reset ∧ 6 < s.dec.nextCode ∧ (6, [0x62, 0x61]) ∈ s.dec.ct ∧ s.dec.nextCode = s.dec.M - 1) ∧
      s.dec.trk.Wf natLt ∧ ∀ v, s.dec.trk.answer s.dec.cfg.policy = some v → v < 2 ^ s.dec.cfg.maxW) ∧
    ∃ s : State, (s.dec.phase = .run ∧ mapWf natLt s.dec.ct ∧ s.dec.br.NextIs 3 5 ∧ 5 = s.dec.nextCode ∧
        s.dec.prev[0]? = some 0x61 ∧ s.dec.cfg.policy ≠ .reset ∧ 5 ≠ s.dec.eofCode) ∧ s.dec.trk.Wf natLt ∧
      ∀ v, s.dec.trk.answer s.dec.cfg.policy = some v → v < 2 ^ s.dec.cfg.maxW := by
  refine ⟨⟨decEvicting, by simp only [Br.NextIs]; decide, wf_decEvicting, fun v hv => ?_⟩,
    ⟨decAt 0 [0x54] 1, by simp only [Br.NextIs]; decide,
      (show (decAt 0 [0x54] 1).dec.trk = Trk.empty by decide) ▸ Trk.empty_wf _, fun v hv => ?_⟩⟩
  · rw [show decEvicting.dec.trk.answer decEvicting.dec.cfg.policy = some 6 by decide] at hv
    obtain rfl := Option.some.inj hv
    decide
  · rw [show (decAt 0 [0x54] 1).dec.trk.answer (decAt 0 [0x54] 1).dec.cfg.policy = none by decide] at hv
    cases hv

theorem test_witness_CodewordRowsThatAreNoData :
    ((let s := decAt 0 [] 0; mapWf natLt s.dec.ct ∧ s.dec.phase = .first ∧ 4 < 2 ^ s.dec.W ∧ 4 = s.dec.eofCode ∧
      3 < s.dec.cfg.alphabetSize ∧ s.dec.cfg.alphabet[3]? = some 0x62 ∧ 7 < 2 ^ s.dec.W ∧ s.dec.cfg.alphabetSize ≤ 7) ∧
    (mapWf natLt postReset.dec.ct ∧ postReset.dec.phase = .postReset ∧ 4 = postReset.dec.eofCode ∧
      postReset.dec.cfg.alphabet[3]? = some 0x62 ∧ 7 < 2 ^ postReset.dec.W ∧ 7 ≠ postReset.dec.eofCode) ∧
    (let s := decAt 1 [0x4F, 0x54, 0xF4] 3; mapWf natLt s.dec.ct ∧ s.dec.phase = .run ∧ s.dec.cfg.policy = .reset ∧
      5 = s.dec.resetCode ∧ 5 ≠ s.dec.eofCode ∧ 5 < 2 ^ s.dec.W ∧ 4 = s.dec.eofCode) ∧
    (let s := decAt 0 [0x4E, 0xD8] 1; mapWf natLt s.dec.ct ∧ s.dec.phase = .run ∧ 6 < 2 ^ s.dec.W ∧ 6 ≠ s.dec.eofCode ∧
      s.dec.cfg.policy ≠ .reset ∧ s.dec.cfg.alphabetSize ≤ 6 ∧ ¬ 6 < s.dec.nextCode ∧ 6 ≠ s.dec.nextCode)) ∧
    ∃ s : State, (2 < 2 ^ s.dec.W ∧ mapWf natLt s.dec.ct ∧ s.dec.phase = .first ∧
        s.dec.br.pos + s.dec.W ≤ 8 * s.dec.br.input.length ∧ s.dec.br.NextIs s.dec.W 2 ∧ 2 ≠ s.dec.eofCode ∧
        2 < s.dec.cfg.alphabetSize ∧ s.dec.cfg.alphabet[2]? = some 0x61) ∧ ∀ str, (2, str) ∉ s.dec.ct :=
  ⟨by decide, after (.ctClear 2) (decAt 0 [0x40] 0), by simp only [Br.NextIs]; decide, no_slot (by decide) (by decide)⟩

/-- The three classes, the dictionary code at the eviction point. -/
theorem test_witness_CodewordRowsOfData :
    (∃ s : State, (s.dec.phase = .run ∧ mapWf natLt s.dec.ct ∧ 6 < 2 ^ s.dec.W ∧ 6 ≠ s.dec.eofCode ∧
        s.dec.cfg.policy ≠ .reset ∧ s.dec.cfg.alphabetSize ≤ 6 ∧ s.dec.initialNextCode ≤ 6 ∧ 6 < s.dec.nextCode ∧
        (6, [0x62, 0x61]) ∈ s.dec.ct ∧ 3 < s.dec.cfg.alphabetSize ∧ s.dec.cfg.alphabet[3]? = some 0x62 ∧
        7 < 2 ^ s.dec.W ∧ 7 = s.dec.nextCode ∧ s.dec.prev[0]? = some 0x61) ∧
      s.dec.trk.Wf natLt ∧ ∀ v, s.dec.trk.answer s.dec.cfg.policy = some v → v < 2 ^ s.dec.cfg.maxW) := by
  refine ⟨decEvicting, by decide, wf_decEvicting, fun v hv => ?_⟩
  rw [show decEvicting.dec.trk.answer decEvicting.dec.cfg.policy = some 6 by decide] at hv
  obtain rfl := Option.some.inj hv
  decide

/-! ### Instances that only the host drives -/

theorem inv_created (p : Policy) (minW maxW : Nat) : (created p minW maxW).enc.Inv where
  threshold := rfl
  fault_iff := ⟨nofun, fun h => absurd rfl h⟩
  pend_lt := Nat.zero_lt_succ _
  closed_pend := nofun
  cb_wf := List.Pairwise.nil
  cb_keys := nofun
  trk_wf := Trk.empty_wf _
  started h := absurd rfl h
  running := nofun
  done_closed := nofun

/-- After `ENC.START` under policy `lru`. -/
theorem hostInv_encFirst : (encAt .lru []).enc.HostInv where
  inv := (inv_created .lru 3 3).start rfl rfl (by decide) rfl
  created := nofun
  coherent _ := Enc.Coherent.start (by decide) rfl

/-- After the first byte. -/
theorem hostInv_encRun : (encAt .lru [0x61]).enc.HostInv where
  inv := { hostInv_encFirst.inv with
    fault_iff := ⟨nofun, fun h => absurd rfl h⟩
    running := fun _ => nofun
    done_closed := nofun
    started := fun _ => { hostInv_encFirst.inv.started nofun with } }
  created := nofun
  coherent _ := (hostInv_encFirst.coherent (.inl rfl)).single (by decide) _

theorem inv_fed (bs : Bytes) : (fed bs).dec.Inv where
  threshold := rfl
  fault_iff := ⟨nofun, fun h => absurd rfl h⟩
  pos_le := Nat.zero_le _
  ct_wf := List.Pairwise.nil
  ct_strings := nofun
  trk_wf := Trk.empty_wf _
  started := nofun
  running := nofun

/-- After `DEC.START`, in `FIRST`, whatever follows the header. -/
theorem hostInv_decFirst (bs : Bytes) (h : (decAt 1 bs 0).dec = (fed ([3, 3, 1, 0, 4] ++ abcd ++ bs)).dec.hdrRead.start)
    (hf : (fed ([3, 3, 1, 0, 4] ++ abcd ++ bs)).dec.hdrRead.phase = .idle)
    (hc : legalCfg (fed ([3, 3, 1, 0, 4] ++ abcd ++ bs)).dec.hdrRead.cfg = true) : (decAt 1 bs 0).dec.HostInv := by
  rw [h]
  have hne : (fed ([3, 3, 1, 0, 4] ++ abcd ++ bs)).dec.hdrRead.phase ≠ .fault := by rw [hf]; nofun
  exact
    { inv := ((inv_fed _).headerRead rfl (Dec.hdrRead_headerRead _ nofun)).start hne (Dec.hdrRead_written hne) hc
      created := nofun
      coherent := fun _ => Dec.Coherent.start hc }

/-- The example of R262 in `FIRST`. -/
theorem hostInv_first : (decAt 1 [0x4F, 0x54, 0xF4] 0).dec.HostInv :=
  hostInv_decFirst _ (by decide) (by decide) (by decide)

/-- One codeword on, in `RUN`: `restart` after the read. -/
theorem hostInv_run : (decAt 1 [0x4F, 0x54, 0xF4] 1).dec.HostInv := by
  have h := hostInv_first
  rw [show (decAt 1 [0x4F, 0x54, 0xF4] 1).dec = ((decAt 1 [0x4F, 0x54, 0xF4] 0).dec.advance 3).restart [0x61] by decide]
  exact
    { inv := (h.inv.advance (by decide)).restart (.inl rfl) nofun
      created := nofun
      coherent := fun _ => (h.coherent (.inl rfl)).congr rfl rfl rfl rfl rfl rfl }

/-- The in-band reset, from that state. -/
theorem hostInv_postReset : (decAt 1 [0x4F, 0x54, 0xF4] 1).dec.flush.HostInv where
  inv := hostInv_run.inv.flush (by decide) (by decide)
  created := nofun
  coherent _ := Dec.Coherent.flush hostInv_run.inv (by decide) (by decide)

/-- In each phase in which a codeword is read. -/
theorem test_witness_DecStepIsTheRowOfItsCodeword :
    (let s := decAt 1 [0x4F, 0x54, 0xF4] 0; s.dec.HostInv ∧ s.dec.phase = .first ∧
      s.dec.br.pos + 3 ≤ 8 * s.dec.br.input.length ∧ s.dec.br.NextIs 3 2) ∧
    (let s := decAt 1 [0x4F, 0x54, 0xF4] 1; s.dec.HostInv ∧ s.dec.phase = .run ∧
      3 = (if s.dec.phase = .run ∧ s.dec.T ≤ s.dec.nextCode ∧ s.dec.W < s.dec.cfg.maxW then s.dec.W + 1 else s.dec.W) ∧
      s.dec.br.pos + 3 ≤ 8 * s.dec.br.input.length ∧ s.dec.br.NextIs 3 3) ∧
    (let d := (decAt 1 [0x4F, 0x54, 0xF4] 1).dec.flush; d.HostInv ∧ d.phase = .postReset ∧
      d.br.pos + 3 ≤ 8 * d.br.input.length ∧ d.br.NextIs 3 3) := by
  refine ⟨⟨hostInv_first, ?_⟩, ⟨hostInv_run, ?_⟩, hostInv_postReset, ?_⟩ <;> simp only [Br.NextIs] <;> decide

theorem after_eq {i : Instr} {s : State} (h : (performs [i] s).isSome = true) : exec i s = .next (after i s) := by
  rw [after]
  simp only [performs] at h ⊢
  cases he : exec i s with
  | next t => rfl
  | fault f => rw [he] at h; cases h
  | refused q => rw [he] at h; cases h

theorem performs_eq {is : List Instr} {s : State} (h : (performs is s).isSome = true) :
    performs is s = some ((performs is s).getD State.reset) := by
  cases he : performs is s with
  | none => rw [he] at h; cases h
  | some t => rfl

/-- The decoder's reset after three codewords. -/
theorem test_witness_ResetIsIdempotent_decoder :
    ∃ s s₁ s₂ t : State, exec .decStart s = .next s₁ ∧ performs [.decStep, .decStep, .decStep] s₁ = some s₂ ∧
      exec .decStep s₂ = .next t ∧ s₂.dec.phase = .run ∧ t.dec.phase = .postReset :=
  ⟨fed ([3, 3, 1, 0, 4] ++ abcd ++ [0x4F, 0x54, 0xF4]), _, _, _, after_eq (by decide), performs_eq (by decide),
    after_eq (by decide), by decide, by decide⟩

/-- The encoder's, from a full table. -/
theorem test_witness_ResetIsIdempotent_encoder :
    ∃ s s₁ s₂ t : State, exec .encStart s = .next s₁ ∧
      performs [.encByte 0x61, .encByte 0x62, .encByte 0x61] s₁ = some s₂ ∧ exec (.encByteRun 0x61) s₂ = .next t ∧
      s₁.enc.cfg.policy = .reset ∧ s₂.enc.M ≤ s₂.enc.nextCode ∧ t.enc.current = [0x61] ∧ t.enc.phase = .run ∧
      s₂.enc.current ≠ [] :=
  ⟨created .reset 3 3, _, _, _, after_eq (by decide), performs_eq (by decide), after_eq (by decide), by decide, by decide,
    by decide, by decide, by decide⟩

/-- A step of each instance after its start. -/
theorem test_witness_ConfigurationIsConstantInARun :
    (exec (.encByte 0x61) (encAt .lru []) = .next (encAt .lru [0x61]) ∧ (encAt .lru []).enc.phase ≠ .idle) ∧
    exec .decStep (decAt 0 [0x4E, 0xD8] 0) = .next (decAt 0 [0x4E, 0xD8] 1) ∧ (decAt 0 [0x4E, 0xD8] 0).dec.phase ≠ .idle :=
  ⟨⟨rfl, by decide⟩, rfl, by decide⟩

theorem test_witness_EncoderPhaseTransitions : exec .encStart (created .lru 3 3) = .next (encAt .lru []) ∧
    exec (.encByte 0x61) (encAt .lru []) = .next (encAt .lru [0x61]) ∧ 0x61 ∈ (encAt .lru []).enc.cfg.alphabet ∧
    exec (.encByte 0x63) (encAt .lru []) = .next (encAt .lru [0x63]) ∧ 0x63 ∉ (encAt .lru []).enc.cfg.alphabet ∧
    exec .brEmpty (encAt .lru [0x63]) = .next (after .brEmpty (encAt .lru [0x63])) ∧
    (encAt .lru [0x63]).enc.phase = .fault := ⟨rfl, rfl, by decide, rfl, by decide, rfl, by decide⟩

theorem test_witness_DecoderPhaseTransitions :
    exec .decStart (fed ([3, 3, 0, 0, 4] ++ abcd ++ [0x4E])) = .next (decAt 0 [0x4E] 0) ∧
    exec .decStep (decAt 0 [0x4E] 0) = .next (decAt 0 [0x4E] 1) ∧
    exec (.brRead 9) (decAt 0 [0x4E] 0) = .next (after (.brRead 9) (decAt 0 [0x4E] 0)) ∧
    exec .bwClose (decAt 0 [] 1) = .next (after .bwClose (decAt 0 [] 1)) ∧ (decAt 0 [] 1).dec.phase = .done :=
  ⟨rfl, rfl, rfl, rfl, by decide⟩

theorem test_witness_FaultRegisterIsWrittenOnce : ∃ (i : Instr) (s t : State), exec i s = .next t ∧
    (s.enc.phase = .fault ↔ s.enc.fault ≠ none) ∧ (s.dec.phase = .fault ↔ s.dec.fault ≠ none) ∧ s.enc.fault ≠ none :=
  ⟨.brEmpty, encAt .lru [0x63], _, rfl, by decide, by decide, by decide⟩

theorem test_witness_WidthAndNextCodeOnlyRise :
    (exec (.encByte 0x61) (encAt .lru []) = .next (encAt .lru [0x61]) ∧ (encAt .lru []).enc.phase ≠ .idle) ∧
    exec .decStep (decAt 1 [0x4F, 0x54, 0xF4] 3) = .next postReset ∧ (decAt 1 [0x4F, 0x54, 0xF4] 3).dec.phase ≠ .idle :=
  ⟨⟨rfl, by decide⟩, rfl, by decide⟩

theorem test_witness_OutputIsNeverTakenBack :
    (exec (.encByte 0x63) (encAt .lru []) = .next (encAt .lru [0x63]) ∧ (encAt .lru []).enc.phase ≠ .fault ∧
      (encAt .lru [0x63]).enc.phase = .fault) ∧
    exec .decStep (decAt 0 [0x58] 1) = .next (decAt 0 [0x58] 2) ∧ (decAt 0 [0x58] 1).dec.phase ≠ .fault ∧
    (decAt 0 [0x58] 2).dec.phase = .fault := ⟨⟨rfl, by decide, by decide⟩, rfl, by decide, by decide⟩

/-- One operation of each instance, and another machine that agrees with it on that instance and the result. -/
theorem test_witness_InstancesShareNoState :
    (exec (.encByte 0x61) (encAt .lru []) = .next (encAt .lru [0x61]) ∧ instrSide (.encByte 0x61) = .enc ∧
      ({ encAt .lru [] with dec := (fed [1]).dec } : State).enc = (encAt .lru []).enc ∧
      ({ encAt .lru [] with dec := (fed [1]).dec } : State).ret = (encAt .lru []).ret) ∧
    exec .brEmpty (fed [1]) = .next (after .brEmpty (fed [1])) ∧ instrSide .brEmpty = .dec ∧
      ({ fed [1] with enc := (encAt .lru []).enc } : State).dec = (fed [1]).dec ∧
      ({ fed [1] with enc := (encAt .lru []).enc } : State).ret = (fed [1]).ret := ⟨⟨rfl, rfl, rfl, rfl⟩, rfl, rfl, rfl, rfl⟩

theorem test_witness_FaultsAreTransitions : ∃ (i : Instr) (s t : State), exec i s = .next t ∧
    s.enc.fault ≠ some .ioFailure ∧ s.dec.fault ≠ some .ioFailure :=
  ⟨.encByte 0x63, encAt .lru [], _, rfl, by decide, by decide⟩

/-- A running encoder beside a running decoder. -/
def bothRun : State := { encAt .lru [0x61] with dec := (decAt 1 [0x4F, 0x54, 0xF4] 1).dec, port := [.opsel [0x91]] }

theorem hostInv_bothRun : bothRun.HostInv := ⟨hostInv_encRun, hostInv_run⟩

theorem test_witness_EveryStepKeepsTheInvariant : ∃ s t : State, s.Inv ∧ step s = .next t :=
  ⟨bothRun, _, ⟨hostInv_encRun.inv, hostInv_run.inv⟩, rfl⟩

theorem test_witness_HostMovesKeepTheRunInvariant : ∃ (i : Instr) (s t : State), s.HostInv ∧ hostIssued i = true ∧
    exec i s = .next t := ⟨.decStep, bothRun, _, hostInv_bothRun, rfl, rfl⟩

theorem hostInv_created (p : Policy) (minW maxW : Nat) : (created p minW maxW).enc.HostInv :=
  ⟨inv_created p minW maxW, fun _ => rfl, fun h => by rcases h with h | h <;> cases h⟩

theorem hostInv_fed (bs : Bytes) : (fed bs).dec.HostInv :=
  ⟨inv_fed bs, fun _ => rfl, fun h => by rcases h with h | h | h <;> cases h⟩

/-- Both instances created, the decoder on a legal header that ends with its last byte, one a byte short, and one of four
bytes; the encoder in `FIRST`; both running. -/
theorem test_witness_HostOperationsComplete :
    (∀ bs ∈ [[3, 3, 2, 0, 2, 0x0D, 0x0A], [3, 3, 2, 0, 2, 0x0D], [3, 3, 2, 0]], ∃ s : State, s.HostInv ∧
      s.enc.phase = .idle ∧ s.enc.cfg.written = true ∧ LegalCfg s.enc.cfg ∧ s.dec.phase = .idle ∧ s.dec.br.input = bs) ∧
    LegalCfg { minW := (3 : Byte).toNat, maxW := (3 : Byte).toNat, policy := .lru, alphabetSize := 2,
               alphabet := ([0x0D, 0x0A] : Bytes).take 2, written := true } ∧
    ¬ 2 ≤ ([0x0D] : Bytes).length ∧ ([3, 3, 2, 0] : Bytes).length < 5 ∧
    (∃ s : State, s.HostInv ∧ s.enc.phase = .first ∧ s.dec.phase = .first) ∧
    ∃ s : State, s.HostInv ∧ s.enc.phase = .run ∧ s.dec.phase = .run :=
  ⟨fun bs _ => ⟨{ created .lru 3 3 with dec := (fed bs).dec }, ⟨hostInv_created .lru 3 3, hostInv_fed bs⟩, rfl, rfl,
      legal (show legalCfg (created .lru 3 3).enc.cfg = true by decide), rfl, rfl⟩,
    legal (by decide), by decide, by decide,
    ⟨{ encAt .lru [] with dec := (decAt 1 [0x4F, 0x54, 0xF4] 0).dec }, ⟨hostInv_encFirst, hostInv_first⟩, by decide,
      by decide⟩,
    ⟨bothRun, hostInv_bothRun, by decide, by decide⟩⟩

theorem test_witness_EmittedCodesFitTheirWidth : ∃ s : State, s.enc.HostInv ∧
    s.enc.initialNextCode ≤ 2 ^ s.enc.cfg.minW ∧ s.enc.phase = .run ∧
    (s.enc.W < s.enc.cfg.maxW → s.enc.nextCode ≤ 2 ^ s.enc.W) ∧ (s.enc.current, 2) ∈ s.enc.cb ∧
    hostIssued (.encByteRun 0x62) = true ∧ exec (.encByteRun 0x62) s = .next (after (.encByteRun 0x62) s) :=
  ⟨encAt .lru [0x61], hostInv_encRun, by decide, by decide, by decide, by decide, rfl, rfl⟩

theorem test_witness_DecodeRunsEnd : ∃ s : State, s.dec.HostInv ∧ s.dec.phase = .run :=
  ⟨decAt 1 [0x4F, 0x54, 0xF4] 1, hostInv_run, by decide⟩

/-- Instances before, in and after a run; an operation the host issues and one it cannot. -/
theorem test_witness_HostMoves : (State.reset.enc.phase = .idle ∧ (encAt .lru []).enc.phase ≠ .idle ∧
      State.reset.dec.phase = .idle ∧ (decAt 0 [] 0).dec.phase ≠ .idle) ∧
    (hostIssued .decStep = true ∧ hostIssued .bwClose = false) ∧
    ((encAt .lru []).enc.phase ≠ .done ∧ (encAt .lru []).enc.phase ≠ .fault ∧ (encAt .lru [0x63]).enc.phase = .fault ∧
      (after .encEnd (encAt .lru [])).enc.phase = .done) ∧
    (decAt 0 [] 0).dec.phase ≠ .done ∧ (decAt 0 [] 0).dec.phase ≠ .fault ∧ (decAt 0 [0x58] 2).dec.phase = .fault ∧
    (decAt 0 [] 1).dec.phase = .done := by decide

/-- A row whose operands stand beside its select code, at a length of two digits, and a codeword row. -/
theorem test_witness_DecodeInvertsEncode : ((Instr.cbPut (List.replicate 200 0x61) (some 300)).wellFormed = true ∧
      (Instr.cbPut (List.replicate 200 0x61) (some 300)).codeword? = none) ∧
    (Instr.cwKwkwk 7).wellFormed = true ∧ (Instr.cwKwkwk 7).codeword? = some 7 ∧ 7 < 2 ^ viewRun.width ∧
    viewRun.classify 7 = some .kwkwk ∧ CwClass.instr .kwkwk 7 = .cwKwkwk 7 := by decide

theorem test_witness_EncodeInvertsDecode : decode viewRun (.opsel [0x40, 0x80, 1]) = .ok (.ctLookup 128) := rfl

theorem test_witness_WordsWrittenOutDecode : ∃ v : View, v.decPhase = .run ∧ v.width = 3 ∧ v.policy = .freeze ∧
    v.alphabetSize = 4 ∧ v.eofCode = 4 ∧ v.initialNextCode = 5 ∧ v.nextCode = 6 ∧ v.present 5 = true :=
  ⟨(decAt 0 [0x4E, 0xD8] 2).view, by decide⟩

theorem test_witness_StepPerformsTheDecodedInstruction : Instr.encStart.wellFormed = true ∧
    Instr.encStart.codeword? = none ∧
    ((created .lru 3 3).issue (encode (created .lru 3 3).view .encStart)).port = [.opsel [0x80]] ∧
    decode (created .lru 3 3).view (.opsel [0x80]) = .ok .encStart ∧
    decode (created .lru 3 3).view (.opsel [0x83]) = .error (.unassignedSelectCode 0x83) ∧ State.reset.port = [] :=
  ⟨by decide, by decide, by decide, rfl, rfl, rfl⟩

/-- `WidthSafe` at its boundary: `initialNextCode = 2^minW` with `A` of two bytes under `reset`. -/
theorem test_witness_RoundTrip : ∃ (alphabet x : Bytes) (s : State),
    s = State.reset.hostWritesCfg 2 255 .reset alphabet ∧ LegalCfg s.enc.cfg ∧ alphabet.length + 2 = 2 ^ 2 ∧ x ≠ [] ∧
    ∀ c ∈ x, c ∈ alphabet :=
  ⟨[0x0D, 0x0A], [0x0A, 0x0D], _, rfl, legal (by decide), by decide, by decide, by decide⟩

end Sys2Proof.Machine.Tests
end

section
/-! The two instances share no state (00_scope.md R3, 10_state.md R20). An operation of one instance commutes with putting
another instance in the other place and other words on the port: replacing before it comes to the same as replacing after
it, and where it is refused it is refused for the same reason. The checks and the outcomes that every meaning is built from
keep this, and so do the matches on an instance's own registers. -/

namespace Sys2Proof.Machine

/-- The machine with another decoder instance beside its encoder, and other words on the port. -/
def State.besideDec (d : Dec) (port : List PortWord) (s : State) : State := { s with dec := d, port := port }

/-- The machine with another encoder instance beside its decoder, and other words on the port. -/
def State.besideEnc (e : Enc) (port : List PortWord) (s : State) : State := { s with enc := e, port := port }

@[simp] theorem besideDec_enc (d : Dec) (port : List PortWord) (s : State) : (s.besideDec d port).enc = s.enc := rfl
@[simp] theorem besideEnc_dec (e : Enc) (port : List PortWord) (s : State) : (s.besideEnc e port).dec = s.dec := rfl

/-- A machine with the same encoder and result differs only in what `besideDec` replaces. -/
theorem besideDec_eq {s s' : State} (he : s'.enc = s.enc) (hr : s'.ret = s.ret) : s.besideDec s'.dec s'.port = s' := by
  rw [State.besideDec, ← he, ← hr]

/-- A machine with the same decoder and result differs only in what `besideEnc` replaces. -/
theorem besideEnc_eq {s s' : State} (hd : s'.dec = s.dec) (hr : s'.ret = s.ret) : s.besideEnc s'.enc s'.port = s' := by
  rw [State.besideEnc, ← hd, ← hr]

/-- An outcome with its next state changed by `f`. -/
def mapNext (f : State → State) : Host.Outcome State Fault Refusal → Host.Outcome State Fault Refusal
  | .next t => .next (f t)
  | .fault r => .fault r
  | .refused q => .refused q

/-- Changing the state by `f` before the operation `op` comes to the same as changing it after `op`. -/
def Commutes (f : State → State) (op : State → Host.Outcome State Fault Refusal) : Prop :=
  ∀ s, op (f s) = mapNext f (op s)

/-! ### What a meaning is built from -/

namespace Commutes

variable {f : State → State}

theorem apply_next {op : State → Host.Outcome State Fault Refusal} {s t : State} (hop : Commutes f op)
    (h : op s = .next t) : op (f s) = .next (f t) := by
  rw [hop s, h, mapNext]

theorem next {g : State → State} (hg : ∀ s, g (f s) = f (g s) := by exact fun _ => rfl) :
    Commutes f fun s => .next (g s) :=
  fun s => congrArg Host.Outcome.next (hg s)

/-- A check that reads nothing of what `f` changes, and then `k`. -/
theorem require {ok : State → Bool} {q : Refusal} {k : State → Host.Outcome State Fault Refusal}
    (hk : Commutes f k) (hok : ∀ s, ok (f s) = ok s := by exact fun _ => rfl) :
    Commutes f fun s => Machine.require (ok s) q (k s) := by
  intro s
  simp only [hok, hk s]
  cases ok s <;> rfl

variable {d : Dec} {e : Enc} {port : List PortWord}

theorem withEnc (r : Enc → Except Refusal Enc) : Commutes (State.besideDec d port) fun s => s.withEnc (r s.enc) := by
  intro s
  simp only [besideDec_enc]
  cases r s.enc <;> rfl

/-- `next` for an effect kept folded, so that no check unfolds the whole of `HDR.READ`. -/
theorem nextDec (g : Dec → Dec) : Commutes (State.besideEnc e port) fun s => .next { s with dec := g s.dec } := .next

theorem withDec (r : Dec → Except Refusal Dec) : Commutes (State.besideEnc e port) fun s => s.withDec (r s.dec) := by
  intro s
  simp only [besideEnc_dec]
  cases r s.dec <;> rfl

end Commutes

/-! ### Operations of an encoder instance -/

section Encoder

variable {d : Dec} {port : List PortWord}

theorem execCbGet_commutes (str : Bytes) : Commutes (State.besideDec d port) (execCbGet str) := by
  refine .require (.require fun s => ?_)
  rw [besideDec_enc]
  cases cbLookup str s.enc.cb <;> rfl

theorem execEncByte_commutes (c : Byte) : Commutes (State.besideDec d port) (execEncByte c) := by
  refine .require fun s => ?_
  simp only [besideDec_enc]
  cases s.enc.phase with
  | run => exact Commutes.withEnc (Enc.runByte c) s
  | idle | first | done | fault => rfl

theorem execEncEnd_commutes : Commutes (State.besideDec d port) execEncEnd := by
  refine .require fun s => ?_
  simp only [besideDec_enc]
  cases s.enc.phase with
  | first => exact Commutes.withEnc Enc.endEmpty s
  | run => exact Commutes.withEnc Enc.endRun s
  | idle | done | fault => rfl

/-- An instruction of the encoder instance neither reads nor writes the decoder instance or the port. -/
theorem exec_commutes_besideDec {i : Instr} (hi : instrSide i = .enc) : Commutes (State.besideDec d port) (exec i) := by
  cases i with
  | bwWrite value width | bwClose | cbContains str | cbPut str v | cbRemove str | cbInit =>
    exact .require (.require .next)
  | cbGet str => exact execCbGet_commutes str
  | lruUse key | lruRemove key | lfuUse key | lfuRemove key =>
    cases key with
    | str k => exact .require (.require .next)
    | code x => cases hi
  | lruFind side | lfuFind side => cases hi; exact .require (.require .next)
  | hdrWrite => exact .require (.require (.require (.require .next)))
  | encStart => exact .require (.require (.require (.require (.require (.require .next)))))
  | encByte c => exact execEncByte_commutes c
  | encEnd => exact execEncEnd_commutes
  | encByteRun c | encEndRun => exact .require (.require (.withEnc _))
  | fieldMinW dir | fieldMaxW dir | fieldPolicy dir | fieldAlphabetSize dir =>
    cases dir with
    | put => exact .require (.require (.require (.require .next)))
    | get => cases hi
  | fieldAlphabet dir n =>
    cases dir with
    | put => exact .require (.require (.require (.require (.require .next))))
    | get => cases hi
  | _ => cases hi

/-- What an instruction of the encoder instance does to it and answers, it does beside every decoder instance and on every
port. -/
theorem exec_next_of_same_enc {i : Instr} {s s' t : State} (hi : instrSide i = .enc) (h : exec i s = .next t)
    (he : s'.enc = s.enc) (hr : s'.ret = s.ret) : exec i s' = .next (t.besideDec s'.dec s'.port) := by
  have ht := (exec_commutes_besideDec (d := s'.dec) (port := s'.port) hi).apply_next h
  rwa [besideDec_eq he hr] at ht

end Encoder

/-! ### Operations of a decoder instance -/

section Decoder

variable {e : Enc} {port : List PortWord}

theorem onSlot_commutes {x : Nat} {k : State → Host.Outcome State Fault Refusal}
    (hk : Commutes (State.besideEnc e port) k) : Commutes (State.besideEnc e port) fun s => onSlot x s (k s) :=
  .require (.require (.require hk))

/-- The class of a codeword is read off the decoder's phase, registers and table (R97). -/
theorem onCodeword_commutes (c : CwClass) (x : Nat) (effect : Dec → Except Refusal Dec) :
    Commutes (State.besideEnc e port) fun s => onCodeword c x s effect :=
  .require (.require (.withDec effect))

theorem execBrRead_commutes (width : Nat) : Commutes (State.besideEnc e port) (execBrRead width) := by
  refine .require fun s => ?_
  simp only [besideEnc_dec]
  cases s.dec.br.read width <;> rfl

/-- An instruction of the decoder instance neither reads nor writes the encoder instance or the port. -/
theorem exec_commutes_besideEnc {i : Instr} (hi : instrSide i = .dec) : Commutes (State.besideEnc e port) (exec i) := by
  cases i with
  | brRead width => exact execBrRead_commutes width
  | brEmpty => exact .require .next
  | ctLookup x | ctClear x => exact onSlot_commutes .next
  | ctInsert x str => exact onSlot_commutes (.require .next)
  | ctInit => exact .require (.require .next)
  | lruUse key | lruRemove key | lfuUse key | lfuRemove key =>
    cases key with
    | str k => cases hi
    | code x => exact .require (.require .next)
  | lruFind side | lfuFind side => cases hi; exact .require (.require .next)
  | hdrRead => exact .require (.require (.require (.nextDec Dec.hdrRead)))
  | decStart => exact .require (.require (.require (.withDec _)))
  | decStep => exact .require (.withDec _)
  | policyFreeze | policyReset | policyLru | policyLfu | policyUnknown b =>
    exact .require (.require .next)
  | fieldMinW dir | fieldMaxW dir | fieldPolicy dir | fieldAlphabetSize dir =>
    cases dir with
    | put => cases hi
    | get => exact .require (.require (.require (.nextDec _)))
  | fieldAlphabet dir n =>
    cases dir with
    | put => cases hi
    | get => exact .require (.require (.require (.require (.nextDec _))))
  | cwEofFirst x => exact onCodeword_commutes .eofFirst x fun d => .ok d.stop
  | cwAlphaFirst x => exact onCodeword_commutes .alphaFirst x fun d => .ok (d.restart (d.alphabetString x))
  | cwIllegalFirst x => exact onCodeword_commutes .illegalFirst x fun d => .ok (d.raise (.badFirstCode x))
  | cwEofPostReset x => exact onCodeword_commutes .eofPostReset x fun d => .ok d.stop
  | cwAlphaPostReset x => exact onCodeword_commutes .alphaPostReset x fun d => .ok (d.restart (d.alphabetString x))
  | cwIllegalPostReset x => exact onCodeword_commutes .illegalPostReset x fun d => .ok (d.raise (.badFirstCode x))
  | cwEof x => exact onCodeword_commutes .eof x fun d => .ok d.stop
  | cwReset x => exact onCodeword_commutes .reset x fun d => .ok d.flush
  | cwAlpha x => exact onCodeword_commutes .alpha x fun d => d.accept x (d.alphabetString x)
  | cwDict x => exact onCodeword_commutes .dict x fun d => d.accept x ((ctLookup x d.ct).getD [])
  | cwKwkwk x => exact onCodeword_commutes .kwkwk x fun d => d.accept x d.kwkwk
  | cwIllegal x => exact onCodeword_commutes .illegal x fun d => .ok (d.raise (.badCode x))
  | _ => cases hi

/-- What an instruction of the decoder instance does to it and answers, it does beside every encoder instance and on every
port. -/
theorem exec_next_of_same_dec {i : Instr} {s s' t : State} (hi : instrSide i = .dec) (h : exec i s = .next t)
    (hd : s'.dec = s.dec) (hr : s'.ret = s.ret) : exec i s' = .next (t.besideEnc s'.enc s'.port) := by
  have ht := (exec_commutes_besideEnc (e := s'.enc) (port := s'.port) hi).apply_next h
  rwa [besideEnc_eq hd hr] at ht

end Decoder

/-- Settles O46: the frame is that of `exec_moves`; that nothing else is read follows from commuting with the replacement of
the other instance and the port. -/
theorem instancesShareNoState : Obligations.InstancesShareNoState := by
  intro i s t h
  rcases exec_moves h with ⟨hi, -, hdec, hport⟩ | ⟨hi, -, henc, hport⟩
  · exact ⟨hport, fun _ => ⟨hdec, fun s' he hr => ⟨_, exec_next_of_same_enc hi h he hr, rfl, rfl⟩⟩,
      fun hi' => (nomatch hi.symm.trans hi')⟩
  · exact ⟨hport, fun hi' => (nomatch hi.symm.trans hi'),
      fun _ => ⟨henc, fun s' hd hr => ⟨_, exec_next_of_same_dec hi h hd hr, rfl, rfl⟩⟩⟩

end Sys2Proof.Machine
end

section
/-! The machine's invariant is kept by every step (10_state.md R25 to R27, R31, R33 to R36, R38, R39, R57; 20_memory.md R76):
each move of an instance keeps the instance's invariant, and an instruction is one move of one instance. -/

namespace Sys2Proof.Machine

/-! ### An encoder instance -/

namespace Enc.Inv

variable {e e' : Enc}

/-- Another writer with fewer than eight bits buffered, none of them once it is closed, and closed if the old one was. -/
theorem withBw (h : e.Inv) {b : Bw} (hb : b.pend.length < 8) (hp : b.closed = true → b.pend = [])
    (hc : e.bw.closed = true → b.closed = true) : ({ e with bw := b } : Enc).Inv :=
  { h with
    pend_lt := hb
    closed_pend := hp
    started := fun hi => { h.started hi with }
    done_closed := fun hd => hc (h.done_closed hd) }

/-- Another dictionary in canonical form with no empty string in it. -/
theorem withCb (h : e.Inv) {cb : List (Bytes × Nat)} (hw : mapWf bytesLt cb) (hk : ∀ x ∈ cb, x.1 ≠ []) :
    ({ e with cb := cb } : Enc).Inv :=
  { h with
    cb_wf := hw
    cb_keys := hk
    started := fun hi => { h.started hi with } }

/-- Another tracker that is well formed and allocated as the policy says. -/
theorem withTrk (h : e.Inv) {t : Trk Bytes} (hw : t.Wf bytesLt)
    (ha : e.trk.Allocated e.cfg.policy → t.Allocated e.cfg.policy) : ({ e with trk := t } : Enc).Inv :=
  { h with
    trk_wf := hw
    started := fun hi => { h.started hi with allocated := ha (h.started hi).allocated } }

theorem firstByte (h : e.Inv) (hp : e.phase = .first) (c : Byte) : (e.firstByte c).Inv := by
  have hi : e.phase ≠ .idle := by simp [hp]
  have hf : e.fault = none := by simpa [hp] using h.fault_iff
  rcases e.firstByte_cases c with ⟨-, he⟩ | ⟨-, he⟩ <;> rw [he]
  · exact
      { h with
        fault_iff := ⟨nofun, fun hn => absurd hf hn⟩
        started := fun _ => { h.started hi with }
        running := fun _ => nofun
        done_closed := nofun }
  · exact h.raise hi _

theorem runByte (h : e.Inv) (hp : e.phase = .run) {c : Byte} (hr : e.runByte c = .ok e') : e'.Inv := by
  have hi : e.phase ≠ .idle := by simp [hp]
  rcases Enc.runByte_cases hr with ⟨-, rfl⟩ | ⟨-, -, rfl⟩ | ⟨code, -, -, -, hc, rfl⟩
  · exact h.raise hi _
  · exact h.current (by simp)
  · exact h.miss hi hc code (by simp) c

theorem endEmpty (h : e.Inv) (hp : e.phase = .first) (hr : e.endEmpty = .ok e') : e'.Inv := by
  obtain ⟨-, rfl⟩ := Enc.endEmpty_ok hr
  exact h.finish (by simp [hp]) (by simp [hp])

theorem endRun (h : e.Inv) (hp : e.phase = .run) (hr : e.endRun = .ok e') : e'.Inv := by
  obtain ⟨code, -, hc, rfl⟩ := Enc.endRun_ok hr
  have hw := ((h.emit hc code).useCurrent).widthCheck
  exact (hw.emit (by simpa using hc) _).finish (by simp [hp]) (by simp [hp])

/-- Every move of an encoder instance keeps its invariant. -/
theorem move (h : e.Inv) (hm : e.Move e') : e'.Inv := by
  cases hm with
  | stay => exact h
  | write value width hc =>
    exact h.withBw (Bw.pend_write _ _ _) (fun hc' => by simp [hc] at hc') (fun hc' => by simpa using hc')
  | close hc => exact h.withBw (by simp) (by simp) (by simp)
  | header hw hc hb =>
    exact h.withBw (b := e.hdrWrite.bw) e.hdrWrite_pend (fun hc' => by simp [hc] at hc') (fun hc' => by simpa using hc')
  | store str v hs => exact h.withCb (cbStore_wf str v h.cb_wf) (cbStore_keys (P := (· ≠ [])) hs h.cb_keys)
  | cbInit hw =>
    exact h.withCb (cbInitial_wf _) fun x hx => List.ne_nil_of_length_eq_add_one (cbInitial_keys _ x hx)
  | trackerUse p k hp =>
    obtain ⟨-, rfl⟩ := hasTracker_iff.1 hp
    exact h.withTrk (Trk.use_wf bytesLt_order _ _ h.trk_wf) (Trk.use_allocated _ _ _)
  | trackerRemove p k hp =>
    obtain ⟨-, rfl⟩ := hasTracker_iff.1 hp
    exact h.withTrk (Trk.remove_wf _ _ h.trk_wf) (Trk.remove_allocated _ _)
  | start hp hw hl hc hb => exact h.start hp hw hl hc
  | firstByte c hp => exact h.firstByte hp c
  | runByte c _ hp hr => exact h.runByte hp hr
  | endEmpty _ hp hr => exact h.endEmpty hp hr
  | endRun _ hp hr => exact h.endRun hp hr

end Enc.Inv

/-! ### A decoder instance -/

namespace Dec.Inv

variable {d d' : Dec}

/-- Another table in canonical form, with no empty string in it and with slots below `M` only. -/
theorem withCt (h : d.Inv) {ct : List (Nat × Bytes)} (hw : mapWf natLt ct) (hs : ∀ x ∈ ct, x.2 ≠ [])
    (hx : d.Started → ∀ x ∈ ct, x.1 < d.M) : ({ d with ct := ct } : Dec).Inv :=
  { h with
    ct_wf := hw
    ct_strings := hs
    started := fun hp => { h.started hp with ct_slots := hx (h.started hp) } }

/-- Another tracker that is well formed and allocated as the policy says. -/
theorem withTrk (h : d.Inv) {t : Trk Nat} (hw : t.Wf natLt)
    (ha : d.trk.Allocated d.cfg.policy → t.Allocated d.cfg.policy) : ({ d with trk := t } : Dec).Inv :=
  { h with
    trk_wf := hw
    started := fun hp => { h.started hp with allocated := ha (h.started hp).allocated } }

theorem firstCode (h : d.Inv) (hp : d.phase = .first ∨ d.phase = .postReset) {x : Nat}
    (hr : d.firstCode x = .ok d') : d'.Inv := by
  rcases Dec.firstCode_ok hr with ⟨-, rfl⟩ | ⟨-, hx, rfl⟩ | ⟨-, -, rfl⟩
  · exact h.stop (by tauto)
  · exact h.restart hp (h.alphabetCode_ne_nil (decStarted_of_ne (by tauto)) hx)
  · exact h.raise _

theorem runCode (h : d.Inv) (hp : d.phase = .run) {x : Nat} (hr : d.runCode x = .ok d') : d'.Inv := by
  rcases Dec.runCode_ok hr with ⟨-, rfl⟩ | ⟨-, hpol, -, rfl⟩ | ⟨-, -, -, rfl⟩ | ⟨-, -, str, hs, ha⟩
  · exact h.stop (.inr (.inl hp))
  · exact h.flush hp hpol
  · exact h.raise _
  · exact h.accept hp (h.stringOf_ne_nil hp hs) ha

theorem step (h : d.Inv) (hr : d.step = .ok d') : d'.Inv := by
  rcases Dec.step_ok hr with ⟨hp, -, rfl⟩ | ⟨-, -, rfl⟩ | ⟨hp, hb, hr⟩ | ⟨-, -, rfl⟩ | ⟨hp, hb, hr⟩
  · exact h.stop (.inl hp)
  · exact h.raise _
  · exact (h.advance hb).firstCode hp hr
  · exact h.widthCheck.raise _
  · exact (h.widthCheck.advance (by simpa using hb)).runCode (by simpa [Dec.advance] using hp) hr

theorem startFromHeader (h : d.Inv) (hp : d.phase = .idle) (hr : d.startFromHeader = .ok d') : d'.Inv := by
  have hread : d.hdrRead.Inv := h.headerRead hp (d.hdrRead_headerRead (by simp [hp]))
  rcases Dec.startFromHeader_ok hr with ⟨-, he⟩ | ⟨hf, hl, he⟩ <;> rw [he]
  · exact hread
  · exact hread.start hf (Dec.hdrRead_written hf) hl

/-- The string of an alphabet code is its byte in a started decoder. -/
theorem alphabetString_ne_nil (h : d.Inv) (hp : decStarted d.phase = true) {x : Nat} (hx : x < d.cfg.alphabetSize) :
    d.alphabetString x ≠ [] := by
  rw [(legalCfg_iff.1 (h.started hp).legal).2.2.1] at hx
  rw [Dec.alphabetString_eq (List.getElem?_eq_getElem hx)]
  nofun

/-- A string that a codeword row accepts is not empty: the byte of an alphabet code, a slot's string, or one that begins
with `prev` (R97). -/
theorem acceptedString_ne_nil (h : d.Inv) (hp : d.phase = .run) {x : Nat} {str : Bytes}
    (hs : x < d.cfg.alphabetSize ∧ str = d.alphabetString x ∨
      (d.initialNextCode ≤ x ∧ x < d.nextCode) ∧ ctLookup x d.ct = some str ∨ x = d.nextCode ∧ str = d.kwkwk) :
    str ≠ [] := by
  rcases hs with ⟨hx, rfl⟩ | ⟨-, hs⟩ | ⟨-, rfl⟩
  · exact h.alphabetString_ne_nil (decStarted_of_ne (.inr (.inl hp))) hx
  · exact h.ct_strings (x, str) (mapGet_mem hs)
  · exact Dec.kwkwk_ne_nil (h.running hp)

/-- Every move of a decoder instance keeps its invariant. -/
theorem move (h : d.Inv) (hm : d.Move d') : d'.Inv := by
  cases hm with
  | stay => exact h
  | truncated width hp hb => exact h.raise _
  | advance width hb => exact h.advance hb
  | insert x str hs hx =>
    refine h.withCt (ctStore_wf x str h.ct_wf) (fun y hy => ?_) fun hst y hy => ?_ <;> rcases mem_mapPut hy with rfl | hy
    · exact hs
    · exact h.ct_strings y hy
    · exact lt_of_lt_of_eq hx hst.M_eq.symm
    · exact hst.ct_slots y hy
  | clear x hx =>
    exact h.withCt (ctErase_wf x h.ct_wf) (fun y hy => h.ct_strings y (mem_mapErase hy)) fun hst y hy =>
      hst.ct_slots y (mem_mapErase hy)
  | ctInit hw =>
    exact h.withCt (ctInitial_wf _ _) (fun y hy => List.ne_nil_of_length_eq_add_one (mem_ctAlphabet hy).2.2)
      fun hst y hy => lt_of_lt_of_eq (mem_ctAlphabet hy).2.1 hst.M_eq.symm
  | trackerUse p x hp =>
    obtain ⟨-, rfl⟩ := hasTracker_iff.1 hp
    exact h.withTrk (Trk.use_wf natLt_order _ _ h.trk_wf) (Trk.use_allocated _ _ _)
  | trackerRemove p x hp =>
    obtain ⟨-, rfl⟩ := hasTracker_iff.1 hp
    exact h.withTrk (Trk.remove_wf _ _ h.trk_wf) (Trk.remove_allocated _ _)
  | header hp hb => exact h.headerRead hp (d.hdrRead_headerRead (by simp [hp]))
  | getMinW hp => exact h.headerRead hp d.getMinW_headerRead
  | getMaxW hp => exact h.headerRead hp d.getMaxW_headerRead
  | getPolicy hp => exact h.headerRead hp d.getPolicy_headerRead
  | getAlphabetSize hp => exact h.headerRead hp d.getAlphabetSize_headerRead
  | getAlphabet i hp hi => exact h.headerRead hp (d.getAlphabet_headerRead i)
  | policy p hp => exact h.setPolicy hp p
  | start _ hp hb hr => exact h.startFromHeader hp hr
  | step _ hp hr => exact h.step hr
  | cwStop hp => exact h.stop hp
  | cwRestart x hp hx ha => exact h.restart hp (h.alphabetString_ne_nil (decStarted_of_ne (by tauto)) ha)
  | cwRaise c hc hp => exact h.raise c
  | cwFlush hp hr => exact h.flush hp hr
  | cwAccept x str _ hp hx hs ha => exact h.accept hp (h.acceptedString_ne_nil hp hs) ha

end Dec.Inv

/-! ### The machine -/

variable {i : Instr} {s t : State}

/-- An instruction is a move of the encoder instance, one of the decoder instance being `Enc.Move.stay`. -/
theorem exec_encMove (h : exec i s = .next t) : s.enc.Move t.enc := by
  rcases exec_moves h with ⟨-, hm, -⟩ | ⟨-, -, he, -⟩
  · exact hm
  · rw [he]; exact .stay

/-- An instruction is a move of the decoder instance, one of the encoder instance being `Dec.Move.stay`. -/
theorem exec_decMove (h : exec i s = .next t) : s.dec.Move t.dec := by
  rcases exec_moves h with ⟨-, -, hd, -⟩ | ⟨-, hm, -⟩
  · rw [hd]; exact .stay
  · exact hm

/-- Every instruction keeps the machine's invariant. -/
theorem exec_inv (h : s.Inv) (hx : exec i s = .next t) : t.Inv :=
  ⟨h.enc.move (exec_encMove hx), h.dec.move (exec_decMove hx)⟩

/-- What a step can do: nothing with nothing issued, else the instruction of the first word (R308, R74). -/
theorem step_next (h : step s = .next t) :
    s.port = [] ∧ t = s ∨
      ∃ w rest i, s.port = w :: rest ∧ decode s.view w = .ok i ∧ exec i { s with port := rest } = .next t := by
  unfold step at h
  split at h
  · next hp => cases h; exact .inl ⟨hp, rfl⟩
  · next w rest hp =>
    split at h
    · cases h
    · next i hd => exact .inr ⟨w, rest, i, hp, hd, h⟩

/-- Settles O49: a step is an instruction or nothing, and `exec_inv` splits an instruction into a move of
each instance. -/
theorem everyStepKeepsTheInvariant : Obligations.EveryStepKeepsTheInvariant := by
  intro s t h hs
  rcases step_next hs with ⟨-, rfl⟩ | ⟨w, rest, i, -, -, hx⟩
  · exact h
  · exact exec_inv (s := { s with port := rest }) ⟨h.enc, h.dec⟩ hx

end Sys2Proof.Machine
end

section
/-! The moves of the host (70_reset_and_hazards.md R342): what each of its five operations can do, said once, and that every
move of the host keeps the invariant of a run that only the host drives (10_state.md R36, R40, R56, R57; R182, R230). -/

namespace Sys2Proof.Machine

/-! ### What the host's operations can do -/

section Operations

variable {c : Byte} {s t : State}

/-- R211, R212. -/
theorem encStart_next (h : exec .encStart s = .next t) :
    s.enc.phase = .idle ∧ s.enc.cfg.written = true ∧ legalCfg s.enc.cfg = true ∧ s.enc.bw.closed = false ∧
      t = { s with enc := s.enc.start } := by
  simp only [exec, execEncStart, onEnc_next, require_next, Host.Outcome.next.injEq, Bool.not_eq_true',
    decide_eq_true_eq] at h
  obtain ⟨-, hp, hw, hl, hc, -, rfl⟩ := h
  exact ⟨hp, hw, hl, hc, rfl⟩

/-- R213, R215: the phase selects the rule. -/
theorem encByte_next (h : exec (.encByte c) s = .next t) :
    s.enc.phase = .first ∧ t = { s with enc := s.enc.firstByte c } ∨
      s.enc.phase = .run ∧ ∃ e, s.enc.runByte c = .ok e ∧ t = { s with enc := e } := by
  simp only [exec, execEncByte, onEnc_next] at h
  obtain ⟨-, h⟩ := h
  split at h
  · next hp => cases h; exact .inl ⟨hp, rfl⟩
  · next hp => exact .inr ⟨hp, withEnc_next.1 h⟩
  · cases h
  · cases h
  · cases h

/-- R215. -/
theorem encByteRun_next (h : exec (.encByteRun c) s = .next t) :
    s.enc.phase = .run ∧ ∃ e, s.enc.runByte c = .ok e ∧ t = { s with enc := e } := by
  simp only [exec, execEncByteRun, onEnc_next, require_next, withEnc_next, decide_eq_true_eq] at h
  exact h.2

/-- R214, R228: the phase selects the rule. -/
theorem encEnd_next (h : exec .encEnd s = .next t) :
    s.enc.phase = .first ∧ (∃ e, s.enc.endEmpty = .ok e ∧ t = { s with enc := e }) ∨
      s.enc.phase = .run ∧ ∃ e, s.enc.endRun = .ok e ∧ t = { s with enc := e } := by
  simp only [exec, execEncEnd, onEnc_next] at h
  obtain ⟨-, h⟩ := h
  split at h
  · next hp => exact .inl ⟨hp, withEnc_next.1 h⟩
  · next hp => exact .inr ⟨hp, withEnc_next.1 h⟩
  · cases h
  · cases h
  · cases h

/-- R228. -/
theorem encEndRun_next (h : exec .encEndRun s = .next t) :
    s.enc.phase = .run ∧ ∃ e, s.enc.endRun = .ok e ∧ t = { s with enc := e } := by
  simp only [exec, execEncEndRun, onEnc_next, require_next, withEnc_next, decide_eq_true_eq] at h
  exact h.2

/-- R251, R252. -/
theorem decStart_next (h : exec .decStart s = .next t) :
    s.dec.phase = .idle ∧ ∃ d, s.dec.startFromHeader = .ok d ∧ t = { s with dec := d } := by
  simp only [exec, execDecStart, onDec_next, require_next, withDec_next, decide_eq_true_eq] at h
  obtain ⟨-, hp, -, h⟩ := h
  exact ⟨hp, h⟩

/-- R253. -/
theorem decStep_next (h : exec .decStep s = .next t) : ∃ d, s.dec.step = .ok d ∧ t = { s with dec := d } := by
  simp only [exec, execDecStep, onDec_next, withDec_next] at h
  exact h.2

end Operations

/-! ### An encoder instance that only the host drives -/

@[simp] theorem Enc.miss_phase (code : Nat) (next : Bytes) (c : Byte) (e : Enc) :
    (e.miss code next c).phase = e.phase := by
  unfold Enc.miss
  dsimp only
  split
  · simp [Enc.grow]
  · unfold Enc.tableFull
    split
    · simp [Enc.resetTable]
    · simp

theorem Enc.created_inv : Enc.created.Inv where
  threshold := rfl
  fault_iff := by decide
  pend_lt := by decide
  closed_pend := nofun
  cb_wf := .nil
  cb_keys := nofun
  trk_wf := Trk.empty_wf _
  started h := absurd rfl h
  running := nofun
  done_closed := nofun

/-- R42. -/
theorem Enc.created_hostInv : Enc.created.HostInv where
  inv := Enc.created_inv
  created _ := rfl
  coherent := by simp [Enc.created]

namespace Enc.HostInv

variable {e e' : Enc}

/-- Once the run has ended only the invariant of every operation is asked. -/
theorem ended (h : e.Inv) (hp : encEnded e.phase = true) : e.HostInv where
  inv := h
  created hi := by simp [hi, encEnded] at hp
  coherent hr := by rcases hr with hr | hr <;> simp [hr, encEnded] at hp

/-- In a run the stores are asked to be coherent. -/
theorem running (h : e.Inv) (hi : e.phase ≠ .idle) (hc : e.Coherent) : e.HostInv where
  inv := h
  created hi' := absurd hi' hi
  coherent _ := hc

/-- Before the start `CFG` is free: R342. -/
theorem withCfg (h : e.HostInv) (hp : e.phase = .idle) (cfg : Cfg) : ({ e with cfg := cfg } : Enc).HostInv where
  inv := { h.inv with started := fun hi => absurd hp hi }
  created := h.created
  coherent hr := by rcases hr with hr | hr <;> exact nomatch hp.symm.trans hr

theorem start (h : e.HostInv) (hp : e.phase = .idle) (hw : e.cfg.written = true) (hl : legalCfg e.cfg = true)
    (hc : e.bw.closed = false) : e.start.HostInv :=
  running (h.inv.start hp hw hl hc) nofun (.start (legalCfg_iff.1 hl).2.1 hc)

theorem firstByte (h : e.HostInv) (hp : e.phase = .first) (c : Byte) : (e.firstByte c).HostInv := by
  have hi := h.inv.firstByte hp c
  rcases e.firstByte_cases c with ⟨hc, he⟩ | ⟨-, he⟩ <;> rw [he] at hi ⊢
  · exact running hi nofun ((h.coherent (.inl hp)).single hc _)
  · exact ended hi rfl

theorem runByte (h : e.HostInv) (hp : e.phase = .run) {c : Byte} (hr : e.runByte c = .ok e') : e'.HostInv := by
  have hi := h.inv.runByte hp hr
  have hcoh := h.coherent (.inr hp)
  rcases Enc.runByte_cases hr with ⟨-, rfl⟩ | ⟨-, hx, rfl⟩ | ⟨code, hc, hn, -, -, rfl⟩
  · exact ended hi rfl
  · exact running hi (by simp [hp]) (hcoh.hit hx)
  · have hlen : 2 ≤ (e.current ++ [c]).length := by
      have := List.length_pos_iff.2 (h.inv.running hp)
      simp; omega
    exact running hi (by simp [hp]) (hcoh.miss h.inv hp code hn hlen hc)

theorem endEmpty (h : e.HostInv) (hp : e.phase = .first) (hr : e.endEmpty = .ok e') : e'.HostInv :=
  ended (h.inv.endEmpty hp hr) (by rw [(Enc.endEmpty_ok hr).2]; rfl)

theorem endRun (h : e.HostInv) (hp : e.phase = .run) (hr : e.endRun = .ok e') : e'.HostInv := by
  obtain ⟨code, -, -, he⟩ := Enc.endRun_ok hr
  exact ended (h.inv.endRun hp hr) (by rw [he]; rfl)

end Enc.HostInv

/-! ### A decoder instance that only the host drives -/

theorem Dec.created_inv : Dec.created.Inv where
  threshold := rfl
  fault_iff := by decide
  pos_le := by decide
  ct_wf := .nil
  ct_strings := nofun
  trk_wf := Trk.empty_wf _
  started := nofun
  running := nofun

/-- R42. -/
theorem Dec.created_hostInv : Dec.created.HostInv where
  inv := Dec.created_inv
  created _ := rfl
  coherent := by simp [Dec.created]

namespace Dec.HostInv

variable {d d' : Dec}

/-- Once the run has ended only the invariant of every operation is asked. -/
theorem ended (h : d.Inv) (hp : decEnded d.phase = true) : d.HostInv where
  inv := h
  created hi := by simp [hi, decEnded] at hp
  coherent hr := by rcases hr with hr | hr | hr <;> simp [hr, decEnded] at hp

/-- In a run the stores are asked to be coherent. -/
theorem running (h : d.Inv) (hi : d.phase ≠ .idle) (hc : d.Coherent) : d.HostInv where
  inv := h
  created hi' := absurd hi' hi
  coherent _ := hc

/-- Before the start the input is free, the cursor at 0: R342. -/
theorem withInput (h : d.HostInv) (hp : d.phase = .idle) (input : Bytes) :
    ({ d with br := { input := input, pos := 0 } } : Dec).HostInv where
  inv := { h.inv with
    pos_le := Nat.zero_le _
    started := fun hs => { h.inv.started hs with } }
  created _ := rfl
  coherent hr := by rcases hr with hr | hr | hr <;> exact nomatch hp.symm.trans hr

theorem startFromHeader (h : d.HostInv) (hp : d.phase = .idle) (hr : d.startFromHeader = .ok d') : d'.HostInv := by
  have hi := h.inv.startFromHeader hp hr
  rcases Dec.startFromHeader_ok hr with ⟨hf, he⟩ | ⟨-, hl, he⟩ <;> rw [he] at hi ⊢
  · exact ended hi (by simp [hf, decEnded])
  · exact running hi nofun (.start hl)

theorem firstCode (hi : d.Inv) (hc : d.Coherent) (hp : d.phase = .first ∨ d.phase = .postReset) {x : Nat}
    (hr : d.firstCode x = .ok d') : d'.HostInv := by
  have hi' := hi.firstCode hp hr
  rcases Dec.firstCode_ok hr with ⟨-, rfl⟩ | ⟨-, -, rfl⟩ | ⟨-, -, rfl⟩
  · exact ended hi' rfl
  · exact running hi' nofun (hc.congr rfl rfl rfl rfl rfl rfl)
  · exact ended hi' rfl

/-- A codeword of `W` bits in `RUN`. -/
theorem runCode (hi : d.Inv) (hc : d.Coherent) (hp : d.phase = .run) {x : Nat} (hx : x < 2 ^ d.W)
    (hr : d.runCode x = .ok d') : d'.HostInv := by
  have hi' := hi.runCode hp hr
  rcases Dec.runCode_ok hr with ⟨-, rfl⟩ | ⟨-, hpol, -, rfl⟩ | ⟨-, -, -, rfl⟩ | ⟨-, -, str, hs, ha⟩
  · exact ended hi' rfl
  · exact running hi' nofun (.flush hi hp hpol)
  · exact ended hi' rfl
  · have hle : x ≤ d.nextCode := by rcases Dec.stringOf_some.1 hs with ⟨hlt, -⟩ | ⟨he, -⟩ <;> omega
    refine running hi' ?_ (hc.accept hi (hi.started (decStarted_of_ne (.inr (.inl hp)))) hx hle ha)
    obtain ⟨ct, trk, n, -, -, rfl⟩ := Dec.accept_eq ha
    simp [hp]

theorem step (h : d.HostInv) (hr : d.step = .ok d') : d'.HostInv := by
  rcases Dec.step_ok hr with ⟨hp, -, rfl⟩ | ⟨-, -, rfl⟩ | ⟨hp, hb, hr'⟩ | ⟨-, -, rfl⟩ | ⟨hp, hb, hr'⟩
  · exact ended (h.inv.step hr) rfl
  · exact ended (h.inv.step hr) rfl
  · exact firstCode (h.inv.advance hb) ((h.coherent (by tauto)).congr rfl rfl rfl rfl rfl rfl) hp hr'
  · exact ended (h.inv.step hr) rfl
  · have hc := (h.coherent (.inr (.inl hp))).widthCheck
    exact runCode (h.inv.widthCheck.advance (by simpa using hb)) (hc.congr rfl rfl rfl rfl rfl rfl)
      (by simpa [Dec.advance] using hp) (Dec.nextBits_lt _ d) hr'

end Dec.HostInv

/-! ### The machine -/

variable {i : Instr} {s t : State}

/-- Each of the host's five operations, in either row (R111), keeps the invariant of a run. -/
theorem hostOperation_hostInv (h : s.HostInv) (hi : hostIssued i = true) (hx : exec i s = .next t) : t.HostInv := by
  cases i with
  | encStart =>
    obtain ⟨hp, hw, hl, hc, rfl⟩ := encStart_next hx
    exact ⟨h.enc.start hp hw hl hc, h.dec⟩
  | encByte c =>
    rcases encByte_next hx with ⟨hp, rfl⟩ | ⟨hp, e, he, rfl⟩
    · exact ⟨h.enc.firstByte hp c, h.dec⟩
    · exact ⟨h.enc.runByte hp he, h.dec⟩
  | encByteRun c =>
    obtain ⟨hp, e, he, rfl⟩ := encByteRun_next hx
    exact ⟨h.enc.runByte hp he, h.dec⟩
  | encEnd =>
    rcases encEnd_next hx with ⟨hp, e, he, rfl⟩ | ⟨hp, e, he, rfl⟩
    · exact ⟨h.enc.endEmpty hp he, h.dec⟩
    · exact ⟨h.enc.endRun hp he, h.dec⟩
  | encEndRun =>
    obtain ⟨hp, e, he, rfl⟩ := encEndRun_next hx
    exact ⟨h.enc.endRun hp he, h.dec⟩
  | decStart =>
    obtain ⟨hp, d, hd, rfl⟩ := decStart_next hx
    exact ⟨h.enc, h.dec.startFromHeader hp hd⟩
  | decStep =>
    obtain ⟨d, hd, rfl⟩ := decStep_next hx
    exact ⟨h.enc, h.dec.step hd⟩
  | _ => cases hi

theorem hostWritesCfg_hostInv (h : s.HostInv) (minW maxW : Nat) (policy : Policy) (alphabet : Bytes) :
    (s.hostWritesCfg minW maxW policy alphabet).HostInv := by
  unfold State.hostWritesCfg
  split
  · next hp => exact ⟨h.enc.withCfg hp _, h.dec⟩
  · exact h

theorem hostSuppliesInput_hostInv (h : s.HostInv) (input : Bytes) : (s.hostSuppliesInput input).HostInv := by
  unfold State.hostSuppliesInput
  split
  · next hp => exact ⟨h.enc, h.dec.withInput hp input⟩
  · exact h

/-- The port is no part of either instance. -/
theorem issue_hostInv (h : s.HostInv) (w : PortWord) : (s.issue w).HostInv := ⟨h.enc, h.dec⟩

theorem hostIssues_hostInv (h : s.HostInv) (i : Instr) : (s.hostIssues i).HostInv := by
  unfold State.hostIssues
  split
  · exact issue_hostInv h _
  · exact h

theorem hostReleasesEncoder_hostInv (h : s.HostInv) : s.hostReleasesEncoder.HostInv := by
  unfold State.hostReleasesEncoder
  split
  · exact ⟨Enc.created_hostInv, h.dec⟩
  · exact h

theorem hostReleasesDecoder_hostInv (h : s.HostInv) : s.hostReleasesDecoder.HostInv := by
  unfold State.hostReleasesDecoder
  split
  · exact ⟨h.enc, Dec.created_hostInv⟩
  · exact h

/-- Settles O50: one lemma per move of the host. -/
theorem hostMovesKeepTheRunInvariant : Obligations.HostMovesKeepTheRunInvariant := fun _ h =>
  ⟨fun _ _ => hostOperation_hostInv h, hostWritesCfg_hostInv h, hostSuppliesInput_hostInv h, issue_hostInv h,
    hostIssues_hostInv h, hostReleasesEncoder_hostInv h, hostReleasesDecoder_hostInv h⟩

/-- Settles O48: the instances at reset are those of creation. -/
theorem resetMeetsTheInvariants : Obligations.ResetMeetsTheInvariants :=
  ⟨⟨Enc.created_inv, Dec.created_inv⟩, ⟨Enc.created_hostInv, Dec.created_hostInv⟩⟩

/-- Settles O55: the values of creation, field by field. -/
theorem resetIsTheCreationOfTheInstances : Obligations.ResetIsTheCreationOfTheInstances := by
  unfold Obligations.ResetIsTheCreationOfTheInstances
  decide

end Sys2Proof.Machine
end

section
/-! The transitions of the phase registers (10_state.md R29, R30): which operations move a phase, and where to; every other
operation leaves it, but for a read of the decoder cut short. -/

namespace Sys2Proof.Machine

variable {i : Instr} {s t : State}

/-! ### Outcomes all of whose next states have a property -/

/-- Whatever next state the outcome has, it has the property `P`. -/
def NextHas (P : State → Prop) (k : Host.Outcome State Fault Refusal) : Prop := ∀ t, k = .next t → P t

namespace NextHas

variable {P : State → Prop} {k : Host.Outcome State Fault Refusal}

theorem next (h : P t) : NextHas P (.next t) := fun _ he => by cases he; exact h

theorem refused {q : Refusal} : NextHas P (.refused q) := fun _ he => nomatch he

theorem require {ok : Bool} {q : Refusal} (h : NextHas P k) : NextHas P (Machine.require ok q k) :=
  fun t ht => h t (require_next.1 ht).2

end NextHas

/-! ### `ENC.phase` -/

/-- The five rows of the operations that move `ENC.phase` (R29). -/
def movesEncPhase : Instr → Bool
  | .encStart | .encByte _ | .encByteRun _ | .encEnd | .encEndRun => true
  | _ => false

/-- An encoder operation other than `ENC`'s own leaves the phase. -/
theorem exec_encPhase_of_enc (hi : movesEncPhase i = false) (hs : instrSide i = .enc) :
    NextHas (fun t => t.enc.phase = s.enc.phase) (exec i s) := by
  cases i with
  | bwWrite _ _ | bwClose => exact .require (.require (.next rfl))
  | cbContains _ | cbPut _ _ | cbRemove _ | cbInit => exact .require (.require (.next rfl))
  | cbGet str =>
    refine .require (.require ?_)
    cases cbLookup str s.enc.cb with
    | none => exact .refused
    | some c => exact .next rfl
  | lruUse k | lruRemove k | lfuUse k | lfuRemove k =>
    cases k with
    | str k => exact .require (.require (.next rfl))
    | code x => cases hs
  | lruFind side | lfuFind side => cases hs; exact .require (.require (.next rfl))
  | hdrWrite => exact .require (.require (.require (.require (.next rfl))))
  | fieldMinW dir | fieldMaxW dir | fieldPolicy dir | fieldAlphabetSize dir =>
    cases dir with
    | put => exact .require (.require (.require (.require (.next rfl))))
    | get => cases hs
  | fieldAlphabet dir n =>
    cases dir with
    | put => exact .require (.require (.require (.require (.require (.next rfl)))))
    | get => cases hs
  | encStart | encByte _ | encByteRun _ | encEnd | encEndRun => cases hi
  | _ => cases hs

theorem exec_encPhase (hi : movesEncPhase i = false) (h : exec i s = .next t) : t.enc.phase = s.enc.phase := by
  rcases exec_moves h with ⟨hs, -⟩ | ⟨-, -, he, -⟩
  · exact exec_encPhase_of_enc hi hs t h
  · rw [he]

/-- `DONE` and `FAULT` have no outgoing transition (R29): a move that changes the phase needs another one. -/
theorem Enc.Move.phase_of_ended {e e' : Enc} (h : e.Move e') (hp : encEnded e.phase = true) : e'.phase = e.phase := by
  cases h with
  | start hq => simp [hq, encEnded] at hp
  | firstByte _ hq => simp [hq, encEnded] at hp
  | runByte _ _ hq => simp [hq, encEnded] at hp
  | endEmpty _ hq => simp [hq, encEnded] at hp
  | endRun _ hq => simp [hq, encEnded] at hp
  | _ => rfl

theorem Enc.firstByte_phase (c : Byte) (e : Enc) :
    (c ∈ e.cfg.alphabet → (e.firstByte c).phase = .run) ∧ (c ∉ e.cfg.alphabet → (e.firstByte c).phase = .fault) := by
  rcases e.firstByte_cases c with ⟨hc, he⟩ | ⟨hc, he⟩ <;> rw [he] <;> simp [hc]

theorem Enc.runByte_phase {c : Byte} {e e' : Enc} (hp : e.phase = .run) (h : e.runByte c = .ok e') :
    (c ∈ e.cfg.alphabet → e'.phase = .run) ∧ (c ∉ e.cfg.alphabet → e'.phase = .fault) := by
  rcases Enc.runByte_cases h with ⟨hc, rfl⟩ | ⟨hc, -, rfl⟩ | ⟨code, hc, -, -, -, rfl⟩ <;> simp [hc, hp]

theorem Enc.endEmpty_phase {e e' : Enc} (h : e.endEmpty = .ok e') : e'.phase = .done := by
  rw [(Enc.endEmpty_ok h).2, Enc.finish_phase]

theorem Enc.endRun_phase {e e' : Enc} (h : e.endRun = .ok e') : e'.phase = .done := by
  obtain ⟨code, -, -, rfl⟩ := Enc.endRun_ok h
  rw [Enc.finish_phase]

/-- `FIRST → RUN` and `RUN → RUN` by a byte of the alphabet, to `FAULT` by any other (R29), in either row. -/
theorem exec_encByte_phase {c : Byte} (hi : i = .encByte c ∨ i = .encByteRun c) (h : exec i s = .next t) :
    (s.enc.phase = .first ∨ s.enc.phase = .run) ∧ (c ∈ s.enc.cfg.alphabet → t.enc.phase = .run) ∧
      (c ∉ s.enc.cfg.alphabet → t.enc.phase = .fault) := by
  rcases hi with rfl | rfl
  · rcases encByte_next h with ⟨hp, rfl⟩ | ⟨hp, e, he, rfl⟩
    · exact ⟨.inl hp, s.enc.firstByte_phase c⟩
    · exact ⟨.inr hp, Enc.runByte_phase hp he⟩
  · obtain ⟨hp, e, he, rfl⟩ := encByteRun_next h
    exact ⟨.inr hp, Enc.runByte_phase hp he⟩

/-- `FIRST → DONE` and `RUN → DONE` (R29), in either row. -/
theorem exec_encEnd_phase (hi : i = .encEnd ∨ i = .encEndRun) (h : exec i s = .next t) :
    (s.enc.phase = .first ∨ s.enc.phase = .run) ∧ t.enc.phase = .done := by
  rcases hi with rfl | rfl
  · rcases encEnd_next h with ⟨hp, e, he, rfl⟩ | ⟨hp, e, he, rfl⟩
    · exact ⟨.inl hp, Enc.endEmpty_phase he⟩
    · exact ⟨.inr hp, Enc.endRun_phase he⟩
  · obtain ⟨hp, e, he, rfl⟩ := encEndRun_next h
    exact ⟨.inr hp, Enc.endRun_phase he⟩

/-- Settles O41: an operation at a time, the others by `exec_encPhase`. -/
theorem encoderPhaseTransitions : Obligations.EncoderPhaseTransitions := by
  intro i s t h
  refine ⟨?_, fun c hi => exec_encByte_phase hi h, fun hi => exec_encEnd_phase hi h, fun h₁ h₂ h₃ h₄ => ?_, fun hp => ?_⟩
  · rintro rfl
    obtain ⟨hp, -, -, -, rfl⟩ := encStart_next h
    exact ⟨hp, rfl⟩
  · refine exec_encPhase ?_ h
    cases i with
    | encStart => exact absurd rfl h₁
    | encByte c => exact absurd rfl (h₂ c).1
    | encByteRun c => exact absurd rfl (h₂ c).2
    | encEnd => exact absurd rfl h₃
    | encEndRun => exact absurd rfl h₄
    | _ => rfl
  · exact (exec_encMove h).phase_of_ended (by simpa [encEnded] using hp)

/-! ### `DEC.phase` -/

/-- The phase stays, or a read has been cut short (R123, R293). -/
def Dec.KeepsPhaseOrTruncates (d d' : Dec) : Prop :=
  d'.phase = d.phase ∨ d'.phase = .fault ∧ ∃ width left, d'.fault = some (.truncated width left)

theorem Dec.HeaderRead.keepsPhaseOrTruncates {d d' : Dec} (h : d.HeaderRead d') : d.KeepsPhaseOrTruncates d' := by
  obtain ⟨cfg, pos, -, -, rfl | ⟨w, -, rfl⟩⟩ := h
  · exact .inl rfl
  · exact .inr ⟨rfl, _, _, rfl⟩

/-- A field of the header read leaves the phase or is cut short. -/
theorem onField_keepsPhaseOrTruncates {offset : Nat} {put : Enc → Enc} {get : Dec → Dec}
    (hg : s.dec.HeaderRead (get s.dec)) :
    NextHas (fun t => s.dec.KeepsPhaseOrTruncates t.dec) (onField offset put get .get s) :=
  .require (.require (.require (.next hg.keepsPhaseOrTruncates)))

/-- A decoder operation other than `DEC`'s own, and no codeword, leaves the phase or is a read cut short. -/
theorem exec_decPhase_of_dec (h₁ : i ≠ .decStart) (h₂ : i ≠ .decStep) (h₃ : i.codeword? = none)
    (hs : instrSide i = .dec) : NextHas (fun t => s.dec.KeepsPhaseOrTruncates t.dec) (exec i s) := by
  cases i with
  | brRead width =>
    refine .require ?_
    cases s.dec.br.read width with
    | none => exact .next (.inr ⟨rfl, _, _, rfl⟩)
    | some p => exact .next (.inl rfl)
  | brEmpty => exact .require (.next (.inl rfl))
  | ctLookup _ | ctClear _ => exact .require (.require (.require (.next (.inl rfl))))
  | ctInsert _ _ => exact .require (.require (.require (.require (.next (.inl rfl)))))
  | ctInit => exact .require (.require (.next (.inl rfl)))
  | lruUse k | lruRemove k | lfuUse k | lfuRemove k =>
    cases k with
    | str k => cases hs
    | code x => exact .require (.require (.next (.inl rfl)))
  | lruFind side | lfuFind side => cases hs; exact .require (.require (.next (.inl rfl)))
  | hdrRead =>
    intro t ht
    simp only [exec, execHdrRead, onDec_next, require_next, Host.Outcome.next.injEq, decide_eq_true_eq] at ht
    obtain ⟨-, hp, -, ht⟩ := ht
    rw [← ht]
    dsimp only
    exact (s.dec.hdrRead_headerRead (by simp [hp])).keepsPhaseOrTruncates
  | policyFreeze | policyReset | policyLru | policyLfu | policyUnknown b => exact .require (.require (.next (.inl rfl)))
  | fieldMinW dir =>
    cases dir with
    | put => cases hs
    | get => exact onField_keepsPhaseOrTruncates (put := Enc.putMinW) s.dec.getMinW_headerRead
  | fieldMaxW dir =>
    cases dir with
    | put => cases hs
    | get => exact onField_keepsPhaseOrTruncates (put := Enc.putMaxW) s.dec.getMaxW_headerRead
  | fieldPolicy dir =>
    cases dir with
    | put => cases hs
    | get => exact onField_keepsPhaseOrTruncates (put := Enc.putPolicy) s.dec.getPolicy_headerRead
  | fieldAlphabetSize dir =>
    cases dir with
    | put => cases hs
    | get => exact onField_keepsPhaseOrTruncates (put := Enc.putAlphabetSize) s.dec.getAlphabetSize_headerRead
  | fieldAlphabet dir n =>
    cases dir with
    | put => cases hs
    | get => exact .require (onField_keepsPhaseOrTruncates (put := Enc.putAlphabet n) (s.dec.getAlphabet_headerRead n))
  | decStart => exact absurd rfl h₁
  | decStep => exact absurd rfl h₂
  | cwEofFirst _ | cwAlphaFirst _ | cwIllegalFirst _ | cwEofPostReset _ | cwAlphaPostReset _ | cwIllegalPostReset _
  | cwEof _ | cwReset _ | cwAlpha _ | cwDict _ | cwKwkwk _ | cwIllegal _ => cases h₃
  | _ => cases hs

theorem exec_decPhase (h₁ : i ≠ .decStart) (h₂ : i ≠ .decStep) (h₃ : i.codeword? = none) (h : exec i s = .next t) :
    s.dec.KeepsPhaseOrTruncates t.dec := by
  rcases exec_moves h with ⟨-, -, hd, -⟩ | ⟨hs, -⟩
  · rw [hd]; exact .inl rfl
  · exact exec_decPhase_of_dec h₁ h₂ h₃ hs t h

/-- `DONE` and `FAULT` have no outgoing transition (R30): a move that changes the phase needs another one. -/
theorem Dec.Move.phase_of_ended {d d' : Dec} (h : d.Move d') (hp : decEnded d.phase = true) : d'.phase = d.phase := by
  have live : ∀ {p : Prop}, d.phase = .idle ∨ d.phase = .first ∨ d.phase = .run ∨ d.phase = .postReset → p :=
    fun hq => by simp [decEnded_eq_false.2 hq] at hp
  cases h with
  | truncated _ hq => exact live (decEnded_eq_false.1 hq)
  | header hq => exact live (.inl hq)
  | getMinW hq => exact live (.inl hq)
  | getMaxW hq => exact live (.inl hq)
  | getPolicy hq => exact live (.inl hq)
  | getAlphabetSize hq => exact live (.inl hq)
  | getAlphabet _ hq => exact live (.inl hq)
  | start _ hq => exact live (.inl hq)
  | step _ hq => exact live (decEnded_eq_false.1 hq)
  | cwStop hq => exact live (.inr hq)
  | cwRestart _ hq => exact live (by tauto)
  | cwRaise _ _ hq => exact live (.inr hq)
  | cwFlush hq => exact live (.inr (.inr (.inl hq)))
  | cwAccept _ _ _ hq => exact live (.inr (.inr (.inl hq)))
  | _ => rfl

theorem Dec.startFromHeader_phase {d d' : Dec} (h : d.startFromHeader = .ok d') :
    d'.phase = .first ∨ d'.phase = .fault := by
  rcases Dec.startFromHeader_ok h with ⟨hf, he⟩ | ⟨-, -, he⟩ <;> rw [he]
  · exact .inr hf
  · exact .inl rfl

theorem Dec.firstCode_phase {x : Nat} {d d' : Dec} (h : d.firstCode x = .ok d') :
    d'.phase = .run ∨ d'.phase = .done ∨ d'.phase = .fault := by
  rcases Dec.firstCode_ok h with ⟨-, rfl⟩ | ⟨-, -, rfl⟩ | ⟨-, -, rfl⟩
  · exact .inr (.inl rfl)
  · exact .inl rfl
  · exact .inr (.inr rfl)

theorem Dec.runCode_phase {x : Nat} {d d' : Dec} (hp : d.phase = .run) (h : d.runCode x = .ok d') :
    d'.phase = .run ∨ d'.phase = .done ∨ d'.phase = .fault ∨ d'.phase = .postReset ∧ d.cfg.policy = .reset := by
  rcases Dec.runCode_ok h with ⟨-, rfl⟩ | ⟨-, hr, -, rfl⟩ | ⟨-, -, -, rfl⟩ | ⟨-, -, str, -, ha⟩
  · exact .inr (.inl rfl)
  · exact .inr (.inr (.inr ⟨rfl, hr⟩))
  · exact .inr (.inr (.inl rfl))
  · obtain ⟨ct, trk, n, -, -, rfl⟩ := Dec.accept_eq ha
    exact .inl hp

/-- The transitions of `DEC.STEP` (R30). -/
theorem Dec.step_phase {d d' : Dec} (h : d.step = .ok d') :
    d.phase = .first ∧ (d'.phase = .run ∨ d'.phase = .done ∨ d'.phase = .fault) ∨
      d.phase = .postReset ∧ (d'.phase = .run ∨ d'.phase = .done ∨ d'.phase = .fault) ∨
      d.phase = .run ∧ (d'.phase = .run ∨ d'.phase = .done ∨ d'.phase = .fault ∨
        d'.phase = .postReset ∧ d.cfg.policy = .reset) := by
  rcases Dec.step_ok h with ⟨hp, -, rfl⟩ | ⟨hp, -, rfl⟩ | ⟨hp, -, hk⟩ | ⟨hp, -, rfl⟩ | ⟨hp, -, hk⟩
  · exact .inl ⟨hp, .inr (.inl rfl)⟩
  · rcases hp with ⟨hp, -⟩ | hp
    · exact .inl ⟨hp, .inr (.inr rfl)⟩
    · exact .inr (.inl ⟨hp, .inr (.inr rfl)⟩)
  · exact hp.imp (⟨·, Dec.firstCode_phase hk⟩) fun hp => .inl ⟨hp, Dec.firstCode_phase hk⟩
  · exact .inr (.inr ⟨hp, .inr (.inr (.inl rfl))⟩)
  · exact .inr (.inr ⟨hp, by simpa [Dec.advance] using Dec.runCode_phase (by simpa [Dec.advance] using hp) hk⟩)

/-- Settles O42: an operation at a time, the others by `exec_decPhase`. -/
theorem decoderPhaseTransitions : Obligations.DecoderPhaseTransitions := by
  intro i s t h
  refine ⟨?_, ?_, fun h₁ h₂ h₃ => exec_decPhase h₁ h₂ h₃ h, fun hp => ?_⟩
  · rintro rfl
    obtain ⟨hp, d, hd, rfl⟩ := decStart_next h
    exact ⟨hp, Dec.startFromHeader_phase hd⟩
  · rintro rfl
    obtain ⟨d, hd, rfl⟩ := decStep_next h
    exact Dec.step_phase hd
  · exact (exec_decMove h).phase_of_ended (by simpa [decEnded] using hp)

end Sys2Proof.Machine
end

section
/-! The registers of an instance across one instruction (10_state.md R22, R24, R31, R56, R57): each statement is a field of
`Enc.Facts` and `Dec.Facts`, which say it of the one move an instruction makes of the instance. -/

namespace Sys2Proof.Machine

/-- Settles O40, by the field `const` of each instance's facts. -/
theorem configurationIsConstantInARun : Obligations.ConfigurationIsConstantInARun := fun _ _ _ h =>
  ⟨(exec_encMove h).facts.const, (exec_decMove h).facts.const⟩

/-- Settles O44, by the field `rise` of each instance's facts. -/
theorem widthAndNextCodeOnlyRise : Obligations.WidthAndNextCodeOnlyRise := fun _ _ _ h =>
  ⟨(exec_encMove h).facts.rise, (exec_decMove h).facts.rise⟩

/-- Settles O43: creation by evaluation, the rest by the field `fault` of each instance's facts. -/
theorem faultRegisterIsWrittenOnce : Obligations.FaultRegisterIsWrittenOnce := by
  refine ⟨rfl, rfl, fun i s t h henc hdec => ?_⟩
  obtain ⟨henc', hencOnce⟩ := (exec_encMove h).facts.fault henc
  obtain ⟨hdec', hdecOnce⟩ := (exec_decMove h).facts.fault hdec
  exact ⟨henc', hdec', hencOnce, hdecOnce⟩

end Sys2Proof.Machine
end

section
/-! A tracker operation on an instance without the unit (10_state.md R22, R37). -/

namespace Sys2Proof.Machine

theorem hasTracker_eq_false {p : Policy} {c : Cfg} (h : c.written = false ∨ c.policy ≠ p) : hasTracker p c = false := by
  rcases h with h | h <;> simp [hasTracker, h]

variable {p : Policy} {s : State}

/-- A live encoder instance without the unit refuses its operations. -/
theorem onTracker_str_refused (hp : encEnded s.enc.phase = false)
    (h : s.enc.cfg.written = false ∨ s.enc.cfg.policy ≠ p) (k : Bytes) (str : Bytes → Trk Bytes → Trk Bytes)
    (code : Nat → Trk Nat → Trk Nat) : onTracker p (.str k) s str code = .refused .noTracker := by
  rw [onTracker, onEnc_live hp, hasTracker_eq_false h, require_false]

theorem onFind_enc_refused (hp : encEnded s.enc.phase = false)
    (h : s.enc.cfg.written = false ∨ s.enc.cfg.policy ≠ p) : onFind p .enc s = .refused .noTracker := by
  rw [onFind, onEnc_live hp, hasTracker_eq_false h, require_false]

/-- A live decoder instance without the unit refuses its operations. -/
theorem onTracker_code_refused (hp : decEnded s.dec.phase = false)
    (h : s.dec.cfg.written = false ∨ s.dec.cfg.policy ≠ p) (x : Nat) (str : Bytes → Trk Bytes → Trk Bytes)
    (code : Nat → Trk Nat → Trk Nat) : onTracker p (.code x) s str code = .refused .noTracker := by
  rw [onTracker, onDec_live hp, hasTracker_eq_false h, require_false]

theorem onFind_dec_refused (hp : decEnded s.dec.phase = false)
    (h : s.dec.cfg.written = false ∨ s.dec.cfg.policy ≠ p) : onFind p .dec s = .refused .noTracker := by
  rw [onFind, onDec_live hp, hasTracker_eq_false h, require_false]

/-- Settles O16: the six operations are those of `onTracker` and `onFind`. -/
theorem trackerOperationsNeedTheUnit : Obligations.TrackerOperationsNeedTheUnit := by
  simp only [Obligations.TrackerOperationsNeedTheUnit, exec, execLruUse, execLruRemove, execLruFind, execLfuUse,
    execLfuRemove, execLfuFind]
  refine ⟨fun k s hp => ⟨fun h => ?_, fun h => ?_⟩, fun x s hp => ⟨fun h => ?_, fun h => ?_⟩⟩
  · exact ⟨onTracker_str_refused hp h k _ _, onTracker_str_refused hp h k _ _, onFind_enc_refused hp h⟩
  · exact ⟨onTracker_str_refused hp h k _ _, onTracker_str_refused hp h k _ _, onFind_enc_refused hp h⟩
  · exact ⟨onTracker_code_refused hp h x _ _, onTracker_code_refused hp h x _ _, onFind_dec_refused hp h⟩
  · exact ⟨onTracker_code_refused hp h x _ _, onTracker_code_refused hp h x _ _, onFind_dec_refused hp h⟩

end Sys2Proof.Machine
end

section
/-! The words of the operations, policy bytes and header fields decode to what they encode (30_encoding.md R91, R94, R110,
R114, R115). -/

namespace Sys2Proof

/-! ### Select codes with operands -/

theorem oneOperand_of_read {α : Type} {read : Bytes → Except DecodeError (α × Bytes)} {a : α} {bs : Bytes}
    (h : read bs = .ok (a, [])) (mk : α → Instr) : oneOperand read mk bs = .ok (mk a) := oneOperand_ok.2 ⟨a, h, rfl⟩

theorem twoOperands_of_read {α β : Type} {read₁ : Bytes → Except DecodeError (α × Bytes)}
    {read₂ : Bytes → Except DecodeError (β × Bytes)} {a : α} {b : β} {bs rest : Bytes}
    (h₁ : read₁ bs = .ok (a, rest)) (h₂ : read₂ rest = .ok (b, [])) (mk : α → β → Instr) :
    twoOperands read₁ read₂ mk bs = .ok (mk a b) := twoOperands_ok.2 ⟨a, b, rest, h₁, h₂, rfl⟩

theorem decodeNat_encodeNat_nil (n : Nat) : decodeNat (encodeNat n) = .ok (n, []) := decodeNat_ok.2 (by simp)

theorem decodeStr_encodeStr_nil {s : Bytes} (h : s ≠ []) : decodeStr (encodeStr s) = .ok (s, []) :=
  decodeStr_ok.2 ⟨h, by simp⟩

theorem decodeKey_encodeKey_nil (k : Key) : decodeKey (encodeKey k) = .ok (k, []) := decodeKey_ok.2 (by simp)

theorem decodeSide_encodeSide_nil (side : Side) : decodeSide (encodeSide side) = .ok (side, []) :=
  decodeSide_ok.2 (by simp)

theorem decodeCode_encodeCode_nil (v : Option Nat) : decodeCode (encodeCode v) = .ok (v, []) := decodeCode_ok.2 (by simp)

/-! ### Policy bytes and header fields -/

theorem decodePolicyByte_unknown {b : Byte} (h : 3 < b.toNat) : decodePolicyByte b = .policyUnknown b := by
  unfold decodePolicyByte
  rw [if_neg (by omega), if_neg (by omega), if_neg (by omega), if_neg (by omega)]

theorem decodeField_alphabet (d : Dir) {i : Nat} (h : i < 65535) :
    decodeField d (40 + 8 * i) = .ok (.fieldAlphabet d i) := by
  have hi : (40 + 8 * i - 40) / 8 = i := by omega
  unfold decodeField
  rw [if_neg (by omega), if_neg (by omega), if_neg (by omega), if_neg (by omega), if_pos ⟨by omega, by omega, by omega⟩, hi]

/-- A well-formed instruction that is no codeword is read back from its word, in the spelling of a shared code. -/
theorem decode_encode_of_no_codeword (v : View) {i : Instr} (hw : i.wellFormed = true) (hc : i.codeword? = none) :
    decode v (encode v i) = .ok (i.spelling v) := by
  cases i with
  | bwWrite value width => exact twoOperands_of_read (decodeNat_encodeNat _ _) (decodeNat_encodeNat_nil _) _
  | brRead n | ctLookup n | ctClear n => exact oneOperand_of_read (decodeNat_encodeNat_nil _) _
  | cbContains s | cbGet s => exact oneOperand_of_read (decodeStr_encodeStr_nil (by simpa [Instr.wellFormed] using hw)) _
  | cbPut s c =>
    have hs : s ≠ [] := by simpa [Instr.wellFormed] using hw
    have h : twoOperands decodeStr decodeCode putOrRemove (encodeStr s ++ encodeCode c) = .ok (putOrRemove s c) :=
      twoOperands_of_read (decodeStr_ok.2 ⟨hs, rfl⟩) (decodeCode_encodeCode_nil c) _
    cases c <;> exact h
  | cbRemove s =>
    have hs : s ≠ [] := by simpa [Instr.wellFormed] using hw
    exact twoOperands_of_read (decodeStr_ok.2 ⟨hs, rfl⟩) (decodeCode_encodeCode_nil none) _
  | ctInsert x s =>
    have hs : s ≠ [] := by simpa [Instr.wellFormed] using hw
    exact twoOperands_of_read (decodeNat_encodeNat _ _) (decodeStr_encodeStr_nil hs) _
  | lruUse k | lruRemove k | lfuUse k | lfuRemove k => exact oneOperand_of_read (decodeKey_encodeKey_nil _) _
  | lruFind side | lfuFind side => exact oneOperand_of_read (decodeSide_encodeSide_nil _) _
  | policyUnknown b => exact congrArg Except.ok (decodePolicyByte_unknown (by simpa [Instr.wellFormed] using hw))
  | fieldAlphabet d n => exact decodeField_alphabet d (by simpa [Instr.wellFormed] using hw)
  | cwEofFirst _ | cwAlphaFirst _ | cwIllegalFirst _ | cwEofPostReset _ | cwAlphaPostReset _ | cwIllegalPostReset _
  | cwEof _ | cwReset _ | cwAlpha _ | cwDict _ | cwKwkwk _ | cwIllegal _ => cases hc
  | _ => rfl

namespace Machine

variable {s : State} {w : PortWord} {rest : List PortWord}

theorem step_of_decode_ok {i : Instr} (hp : s.port = w :: rest) (hd : decode s.view w = .ok i) :
    step s = exec i { s with port := rest } := by
  simp only [step, hp, hd]

theorem step_of_decode_error {e : DecodeError} (hp : s.port = w :: rest) (hd : decode s.view w = .error e) :
    step s = .refused (.badEncoding e) := by
  simp only [step, hp, hd]

theorem step_of_port_nil (hp : s.port = []) : step s = .next s := by simp only [step, hp]

/-- Settles O59: one equation of `step` per case of the port. -/
theorem stepPerformsTheDecodedInstruction : Obligations.StepPerformsTheDecodedInstruction := fun s _ =>
  ⟨fun _ hw hc hp => step_of_decode_ok hp (decode_encode_of_no_codeword s.view hw hc), fun _ _ => step_of_decode_ok,
    fun _ _ => step_of_decode_error, step_of_port_nil⟩

end Machine

end Sys2Proof
end

section
/-! The encodings in both directions (30_encoding.md R91, R94, R95, R97, R110, R114, R115): decoding gives an instruction
back from its word, and a word that decodes is the word of what it decodes to. -/

namespace Sys2Proof

variable {v : View} {i : Instr}

/-! ### Codewords -/

theorem encode_codeword (v : View) (c : CwClass) (x : Nat) : encode v (c.instr x) = .codeword (bitsOf v.width x) := by
  cases c <;> rfl

theorem spelling_codeword (v : View) (c : CwClass) (x : Nat) : (c.instr x).spelling v = c.instr x := by cases c <;> rfl

theorem wellFormed_codeword (c : CwClass) (x : Nat) : (c.instr x).wellFormed = true := by cases c <;> rfl

/-- R95, R97: which words are codewords, and of which row. -/
theorem decode_codeword_ok {bs : Bits} :
    decode v (.codeword bs) = .ok i ↔
      bs.length = v.width ∧ ∃ c, v.classify (natOfBits bs) = some c ∧ i = c.instr (natOfBits bs) := by
  simp only [decode, decodeCodeword]
  by_cases hl : bs.length = v.width
  · cases v.classify (natOfBits bs) <;> simp [hl, eq_comm]
  · simp [hl]

/-- A codeword's bits give its value back when it has `W` bits. -/
theorem decode_encode_codeword {c : CwClass} {x : Nat} (hx : x < 2 ^ v.width) (hc : v.classify x = some c) :
    decode v (encode v (c.instr x)) = .ok (c.instr x) := by
  have hbits : natOfBits (bitsOf v.width x) = x := by rw [natOfBits_bitsOf, Nat.mod_eq_of_lt hx]
  rw [encode_codeword, decode_codeword_ok, hbits]
  exact ⟨length_bitsOf _ _, c, hc, rfl⟩

/-- Settles O56: an instruction that is no codeword, and a codeword by its class. -/
theorem decodeInvertsEncode : Obligations.DecodeInvertsEncode := by
  intro v i hw hcw
  cases hc : i.codeword? with
  | none => exact decode_encode_of_no_codeword v hw hc
  | some x =>
    obtain ⟨hx, c, hclass, rfl⟩ := hcw x hc
    rw [spelling_codeword, decode_encode_codeword hx hclass]

/-! ### Words that decode -/

/-- `w` is the word of `i`, which is well formed and in the decoder's spelling. -/
def WordOf (v : View) (w : PortWord) (i : Instr) : Prop := encode v i = w ∧ i.wellFormed = true ∧ i.spelling v = i

/-- `read` accepts only what `write` writes of an operand that is `ok`. -/
def ReadsOnly {α : Type} (read : Bytes → Except DecodeError (α × Bytes)) (write : α → Bytes) (ok : α → Prop) : Prop :=
  ∀ bs a rest, read bs = .ok (a, rest) → ok a ∧ bs = write a ++ rest

theorem decodeNat_readsOnly : ReadsOnly decodeNat encodeNat fun _ => True := fun _ _ _ h => ⟨trivial, decodeNat_ok.1 h⟩

theorem decodeStr_readsOnly : ReadsOnly decodeStr encodeStr (· ≠ []) := fun _ _ _ h => decodeStr_ok.1 h

theorem decodeKey_readsOnly : ReadsOnly decodeKey encodeKey fun _ => True := fun _ _ _ h => ⟨trivial, decodeKey_ok.1 h⟩

theorem decodeSide_readsOnly : ReadsOnly decodeSide encodeSide fun _ => True := fun _ _ _ h => ⟨trivial, decodeSide_ok.1 h⟩

theorem decodeCode_readsOnly : ReadsOnly decodeCode encodeCode fun _ => True := fun _ _ _ h => ⟨trivial, decodeCode_ok.1 h⟩

theorem decodeByte_readsOnly : ReadsOnly decodeByte (fun c => [c]) fun _ => True := by
  intro bs c rest h
  cases bs with
  | nil => cases h
  | cons b bs => cases h; exact ⟨trivial, rfl⟩

section Shapes

variable {sel : Byte} {n : Nat} {bs : Bytes}

theorem wordOf_wholeWord {j : Instr} (hsel : sel.toNat = n) (h : wholeWord j bs = .ok i)
    (hj : WordOf v (.opsel [BitVec.ofNat 8 n]) j) : WordOf v (.opsel (sel :: bs)) i := by
  obtain ⟨rfl, rfl⟩ := wholeWord_ok.1 h
  rwa [← hsel, byte_ofNat_toNat] at hj

theorem wordOf_oneOperand {α : Type} {read : Bytes → Except DecodeError (α × Bytes)} {write : α → Bytes} {ok : α → Prop}
    {mk : α → Instr} (hsel : sel.toNat = n) (hread : ReadsOnly read write ok)
    (h : oneOperand read mk bs = .ok i) (hmk : ∀ a, ok a → WordOf v (.opsel (BitVec.ofNat 8 n :: write a)) (mk a)) :
    WordOf v (.opsel (sel :: bs)) i := by
  obtain ⟨a, ha, rfl⟩ := oneOperand_ok.1 h
  obtain ⟨hok, rfl⟩ := hread _ _ _ ha
  have := hmk a hok
  rwa [← hsel, byte_ofNat_toNat, ← List.append_nil (write a)] at this

theorem wordOf_twoOperands {α β : Type} {read₁ : Bytes → Except DecodeError (α × Bytes)}
    {read₂ : Bytes → Except DecodeError (β × Bytes)} {write₁ : α → Bytes} {write₂ : β → Bytes} {ok₁ : α → Prop}
    {ok₂ : β → Prop} {mk : α → β → Instr} (hsel : sel.toNat = n) (hread₁ : ReadsOnly read₁ write₁ ok₁)
    (hread₂ : ReadsOnly read₂ write₂ ok₂)
    (h : twoOperands read₁ read₂ mk bs = .ok i)
    (hmk : ∀ a b, ok₁ a → ok₂ b → WordOf v (.opsel (BitVec.ofNat 8 n :: (write₁ a ++ write₂ b))) (mk a b)) :
    WordOf v (.opsel (sel :: bs)) i := by
  obtain ⟨a, b, rest, ha, hb, rfl⟩ := twoOperands_ok.1 h
  obtain ⟨hok₁, rfl⟩ := hread₁ _ _ _ ha
  obtain ⟨hok₂, rfl⟩ := hread₂ _ _ _ hb
  have := hmk a b hok₁ hok₂
  rwa [← hsel, byte_ofNat_toNat, ← List.append_nil (write₂ b)] at this

end Shapes

/-- The one check `wellFormed` makes of a dictionary's string. -/
theorem not_isEmpty_of_ne_nil {s : Bytes} (h : s ≠ []) : (!s.isEmpty) = true := by simpa using h

theorem wordOf_encByteRow (v : View) (c : Byte) : WordOf v (.opsel [0x81, c]) (encByteRow v.encPhase c) := by
  by_cases h : v.encPhase = .run
  · simp only [encByteRow, h, if_true]
    exact ⟨rfl, rfl, if_pos h⟩
  · simp only [encByteRow, h, if_false]
    exact ⟨rfl, rfl, if_neg h⟩

theorem wordOf_encEndRow (v : View) : WordOf v (.opsel [0x82]) (encEndRow v.encPhase) := by
  by_cases h : v.encPhase = .run
  · simp only [encEndRow, h, if_true]
    exact ⟨rfl, rfl, if_pos h⟩
  · simp only [encEndRow, h, if_false]
    exact ⟨rfl, rfl, if_neg h⟩

theorem wordOf_putOrRemove (v : View) {s : Bytes} (hs : s ≠ []) (c : Option Nat) :
    WordOf v (.opsel (0x32 :: (encodeStr s ++ encodeCode c))) (putOrRemove s c) := by
  cases c <;> exact ⟨rfl, not_isEmpty_of_ne_nil hs, rfl⟩

/-- R110: case `h_k` is the `k`-th line of `decodeOpsel`, the cases stand together by the shape of their operands. -/
theorem decodeOpsel_wordOf {bs : Bytes} (h : decodeOpsel v bs = .ok i) : WordOf v (.opsel bs) i := by
  cases bs with
  | nil => cases h
  | cons sel bs =>
    rw [decodeOpsel] at h
    split at h
    -- no operand
    case h_2 hsel | h_4 hsel | h_8 hsel | h_12 hsel | h_19 hsel | h_20 hsel | h_21 hsel | h_24 hsel | h_25 hsel =>
      exact wordOf_wholeWord hsel h ⟨rfl, rfl, rfl⟩
    case h_23 hsel => exact wordOf_wholeWord hsel h (wordOf_encEndRow v)
    -- a byte
    case h_22 hsel => exact wordOf_oneOperand hsel decodeByte_readsOnly h fun c _ => wordOf_encByteRow v c
    -- naturals
    case h_3 hsel | h_9 hsel | h_11 hsel =>
      exact wordOf_oneOperand hsel decodeNat_readsOnly h fun _ _ => ⟨rfl, rfl, rfl⟩
    case h_1 hsel =>
      exact wordOf_twoOperands hsel decodeNat_readsOnly decodeNat_readsOnly h fun _ _ _ _ => ⟨rfl, rfl, rfl⟩
    -- a string of a dictionary, alone or beside a code or a slot
    case h_5 hsel | h_6 hsel =>
      exact wordOf_oneOperand hsel decodeStr_readsOnly h fun _ hs => ⟨rfl, not_isEmpty_of_ne_nil hs, rfl⟩
    case h_7 hsel =>
      exact wordOf_twoOperands hsel decodeStr_readsOnly decodeCode_readsOnly h fun _ c hs _ => wordOf_putOrRemove v hs c
    case h_10 hsel =>
      exact wordOf_twoOperands hsel decodeNat_readsOnly decodeStr_readsOnly h fun _ _ _ hs =>
        ⟨rfl, not_isEmpty_of_ne_nil hs, rfl⟩
    -- a tracker's key, or its side
    case h_13 hsel | h_14 hsel | h_16 hsel | h_17 hsel =>
      exact wordOf_oneOperand hsel decodeKey_readsOnly h fun _ _ => ⟨rfl, rfl, rfl⟩
    case h_15 hsel | h_18 hsel => exact wordOf_oneOperand hsel decodeSide_readsOnly h fun _ _ => ⟨rfl, rfl, rfl⟩
    -- no select code
    case h_26 => cases h

/-- R94: a byte below 4 is the word of its own row, every other byte of the unknown row. -/
theorem decodePolicyByte_wordOf (v : View) (b : Byte) : WordOf v (.policyByte b) (decodePolicyByte b) := by
  have hb {n : Nat} (h : b.toNat = n) : PortWord.policyByte (BitVec.ofNat 8 n) = .policyByte b := by
    rw [← h, byte_ofNat_toNat]
  unfold decodePolicyByte
  split_ifs with h0 h1 h2 h3
  · exact ⟨hb h0, rfl, rfl⟩
  · exact ⟨hb h1, rfl, rfl⟩
  · exact ⟨hb h2, rfl, rfl⟩
  · exact ⟨hb h3, rfl, rfl⟩
  · exact ⟨rfl, decide_eq_true (by omega), rfl⟩

/-- R91: a field's offset is the one its row is encoded with. -/
theorem decodeField_wordOf {d : Dir} {offset : Nat} (h : decodeField d offset = .ok i) : WordOf v (.field d offset) i := by
  unfold decodeField at h
  split_ifs at h with h0 h8 h16 h24 halpha <;> cases h
  · exact ⟨congrArg _ h0.symm, rfl, rfl⟩
  · exact ⟨congrArg _ h8.symm, rfl, rfl⟩
  · exact ⟨congrArg _ h16.symm, rfl, rfl⟩
  · exact ⟨congrArg _ h24.symm, rfl, rfl⟩
  · exact ⟨congrArg (PortWord.field d) (by omega), decide_eq_true halpha.2.2, rfl⟩

/-- Settles O57: one case per format of R115. -/
theorem encodeInvertsDecode : Obligations.EncodeInvertsDecode := by
  intro v w i h
  cases w with
  | opsel bs => exact decodeOpsel_wordOf h
  | policyByte b => cases h; exact decodePolicyByte_wordOf v b
  | field d offset => exact decodeField_wordOf h
  | codeword bs =>
    obtain ⟨hl, c, -, rfl⟩ := decode_codeword_ok.1 h
    exact ⟨by rw [encode_codeword, ← hl, bitsOf_natOfBits], wellFormed_codeword _ _, spelling_codeword _ _ _⟩

/-! ### Classes (R97) -/

theorem View.classify_first {x : Nat} (hp : v.decPhase = .first) :
    v.classify x = if x = v.eofCode then some .eofFirst else if x < v.alphabetSize then some .alphaFirst
      else some .illegalFirst := by
  rw [View.classify, hp]

theorem View.classify_postReset {x : Nat} (hp : v.decPhase = .postReset) :
    v.classify x = if x = v.eofCode then some .eofPostReset else if x < v.alphabetSize then some .alphaPostReset
      else some .illegalPostReset := by
  rw [View.classify, hp]

theorem View.classify_run {x : Nat} (hp : v.decPhase = .run) :
    v.classify x = if x = v.eofCode then some .eof else if v.policy = .reset ∧ x = v.resetCode then some .reset
      else if x < v.alphabetSize then some .alpha
      else if v.initialNextCode ≤ x ∧ x < v.nextCode ∧ v.present x = true then some .dict
      else if x = v.nextCode then some .kwkwk else some .illegal := by
  rw [View.classify, hp]

/-- Settles O58: the words of the tables by evaluation, the codewords by their class. -/
theorem wordsWrittenOutDecode : Obligations.WordsWrittenOutDecode := by
  refine ⟨fun v => ⟨rfl, rfl, rfl, rfl, rfl, rfl, rfl, rfl, rfl, rfl, rfl⟩, fun v hp hw hpol ha he hi hn h5 => ?_⟩
  have hclass (bs : Bits) (c : CwClass) (hl : bs.length = 3) (hc : v.classify (natOfBits bs) = some c) :
      decode v (.codeword bs) = .ok (c.instr (natOfBits bs)) := decode_codeword_ok.2 ⟨hl.trans hw.symm, c, hc, rfl⟩
  have hrun (x : Nat) := View.classify_run (x := x) hp
  simp only [hpol, ha, he, hi, hn] at hrun
  refine ⟨hclass _ .alpha rfl ?_, hclass _ .eof rfl ?_, hclass _ .dict rfl ?_, hclass _ .kwkwk rfl ?_,
    hclass _ .illegal rfl ?_⟩ <;> simp [hrun, natOfBits, natOfBitsFrom, h5]

end Sys2Proof
end

section
/-! The header's rows of 30_encoding.md: the values of the policy byte (R94) and the fields at their stream bit offsets
(R91, R92). -/

namespace Sys2Proof.Machine

variable {s : State}

/-! ### The policy byte (R94) -/

theorem policy_ofCode_unknown {n : Nat} (h : 4 ≤ n) : Policy.ofCode n = .freeze := by
  rw [Policy.ofCode, if_neg (by omega), if_neg (by omega), if_neg (by omega)]

/-- A policy byte read before the start writes `CFG.policy` and nothing else. -/
theorem onPolicyByte_idle (h : s.dec.phase = .idle) (p : Policy) :
    onPolicyByte p s = .next { s with dec := { s.dec with cfg := { s.dec.cfg with policy := p } } } :=
  onPolicyByte_next.2 ⟨h, rfl⟩

/-- Settles O19: each row is `onPolicyByte` of the policy it names. -/
theorem policyByteSelects : Obligations.PolicyByteSelects := by
  refine ⟨fun s h => ⟨onPolicyByte_idle h _, onPolicyByte_idle h _, onPolicyByte_idle h _, onPolicyByte_idle h _,
    fun b hb => ?_⟩, fun v => ⟨rfl, rfl, rfl, rfl, fun b hb => congrArg Except.ok (decodePolicyByte_unknown hb)⟩⟩
  rw [← policy_ofCode_unknown hb]
  exact onPolicyByte_idle h _

/-! ### A field written (R91, R92) -/

/-- A field whose register holds `value` appends its bits when the stream stands at its offset. -/
theorem onField_put_appends {offset width value : Nat} {put : Enc → Enc} (get : Dec → Dec)
    (hlive : encEnded s.enc.phase = false) (hw : s.enc.cfg.written = true) (hopen : s.enc.bw.closed = false)
    (hat : s.enc.bw.bitCount = offset) (hput : put s.enc = { s.enc with bw := s.enc.bw.write value width }) :
    ∃ b : Bw, onField offset put get .put s = .next { s with enc := { s.enc with bw := b } } ∧
      b.bits = s.enc.bw.bits ++ msbFirst width value ∧ b.pend.length < 8 ∧ b.closed = false := by
  refine ⟨s.enc.bw.write value width, ?_, ?_, Bw.pend_write _ _ _, hopen⟩
  · rw [← hput]
    exact onField_next.2 ⟨hlive, hw, hopen, hat, rfl⟩
  · rw [Bw.bits_write, bitsOf_eq_msbFirst]

/-- A row of `alphabet[i]` with `i < |A|` is the field at its offset. -/
theorem exec_fieldAlphabet {dir : Dir} {i : Nat} (h : i < fieldCount dir s) :
    exec (.fieldAlphabet dir i) s = onField (40 + 8 * i) (Enc.putAlphabet i) (Dec.getAlphabet i) dir s := by
  rw [exec, execFieldAlphabet, decide_eq_true h, require_true]

/-- Settles O20: each field's row is one write of its register. -/
theorem headerFieldsAreWritten : Obligations.HeaderFieldsAreWritten := by
  intro s offset hlive hw hopen hat
  refine ⟨?_, ?_, ?_, ?_, fun i a ha hoff => ?_⟩
  · rintro rfl
    exact onField_put_appends Dec.getMinW hlive hw hopen hat rfl
  · rintro rfl
    exact onField_put_appends Dec.getMaxW hlive hw hopen hat rfl
  · rintro rfl
    refine onField_put_appends Dec.getPolicy hlive hw hopen hat ?_
    rw [Enc.putPolicy]
    cases s.enc.cfg.policy <;> rfl
  · rintro rfl
    exact onField_put_appends Dec.getAlphabetSize hlive hw hopen hat rfl
  · subst hoff
    have hi : i < fieldCount .put s := (List.getElem?_eq_some_iff.1 ha).1
    rw [exec_fieldAlphabet hi]
    refine onField_put_appends (Dec.getAlphabet i) hlive hw hopen hat ?_
    rw [Enc.putAlphabet, ha]
    rfl

/-! ### A field read (R91, R92) -/

/-- A field read before the start, the cursor at its offset and `v` the next bits. -/
theorem onField_get_reads {offset width v : Nat} {take : Nat → Dec → Dec} (put : Enc → Enc) (hp : s.dec.phase = .idle)
    (hat : s.dec.br.pos = offset) (hlen : s.dec.br.pos + width ≤ 8 * s.dec.br.input.length) (hv : s.dec.br.NextIs width v) :
    onField offset put (Dec.readField width take) .get s =
      .next { s with dec := take v { s.dec with br := { s.dec.br with pos := offset + width } } } := by
  refine onField_next.2 ⟨hp, hat, ?_⟩
  rw [Dec.readField_some (Br.read_of_nextIs hlen hv), hat]

/-- `CFG.alphabet[i] <- v`: a register below `i` that nothing has written reads 0, every other one as before. -/
theorem getElem?_setByte (i : Nat) (v : Byte) (as : Bytes) (j : Nat) :
    (setByte i v as)[j]? = if j = i then some v else if j < i then some ((as[j]?).getD 0) else as[j]? := by
  induction i generalizing as j with
  | zero => cases as <;> cases j <;> simp [setByte]
  | succ i ih => cases as <;> cases j <;> simp [setByte, ih]

/-- Settles O21: each field's row is one read into its register. -/
theorem headerFieldsAreRead : Obligations.HeaderFieldsAreRead := by
  intro s v hp
  refine ⟨fun hlen hv => ⟨fun hat => onField_get_reads Enc.putMinW hp hat hlen hv,
    fun hat => onField_get_reads Enc.putMaxW hp hat hlen hv, fun hat => onField_get_reads Enc.putPolicy hp hat hlen hv,
    fun i hi hat => ?_⟩, fun hlen hv hat => onField_get_reads Enc.putAlphabetSize hp hat hlen hv⟩
  refine ⟨setByte i (BitVec.ofNat 8 v) s.dec.cfg.alphabet, ?_, length_setByte _ _ _, ?_, fun j a hj ha => ?_,
    fun j hj hnone => ?_⟩
  · have h48 : 48 + 8 * i = 40 + 8 * i + 8 := by omega
    rw [exec_fieldAlphabet hi, h48]
    exact onField_get_reads (Enc.putAlphabet i) hp hat hlen hv
  · rw [getElem?_setByte, if_pos rfl]
  · rw [getElem?_setByte, if_neg hj, ha, Option.getD_some, ite_self]
  · rw [getElem?_setByte, if_neg hj.ne, if_pos hj, hnone, Option.getD_none]

end Sys2Proof.Machine
end

section
/-! The codeword classes as rows of their own (30_encoding.md R97) beside `DEC.STEP` (46_decoder.md R253 to R262). -/

namespace Sys2Proof.Machine

variable {s : State} {x : Nat}

/-! ### The class of a codeword -/

theorem classify_first (hp : s.dec.phase = .first) :
    s.view.classify x = if x = s.dec.eofCode then some .eofFirst
      else if x < s.dec.cfg.alphabetSize then some .alphaFirst else some .illegalFirst := View.classify_first hp

theorem classify_postReset (hp : s.dec.phase = .postReset) :
    s.view.classify x = if x = s.dec.eofCode then some .eofPostReset
      else if x < s.dec.cfg.alphabetSize then some .alphaPostReset else some .illegalPostReset := View.classify_postReset hp

theorem classify_run (hp : s.dec.phase = .run) :
    s.view.classify x = if x = s.dec.eofCode then some .eof
      else if s.dec.cfg.policy = .reset ∧ x = s.dec.resetCode then some .reset
      else if x < s.dec.cfg.alphabetSize then some .alpha
      else if s.dec.initialNextCode ≤ x ∧ x < s.dec.nextCode ∧ (ctLookup x s.dec.ct).isSome = true then some .dict
      else if x = s.dec.nextCode then some .kwkwk else some .illegal := View.classify_run hp

/-! ### What the rows do -/

/-- The third column of R97's table: what a codeword `x` of class `c` does to a decoder instance once it has been read. -/
def codewordEffect (c : CwClass) (x : Nat) (d : Dec) : Except Refusal Dec :=
  match c with
  | .eofFirst | .eofPostReset | .eof => .ok d.stop
  | .alphaFirst | .alphaPostReset => .ok (d.restart (d.alphabetString x))
  | .illegalFirst | .illegalPostReset => .ok (d.raise (.badFirstCode x))
  | .reset => .ok d.flush
  | .alpha => d.accept x (d.alphabetString x)
  | .dict => d.accept x ((ctLookup x d.ct).getD [])
  | .kwkwk => d.accept x d.kwkwk
  | .illegal => .ok (d.raise (.badCode x))

theorem exec_codeword_eq (c : CwClass) (x : Nat) (s : State) :
    exec (c.instr x) s = onCodeword c x s (codewordEffect c x) := by cases c <;> rfl

theorem live_of_classify {c : CwClass} (h : s.view.classify x = some c) : decEnded s.dec.phase = false := by
  cases hp : s.dec.phase <;> simp [View.classify, State.view, hp] at h ⊢

/-- The row of a codeword's class, on a codeword of `W` bits (R95, R97). -/
theorem exec_codeword {c : CwClass} (hx : x < 2 ^ s.dec.W) (hc : s.view.classify x = some c) :
    exec (c.instr x) s = s.withDec (codewordEffect c x s.dec) := by
  rw [exec_codeword_eq, onCodeword, onDec_live (live_of_classify hc), decide_eq_true ⟨hx, hc⟩, require_true]

/-! ### `DEC.STEP` with enough bits remaining -/

/-- A codeword fetched at the width in force. -/
theorem Dec.fetch_nextIs {d : Dec} {x : Nat} (k : Nat → Dec → Except Refusal Dec)
    (hlen : d.br.pos + d.W ≤ 8 * d.br.input.length) (hx : d.br.NextIs d.W x) : d.fetch k = k x (d.advance d.W) := by
  rw [Dec.fetch, Br.read_of_nextIs hlen hx]
  rfl

theorem exec_decStep (h : decEnded s.dec.phase = false) : exec .decStep s = s.withDec s.dec.step := onDec_live h

/-- R254, R262: in `FIRST` and `POSTRESET`, no width check. -/
theorem exec_decStep_firstCode (hp : s.dec.phase = .first ∨ s.dec.phase = .postReset)
    (hpos : s.dec.br.pos < 8 * s.dec.br.input.length) (hlen : s.dec.br.pos + s.dec.W ≤ 8 * s.dec.br.input.length)
    (hx : s.dec.br.NextIs s.dec.W x) :
    exec .decStep s = s.withDec ((s.dec.advance s.dec.W).firstCode x) := by
  have hne : s.dec.br.isEmpty = false := decide_eq_false (by rw [Br.remaining]; omega)
  rw [exec_decStep (decEnded_eq_false.2 (by tauto)), ← Dec.fetch_nextIs Dec.firstCode hlen hx]
  rcases hp with hp | hp <;> simp [Dec.step, hp, hne]

theorem Dec.firstCode_alphabet {d : Dec} {str : Bytes} (he : x ≠ d.eofCode) (ha : x < d.cfg.alphabetSize)
    (hs : (ctLookup x d.ct).getD (d.alphabetString x) = str) : d.firstCode x = .ok (d.restart str) := by
  rw [Dec.firstCode, if_neg he, if_pos ha, hs]

/-- R255, R256: in `RUN`, the width check before the read. -/
theorem exec_decStep_runCode {w : Nat} (hp : s.dec.phase = .run) (hw : w = s.dec.widthCheck.W)
    (hlen : s.dec.br.pos + w ≤ 8 * s.dec.br.input.length) (hx : s.dec.br.NextIs w x) :
    exec .decStep s = s.withDec ((s.dec.widthCheck.advance w).runCode x) := by
  subst hw
  have hb : s.dec.widthCheck.br = s.dec.br := by simp
  rw [exec_decStep (decEnded_eq_false.2 (by tauto)), ← Dec.fetch_nextIs Dec.runCode (hb ▸ hlen) (hb ▸ hx), Dec.step, hp]

/-- Settles O36: each row's effect by its class; the last clause is `DEC.STEP`, whose slot is empty. -/
theorem codewordRowsThatAreNoData : Obligations.CodewordRowsThatAreNoData := by
  intro s x hx _
  refine ⟨fun hp he => ?_, fun hp he => ?_, fun hp he => ?_, fun b hp he ha hb => ?_, fun b hp he ha hb => ?_,
    fun hp he ha => ?_, fun hp he ha => ?_, fun hp he hpol hr => ?_, fun hp he hr ha hno hn => ?_,
    fun b hp hpos hlen hnext he ha hb hno => ?_⟩
  · exact exec_codeword (c := .eofFirst) hx (by rw [classify_first hp, if_pos he])
  · exact exec_codeword (c := .eofPostReset) hx (by rw [classify_postReset hp, if_pos he])
  · exact exec_codeword (c := .eof) hx (by rw [classify_run hp, if_pos he])
  · rw [← Dec.alphabetString_eq hb]
    exact exec_codeword (c := .alphaFirst) hx (by rw [classify_first hp, if_neg he, if_pos ha])
  · rw [← Dec.alphabetString_eq hb]
    exact exec_codeword (c := .alphaPostReset) hx (by rw [classify_postReset hp, if_neg he, if_pos ha])
  · exact exec_codeword (c := .illegalFirst) hx (by rw [classify_first hp, if_neg he, if_neg ha.not_gt])
  · exact exec_codeword (c := .illegalPostReset) hx (by rw [classify_postReset hp, if_neg he, if_neg ha.not_gt])
  · exact ⟨_, exec_codeword (c := .reset) hx (by rw [classify_run hp, if_neg he, if_pos ⟨hpol, hr⟩]), ctInitial_wf _ _,
      mem_ctInitial _ _⟩
  · have hdict : ¬ (s.dec.initialNextCode ≤ x ∧ x < s.dec.nextCode ∧ (ctLookup x s.dec.ct).isSome = true) :=
      fun ⟨hi, hlt, hs⟩ => by rw [ctLookup_eq_none (hno hi hlt)] at hs; cases hs
    exact exec_codeword (c := .illegal) hx (by
      rw [classify_run hp, if_neg he, if_neg fun h => hr h.1 h.2, if_neg ha.not_gt, if_neg hdict, if_neg hn])
  · have hslot : (ctLookup x s.dec.ct).getD (s.dec.alphabetString x) = [b] := by
      rw [ctLookup_eq_none hno, Option.getD_none, Dec.alphabetString_eq hb]
    rw [exec_decStep_firstCode hp hpos hlen hnext, Dec.firstCode_alphabet (d := s.dec.advance s.dec.W) he ha hslot]
    rfl

/-- Settles O37: each row accepts the string its codeword denotes. -/
theorem codewordRowsOfData : Obligations.CodewordRowsOfData := by
  intro s x hp hx hct htrk he hr hv
  have hr' : ¬ (s.dec.cfg.policy = .reset ∧ x = s.dec.resetCode) := fun h => hr h.1 h.2
  have haccept {c : CwClass} {str : Bytes} (hc : s.view.classify x = some c)
      (heff : codewordEffect c x s.dec = s.dec.accept x str) (hs : str ≠ []) :
      ∃ d, exec (c.instr x) s = .next { s with dec := d } ∧ s.dec.DecodedTo x str d := by
    obtain ⟨d, hd, hto⟩ := Dec.accept_decodedTo (x := x) hct htrk hs hv
    exact ⟨d, by rw [exec_codeword hx hc, heff, hd, State.withDec_ok], hto⟩
  refine ⟨fun b ha hb => ?_, fun str ha hi hlt hs hne => ?_, fun b ha hn hb => ?_⟩
  · exact haccept (c := .alpha) (by rw [classify_run hp, if_neg he, if_neg hr', if_pos ha])
      (by rw [codewordEffect, Dec.alphabetString_eq hb]) (List.cons_ne_nil _ _)
  · have hslot := (mem_ct hct x str).1 hs
    exact haccept (c := .dict)
      (by rw [classify_run hp, if_neg he, if_neg hr', if_neg ha.not_gt, if_pos ⟨hi, hlt, by rw [hslot]; rfl⟩])
      (by rw [codewordEffect, hslot, Option.getD_some]) hne
  · have hkw : s.dec.kwkwk = s.dec.prev ++ [b] := by
      obtain ⟨bs, hbs⟩ : ∃ bs, s.dec.prev = b :: bs := List.head?_eq_some_iff.1 (List.head?_eq_getElem? ▸ hb)
      rw [Dec.kwkwk, hbs, List.take_succ_cons, List.take_zero]
    exact haccept (c := .kwkwk)
      (by rw [classify_run hp, if_neg he, if_neg hr', if_neg ha.not_gt, if_neg (by omega), if_pos hn])
      (by rw [codewordEffect, hkw]) (by simp)

/-! ### `DEC.STEP` is the row of its codeword -/

/-- In `FIRST` and `POSTRESET`, where the slot of an alphabet code holds its byte. -/
theorem firstCode_eq_codewordEffect (hp : s.dec.phase = .first ∨ s.dec.phase = .postReset)
    (hslot : x < s.dec.cfg.alphabetSize → ctLookup x s.dec.ct = some (s.dec.alphabetString x)) :
    ∃ c, s.view.classify x = some c ∧ s.dec.firstCode x = codewordEffect c x s.dec := by
  have halpha (he : x ≠ s.dec.eofCode) (ha : x < s.dec.cfg.alphabetSize) :
      s.dec.firstCode x = .ok (s.dec.restart (s.dec.alphabetString x)) :=
    Dec.firstCode_alphabet he ha (by rw [hslot ha, Option.getD_some])
  rcases hp with hp | hp
  on_goal 1 => rw [classify_first hp]
  on_goal 2 => rw [classify_postReset hp]
  all_goals
    split_ifs with he ha
    · exact ⟨_, rfl, if_pos he⟩
    · exact ⟨_, rfl, halpha he ha⟩
    · exact ⟨_, rfl, by rw [Dec.firstCode, if_neg he, if_neg ha]; rfl⟩

/-- In `RUN`, on a coherent table: an alphabet code has its slot, and a slot of a user code is one that was assigned. -/
theorem runCode_eq_codewordEffect (hp : s.dec.phase = .run) (hst : s.dec.Started) (hc : s.dec.Coherent)
    (hx : x < 2 ^ s.dec.W) : ∃ c, s.view.classify x = some c ∧ s.dec.runCode x = codewordEffect c x s.dec := by
  by_cases he : x = s.dec.eofCode
  · exact ⟨.eof, by rw [classify_run hp, if_pos he], if_pos he⟩
  by_cases hr : s.dec.cfg.policy = .reset ∧ x = s.dec.resetCode
  · exact ⟨.reset, by rw [classify_run hp, if_neg he, if_pos hr], by rw [Dec.runCode, if_neg he, if_pos hr]; rfl⟩
  have hdata {str : Bytes} (hs : s.dec.stringOf x = some str) : s.dec.runCode x = s.dec.accept x str :=
    Dec.runCode_data he (fun hpol hx => hr ⟨hpol, hx⟩) hs
  rw [classify_run hp, if_neg he, if_neg hr]
  split_ifs with ha hd hn
  · obtain ⟨b, hb, hslot⟩ := hc.alphabet_slot hst hx ha
    have hlt : x < s.dec.nextCode := by
      calc x < s.dec.cfg.alphabetSize := ha
        _ < firstUserCode s.dec.cfg := firstUserCode_gt _
        _ = s.dec.initialNextCode := hst.initial_eq.symm
        _ ≤ s.dec.nextCode := hst.next_low
    exact ⟨_, rfl, hdata (Dec.stringOf_some.2 (.inl ⟨hlt, by rw [hslot, Dec.alphabetString_eq hb]⟩))⟩
  · obtain ⟨-, hlt, hsome⟩ := hd
    obtain ⟨str, hslot⟩ := Option.isSome_iff_exists.1 hsome
    exact ⟨_, rfl, by rw [codewordEffect, hslot, Option.getD_some, hdata (Dec.stringOf_some.2 (.inl ⟨hlt, hslot⟩))]⟩
  · exact ⟨_, rfl, hdata (Dec.stringOf_some.2 (.inr ⟨hn, rfl⟩))⟩
  · have hnone : s.dec.stringOf x = none := Dec.stringOf_none.2 ⟨hn, fun hlt => by
      cases hslot : ctLookup x s.dec.ct with
      | none => rfl
      | some str => exact absurd ⟨(hc.user x str hslot (not_lt.1 ha)).1, hlt, by rw [hslot]; rfl⟩ hd⟩
    exact ⟨_, rfl, by rw [Dec.runCode, if_neg he, if_neg hr, hnone]; rfl⟩

/-- A step whose outcome on the decoder `d`, the codeword read, is the effect of the codeword's class is that class's row. -/
theorem exec_decStep_eq_row {d : Dec} {r : Except Refusal Dec} (hstep : exec .decStep s = s.withDec r) (hx : x < 2 ^ d.W)
    (hc : ∃ c, ({ s with dec := d } : State).view.classify x = some c ∧ r = codewordEffect c x d) :
    ∃ c : CwClass, ∃ t : State, t = { s with dec := d } ∧ t.view.classify x = some c ∧
      exec .decStep s = exec (c.instr x) t := by
  obtain ⟨c, hclass, rfl⟩ := hc
  refine ⟨c, _, rfl, hclass, ?_⟩
  rw [hstep, exec_codeword hx hclass]
  cases codewordEffect c x d <;> rfl

/-- The width check keeps `T` at `2^W` (R27). -/
theorem Dec.widthCheck_of_threshold {d : Dec} (h : d.T = 2 ^ d.W) :
    d.widthCheck = { d with W := d.widthCheck.W, T := 2 ^ d.widthCheck.W } := by
  unfold Dec.widthCheck
  split
  · rfl
  · rw [← h]

/-- Settles O38: on a decoder that the host drives, `Dec.firstCode` and `Dec.runCode` are the effect of the class. -/
theorem decStepIsTheRowOfItsCodeword : Obligations.DecStepIsTheRowOfItsCodeword := by
  intro s w x h hp hw hlen hnext
  have hst := h.inv.started (decStarted_of_ne hp)
  have hc := h.coherent hp
  by_cases hrun : s.dec.phase = .run
  · have hw' : w = s.dec.widthCheck.W := by simpa [hrun] using hw
    have hd : ({ s.dec with W := w, T := 2 ^ w, br := { s.dec.br with pos := s.dec.br.pos + w } } : Dec) =
        s.dec.widthCheck.advance w := by rw [Dec.widthCheck_of_threshold h.inv.threshold, ← hw']; rfl
    have hrun' : (s.dec.widthCheck.advance w).phase = .run := (Dec.widthCheck_phase _).trans hrun
    have hrem : w ≤ s.dec.widthCheck.br.remaining := by rw [Dec.widthCheck_br, Br.remaining]; omega
    have hst' := (h.inv.widthCheck.advance hrem).started (decStarted_of_ne (.inr (.inl hrun')))
    have hc' : (s.dec.widthCheck.advance w).Coherent := hc.widthCheck.congr rfl rfl rfl rfl rfl rfl
    have hx : x < 2 ^ (s.dec.widthCheck.advance w).W := hw' ▸ hnext.1
    rw [hd]
    exact exec_decStep_eq_row (exec_decStep_runCode hrun hw' hlen hnext) hx
      (runCode_eq_codewordEffect hrun' hst' hc' hx)
  · have hfirst : s.dec.phase = .first ∨ s.dec.phase = .postReset := by tauto
    have hw' : w = s.dec.W := by simpa [hrun] using hw
    subst hw'
    have hpos : 1 ≤ s.dec.W := le_trans (legalCfg_iff_LegalCfg.1 hst.legal).minW_pos hst.width_low
    rw [← h.inv.threshold]
    exact exec_decStep_eq_row (exec_decStep_firstCode hfirst (by omega) hlen hnext) hnext.1
      (firstCode_eq_codewordEffect hfirst fun ha => by
        obtain ⟨b, hb, hslot⟩ := hc.alphabet_slot hst hnext.1 ha
        exact hslot.trans (congrArg some (Dec.alphabetString_eq hb).symm))

end Sys2Proof.Machine
end

section
/-! The moves of the host (30_encoding.md R111, 70_reset_and_hazards.md R333, R342): what each does, and when it is none. -/

namespace Sys2Proof.Machine

/-- R111: the operations "issued by the host". -/
theorem hostIssued_iff (i : Instr) :
    hostIssued i = true ↔ i = .encStart ∨ (∃ c, i = .encByte c ∨ i = .encByteRun c) ∨ i = .encEnd ∨ i = .encEndRun ∨
      i = .decStart ∨ i = .decStep := by
  cases i <;> simp [hostIssued]

theorem encEnded_iff {p : EncPhase} : encEnded p = true ↔ p = .done ∨ p = .fault := by simp [encEnded]

theorem decEnded_iff {p : DecPhase} : decEnded p = true ↔ p = .done ∨ p = .fault := by simp [decEnded]

/-- Settles O54: each move is a condition on the phase, or on the operation issued, and its one effect. -/
theorem hostMoves : Obligations.HostMoves :=
  ⟨fun _ _ _ _ _ => ⟨fun h => if_pos h, fun h => if_neg h⟩, fun _ _ => ⟨fun h => if_pos h, fun h => if_neg h⟩,
    fun _ _ => ⟨fun h => if_pos h, fun h => if_neg (by simp [h])⟩, hostIssued_iff, fun _ =>
      ⟨fun h => if_pos (encEnded_iff.2 h), fun hd hf => if_neg fun h => (encEnded_iff.1 h).elim hd hf,
        fun h => if_pos (decEnded_iff.2 h), fun hd hf => if_neg fun h => (decEnded_iff.1 h).elim hd hf⟩⟩

end Sys2Proof.Machine
end

section
/-! The bit streams driven alone (40_bitstream.md R121 to R124) and the write-then-read law (R125): a list of writes leaves
one bit sequence behind, and each read takes its own bits off the front of that sequence. -/

namespace Sys2Proof.Machine

variable {s t : State}

/-! ### The writer (R121, R122) -/

theorem exec_bwWrite (hlive : encEnded s.enc.phase = false) (hopen : s.enc.bw.closed = false) (value width : Nat) :
    exec (.bwWrite value width) s = .next { s with enc := { s.enc with bw := s.enc.bw.write value width } } :=
  onEnc_next.2 ⟨hlive, require_next.2 ⟨by simp [hopen], rfl⟩⟩

theorem exec_bwClose (hlive : encEnded s.enc.phase = false) (hopen : s.enc.bw.closed = false) :
    exec .bwClose s = .next { s with enc := { s.enc with bw := s.enc.bw.close } } :=
  onEnc_next.2 ⟨hlive, require_next.2 ⟨by simp [hopen], rfl⟩⟩

/-- R121, R122: what needs an open writer has no step on a closed one. -/
theorem onEnc_writerClosed (hlive : encEnded s.enc.phase = false) (hclosed : s.enc.bw.closed = true)
    (k : Host.Outcome State Fault Refusal) :
    onEnc s (require (!s.enc.bw.closed) .writerClosed k) = .refused .writerClosed := by
  rw [onEnc_live hlive, hclosed, Bool.not_true, require_false]

/-- Settles O1: `BW.WRITE` is `Bw.write`, whose bits and buffer are known. -/
theorem bwWriteAppendsLowBits : Obligations.BwWriteAppendsLowBits := by
  intro value width s hlive
  refine ⟨fun hopen => ⟨s.enc.bw.write value width, exec_bwWrite hlive hopen value width, ?_, Bw.pend_write _ _ _,
    Bw.out_write _ _ _, hopen⟩, fun hclosed => onEnc_writerClosed hlive hclosed _⟩
  rw [Bw.bits_write, bitsOf_eq_msbFirst]

/-- Closing leaves as many bytes as the bits written fill, the last one perhaps in part (R122). -/
theorem Bw.length_out_close {b : Bw} (h : b.pend.length < 8) : b.close.out.length = (b.bitCount + 7) / 8 := by
  have hl := congrArg List.length (b.bits_close h)
  rw [Bw.length_bits, List.length_append, List.length_replicate, Bw.length_bits, Bw.bitCount, Bw.pend_close,
    List.length_nil] at hl
  have hc : b.bitCount = 8 * b.out.length + b.pend.length := rfl
  omega

/-- Settles O2: `BW.CLOSE` is `Bw.close`. -/
theorem bwCloseFlushesAndPads : Obligations.BwCloseFlushesAndPads := fun s hlive =>
  ⟨fun hopen hpend => ⟨s.enc.bw.close, exec_bwClose hlive hopen, Bw.bits_close _ hpend, Bw.pend_close _,
    Bw.length_out_close hpend, Bw.closed_close _⟩, fun hclosed => onEnc_writerClosed hlive hclosed _⟩

/-! ### The reader (R123, R124) -/

theorem exec_brRead_some {width v : Nat} {br : Br} (hlive : decEnded s.dec.phase = false)
    (h : s.dec.br.read width = some (v, br)) :
    exec (.brRead width) s = .next { s with dec := { s.dec with br := br }, ret := .nat v } := by
  rw [exec, execBrRead, onDec_live hlive, h]

theorem exec_brRead_none {width : Nat} (hlive : decEnded s.dec.phase = false) (h : s.dec.br.read width = none) :
    exec (.brRead width) s = .next (s.raise .dec (.truncated width s.dec.br.remaining)) := by
  rw [exec, execBrRead, onDec_live hlive, h]

/-- Settles O3: the two outcomes of `Br.read`. -/
theorem brReadAssemblesOrTruncates : Obligations.BrReadAssemblesOrTruncates := fun _ _ hlive =>
  ⟨fun hlen => ⟨_, Br.nextIs_take hlen, exec_brRead_some hlive (Br.read_of_nextIs hlen (Br.nextIs_take hlen))⟩,
    fun hshort => exec_brRead_none hlive (Br.read_none _ _ hshort)⟩

/-- A read raises exactly when too few bits remain: one that finds its bits leaves a live phase. -/
theorem exec_brRead_raises_iff {width : Nat} {c : Cause} (hlive : decEnded s.dec.phase = false) :
    exec (.brRead width) s = .next (s.raise .dec c) ↔
      s.dec.br.remaining < width ∧ c = .truncated width s.dec.br.remaining := by
  rcases s.dec.br.read_cases width with ⟨hshort, hread⟩ | ⟨hlen, hread⟩
  · rw [exec_brRead_none hlive hread]
    simp [State.raise, Dec.raise, hshort, eq_comm]
  · rw [exec_brRead_some hlive hread]
    refine ⟨fun h => ?_, fun ⟨hshort, _⟩ => absurd hlen (Nat.not_le_of_lt hshort)⟩
    have hphase : s.dec.phase = .fault := congrArg (fun t : State => t.dec.phase) (Host.Outcome.next.inj h)
    rw [hphase] at hlive
    cases hlive

/-- Settles O4: no bit remains exactly when a read of one bit finds too few. -/
theorem brEmptyAnswersNoBitRemains : Obligations.BrEmptyAnswersNoBitRemains := by
  intro s hlive
  refine ⟨s.dec.br.isEmpty, onDec_live hlive, ?_⟩
  rw [exec_brRead_raises_iff hlive, Br.isEmpty, decide_eq_true_iff, Nat.lt_one_iff]
  exact ⟨fun h => ⟨h, by rw [h]⟩, And.left⟩

/-! ### Write, then read (R125) -/

theorem performs_cons {i : Instr} (h : exec i s = .next t) (is : List Instr) : performs (i :: is) s = performs is t := by
  rw [performs, h]

/-- The bits of a list of values and widths, one after the other (R64, R121). -/
def writtenBits (ws : List (Nat × Nat)) : Bits := ws.flatMap fun w => bitsOf w.2 w.1

@[simp] theorem writtenBits_nil : writtenBits [] = [] := rfl

@[simp] theorem writtenBits_cons (v w : Nat) (ws : List (Nat × Nat)) :
    writtenBits ((v, w) :: ws) = bitsOf w v ++ writtenBits ws := rfl

@[simp] theorem writtenBits_append (ws ws' : List (Nat × Nat)) :
    writtenBits (ws ++ ws') = writtenBits ws ++ writtenBits ws' := List.flatMap_append

/-- Writes on an open writer, then the close: the bytes out are the bits before, the bits written, and fewer than eight
zero bits. -/
theorem performs_writes_close (ws : List (Nat × Nat)) (hlive : encEnded s.enc.phase = false)
    (hopen : s.enc.bw.closed = false) (hpend : s.enc.bw.pend.length < 8) :
    ∃ b : Bw, performs (ws.map (fun w => Instr.bwWrite w.1 w.2) ++ [.bwClose]) s =
        some { s with enc := { s.enc with bw := b } } ∧
      ∃ n < 8, b.out.flatMap bitsOfByte = s.enc.bw.bits ++ writtenBits ws ++ List.replicate n false := by
  induction ws generalizing s with
  | nil =>
    refine ⟨s.enc.bw.close, performs_cons (exec_bwClose hlive hopen) [], (8 - s.enc.bw.pend.length) % 8,
      Nat.mod_lt _ (by decide), ?_⟩
    rw [writtenBits_nil, List.append_nil, ← Bw.bits_close _ hpend, Bw.bits, Bw.pend_close, List.append_nil]
  | cons w ws ih =>
    obtain ⟨b, hb, n, hn, hout⟩ := ih (s := { s with enc := { s.enc with bw := s.enc.bw.write w.1 w.2 } })
      hlive hopen (Bw.pend_write _ _ _)
    refine ⟨b, (performs_cons (exec_bwWrite hlive hopen w.1 w.2) _).trans hb, n, hn, ?_⟩
    rw [hout, Bw.bits_write, writtenBits_cons, List.append_assoc s.enc.bw.bits]

/-- A read whose bits are those of `v` answers the low-order bits of `v`. -/
theorem exec_brRead_ahead {v w : Nat} {rest : Bits} (hlive : decEnded s.dec.phase = false)
    (h : s.dec.br.Ahead (bitsOf w v ++ rest)) :
    ∃ br : Br, exec (.brRead w) s = .next { s with dec := { s.dec with br := br }, ret := .nat (v % 2 ^ w) } ∧
      br.Ahead rest := by
  rw [← bitsOf_mod] at h
  obtain ⟨br, hread, hrest, -⟩ := h.read (Nat.mod_lt _ (Nat.two_pow_pos w))
  exact ⟨br, exec_brRead_some hlive hread, hrest⟩

/-- Reads at the widths of the bits ahead take those bits, and none raises a fault. -/
theorem performs_reads (ws : List (Nat × Nat)) {rest : Bits} (hlive : decEnded s.dec.phase = false)
    (h : s.dec.br.Ahead (writtenBits ws ++ rest)) :
    ∃ t, performs (ws.map fun w => Instr.brRead w.2) s = some t ∧ t.dec.br.Ahead rest ∧
      t.dec.phase = s.dec.phase ∧ t.dec.fault = s.dec.fault := by
  induction ws generalizing s with
  | nil => exact ⟨s, rfl, h, rfl, rfl⟩
  | cons w ws ih =>
    rw [writtenBits_cons, List.append_assoc] at h
    obtain ⟨br, hread, hrest⟩ := exec_brRead_ahead hlive h
    obtain ⟨t, ht, hat⟩ := ih
      (s := { s with dec := { s.dec with br := br }, ret := .nat (w.1 % 2 ^ w.2) }) hlive hrest
    exact ⟨t, (performs_cons hread _).trans ht, hat⟩

theorem Br.Ahead.length_eq {b : Br} {bs : Bits} (h : b.Ahead bs) : bs.length = 8 * b.input.length - b.pos := by
  rw [← h.1, List.length_drop, Br.length_bits]

/-- Settles O5: after the first `k` reads the bits of the other writes and the padding are ahead. -/
theorem writeThenRead : Obligations.WriteThenRead := by
  intro ws
  obtain ⟨b, hwrites, n, hn, hout⟩ := performs_writes_close (s := State.reset) ws rfl rfl (by decide)
  refine ⟨_, hwrites, fun k => ?_⟩
  have hstart : Br.Ahead { input := b.out, pos := 0 }
      (writtenBits (ws.take k) ++ (writtenBits (ws.drop k) ++ List.replicate n false)) := by
    rw [← List.append_assoc, ← writtenBits_append, List.take_append_drop]
    exact ⟨hout, Nat.zero_le _⟩
  obtain ⟨t, ht, hahead, hphase, hfault⟩ := performs_reads
    (s := State.hostSuppliesInput b.out { State.reset with enc := { State.reset.enc with bw := b } }) (ws.take k) rfl hstart
  refine ⟨t, ht, fun v w hk => ?_, fun hk => ?_⟩
  · obtain ⟨hlt, hget⟩ := List.getElem?_eq_some_iff.1 hk
    rw [List.drop_eq_getElem_cons hlt, hget, writtenBits_cons, List.append_assoc] at hahead
    obtain ⟨br, hread, -⟩ := exec_brRead_ahead (by rw [hphase]; rfl) hahead
    exact ⟨_, hread, rfl, hfault⟩
  · rw [List.drop_eq_nil_of_le hk, writtenBits_nil, List.nil_append] at hahead
    refine ⟨?_, fun x hx => ?_⟩
    · rw [← hahead.length_eq, List.length_replicate]
      omega
    · rw [hahead.1] at hx
      exact List.eq_of_mem_replicate hx

end Sys2Proof.Machine
end

section
/-! The dictionaries driven alone (41_codebook_tables.md R141 to R153): each operation passes its checks and then is one map
operation, of which the entries are known. -/

namespace Sys2Proof.Machine

variable {s : State} {k : Host.Outcome State Fault Refusal}

/-! ### The entries after a write or a removal -/

/-- R143, R144, entry by entry. -/
theorem mem_cbStore {cb : List (Bytes × Nat)} (h : mapWf bytesLt cb) (str : Bytes) (v : Option Nat) (t : Bytes) (c : Nat) :
    (t, c) ∈ cbStore str v cb ↔ t = str ∧ v = some c ∨ t ≠ str ∧ (t, c) ∈ cb := by
  rw [mem_cb (cbStore_wf str v h), mem_cb h, cbLookup_store]
  by_cases ht : t = str <;> simp [ht]

/-- R151, slot by slot. -/
theorem mem_ctStore {ct : List (Nat × Bytes)} (h : mapWf natLt ct) (x : Nat) (str : Bytes) (y : Nat) (t : Bytes) :
    (y, t) ∈ ctStore x str ct ↔ y = x ∧ t = str ∨ y ≠ x ∧ (y, t) ∈ ct := by
  rw [mem_ct (ctStore_wf x str h), mem_ct h, ctLookup_store]
  by_cases hy : y = x <;> simp [hy, eq_comm]

/-- R152, slot by slot. -/
theorem mem_ctErase {ct : List (Nat × Bytes)} (h : mapWf natLt ct) (x y : Nat) (t : Bytes) :
    (y, t) ∈ ctErase x ct ↔ y ≠ x ∧ (y, t) ∈ ct := by
  rw [mem_ct (ctErase_wf x h), mem_ct h, ctLookup_erase]
  by_cases hy : y = x <;> simp [hy]

/-! ### `CB` -/

/-- A live encoder instance and a non-empty string pass the checks of R141 to R144. -/
theorem onEnc_withStr_live {str : Bytes} (hlive : encEnded s.enc.phase = false) (hstr : str ≠ []) :
    onEnc s (withStr str k) = k := (onEnc_live hlive).trans (withStr_nonempty hstr)

theorem exec_cbGet_key {str : Bytes} {c : Nat} (hlive : encEnded s.enc.phase = false) (hstr : str ≠ [])
    (h : cbLookup str s.enc.cb = some c) : exec (.cbGet str) s = .next { s with ret := .nat c } := by
  rw [exec, execCbGet, onEnc_withStr_live hlive hstr, h]

theorem exec_cbGet_absent {str : Bytes} (hlive : encEnded s.enc.phase = false) (hstr : str ≠ [])
    (h : cbLookup str s.enc.cb = none) : exec (.cbGet str) s = .refused .keyAbsent := by
  rw [exec, execCbGet, onEnc_withStr_live hlive hstr, h]

/-- Settles O6: both operations answer `cbLookup`, which reads the entries of a canonical map. -/
theorem cbLookupsAnswerForTheExactString : Obligations.CbLookupsAnswerForTheExactString := by
  intro str s hlive hstr hwf
  refine ⟨⟨(cbLookup str s.enc.cb).isSome, onEnc_withStr_live hlive hstr, ?_⟩,
    fun c hc => exec_cbGet_key hlive hstr ((mem_cb hwf str c).1 hc),
    fun hno => exec_cbGet_absent hlive hstr (cbLookup_eq_none hno)⟩
  simp only [Option.isSome_iff_exists, mem_cb hwf]

/-- Settles O7: both operations are `cbStore`, `CB.REMOVE` with `absent`. -/
theorem cbPutAndRemoveChangeOneKey : Obligations.CbPutAndRemoveChangeOneKey := by
  intro str v s hlive hstr hwf
  refine ⟨⟨cbStore str v s.enc.cb, onEnc_withStr_live hlive hstr, cbStore_wf str v hwf, mem_cbStore hwf str v⟩,
    ⟨cbStore str none s.enc.cb, onEnc_withStr_live hlive hstr, cbStore_wf str none hwf, fun t c => ?_⟩⟩
  rw [mem_cbStore hwf]
  simp

/-- Settles O8: `CB.INIT` is `cbInitial`. -/
theorem cbInitLeavesTheAlphabet : Obligations.CbInitLeavesTheAlphabet := fun s hlive hw =>
  ⟨cbInitial s.enc.cfg.alphabet, onEnc_next.2 ⟨hlive, require_next.2 ⟨hw, rfl⟩⟩, cbInitial_wf _, mem_cbInitial⟩

/-! ### `CT` -/

/-- R150 to R152: a code below `M` passes the checks. -/
theorem onSlot_below {x : Nat} (hlive : decEnded s.dec.phase = false) (hw : s.dec.cfg.written = true)
    (hx : x < 2 ^ s.dec.cfg.maxW) : onSlot x s k = k := by
  rw [onSlot, onDec_live hlive, hw, require_true, tableSize, decide_eq_true hx, require_true]

/-- R150 to R152: a code at or above `M` has no slot. -/
theorem onSlot_outOfRange {x : Nat} (hlive : decEnded s.dec.phase = false) (hw : s.dec.cfg.written = true)
    (hx : 2 ^ s.dec.cfg.maxW ≤ x) : onSlot x s k = .refused .codeOutOfRange := by
  rw [onSlot, onDec_live hlive, hw, require_true, tableSize, decide_eq_false (Nat.not_lt.2 hx), require_false]

/-- R22: an unwritten `CFG` gives the table no size. -/
theorem onSlot_unwritten {x : Nat} (hlive : decEnded s.dec.phase = false) (hw : s.dec.cfg.written = false) :
    onSlot x s k = .refused .cfgUnwritten := by
  rw [onSlot, onDec_live hlive, hw, require_false]

/-- Settles O9: the three operations are `onSlot` of `ctLookup`, `ctStore` and `ctErase`, and `onSlot` has one outcome in
each of the three cases. -/
theorem ctOperationsReachOneSlot : Obligations.CtOperationsReachOneSlot := by
  intro x str s hlive hstr hwf
  refine ⟨fun hw hx => ⟨?lookup, ?insert, ?clear⟩,
    fun hw hx => ⟨onSlot_outOfRange hlive hw hx, onSlot_outOfRange hlive hw hx, onSlot_outOfRange hlive hw hx⟩,
    fun hw => ⟨onSlot_unwritten hlive hw, onSlot_unwritten hlive hw, onSlot_unwritten hlive hw⟩⟩
  case lookup =>
    exact ⟨ctLookup x s.dec.ct, onSlot_below hlive hw hx, fun t => (mem_ct hwf x t).symm⟩
  case insert =>
    exact ⟨ctStore x str s.dec.ct, (onSlot_below hlive hw hx).trans (withStr_nonempty hstr), ctStore_wf x str hwf,
      mem_ctStore hwf x str⟩
  case clear =>
    exact ⟨ctErase x s.dec.ct, onSlot_below hlive hw hx, ctErase_wf x hwf, mem_ctErase hwf x⟩

/-- Settles O10: `CT.INIT` is `ctInitial` of the unit's `M`. -/
theorem ctInitLeavesTheAlphabet : Obligations.CtInitLeavesTheAlphabet := fun s hlive hw =>
  ⟨ctInitial (tableSize s.dec.cfg) s.dec.cfg.alphabet, onDec_next.2 ⟨hlive, require_next.2 ⟨hw, rfl⟩⟩, ctInitial_wf _ _,
    mem_ctInitial _ _⟩

end Sys2Proof.Machine
end

section
/-! The tracker `LRU` driven alone (42_lru_tracker.md R160 to R163) and property P4: what the list held stays behind what
later operations put there, so that its back is the first use no later operation undoes. -/

namespace Sys2Proof.Machine

variable {p : Policy} {s : State}

/-! ### A tracker operation where the unit exists -/

theorem onTracker_str_live (hlive : encEnded s.enc.phase = false) (hw : s.enc.cfg.written = true)
    (hp : s.enc.cfg.policy = p) (k : Bytes) (str : Bytes → Trk Bytes → Trk Bytes) (code : Nat → Trk Nat → Trk Nat) :
    onTracker p (.str k) s str code = .next { s with enc := { s.enc with trk := str k s.enc.trk } } :=
  onTracker_next.2 ⟨hlive, hasTracker_iff.2 ⟨hw, hp⟩, rfl⟩

theorem onTracker_code_live (hlive : decEnded s.dec.phase = false) (hw : s.dec.cfg.written = true)
    (hp : s.dec.cfg.policy = p) (x : Nat) (str : Bytes → Trk Bytes → Trk Bytes) (code : Nat → Trk Nat → Trk Nat) :
    onTracker p (.code x) s str code = .next { s with dec := { s.dec with trk := code x s.dec.trk } } :=
  onTracker_next.2 ⟨hlive, hasTracker_iff.2 ⟨hw, hp⟩, rfl⟩

theorem onFind_enc_live (hlive : encEnded s.enc.phase = false) (hw : s.enc.cfg.written = true)
    (hp : s.enc.cfg.policy = p) :
    onFind p .enc s = .next { s with ret := .key ((s.enc.trk.find p).map Key.str) } :=
  onFind_next.2 ⟨hlive, hasTracker_iff.2 ⟨hw, hp⟩, rfl⟩

theorem onFind_dec_live (hlive : decEnded s.dec.phase = false) (hw : s.dec.cfg.written = true)
    (hp : s.dec.cfg.policy = p) :
    onFind p .dec s = .next { s with ret := .key ((s.dec.trk.find p).map Key.code) } :=
  onFind_next.2 ⟨hlive, hasTracker_iff.2 ⟨hw, hp⟩, rfl⟩

/-- Settles O11: the operations are `lruTouch`, `lruDrop` and `lruVictim`, and in a list of distinct keys to take every
occurrence of a key out is to take one. -/
theorem lruOperations : Obligations.LruOperations := by
  simp only [Obligations.LruOperations, exec, execLruUse, execLruRemove, execLruFind]
  refine ⟨fun k s hlive hw hp hnodup => ?str, fun x s hlive hw hp hnodup => ?code⟩
  case str =>
    rw [← without_eq_erase hnodup]
    exact ⟨onTracker_str_live hlive hw hp k _ _, onTracker_str_live hlive hw hp k _ _, onFind_enc_live hlive hw hp⟩
  case code =>
    rw [← without_eq_erase hnodup]
    exact ⟨onTracker_code_live hlive hw hp x _ _, onTracker_code_live hlive hw hp x _ _, onFind_dec_live hlive hw hp⟩

/-! ### Sequences of uses and removals -/

section Sequences
variable {K : Type}

/-- No operation of the sequence is on `k`. -/
def Untouched (k : K) (ops : List (Bool × K)) : Prop := ∀ o ∈ ops, o.2 ≠ k

theorem untouched_cons {k : K} {o : Bool × K} {os : List (Bool × K)} :
    Untouched k (o :: os) ↔ o.2 ≠ k ∧ Untouched k os := List.forall_mem_cons

variable [DecidableEq K]

/-- The list after a use (`true`, R161) or a removal (`false`, R162). -/
def lruApply (o : Bool × K) (ks : List K) : List K := if o.1 then lruTouch o.2 ks else lruDrop o.2 ks

/-- The list after a sequence of uses and removals. -/
def lruAfter : List (Bool × K) → List K → List K
  | [], ks => ks
  | o :: os, ks => lruAfter os (lruApply o ks)

/-- An operation puts in front what it would put on an empty list, and else takes its key out. -/
theorem lruApply_eq_append (o : Bool × K) (ks : List K) : lruApply o ks = lruApply o [] ++ without o.2 ks := by
  obtain ⟨use, k⟩ := o
  cases use <;> rfl

open Classical in
/-- What the list held before stays behind what the sequence puts there, in its order, but for the keys the sequence
touches. -/
theorem lruAfter_eq_append (ops : List (Bool × K)) (ks : List K) :
    lruAfter ops ks = lruAfter ops [] ++ ks.filter (Untouched · ops) := by
  induction ops generalizing ks with
  | nil => simp [lruAfter, Untouched]
  | cons o os ih =>
    have hkept : (without o.2 ks).filter (Untouched · os) = ks.filter (Untouched · (o :: os)) := by
      rw [without, List.filter_filter]
      exact List.filter_congr fun k _ => by simp [untouched_cons, Bool.and_comm, eq_comm]
    calc lruAfter os (lruApply o ks)
        = lruAfter os [] ++ (lruApply o ks).filter (Untouched · os) := ih _
      _ = (lruAfter os [] ++ (lruApply o []).filter (Untouched · os)) ++ (without o.2 ks).filter (Untouched · os) := by
          rw [lruApply_eq_append, List.filter_append, List.append_assoc]
      _ = lruAfter os (lruApply o []) ++ ks.filter (Untouched · (o :: os)) := by rw [← ih, hkept]

/-- A key used first and then left alone is the back of the list. -/
theorem lruVictim_after_kept_use {k : K} {os : List (Bool × K)} (h : Untouched k os) :
    lruVictim (lruAfter ((true, k) :: os) []) = some k := by
  have hone : lruApply (true, k) [] = [k] := rfl
  rw [lruAfter, lruAfter_eq_append, hone, List.filter_cons_of_pos (by simpa using h)]
  exact List.getLast?_concat

/-- A removal, and a use whose key is touched again, leave no trace on an empty list. -/
theorem lruAfter_cons_of_lost {o : Bool × K} {os : List (Bool × K)} (h : ¬(o.1 = true ∧ Untouched o.2 os)) :
    lruAfter (o :: os) [] = lruAfter os [] := by
  obtain ⟨use, k⟩ := o
  cases use
  case false => rfl
  case true =>
    have hone : lruApply (true, k) [] = [k] := rfl
    rw [lruAfter, lruAfter_eq_append, hone, List.filter_cons_of_neg (by simpa using h), List.filter_nil, List.append_nil]

end Sequences

/-! ### The key unused the longest (P4) -/

section Oldest
variable {K : Type} {o : Bool × K} {os : List (Bool × K)} {v : K}

/-- The operation at `i` is a use of `v`, and the last operation on `v`. -/
def LastUse (ops : List (Bool × K)) (v : K) (i : Nat) : Prop :=
  ops[i]? = some (true, v) ∧ ∀ j o, i < j → ops[j]? = some o → o.2 ≠ v

/-- `v` is live, and no live key's last use is older. -/
def UnusedTheLongest (ops : List (Bool × K)) (v : K) : Prop :=
  ∃ i, LastUse ops v i ∧ ∀ w i', LastUse ops w i' → i ≤ i'

theorem lastUse_cons_zero : LastUse (o :: os) v 0 ↔ o = (true, v) ∧ Untouched v os := by
  simp only [LastUse, Untouched, List.getElem?_cons_zero, Option.some.injEq, List.mem_iff_getElem?]
  refine and_congr_right fun _ => ⟨fun h q ⟨j, hj⟩ => h (j + 1) q j.succ_pos hj, fun h j q hpos hj => h q ⟨j - 1, ?_⟩⟩
  rwa [← Nat.sub_add_cancel hpos, List.getElem?_cons_succ] at hj

theorem lastUse_cons_succ {i : Nat} : LastUse (o :: os) v (i + 1) ↔ LastUse os v i := by
  refine and_congr_right fun _ => ⟨fun h j q hij => h (j + 1) q (by omega), fun h j q hij hj => ?_⟩
  obtain ⟨j, rfl⟩ : ∃ j', j = j' + 1 := ⟨j - 1, by omega⟩
  exact h j q (by omega) hj

theorem unusedTheLongest_cons_of_kept {k : K} (h : Untouched k os) :
    UnusedTheLongest ((true, k) :: os) v ↔ k = v := by
  have hk : LastUse ((true, k) :: os) k 0 := lastUse_cons_zero.2 ⟨rfl, h⟩
  refine ⟨fun ⟨i, hi, hmin⟩ => ?_, fun hv => ⟨0, hv ▸ hk, fun _ _ _ => Nat.zero_le _⟩⟩
  obtain rfl : i = 0 := Nat.le_zero.1 (hmin k 0 hk)
  simpa using (lastUse_cons_zero.1 hi).1

theorem unusedTheLongest_cons_of_lost (h : ¬(o.1 = true ∧ Untouched o.2 os)) :
    UnusedTheLongest (o :: os) v ↔ UnusedTheLongest os v := by
  have hzero (w : K) : ¬LastUse (o :: os) w 0 := fun hw => by
    obtain ⟨rfl, hu⟩ := lastUse_cons_zero.1 hw
    exact h ⟨rfl, hu⟩
  constructor
  · rintro ⟨_ | i, hi, hmin⟩
    · exact absurd hi (hzero v)
    · exact ⟨i, lastUse_cons_succ.1 hi, fun w i' hw => Nat.le_of_succ_le_succ (hmin w (i' + 1) (lastUse_cons_succ.2 hw))⟩
  · rintro ⟨i, hi, hmin⟩
    refine ⟨i + 1, lastUse_cons_succ.2 hi, fun w i' hw => ?_⟩
    cases i' with
    | zero => exact absurd hw (hzero w)
    | succ i' => exact Nat.succ_le_succ (hmin w i' (lastUse_cons_succ.1 hw))

/-- P4 of the list itself: the first operation decides when it is a use that is kept, and else it does not matter. -/
theorem lruVictim_after_eq_some_iff [DecidableEq K] (ops : List (Bool × K)) (v : K) :
    lruVictim (lruAfter ops []) = some v ↔ UnusedTheLongest ops v := by
  induction ops with
  | nil => simp [lruVictim, lruAfter, UnusedTheLongest, LastUse]
  | cons o os ih =>
    by_cases hkept : o.1 = true ∧ Untouched o.2 os
    · obtain ⟨use, k⟩ := o
      obtain ⟨rfl, hu⟩ : use = true ∧ Untouched k os := hkept
      rw [lruVictim_after_kept_use hu, unusedTheLongest_cons_of_kept hu, Option.some.injEq]
    · rw [lruAfter_cons_of_lost hkept, ih, unusedTheLongest_cons_of_lost hkept]

end Oldest

/-! ### The instructions of a sequence -/

theorem exec_lruApply (hlive : decEnded s.dec.phase = false) (hw : s.dec.cfg.written = true)
    (hp : s.dec.cfg.policy = .lru) (o : Bool × Nat) :
    exec (if o.1 then .lruUse (.code o.2) else .lruRemove (.code o.2)) s = .next { s with
      dec := { s.dec with trk := { s.dec.trk with lru := lruApply o s.dec.trk.lru } } } := by
  obtain ⟨_ | _, x⟩ := o
  · simp only [Bool.false_eq_true, if_false, exec, execLruRemove, onTracker_code_live hlive hw hp, lruApply]
  · simp only [if_true, exec, execLruUse, onTracker_code_live hlive hw hp, lruApply]

theorem performs_lruAfter (ops : List (Bool × Nat)) (hlive : decEnded s.dec.phase = false)
    (hw : s.dec.cfg.written = true) (hp : s.dec.cfg.policy = .lru) :
    performs (ops.map fun o => if o.1 then Instr.lruUse (.code o.2) else .lruRemove (.code o.2)) s =
      some { s with dec := { s.dec with trk := { s.dec.trk with lru := lruAfter ops s.dec.trk.lru } } } := by
  induction ops generalizing s with
  | nil => rfl
  | cons o os ih => exact (performs_cons (exec_lruApply hlive hw hp o) _).trans (ih hlive hw hp)

/-- Settles O12: the operations leave `lruAfter ops []` behind, and `LRU.FIND` answers its back. -/
theorem lruFindsTheLeastRecentlyUsed : Obligations.LruFindsTheLeastRecentlyUsed := by
  intro ops s hlive hw hp hempty
  have hperforms := performs_lruAfter ops hlive hw hp
  rw [hempty] at hperforms
  refine ⟨_, lruVictim (lruAfter ops []), hperforms, onFind_dec_live hlive hw hp, fun v => ?_⟩
  simpa only [UnusedTheLongest, LastUse, and_assoc, and_imp] using lruVictim_after_eq_some_iff ops v

end Sys2Proof.Machine
end

section
/-! The tracker `LFU` driven alone (43_lfu_tracker.md R175 to R180) and property P5 with its tie-break (R181, R183): after
a sequence of uses, frequencies count the uses, and each bucket holds its keys by their last uses, the latest in front. -/

namespace Sys2Proof.Machine

variable {s : State}

/-- Settles O13: `LFU.USE` is `Lfu.touch`, which keeps R39. -/
theorem lfuUseCountsAndPushesToTheFront : Obligations.LfuUseCountsAndPushesToTheFront := by
  simp only [Obligations.LfuUseCountsAndPushesToTheFront, exec, execLfuUse]
  refine ⟨fun k s hlive hw hp hc => ?str, fun x s hlive hw hp hc => ?code⟩
  case str =>
    exact ⟨s.enc.trk.lfu.touch bytesLt k, onTracker_str_live hlive hw hp k _ _, Lfu.touch_usedTo k hc,
      Lfu.touch_consistent bytesLt_order k hc⟩
  case code =>
    exact ⟨s.dec.trk.lfu.touch natLt x, onTracker_code_live hlive hw hp x _ _, Lfu.touch_usedTo x hc,
      Lfu.touch_consistent natLt_order x hc⟩

/-- Settles O14: `LFU.REMOVE` is `Lfu.drop`, which keeps R39, and `LFU.FIND` is `Lfu.victim`. -/
theorem lfuRemoveAndFind : Obligations.LfuRemoveAndFind := by
  simp only [Obligations.LfuRemoveAndFind, exec, execLfuRemove, execLfuFind]
  refine ⟨fun k s hlive hw hp hc => ⟨?str, onFind_enc_live hlive hw hp⟩,
    fun x s hlive hw hp hc => ⟨?code, onFind_dec_live hlive hw hp⟩⟩
  case str =>
    exact ⟨s.enc.trk.lfu.drop k, onTracker_str_live hlive hw hp k _ _, Lfu.drop_removedTo k hc, Lfu.drop_consistent k hc⟩
  case code =>
    exact ⟨s.dec.trk.lfu.drop x, onTracker_code_live hlive hw hp x _ _, Lfu.drop_removedTo x hc, Lfu.drop_consistent x hc⟩

/-! ### A use that stands after every use of another key -/

section UsedAfter
variable {K : Type} {ks : List K} {v k : K}

/-- Some use of `k` in the sequence stands after every use of `v`. -/
def UsedAfter (ks : List K) (v k : K) : Prop := ∃ i : Nat, ks[i]? = some k ∧ ∀ j : Nat, i ≤ j → ks[j]? ≠ some v

theorem usedAfter_concat_self (h : v ≠ k) : UsedAfter (ks ++ [k]) v k := by
  refine ⟨ks.length, List.getElem?_concat_length, fun j hj hv => ?_⟩
  rw [List.getElem?_append_right hj] at hv
  exact h (List.mem_singleton.1 (List.mem_of_getElem? hv))

/-- A later use of a third key changes nothing. -/
theorem UsedAfter.concat {x : K} (h : UsedAfter ks v k) (hx : v ≠ x) : UsedAfter (ks ++ [x]) v k := by
  obtain ⟨i, hi, hafter⟩ := h
  refine ⟨i, List.getElem?_append_left (List.getElem?_eq_some_iff.1 hi).1 ▸ hi, fun j hij hv => ?_⟩
  rcases Nat.lt_or_ge j ks.length with hj | hj
  · exact hafter j hij (List.getElem?_append_left hj ▸ hv)
  · rw [List.getElem?_append_right hj] at hv
    exact hx (List.mem_singleton.1 (List.mem_of_getElem? hv))

end UsedAfter

/-! ### Sequences of uses -/

section Sequences
variable {K : Type} [DecidableEq K] {lt : K → K → Bool} {ks : List K} {k v : K} {l : Lfu K}

/-- The unit after a sequence of uses (R176). -/
def lfuAfter (lt : K → K → Bool) (ks : List K) (l : Lfu K) : Lfu K := ks.foldl (fun l k => l.touch lt k) l

/-- R177 and R178 as one rule: a use counts from 0. -/
theorem Lfu.freq_touch (lt : K → K → Bool) (k : K) (l : Lfu K) (k' : K) :
    mapGet k' (l.touch lt k).freq = if k' = k then some ((mapGet k l.freq).getD 0 + 1) else mapGet k' l.freq := by
  cases h : mapGet k l.freq with
  | none => exact (Lfu.touch_new h).1 k'
  | some f => exact (Lfu.touch_old h).1 k'

/-- R177 and R178 as one rule: a use takes the key out of every bucket and puts it in front of the one of its new
frequency. -/
theorem Lfu.at_touch (lt : K → K → Bool) (k : K) (hc : l.Consistent lt) (g : Nat) :
    (l.touch lt k).at g =
      if g = (mapGet k l.freq).getD 0 + 1 then k :: without k (l.at g) else without k (l.at g) := by
  have hother : mapGet k l.freq ≠ some g → without k (l.at g) = l.at g :=
    fun h => without_of_not_mem fun hm => h ((hc.member k g).1 hm)
  cases h : mapGet k l.freq with
  | none =>
    rw [(Lfu.touch_new h).2.1, hother (by simp [h])]
    by_cases hg : g = 1 <;> simp [hg]
  | some f =>
    rw [(Lfu.touch_old h).2.1]
    by_cases hnew : g = f + 1
    · rw [hother (by simp [h, hnew])]
      simp [hnew]
    · by_cases hold : g = f
      · simp [hold]
      · rw [hother (by simpa [h, eq_comm] using hold)]
        simp [hnew, hold]

variable [BEq K] [LawfulBEq K]

/-- What the unit holds after the uses `ks` of an empty one: the number of uses of each key, each bucket in the order of
the last uses. -/
structure Lfu.Counts (lt : K → K → Bool) (ks : List K) (l : Lfu K) : Prop where
  consistent : l.Consistent lt
  fresh : l.Fresh
  freq : ∀ k, mapGet k l.freq = if k ∈ ks then some (ks.count k) else none
  recent : ∀ g, (l.at g).Pairwise fun k v => UsedAfter ks v k

theorem Lfu.empty_counts (lt : K → K → Bool) : ({ freq := [], bucket := [], minFreq := 0 } : Lfu K).Counts lt [] where
  consistent := Lfu.empty_consistent lt
  fresh := Lfu.empty_fresh
  freq _ := rfl
  recent _ := List.Pairwise.nil

theorem Lfu.Counts.getD_freq (h : l.Counts lt ks) (k : K) : (mapGet k l.freq).getD 0 = ks.count k := by
  rw [h.freq]
  split
  · rfl
  · next hk => exact (List.count_eq_zero.2 hk).symm

theorem Lfu.Counts.touch (o : KeyOrder lt) (x : K) (h : l.Counts lt ks) : (l.touch lt x).Counts lt (ks ++ [x]) where
  consistent := Lfu.touch_consistent o x h.consistent
  fresh := Lfu.touch_fresh x h.consistent (.inl h.fresh)
  freq k := by
    rw [Lfu.freq_touch, h.getD_freq, h.freq]
    by_cases hk : k = x
    · simp [hk]
    · simp [hk, Ne.symm hk]
  recent g := by
    have hrest : (without x (l.at g)).Pairwise fun k v => UsedAfter (ks ++ [x]) v k :=
      ((h.recent g).filter _).imp_of_mem fun _ hv hkv => hkv.concat (mem_without.1 hv).2
    rw [Lfu.at_touch lt x h.consistent]
    split
    · exact List.pairwise_cons.2 ⟨fun v hv => usedAfter_concat_self (mem_without.1 hv).2, hrest⟩
    · exact hrest

theorem lfuAfter_counts (o : KeyOrder lt) (ks : List K) :
    (lfuAfter lt ks { freq := [], bucket := [], minFreq := 0 }).Counts lt ks := by
  induction ks using List.reverseRecOn with
  | nil => exact Lfu.empty_counts lt
  | append_singleton ks x ih =>
    rw [lfuAfter, List.foldl_concat]
    exact ih.touch o x

/-! ### The oldest of the least used keys (P5) -/

theorem Lfu.Counts.victim_eq_none_iff (h : l.Counts lt ks) : l.victim = none ↔ ks = [] := by
  cases ks with
  | nil =>
    refine iff_of_true (Option.eq_none_iff_forall_ne_some.2 fun v hv => ?_) rfl
    have hfreq := (h.consistent.member v _).1 (List.mem_of_getLast? hv)
    rw [h.freq] at hfreq
    simp at hfreq
  | cons k ks =>
    obtain ⟨v, hv, -⟩ := Lfu.victim_fresh h.consistent h.fresh ((h.freq k).trans (if_pos List.mem_cons_self))
    simp [hv]

theorem Lfu.Counts.mem_at_iff (h : l.Counts lt ks) {f : Nat} : k ∈ l.at f ↔ k ∈ ks ∧ ks.count k = f := by
  rw [h.consistent.member, h.freq]
  simp

/-- The victim is in the bucket of the smallest count, behind every other key there. -/
theorem Lfu.Counts.victim_spec (h : l.Counts lt ks) (hv : l.victim = some v) :
    v ∈ ks ∧ ∀ k ∈ ks, ks.count v ≤ ks.count k ∧ (ks.count k = ks.count v → k ≠ v → UsedAfter ks v k) := by
  obtain ⟨front, hbucket⟩ := List.getLast?_eq_some_iff.1 hv
  obtain ⟨hmem, hcount⟩ := h.mem_at_iff.1 (List.mem_of_getLast? hv)
  refine ⟨hmem, fun k hk => ⟨?least, fun htie hne => ?oldest⟩⟩
  case least => exact hcount ▸ (h.fresh k _ ((h.freq k).trans (if_pos hk))).1
  case oldest =>
    have hrecent := h.recent l.minFreq
    have hkmem := h.mem_at_iff.2 ⟨hk, htie.trans hcount⟩
    rw [hbucket] at hrecent hkmem
    have hfront : k ∈ front := (List.mem_append.1 hkmem).resolve_right (hne <| List.mem_singleton.1 ·)
    exact (List.pairwise_append.1 hrecent).2.2 k hfront v (List.mem_singleton.2 rfl)

end Sequences

/-! ### The instructions of a sequence -/

theorem exec_lfuUse_code (hlive : decEnded s.dec.phase = false) (hw : s.dec.cfg.written = true)
    (hp : s.dec.cfg.policy = .lfu) (x : Nat) :
    exec (.lfuUse (.code x)) s =
      .next { s with dec := { s.dec with trk := { s.dec.trk with lfu := s.dec.trk.lfu.touch natLt x } } } := by
  rw [exec, execLfuUse, onTracker_code_live hlive hw hp]

theorem performs_lfuAfter (ks : List Nat) (hlive : decEnded s.dec.phase = false) (hw : s.dec.cfg.written = true)
    (hp : s.dec.cfg.policy = .lfu) :
    performs (ks.map fun k => Instr.lfuUse (.code k)) s =
      some { s with dec := { s.dec with trk := { s.dec.trk with lfu := lfuAfter natLt ks s.dec.trk.lfu } } } := by
  induction ks generalizing s with
  | nil => rfl
  | cons k ks ih => exact (performs_cons (exec_lfuUse_code hlive hw hp k) _).trans (ih hlive hw hp)

/-- Settles O15: the uses leave `lfuAfter` behind, which counts them, and `LFU.FIND` answers its victim. -/
theorem lfuFindsTheOldestLeastUsed : Obligations.LfuFindsTheOldestLeastUsed := by
  intro ks s hlive hw hp hempty
  have hperforms := performs_lfuAfter ks hlive hw hp
  rw [hempty] at hperforms
  have hcounts := lfuAfter_counts natLt_order ks
  exact ⟨_, _, hperforms, onFind_dec_live hlive hw hp, hcounts.victim_eq_none_iff, fun v hv => hcounts.victim_spec hv⟩

end Sys2Proof.Machine
end

section
/-! The header codec driven alone (44_header_codec.md R196, R199, R202): the bytes `HDR.WRITE` leaves, and `HDR.READ`
on a complete header and on one cut short. -/

namespace Sys2Proof.Machine

variable {s : State} {d : Dec}

/-! ### `HDR.WRITE` (R196) -/

theorem exec_hdrWrite (hlive : encEnded s.enc.phase = false) (hw : s.enc.cfg.written = true)
    (hopen : s.enc.bw.closed = false) (hempty : s.enc.bw.bitCount = 0) :
    exec .hdrWrite s = .next { s with enc := s.enc.hdrWrite } := by
  rw [exec, execHdrWrite, onEnc_live hlive, hw, hopen, hempty]
  rfl

/-- Settles O17: `HDR.WRITE` from the writer as created leaves `headerBytes`. -/
theorem hdrWriteLeavesTheHeader : Obligations.HdrWriteLeavesTheHeader := by
  intro s hlive hw hbw
  rw [exec_hdrWrite hlive hw (by rw [hbw]) (by rw [hbw]; rfl), ← Enc.hdrWrite_created hbw]
  rfl

/-! ### One field of the header, read or cut short -/

section Fields
variable {c : Cfg} {k : Nat} {v w : Byte}

/-- A field of one byte, at byte `k`. -/
theorem Dec.readField_byte (hv : d.br.input[k]? = some v) (take : Nat → Dec → Dec) :
    (d.headerAt c (8 * k)).readField 8 take = take v.toNat (d.headerAt c (8 * (k + 1))) :=
  Dec.readField_some (d := d.headerAt c (8 * k)) (Br.read_byte rfl hv) take

/-- R202: a field that does not fit in the `left` bytes of the input from byte `k` on. -/
theorem Dec.readField_cut {left width : Nat} (hlen : d.br.input.length = left + k) (hshort : 8 * left < width)
    (take : Nat → Dec → Dec) :
    (d.headerAt c (8 * k)).readField width take = (d.headerAt c (8 * k)).raise (.truncated width (8 * left)) := by
  have hrem : (d.headerAt c (8 * k)).br.remaining = 8 * left := by
    rw [Br.remaining, Dec.headerAt_input, Dec.headerAt_pos, hlen]
    omega
  rw [Dec.readField_none (hrem ▸ hshort), hrem]

theorem Dec.getMinW_byte (hv : d.br.input[k]? = some v) :
    (d.headerAt c (8 * k)).getMinW = d.headerAt { c with minW := v.toNat } (8 * (k + 1)) := Dec.readField_byte hv _

theorem Dec.getMaxW_byte (hv : d.br.input[k]? = some v) :
    (d.headerAt c (8 * k)).getMaxW = d.headerAt { c with maxW := v.toNat } (8 * (k + 1)) := Dec.readField_byte hv _

theorem Dec.getPolicy_byte (hv : d.br.input[k]? = some v) :
    (d.headerAt c (8 * k)).getPolicy = d.headerAt { c with policy := Policy.ofCode v.toNat } (8 * (k + 1)) :=
  Dec.readField_byte hv _

theorem Dec.getAlphabetSize_bytes (hv : d.br.input[k]? = some v) (hw : d.br.input[k + 1]? = some w) :
    (d.headerAt c (8 * k)).getAlphabetSize = d.headerAt
      { c with alphabetSize := 256 * v.toNat + w.toNat, alphabet := c.alphabet.take (256 * v.toNat + w.toNat) }
      (8 * (k + 2)) :=
  Dec.readField_some (d := d.headerAt c (8 * k)) (Br.read_two_bytes rfl hv hw) _

theorem Dec.getAlphabet_byte (i : Nat) (hv : d.br.input[k]? = some v) :
    (d.headerAt c (8 * k)).getAlphabet i = d.headerAt { c with alphabet := setByte i v c.alphabet } (8 * (k + 1)) :=
  Dec.getAlphabet_eq (d := d.headerAt c (8 * k)) rfl hv

end Fields

theorem Dec.headerAt_andThen (hp : d.phase ≠ .fault) (c : Cfg) (pos : Nat) (f : Dec → Dec) :
    (d.headerAt c pos).andThen f = f (d.headerAt c pos) := Dec.andThen_live (d := d.headerAt c pos) hp f

theorem Dec.raise_andThen (c : Cause) (d : Dec) (f : Dec → Dec) : (d.raise c).andThen f = d.raise c :=
  Dec.andThen_fault rfl f

/-! ### A header cut short (R202) -/

/-- The loop over the alphabet bytes with fewer in the input than it reads: every byte there is in place, and the next
read raises. -/
theorem Dec.getBytes_cut (hp : d.phase ≠ .fault) (n i : Nat) (c : Cfg) (hlen : 5 + i ≤ d.br.input.length)
    (hcut : d.br.input.length < 5 + i + n) (hdone : c.alphabet.take i = (d.br.input.drop 5).take i)
    (hi : i ≤ c.alphabet.length) :
    ∃ alphabet, alphabet.take (d.br.input.length - 5) = d.br.input.drop 5 ∧
      (d.headerAt c (8 * (5 + i))).getBytes n i =
        (d.headerAt { c with alphabet := alphabet } (8 * d.br.input.length)).raise (.truncated 8 0) := by
  induction n generalizing i c with
  | zero => omega
  | succ n ih =>
    rw [Dec.getBytes]
    rcases Nat.eq_or_lt_of_le hlen with hend | hmore
    · have hrest : d.br.input.length - 5 = i := by omega
      refine ⟨c.alphabet, ?_, ?_⟩
      · rw [hrest, hdone, List.take_of_length_le (by rw [List.length_drop, hrest])]
      · rw [Dec.getAlphabet, Dec.readField_cut (left := 0) (by omega) (by decide), Dec.raise_andThen, hend]
    · obtain ⟨v, hv⟩ : ∃ v, d.br.input[5 + i]? = some v := ⟨_, List.getElem?_eq_getElem hmore⟩
      have hnext : (d.br.input.drop 5)[i]? = some v := by rw [List.getElem?_drop, hv]
      rw [Dec.getAlphabet_byte i hv, Dec.headerAt_andThen hp]
      refine ih (i + 1) { c with alphabet := setByte i v c.alphabet } hmore (by omega) ?_ ?_
      · rw [take_setByte v hi, hdone, List.take_add_one, hnext]
        rfl
      · rw [length_setByte]
        omega

/-- The header from `alphabetSize` on, as `HDR.READ` reads it (R199). -/
def Dec.hdrReadFromSize (d : Dec) : Dec :=
  (d.getAlphabetSize.andThen fun d => d.getBytes d.cfg.alphabetSize 0).andThen fun d =>
    { d with cfg := { d.cfg with written := true } }

theorem Dec.hdrRead_three (hp : d.phase ≠ .fault) {a b p : Byte} {rest : Bytes}
    (hin : d.br.input = a :: b :: p :: rest) (c : Cfg) :
    (d.headerAt c 0).hdrRead = (d.headerAt
      { c with minW := a.toNat, maxW := b.toNat, policy := Policy.ofCode p.toNat } (8 * 3)).hdrReadFromSize := by
  have hat (k : Nat) : d.br.input[k]? = (a :: b :: p :: rest)[k]? := by rw [hin]
  rw [Dec.hdrRead, Dec.getMinW_byte (hat 0), Dec.headerAt_andThen hp, Dec.getMaxW_byte (hat 1), Dec.headerAt_andThen hp,
    Dec.getPolicy_byte (hat 2), Dec.headerAt_andThen hp]
  rfl

/-- A header that ends inside the alphabet. -/
theorem Dec.hdrRead_cut_in_alphabet (hp : d.phase ≠ .fault) {a b p h l : Byte} {rest : Bytes}
    (hin : d.br.input = a :: b :: p :: h :: l :: rest) (hcut : rest.length < 256 * h.toNat + l.toNat) (c : Cfg) :
    ∃ alphabet, alphabet.take rest.length = rest ∧ (d.headerAt c 0).hdrRead = (d.headerAt
      { minW := a.toNat, maxW := b.toNat, policy := Policy.ofCode p.toNat, alphabetSize := 256 * h.toNat + l.toNat,
        alphabet := alphabet, written := c.written }
      (40 + 8 * rest.length)).raise (.truncated 8 0) := by
  have hat (k : Nat) : d.br.input[k]? = (a :: b :: p :: h :: l :: rest)[k]? := by rw [hin]
  have hlen : d.br.input.length = 5 + rest.length := by rw [hin, Nat.add_comm]; rfl
  rw [Dec.hdrRead_three hp hin, Dec.hdrReadFromSize, Dec.getAlphabetSize_bytes (hat 3) (hat 4), Dec.headerAt_andThen hp,
    Dec.headerAt_cfg]
  obtain ⟨alphabet, hall, hbytes⟩ := Dec.getBytes_cut hp (256 * h.toNat + l.toNat) 0
    { minW := a.toNat, maxW := b.toNat, policy := Policy.ofCode p.toNat, alphabetSize := 256 * h.toNat + l.toNat,
      alphabet := c.alphabet.take (256 * h.toNat + l.toNat), written := c.written }
    (by omega) (by omega) rfl (Nat.zero_le _)
  rw [hlen, Nat.add_sub_cancel_left, hin] at hall
  refine ⟨alphabet, hall, ?_⟩
  rw [hbytes, Dec.raise_andThen, hlen, Nat.mul_add]

/-- A header that ends before its fifth byte. -/
theorem Dec.hdrRead_cut_in_fields (hp : d.phase ≠ .fault) (hcut : d.br.input.length < 5) (c : Cfg) :
    (d.headerAt c 0).hdrRead = (d.headerAt
      { c with
        minW := d.br.input[0]?.elim c.minW BitVec.toNat
        maxW := d.br.input[1]?.elim c.maxW BitVec.toNat
        policy := d.br.input[2]?.elim c.policy fun p => Policy.ofCode p.toNat }
      (8 * min d.br.input.length 3)).raise
        (if d.br.input.length < 3 then .truncated 8 0 else .truncated 16 (8 * (d.br.input.length - 3))) := by
  rcases hin : d.br.input with _ | ⟨a, _ | ⟨b, _ | ⟨p, rest⟩⟩⟩
  case nil =>
    rw [Dec.hdrRead, Dec.getMinW, Dec.readField_cut (k := 0) (left := 0) (by rw [hin]; rfl) (by decide)]
    simp only [Dec.raise_andThen]
    rfl
  case cons.nil =>
    rw [Dec.hdrRead, Dec.getMinW_byte (k := 0) (by rw [hin]; rfl), Dec.headerAt_andThen hp, Dec.getMaxW,
      Dec.readField_cut (k := 1) (left := 0) (by rw [hin]; rfl) (by decide)]
    simp only [Dec.raise_andThen]
    rfl
  case cons.cons.nil =>
    rw [Dec.hdrRead, Dec.getMinW_byte (k := 0) (by rw [hin]; rfl), Dec.headerAt_andThen hp,
      Dec.getMaxW_byte (k := 1) (by rw [hin]; rfl), Dec.headerAt_andThen hp, Dec.getPolicy,
      Dec.readField_cut (k := 2) (left := 0) (by rw [hin]; rfl) (by decide)]
    simp only [Dec.raise_andThen]
    rfl
  case cons.cons.cons =>
    have hleft : rest.length < 2 := by
      rw [hin] at hcut
      exact Nat.lt_of_add_lt_add_right (n := 3) hcut
    rw [Dec.hdrRead_three hp hin, Dec.hdrReadFromSize, Dec.getAlphabetSize,
      Dec.readField_cut (left := rest.length) (by rw [hin]; rfl) (by omega), if_neg (by simp),
      Nat.min_eq_right (by simp)]
    simp only [Dec.raise_andThen]
    rfl

/-! ### `HDR.READ` (R199) -/

theorem exec_hdrRead (hp : s.dec.phase = .idle) (hpos : s.dec.br.pos = 0) :
    exec .hdrRead s = .next { s with dec := s.dec.hdrRead } := by
  rw [exec, execHdrRead, onDec_live (by rw [hp]; rfl), hp, hpos]
  rfl

theorem policy_ofCode_toNat (p : Byte) :
    Policy.ofCode p.toNat = if p = 1 then .reset else if p = 2 then .lru else if p = 3 then .lfu else .freeze := by
  simp only [Policy.ofCode, BitVec.toNat_eq]
  rfl

/-- Settles O18: the header is complete, or ends inside the alphabet, or before its fifth byte. -/
theorem hdrReadTakesTheHeaderOrTruncates : Obligations.HdrReadTakesTheHeaderOrTruncates := by
  intro s hp hpos
  have hlive : s.dec.phase ≠ .fault := by simp [hp]
  have hstart : s.dec.hdrRead = (s.dec.headerAt s.dec.cfg 0).hdrRead := by rw [← hpos, Dec.headerAt_self]
  simp only [exec_hdrRead hp hpos, ← policy_ofCode_toNat]
  refine ⟨fun a b p h l rest hin hlen => ?_, fun a b p h l rest hin hcut => ?_, fun hcut => ?_⟩
  · rw [Dec.hdrRead_complete hlive hpos hin hlen, Nat.mul_add]
    rfl
  · obtain ⟨alphabet, hall, hread⟩ := Dec.hdrRead_cut_in_alphabet hlive hin hcut s.dec.cfg
    exact ⟨alphabet, hall, by rw [hstart, hread]; rfl⟩
  · rw [hstart, Dec.hdrRead_cut_in_fields hlive hcut]
    rfl

end Sys2Proof.Machine
end

section
/-! The encoder's operations (45_encoder.md R211 to R229): what each does in the phases in which it has a step, by either of
its rows. -/

namespace Sys2Proof.Machine

variable {i : Instr} {c : Byte} {code x : Nat} {next : Bytes} {s : State} {e : Enc}

/-! ### The rows of an operation (R211, R115) -/

theorem exec_encByte_first (hp : s.enc.phase = .first) :
    exec (.encByte c) s = .next { s with enc := s.enc.firstByte c } := by
  rw [exec, execEncByte, onEnc_live (by simp [hp]), hp]

/-- Both rows of `ENC.BYTE` are the main step in `RUN`. -/
theorem exec_encByte_run (hi : i = .encByteRun c ∨ i = .encByte c) (hp : s.enc.phase = .run) :
    exec i s = s.withEnc (s.enc.runByte c) := by
  have hlive : encEnded s.enc.phase = false := by simp [hp]
  rcases hi with rfl | rfl
  · rw [exec, execEncByteRun, onEnc_live hlive, decide_eq_true hp, require_true]
  · rw [exec, execEncByte, onEnc_live hlive, hp]

theorem exec_encEnd_first (hp : s.enc.phase = .first) : exec .encEnd s = s.withEnc s.enc.endEmpty := by
  rw [exec, execEncEnd, onEnc_live (by simp [hp]), hp]

/-- Both rows of `ENC.END` are the last steps of `RUN`. -/
theorem exec_encEnd_run (hi : i = .encEndRun ∨ i = .encEnd) (hp : s.enc.phase = .run) :
    exec i s = s.withEnc s.enc.endRun := by
  have hlive : encEnded s.enc.phase = false := by simp [hp]
  rcases hi with rfl | rfl
  · rw [exec, execEncEndRun, onEnc_live hlive, decide_eq_true hp, require_true]
  · rw [exec, execEncEnd, onEnc_live hlive, hp]

/-! ### `ENC.START` (R212) -/

theorem exec_encStart (hp : s.enc.phase = .idle) (hw : s.enc.cfg.written = true) (hl : LegalCfg s.enc.cfg)
    (hbw : s.enc.bw = { out := [], pend := [], closed := false }) :
    exec .encStart s = .next { s with enc := s.enc.start } := by
  rw [exec, execEncStart, onEnc_live (by simp [hp]), decide_eq_true hp, hw, legalCfg_iff_LegalCfg.2 hl, hbw]
  rfl

/-- Settles O22: `ENC.START` is `Enc.start`, whose header is `headerBytes` and whose dictionary is `cbInitial`. -/
theorem encStartInitialises : Obligations.EncStartInitialises := by
  intro s hp hw hl hbw
  have hnodup := (legalCfg_iff.1 (legalCfg_iff_LegalCfg.2 hl)).2.1
  refine ⟨cbInitial s.enc.cfg.alphabet, ?_, cbInitial_wf _, mem_cbInitial hnodup⟩
  rw [exec_encStart hp hw hl hbw, ← Enc.hdrWrite_created hbw]
  rfl

/-! ### The alphabet check and the hit (R213, R215, R229) -/

theorem Enc.firstByte_inside (hc : c ∈ e.cfg.alphabet) : e.firstByte c = { e with current := [c], phase := .run } :=
  if_pos hc

theorem Enc.firstByte_outside (hc : c ∉ e.cfg.alphabet) : e.firstByte c = e.raise (.notInAlphabet c) := if_neg hc

theorem Enc.runByte_outside (hc : c ∉ e.cfg.alphabet) : e.runByte c = .ok (e.raise (.notInAlphabet c)) := if_neg hc

theorem Enc.runByte_hit (hc : c ∈ e.cfg.alphabet) (hx : cbLookup (e.current ++ [c]) e.cb = some x) :
    e.runByte c = .ok { e with current := e.current ++ [c] } := by
  rw [Enc.runByte, if_pos hc, hx]
  rfl

/-- Settles O23: the alphabet check of `FIRST` and, in either row, of `RUN`. -/
theorem encByteChecksTheAlphabet : Obligations.EncByteChecksTheAlphabet := by
  intro c s
  have hrun (i : Instr) (hi : i = .encByteRun c ∨ i = .encByte c) (hp : s.enc.phase = .run)
      (hc : c ∉ s.enc.cfg.alphabet) : exec i s = .next { s with enc := s.enc.raise (.notInAlphabet c) } := by
    rw [exec_encByte_run hi hp, Enc.runByte_outside hc, State.withEnc_ok]
  refine ⟨fun hp hc => ?_, fun hp hc => ?_, fun hp hc => hrun _ (.inl rfl) hp hc⟩
  · rw [exec_encByte_first hp, Enc.firstByte_inside hc]
  · rcases hp with hp | hp
    · rw [exec_encByte_first hp, Enc.firstByte_outside hc]
      rfl
    · exact hrun _ (.inr rfl) hp hc

/-- Settles O24: the main step on a hit. -/
theorem encByteHitExtendsThePrefix : Obligations.EncByteHitExtendsThePrefix := by
  intro c x s hp hc hwf hx
  have hrun (i : Instr) (hi : i = .encByteRun c ∨ i = .encByte c) :
      exec i s = .next { s with enc := { s.enc with current := s.enc.current ++ [c] } } := by
    rw [exec_encByte_run hi hp, Enc.runByte_hit hc ((mem_cb hwf _ x).1 hx), State.withEnc_ok]
  exact ⟨hrun _ (.inl rfl), hrun _ (.inr rfl)⟩

/-! ### The miss (R215 to R227) -/

/-- A miss by either row, stated of the dictionary's entries. -/
theorem exec_encByte_miss (hi : i = .encByteRun c ∨ i = .encByte c) (hp : s.enc.phase = .run)
    (hc : c ∈ s.enc.cfg.alphabet) (hopen : s.enc.bw.closed = false) (hwf : mapWf bytesLt s.enc.cb)
    (hcur : (s.enc.current, code) ∈ s.enc.cb) (hmiss : ∀ x, (s.enc.current ++ [c], x) ∉ s.enc.cb) :
    exec i s = .next { s with enc := s.enc.miss code (s.enc.current ++ [c]) c } := by
  rw [exec_encByte_run hi hp,
    Enc.runByte_miss hc hopen ((mem_cb hwf _ code).1 hcur) (cbLookup_eq_none hmiss), State.withEnc_ok]

theorem Enc.miss_room (hm : e.nextCode < e.M) :
    e.miss code next c = { (e.emit code).useCurrent.grow next with current := [c] } := by
  rw [Enc.miss, if_pos (by simpa using hm)]

theorem Enc.miss_full (hm : e.M ≤ e.nextCode) (hr : e.cfg.policy ≠ .reset) :
    e.miss code next c = { (e.emit code).useCurrent with current := [c] } := by
  rw [Enc.miss, if_neg (by simpa using hm), Enc.tableFull, if_neg (by simpa using hr)]

theorem Enc.miss_reset (hm : e.M ≤ e.nextCode) (hr : e.cfg.policy = .reset) :
    e.miss code next c = { (e.emit code).useCurrent.resetTable with current := [c] } := by
  rw [Enc.miss, if_neg (by simpa using hm), Enc.tableFull, if_pos (by simpa using hr)]

/-- The code of `current` out, and the use update (R216, R219): the tracker changes as the statements say. -/
theorem Enc.emit_useCurrent_spec (code : Nat) (ht : e.trk.Wf bytesLt) :
    ∃ t₁ : Trk Bytes, (e.emit code).useCurrent = { e with bw := e.bw.write code e.W, trk := t₁ } ∧
      (2 ≤ e.current.length → e.trk.UsedTo e.cfg.policy e.current t₁) ∧ (e.current.length < 2 → t₁ = e.trk) ∧
      t₁.Wf bytesLt := by
  obtain ⟨hlong, hshort, hwf, heq⟩ := Enc.useCurrent_spec (e := e.emit code) ht
  exact ⟨_, heq, hlong, hshort, hwf⟩

/-- Under `reset` there is no tracker, and the use update does nothing (R219). -/
theorem Enc.useCurrent_reset (hr : e.cfg.policy = .reset) : e.useCurrent = e := by
  unfold Enc.useCurrent
  rw [hr]
  exact ite_self _

/-- Width check, eviction and insertion (R220 to R223), in the statements' words. -/
theorem Enc.grow_spec (next : Bytes) (ht : e.trk.Wf bytesLt) (hw : mapWf bytesLt e.cb) :
    ∃ (cb : List (Bytes × Nat)) (victim : Option Bytes) (t₂ t₃ : Trk Bytes),
      e.grow next = { e with
        cb := cb
        trk := t₃
        W := if e.T ≤ e.nextCode ∧ e.W < e.cfg.maxW then e.W + 1 else e.W
        T := if e.T ≤ e.nextCode ∧ e.W < e.cfg.maxW then 2 ^ (e.W + 1) else e.T
        nextCode := e.nextCode + 1 } ∧
      victim = (if e.nextCode = e.M - 1 then e.trk.answer e.cfg.policy else none) ∧
      (victim = none → t₂ = e.trk) ∧ (∀ v, victim = some v → e.trk.RemovedTo e.cfg.policy v t₂) ∧
      t₂.UsedTo e.cfg.policy next t₃ ∧ t₃.Wf bytesLt ∧ mapWf bytesLt cb ∧
      ∀ t x, (t, x) ∈ cb ↔ (t = next ∧ x = e.nextCode) ∨ (t ≠ next ∧ victim ≠ some t ∧ (t, x) ∈ e.cb) := by
  obtain ⟨victim, t₂, cb₂, hevict, hvictim, hnone, hsome, ht₂, hcb₂, hlookup⟩ :=
    Enc.evict_spec (e := { e with
      W := if e.T ≤ e.nextCode ∧ e.W < e.cfg.maxW then e.W + 1 else e.W
      T := if e.T ≤ e.nextCode ∧ e.W < e.cfg.maxW then 2 ^ (e.W + 1) else e.T }) ht hw
  refine ⟨cbStore next (some e.nextCode) cb₂, victim, t₂, t₂.use bytesLt e.cfg.policy next, ?_, hvictim, hnone, hsome,
    Trk.use_usedTo _ _ ht₂, Trk.use_wf bytesLt_order _ _ ht₂, cbStore_wf _ _ hcb₂, fun t x => ?_⟩
  · rw [Enc.grow, Shared.widthCheck_eq, hevict]
    rfl
  · rw [mem_cbStore hcb₂, mem_cb hcb₂, mem_cb hw, hlookup, Option.some.injEq, eq_comm (a := e.nextCode)]
    by_cases hv : victim = some t <;> simp [hv]

/-- Settles O25: the emission with the use update, then `Enc.grow`. -/
theorem encByteMissInserts : Obligations.EncByteMissInserts := by
  intro c code s hp hc hopen hwf htrk _ hcur hmiss hroom
  obtain ⟨t₁, huse, hlong, hshort, ht₁⟩ := Enc.emit_useCurrent_spec (e := s.enc) code htrk
  obtain ⟨cb, victim, t₂, t₃, hgrow, hrest⟩ := Enc.grow_spec (s.enc.current ++ [c])
    (e := { s.enc with bw := s.enc.bw.write code s.enc.W, trk := t₁ }) ht₁ hwf
  refine ⟨s.enc.bw.write code s.enc.W, cb, victim, t₁, t₂, t₃, fun i hi => ?_, ?_, Bw.pend_write _ _ _, hopen, hlong, hshort,
    hrest⟩
  · rw [exec_encByte_miss hi hp hc hopen hwf hcur hmiss, Enc.miss_room hroom, huse, hgrow]
  · rw [Bw.bits_write, bitsOf_eq_msbFirst]

/-- Settles O26: the emission with the use update, and nothing after it. -/
theorem encByteMissOnAFullTable : Obligations.EncByteMissOnAFullTable := by
  intro c code s hp hc hopen hwf htrk _ hcur hmiss hfull hpol
  obtain ⟨t₁, huse, hspec⟩ := Enc.emit_useCurrent_spec (e := s.enc) code htrk
  refine ⟨s.enc.bw.write code s.enc.W, t₁, fun i hi => ?_, ?_, Bw.pend_write _ _ _, hopen, hspec⟩
  · rw [exec_encByte_miss hi hp hc hopen hwf hcur hmiss, Enc.miss_full hfull hpol, huse]
  · rw [Bw.bits_write, bitsOf_eq_msbFirst]

/-- Settles O27: the emission, the width check, `RESET_CODE` at the width after it, and the alphabet-only dictionary. -/
theorem encByteMissResetsTheTable : Obligations.EncByteMissResetsTheTable := by
  intro c code s hp hc hopen hwf hcur hmiss hfull hpol hnodup
  refine ⟨_, _, fun i hi => ?_, ?_, Bw.pend_write (s.enc.bw.write code s.enc.W) s.enc.resetCode s.enc.widthCheck.W, hopen,
    cbInitial_wf s.enc.cfg.alphabet, mem_cbInitial hnodup⟩
  · rw [exec_encByte_miss hi hp hc hopen hwf hcur hmiss, Enc.miss_reset hfull hpol,
      Enc.useCurrent_reset (e := s.enc.emit code) hpol, Enc.resetTable, Shared.widthCheck_eq, Enc.widthCheck_W]
    rfl
  · rw [Bw.bits_write, Bw.bits_write, bitsOf_eq_msbFirst, bitsOf_eq_msbFirst, Enc.widthCheck_W]

/-! ### `ENC.END` (R214, R228) -/

/-- Closing pads with fewer than eight zero bits (R122). -/
theorem Bw.close_spec {b : Bw} (h : b.pend.length < 8) :
    ∃ k, b.close.bits = b.bits ++ List.replicate k false ∧ k < 8 ∧ b.close.pend = [] ∧ b.close.closed = true :=
  ⟨_, Bw.bits_close b h, Nat.mod_lt _ (by decide), Bw.pend_close b, Bw.closed_close b⟩

theorem Enc.endEmpty_eq (hopen : e.bw.closed = false) : e.endEmpty = .ok e.finish := by
  rw [Enc.endEmpty, hopen]
  rfl

theorem Enc.endRun_eq (hcur : cbLookup e.current e.cb = some code) (hopen : e.bw.closed = false) :
    e.endRun = .ok ((e.emit code).useCurrent.widthCheck.emit e.eofCode).finish := by
  simp [Enc.endRun, hcur, hopen]

/-- Settles O28: `FIRST` closes; `RUN` emits the code of `current`, makes the use update and the width check, emits
`EOF_CODE` and closes. -/
theorem encEndClosesTheStream : Obligations.EncEndClosesTheStream := by
  intro s hopen
  refine ⟨fun hp hpend => ?first, fun code hp hwf htrk _ hcur => ?run⟩
  case first =>
    obtain ⟨k, hclose⟩ := Bw.close_spec hpend
    refine ⟨s.enc.bw.close, k, ?_, hclose⟩
    rw [exec_encEnd_first hp, Enc.endEmpty_eq hopen, State.withEnc_ok]
    rfl
  case run =>
    obtain ⟨t₁, huse, hlong, hshort, -⟩ := Enc.emit_useCurrent_spec (e := s.enc) code htrk
    obtain ⟨k, hbits, hk, hpend, hclosed⟩ := Bw.close_spec
      (Bw.pend_write (s.enc.bw.write code s.enc.W) s.enc.eofCode s.enc.widthCheck.W)
    refine ⟨_, k, t₁, fun i hi => ?_, ?_, hk, hpend, hclosed, hlong, hshort⟩
    · rw [exec_encEnd_run hi hp, Enc.endRun_eq ((mem_cb hwf _ code).1 hcur) hopen, State.withEnc_ok, huse,
        Shared.widthCheck_eq, Enc.widthCheck_W]
      rfl
    · rw [hbits, Bw.bits_write, Bw.bits_write, bitsOf_eq_msbFirst, bitsOf_eq_msbFirst, Enc.widthCheck_W]

end Sys2Proof.Machine
end

section
/-! Operations that have no step (45_encoder.md R211, 46_decoder.md R251, 60_exceptions.md R300 and R309): what is refused
once an instance has ended, and what is refused in a live phase. -/

namespace Sys2Proof.Machine

variable {i : Instr} {s : State}

/-! ### Ended instances (R300) -/

/-- A check before an operation that is refused does not change that it is refused. -/
theorem require_refused (ok : Bool) (q : Refusal) {k : Host.Outcome State Fault Refusal} (h : ∃ q', k = .refused q') :
    ∃ q', require ok q k = .refused q' := by
  cases ok
  · exact ⟨q, rfl⟩
  · exact h

/-- Every meaning of an encoder instance begins with `onEnc`, but for the index check of `alphabet[i]`. -/
theorem exec_refused_of_encEnded (hs : instrSide i = .enc) (h : encEnded s.enc.phase = true) :
    ∃ q, exec i s = .refused q := by
  cases i with
  | bwWrite _ _ | bwClose | cbContains _ | cbGet _ | cbPut _ _ | cbRemove _ | cbInit | hdrWrite
  | encStart | encByte _ | encByteRun _ | encEnd | encEndRun => exact ⟨_, onEnc_ended h⟩
  | lruUse k | lruRemove k | lfuUse k | lfuRemove k =>
    cases k with
    | str k => exact ⟨_, onEnc_ended h⟩
    | code x => cases hs
  | lruFind side | lfuFind side => cases hs; exact ⟨_, onEnc_ended h⟩
  | fieldMinW dir | fieldMaxW dir | fieldPolicy dir | fieldAlphabetSize dir =>
    cases dir with
    | put => exact ⟨_, onEnc_ended h⟩
    | get => cases hs
  | fieldAlphabet dir n =>
    cases dir with
    | put => exact require_refused _ _ ⟨_, onEnc_ended h⟩
    | get => cases hs
  | _ => cases hs

/-- Every meaning of a decoder instance begins with `onDec`, but for the index check of `alphabet[i]`. -/
theorem exec_refused_of_decEnded (hs : instrSide i = .dec) (h : decEnded s.dec.phase = true) :
    ∃ q, exec i s = .refused q := by
  cases i with
  | brRead _ | brEmpty | ctLookup _ | ctInsert _ _ | ctClear _ | ctInit | hdrRead | decStart | decStep
  | policyFreeze | policyReset | policyLru | policyLfu | policyUnknown _
  | cwEofFirst _ | cwAlphaFirst _ | cwIllegalFirst _ | cwEofPostReset _ | cwAlphaPostReset _ | cwIllegalPostReset _
  | cwEof _ | cwReset _ | cwAlpha _ | cwDict _ | cwKwkwk _ | cwIllegal _ => exact ⟨_, onDec_ended h⟩
  | lruUse k | lruRemove k | lfuUse k | lfuRemove k =>
    cases k with
    | str k => cases hs
    | code x => exact ⟨_, onDec_ended h⟩
  | lruFind side | lfuFind side => cases hs; exact ⟨_, onDec_ended h⟩
  | fieldMinW dir | fieldMaxW dir | fieldPolicy dir | fieldAlphabetSize dir =>
    cases dir with
    | put => cases hs
    | get => exact ⟨_, onDec_ended h⟩
  | fieldAlphabet dir n =>
    cases dir with
    | put => cases hs
    | get => exact require_refused _ _ ⟨_, onDec_ended h⟩
  | _ => cases hs

/-- Settles O30: the instance's own check comes before anything an operation does. -/
theorem endedInstancesHaveNoStep : Obligations.EndedInstancesHaveNoStep := by
  rintro i s (⟨hs, hp⟩ | ⟨hs, hp⟩)
  · exact exec_refused_of_encEnded hs (by rcases hp with hp | hp <;> rw [hp] <;> rfl)
  · exact exec_refused_of_decEnded hs (by rcases hp with hp | hp <;> rw [hp] <;> rfl)

/-! ### Live instances (R211, R251, R309) -/

theorem exec_encStart_wrongPhase (hlive : encEnded s.enc.phase = false) (hp : s.enc.phase ≠ .idle) :
    exec .encStart s = .refused .wrongPhase := by
  rw [exec, execEncStart, onEnc_live hlive, decide_eq_false hp, require_false]

theorem exec_encStart_unwritten (hp : s.enc.phase = .idle) (hw : s.enc.cfg.written = false) :
    exec .encStart s = .refused .cfgUnwritten := by
  rw [exec, execEncStart, onEnc_live (by simp [hp]), decide_eq_true hp, require_true, hw, require_false]

theorem exec_encStart_illegal (hp : s.enc.phase = .idle) (hw : s.enc.cfg.written = true) (hl : ¬ LegalCfg s.enc.cfg) :
    exec .encStart s = .refused .illegalCfg := by
  have hl : legalCfg s.enc.cfg = false := Bool.eq_false_iff.2 fun h => hl (legalCfg_iff_LegalCfg.1 h)
  rw [exec, execEncStart, onEnc_live (by simp [hp]), decide_eq_true hp, require_true, hw, require_true, hl, require_false]

/-- R115: a row for phase `RUN` has no step in another live phase. -/
theorem onEnc_notInRun (hp : s.enc.phase = .idle ∨ s.enc.phase = .first) (k : Host.Outcome State Fault Refusal) :
    onEnc s (require (decide (s.enc.phase = .run)) .wrongPhase k) = .refused .wrongPhase := by
  have hne : s.enc.phase ≠ .run := by rcases hp with hp | hp <;> rw [hp] <;> nofun
  rw [onEnc_live (encEnded_eq_false.2 (by tauto)), decide_eq_false hne, require_false]

/-- Settles O29: each operation's first check that fails. -/
theorem operationsInTheWrongPhaseAreRefused : Obligations.OperationsInTheWrongPhaseAreRefused := by
  refine fun s => ⟨exec_encStart_wrongPhase, exec_encStart_unwritten, exec_encStart_illegal, fun hp => ?idle,
    fun hp => ⟨fun c => onEnc_notInRun hp _, onEnc_notInRun hp _⟩, fun hlive hp => ?decStart, fun hp => ?decStep⟩
  case idle =>
    have hlive : encEnded s.enc.phase = false := by simp [hp]
    refine ⟨fun c => ?_, ?_⟩
    · rw [exec, execEncByte, onEnc_live hlive, hp]
    · rw [exec, execEncEnd, onEnc_live hlive, hp]
  case decStart => rw [exec, execDecStart, onDec_live hlive, decide_eq_false hp, require_false]
  case decStep => rw [exec_decStep (by simp [hp]), Dec.step, hp, State.withDec_error]

end Sys2Proof.Machine
end

section
/-! The host's operations have a step in every phase the spec gives them one (45_encoder.md R211 and R230, 46_decoder.md
R251, 44_header_codec.md R201 and R202), for instances that only the host drives. -/

namespace Sys2Proof.Machine

variable {s : State}

theorem withEnc_completes {r : Except Refusal Enc} (h : ∃ e, r = .ok e) : ∃ t, s.withEnc r = .next t := by
  obtain ⟨e, rfl⟩ := h
  exact ⟨_, rfl⟩

theorem withDec_completes {r : Except Refusal Dec} (h : ∃ d, r = .ok d) : ∃ t, s.withDec r = .next t := by
  obtain ⟨d, rfl⟩ := h
  exact ⟨_, rfl⟩

/-! ### The encoder -/

namespace Enc.HostInv

variable {e : Enc}

/-- R230: a miss finds the code of `current`, and the writer is open. -/
theorem runByte_completes (h : e.HostInv) (hp : e.phase = .run) (c : Byte) : ∃ e', e.runByte c = .ok e' := by
  by_cases hc : c ∈ e.cfg.alphabet
  · obtain ⟨e', he, -⟩ := Enc.runByte_run h.inv (h.coherent (.inr hp)) hp hc
    exact ⟨e', he⟩
  · exact ⟨_, Enc.runByte_outside hc⟩

theorem endEmpty_completes (h : e.HostInv) (hp : e.phase = .first) : ∃ e', e.endEmpty = .ok e' :=
  ⟨_, Enc.endEmpty_eq (h.coherent (.inl hp)).writer_open⟩

/-- R230: the code of `current` is there, and the writer is open. -/
theorem endRun_completes (h : e.HostInv) (hp : e.phase = .run) : ∃ e', e.endRun = .ok e' := by
  have hcoh := h.coherent (.inr hp)
  obtain ⟨code, hcode⟩ := hcoh.current_present hp
  exact ⟨_, Enc.endRun_eq hcode hcoh.writer_open⟩

end Enc.HostInv

/-! ### The decoder -/

/-- A fetch has a step when, with enough bits remaining, what follows it has one. -/
theorem Dec.fetch_completes {d : Dec} {k : Nat → Dec → Except Refusal Dec}
    (hk : d.W ≤ d.br.remaining → ∃ d', k (d.nextBits d.W) (d.advance d.W) = .ok d') : ∃ d', d.fetch k = .ok d' := by
  rcases d.fetch_eq k with ⟨-, hf⟩ | ⟨hlen, hf⟩ <;> rw [hf]
  · exact ⟨_, rfl⟩
  · exact hk hlen

/-- `DEC.STEP` in `RUN`: the invariants outlast the width check and the read, and then every codeword has a step. -/
theorem Dec.HostInv.runFetch_completes {d : Dec} (h : d.HostInv) (hp : d.phase = .run) :
    ∃ d', d.widthCheck.fetch Dec.runCode = .ok d' := by
  refine Dec.fetch_completes fun hlen => ?_
  have hinv := h.inv.widthCheck.advance hlen
  have hcoh : (d.widthCheck.advance d.widthCheck.W).Coherent :=
    (h.coherent (.inr (.inl hp))).widthCheck.congr rfl rfl rfl rfl rfl rfl
  exact hcoh.runCode_completes hinv (hinv.started (decStarted_of_ne (.inr (.inl (by simpa [Dec.advance] using hp))))) _

theorem Dec.HostInv.step_completes {d : Dec} (h : d.HostInv)
    (hp : d.phase = .first ∨ d.phase = .run ∨ d.phase = .postReset) : ∃ d', d.step = .ok d' := by
  rcases hp with hp | hp | hp <;> simp only [Dec.step, hp]
  · split
    · exact ⟨_, rfl⟩
    · exact Dec.fetch_completes fun _ => Dec.firstCode_completes _ _
  · exact h.runFetch_completes hp
  · exact Dec.fetch_completes fun _ => Dec.firstCode_completes _ _

/-- R201, R202: a header that raised, or one that yields a legal configuration. -/
theorem Dec.startFromHeader_completes {d : Dec} (h : d.hdrRead.phase ≠ .fault → LegalCfg d.hdrRead.cfg) :
    ∃ d', d.startFromHeader = .ok d' := by
  unfold Dec.startFromHeader
  dsimp only
  split
  · exact ⟨_, rfl⟩
  · next hlive =>
    rw [if_pos (legalCfg_iff_LegalCfg.2 (h hlive))]
    exact ⟨_, rfl⟩

/-- R202: a header that ends before its fifth byte. -/
theorem Dec.hdrRead_phase_cut_in_fields {d : Dec} (hp : d.phase ≠ .fault) (hpos : d.br.pos = 0)
    (hcut : d.br.input.length < 5) : d.hdrRead.phase = .fault := by
  rw [← Dec.headerAt_self d, hpos, Dec.hdrRead_cut_in_fields hp hcut]
  rfl

/-- R202: a header that ends inside the alphabet. -/
theorem Dec.hdrRead_phase_cut_in_alphabet {d : Dec} (hp : d.phase ≠ .fault) (hpos : d.br.pos = 0) {a b p h l : Byte}
    {rest : Bytes} (hin : d.br.input = a :: b :: p :: h :: l :: rest) (hcut : rest.length < 256 * h.toNat + l.toNat) :
    d.hdrRead.phase = .fault := by
  obtain ⟨alphabet, -, hread⟩ := Dec.hdrRead_cut_in_alphabet hp hin hcut d.cfg
  rw [← Dec.headerAt_self d, hpos, hread]
  rfl

theorem exec_decStart (hp : s.dec.phase = .idle) (hpos : s.dec.br.pos = 0) :
    exec .decStart s = s.withDec s.dec.startFromHeader := by
  rw [exec, execDecStart, onDec_live (by simp [hp]), decide_eq_true hp, require_true, decide_eq_true hpos, require_true]

theorem exec_decStart_completes (h : s.dec.HostInv) (hp : s.dec.phase = .idle)
    (hl : s.dec.hdrRead.phase ≠ .fault → LegalCfg s.dec.hdrRead.cfg) : ∃ t, exec .decStart s = .next t := by
  rw [exec_decStart hp (h.created hp)]
  exact withDec_completes (Dec.startFromHeader_completes hl)

/-! ### All five -/

/-- Settles O51: an operation and a phase at a time. -/
theorem hostOperationsComplete : Obligations.HostOperationsComplete := by
  intro s h
  have hbyteRun (i : Instr) (c : Byte) (hi : i = .encByteRun c ∨ i = .encByte c) (hp : s.enc.phase = .run) :
      ∃ t, exec i s = .next t := by
    rw [exec_encByte_run hi hp]
    exact withEnc_completes (h.enc.runByte_completes hp c)
  have hendRun (i : Instr) (hi : i = .encEndRun ∨ i = .encEnd) (hp : s.enc.phase = .run) : ∃ t, exec i s = .next t := by
    rw [exec_encEnd_run hi hp]
    exact withEnc_completes (h.enc.endRun_completes hp)
  refine ⟨fun hp hw hl => ⟨_, exec_encStart hp hw hl (h.enc.created hp)⟩, ?encLive,
    fun hp => ⟨fun c => hbyteRun _ c (.inl rfl) hp, hendRun _ (.inl rfl) hp⟩, fun hp => ?decStart, fun hp => ?decStep⟩
  case encLive =>
    rintro (hp | hp)
    · refine ⟨fun c => ⟨_, exec_encByte_first hp⟩, ?_⟩
      rw [exec_encEnd_first hp]
      exact withEnc_completes (h.enc.endEmpty_completes hp)
    · exact ⟨fun c => hbyteRun _ c (.inr rfl) hp, hendRun _ (.inr rfl) hp⟩
  case decStart =>
    have hlive : s.dec.phase ≠ .fault := by simp [hp]
    have hpos := h.dec.created hp
    refine ⟨fun hcut => ?_, fun a b p hi lo rest n hin hn hl => ?_⟩
    · exact exec_decStart_completes h.dec hp fun hf => absurd (Dec.hdrRead_phase_cut_in_fields hlive hpos hcut) hf
    · refine exec_decStart_completes h.dec hp fun hf => ?_
      rcases Nat.lt_or_ge rest.length (256 * hi.toNat + lo.toNat) with hcut | hlen
      · exact absurd (Dec.hdrRead_phase_cut_in_alphabet hlive hpos hin hcut) hf
      · rw [Dec.hdrRead_complete hlive hpos hin hlen, Dec.headerAt_cfg, policy_ofCode_toNat, ← hn]
        exact hl (hn ▸ hlen)
  case decStep =>
    rw [exec_decStep (decEnded_eq_false.2 (.inr hp))]
    exact withDec_completes (h.dec.step_completes hp)

end Sys2Proof.Machine
end

section
/-! Property P2 (45_encoder.md R216, 00_scope.md R14, 10_state.md R56 and R57): under `WidthSafe` no code the encoder emits
needs more bits than the width in force. What is kept is R57 (g): while the width can still rise, every assigned code
fits it. -/

namespace Sys2Proof.Machine

variable {e e' : Enc} {code : Nat} {next : Bytes} {c : Byte}

/-- R57 (g): while `W` is below `maxW`, the codes below `nextCode` fit `W` bits. -/
def Enc.Legible (e : Enc) : Prop := e.W < e.cfg.maxW → e.nextCode ≤ 2 ^ e.W

namespace Enc.Legible

theorem congr (h : e.Legible) (hc : e'.cfg = e.cfg) (hn : e'.nextCode = e.nextCode) (hw : e'.W = e.W) : e'.Legible := by
  rwa [Enc.Legible, hc, hn, hw]

theorem useAfterEmit (h : e.Legible) (code : Nat) : (e.emit code).useCurrent.Legible :=
  h.congr (by simp) (by simp) (by simp)

/-- The width check leaves room for one code more: it rises exactly when the next code is the first that does not fit
(R221). -/
theorem widthCheck_room (h : e.Legible) (hT : e.T = 2 ^ e.W) (hw : e.widthCheck.W < e.cfg.maxW) :
    e.nextCode + 1 ≤ 2 ^ e.widthCheck.W := by
  rw [Enc.widthCheck_W] at hw ⊢
  split at hw
  · next hrise =>
    have hle := h hrise.2
    have hpos := Nat.one_le_two_pow (n := e.W)
    rw [if_pos hrise, Nat.pow_succ]
    omega
  · next hstay =>
    rw [if_neg hstay]
    have : ¬ e.T ≤ e.nextCode := fun ht => hstay ⟨ht, hw⟩
    omega

theorem widthCheck (h : e.Legible) (hT : e.T = 2 ^ e.W) : e.widthCheck.Legible := fun hw => by
  rw [Enc.widthCheck_nextCode]
  exact Nat.le_of_succ_le (h.widthCheck_room hT (by simpa using hw))

theorem grow (h : e.Legible) (hT : e.T = 2 ^ e.W) (next : Bytes) : (e.grow next).Legible := fun hw => by
  simp only [Enc.grow, Enc.insert_W, Enc.insert_cfg, Enc.insert_nextCode, Enc.evict_W, Enc.evict_cfg,
    Enc.evict_nextCode, Enc.widthCheck_cfg, Enc.widthCheck_nextCode] at hw ⊢
  exact h.widthCheck_room hT hw

/-- The in-band reset restarts at `initialNextCode`, which `WidthSafe` puts below `2^minW` (R14, R226). -/
theorem resetTable (hsafe : e.initialNextCode ≤ 2 ^ e.cfg.minW) : e.resetTable.Legible := fun _ => by
  simpa [Enc.resetTable] using hsafe

theorem miss (h : e.Legible) (hT : e.T = 2 ^ e.W) (hsafe : e.initialNextCode ≤ 2 ^ e.cfg.minW) :
    (e.miss code next c).Legible := by
  rcases Nat.lt_or_ge e.nextCode e.M with hm | hm
  · rw [Enc.miss_room hm]
    exact ((h.useAfterEmit code).grow (by simpa using hT) next).congr rfl rfl rfl
  · by_cases hr : e.cfg.policy = .reset
    · rw [Enc.miss_reset hm hr]
      exact (resetTable (e := (e.emit code).useCurrent) (by simpa using hsafe)).congr rfl rfl rfl
    · rw [Enc.miss_full hm hr]
      exact (h.useAfterEmit code).congr rfl rfl rfl

theorem firstByte (h : e.Legible) (c : Byte) : (e.firstByte c).Legible := by
  rcases e.firstByte_cases c with ⟨-, he⟩ | ⟨-, he⟩ <;> rw [he] <;> exact h.congr rfl rfl rfl

theorem runByte (h : e.Legible) (hT : e.T = 2 ^ e.W) (hsafe : e.initialNextCode ≤ 2 ^ e.cfg.minW)
    (hr : e.runByte c = .ok e') : e'.Legible := by
  rcases Enc.runByte_cases hr with ⟨-, rfl⟩ | ⟨-, -, rfl⟩ | ⟨code, -, -, -, -, rfl⟩
  · exact h.congr rfl rfl rfl
  · exact h.congr rfl rfl rfl
  · exact h.miss hT hsafe

theorem endEmpty (h : e.Legible) (hr : e.endEmpty = .ok e') : e'.Legible := by
  rw [(Enc.endEmpty_ok hr).2]
  exact h.congr rfl rfl rfl

theorem endRun (h : e.Legible) (hT : e.T = 2 ^ e.W) (hr : e.endRun = .ok e') : e'.Legible := by
  obtain ⟨code, -, -, rfl⟩ := Enc.endRun_ok hr
  exact ((h.useAfterEmit code).widthCheck (by simpa using hT)).congr rfl rfl rfl

end Enc.Legible

/-- Each of the host's operations on a started instance keeps R57 (g). -/
theorem hostOperation_legible {i : Instr} {s t : State} (h : s.enc.Legible) (hT : s.enc.T = 2 ^ s.enc.W)
    (hsafe : s.enc.initialNextCode ≤ 2 ^ s.enc.cfg.minW) (hp : s.enc.phase ≠ .idle) (hi : hostIssued i = true)
    (hx : exec i s = .next t) : t.enc.Legible := by
  cases i with
  | encStart => exact absurd (encStart_next hx).1 hp
  | encByte c =>
    rcases encByte_next hx with ⟨-, rfl⟩ | ⟨-, e, he, rfl⟩
    · exact h.firstByte c
    · exact h.runByte hT hsafe he
  | encByteRun c =>
    obtain ⟨-, e, he, rfl⟩ := encByteRun_next hx
    exact h.runByte hT hsafe he
  | encEnd =>
    rcases encEnd_next hx with ⟨-, e, he, rfl⟩ | ⟨-, e, he, rfl⟩
    · exact h.endEmpty he
    · exact h.endRun hT he
  | encEndRun =>
    obtain ⟨-, e, he, rfl⟩ := encEndRun_next hx
    exact h.endRun hT he
  | decStart =>
    obtain ⟨-, d, -, rfl⟩ := decStart_next hx
    exact h
  | decStep =>
    obtain ⟨d, -, rfl⟩ := decStep_next hx
    exact h
  | _ => cases hi

/-! ### Codes below the width -/

/-- `WidthSafe` at every width of the run. -/
theorem Enc.Started.initial_le (h : e.Started) (hsafe : e.initialNextCode ≤ 2 ^ e.cfg.minW) :
    e.initialNextCode ≤ 2 ^ e.W := le_trans hsafe (Nat.pow_le_pow_right (by decide) h.width_low)

/-- Every assigned code fits: by R57 (g) below `maxW`, and at `maxW` because `nextCode` stops at `M = 2^maxW`. -/
theorem Enc.Started.next_le (h : e.Started) (hsafe : e.initialNextCode ≤ 2 ^ e.cfg.minW) (hl : e.Legible) :
    e.nextCode ≤ 2 ^ e.W := by
  rcases Nat.lt_or_ge e.W e.cfg.maxW with hw | hw
  · exact hl hw
  · have hW : e.W = e.cfg.maxW := le_antisymm h.width_high hw
    have hinit := h.initial_le hsafe
    have hhigh := h.next_high
    rwa [h.M_eq, ← hW, max_eq_left hinit] at hhigh

/-- The code of a string in the dictionary fits the width (P2). -/
theorem Enc.HostInv.code_lt {e : Enc} (h : e.HostInv) (hp : e.phase = .run) (hsafe : e.initialNextCode ≤ 2 ^ e.cfg.minW)
    (hl : e.Legible) {str : Bytes} (hcode : cbLookup str e.cb = some code) : code < 2 ^ e.W := by
  have hst := h.inv.started (by simp [hp])
  have hgt := firstUserCode_gt e.cfg
  have heq := hst.initial_eq
  have hinit := hst.initial_le hsafe
  have hnext := hst.next_le hsafe hl
  rcases (h.coherent (.inr hp)).code_cases h.inv hp hcode with ⟨-, hlt⟩ | ⟨-, -, hlt⟩ <;> omega

/-- `EOF_CODE` and `RESET_CODE` lie below `initialNextCode` (R12). -/
theorem Enc.Started.control_lt (h : e.Started) :
    e.eofCode < e.initialNextCode ∧ (e.cfg.policy = .reset → e.resetCode < e.initialNextCode) := by
  rw [h.initial_eq, h.eof_eq]
  refine ⟨firstUserCode_gt _, fun hr => ?_⟩
  rw [h.reset_eq hr, firstUserCode, if_pos hr]
  exact Nat.lt_succ_self _

/-- Settles O52: the codes lie below `nextCode` or `initialNextCode`, and R57 (g) is kept. -/
theorem emittedCodesFitTheirWidth : Obligations.EmittedCodesFitTheirWidth := by
  intro s h hsafe hp hl
  have hi : s.enc.phase ≠ .idle := by rcases hp with hp | hp <;> simp [hp]
  have hst := h.inv.started hi
  have hinit := hst.initial_le hsafe
  obtain ⟨heof, hreset⟩ := hst.control_lt
  exact ⟨fun code hrun hcode => h.code_lt hrun hsafe hl ((mem_cb h.inv.cb_wf _ code).1 hcode),
    lt_of_lt_of_le heof hinit, fun hr => lt_of_lt_of_le (hreset hr) hinit,
    fun i t hi' hx => hostOperation_legible hl h.inv.threshold hsafe hi hi' hx⟩

end Sys2Proof.Machine
end

section
/-! The decoder's operations (46_decoder.md R251 to R262): what `DEC.START` makes of a header, and `DEC.STEP` in each
phase in which it has a step; and that output once emitted stays (R265). -/

namespace Sys2Proof.Machine

variable {s : State} {d : Dec}

/-! ### `DEC.START` (R252) -/

/-- A complete header that yields `c` (R199). -/
theorem Dec.hdrRead_yields {a b p h l : Byte} {rest : Bytes} {n : Nat} {c : Cfg} (hp : d.phase ≠ .fault)
    (hpos : d.br.pos = 0) (hin : d.br.input = a :: b :: p :: h :: l :: rest) (hn : n = 256 * h.toNat + l.toNat)
    (hlen : n ≤ rest.length)
    (hc : c = { minW := a.toNat, maxW := b.toNat,
                policy := if p = 1 then .reset else if p = 2 then .lru else if p = 3 then .lfu else .freeze,
                alphabetSize := n, alphabet := rest.take n, written := true }) :
    d.hdrRead = d.headerAt c (40 + 8 * n) := by
  subst hn hc
  rw [Dec.hdrRead_complete hp hpos hin hlen, policy_ofCode_toNat, Nat.mul_add]

/-- R202: a header that raised ends the operation. -/
theorem Dec.startFromHeader_raised (h : d.hdrRead.phase = .fault) : d.startFromHeader = .ok d.hdrRead := if_pos h

/-- R201: a header read to its end is held to `LegalCfg`. -/
theorem Dec.startFromHeader_read (h : d.hdrRead.phase ≠ .fault) :
    d.startFromHeader = if legalCfg d.hdrRead.cfg then .ok d.hdrRead.start else .error .illegalHeader := if_neg h

/-- A header that raised has raised `Truncated` (R202). -/
theorem Dec.hdrRead_fault_truncated (hp : d.phase ≠ .fault) (h : d.hdrRead.phase = .fault) :
    ∃ width left, d.hdrRead.fault = some (.truncated width left) := by
  obtain ⟨cfg, pos, -, -, he | ⟨w, -, he⟩⟩ := d.hdrRead_headerRead hp
  · rw [he, Dec.headerAt_phase] at h
    exact absurd h hp
  · exact ⟨_, _, congrArg Dec.fault he⟩

/-- Settles O31: the header is read to its end, and is legal or not, or it is cut short. -/
theorem decStartInitialises : Obligations.DecStartInitialises := by
  intro s hp hpos
  have hlive : s.dec.phase ≠ .fault := by simp [hp]
  rw [exec_decStart hp hpos, exec_hdrRead hp hpos]
  refine ⟨fun a b p h l rest n c hin hn hlen hc => ?_, fun hcut => ?_⟩
  · have hread := Dec.hdrRead_yields hlive hpos hin hn hlen hc
    have hend : s.dec.hdrRead.phase ≠ .fault := by rwa [hread]
    rw [Dec.startFromHeader_read hend, hread, Dec.headerAt_cfg, ← legalCfg_iff_LegalCfg]
    refine ⟨fun hl => ?_, fun hl => by rw [if_neg hl]; rfl⟩
    rw [if_pos hl]
    subst hc
    exact ⟨_, rfl, ctInitial_wf _ _, mem_ctInitial _ _⟩
  · have hfault : s.dec.hdrRead.phase = .fault := by
      rcases hcut with hcut | ⟨a, b, p, h, l, rest, hin, hcut⟩
      · exact Dec.hdrRead_phase_cut_in_fields hlive hpos hcut
      · exact Dec.hdrRead_phase_cut_in_alphabet hlive hpos hin hcut
    obtain ⟨width, left, htrunc⟩ := Dec.hdrRead_fault_truncated hlive hfault
    rw [Dec.startFromHeader_raised hfault]
    exact ⟨rfl, _, width, left, rfl, hfault, htrunc⟩

/-! ### `DEC.STEP` in `FIRST` and `POSTRESET` (R254, R262) -/

/-- R293: too few bits for a codeword. -/
theorem Dec.fetch_truncated (k : Nat → Dec → Except Refusal Dec) (h : d.br.remaining < d.W) :
    d.fetch k = .ok (d.raise (.truncated d.W d.br.remaining)) := by
  rw [Dec.fetch, Br.read_none _ _ h]

/-- R254: an empty stream in `FIRST`. -/
theorem Dec.step_first_empty (hp : d.phase = .first) (h : d.br.remaining = 0) : d.step = .ok d.stop := by
  rw [Dec.step, hp]
  exact if_pos (decide_eq_true h)

theorem Dec.step_first_nonempty (hp : d.phase = .first) (h : d.br.remaining ≠ 0) : d.step = d.fetch Dec.firstCode := by
  rw [Dec.step, hp]
  exact if_neg (by simpa [Br.isEmpty] using h)

theorem Dec.step_postReset (hp : d.phase = .postReset) : d.step = d.fetch Dec.firstCode := by rw [Dec.step, hp]

theorem Dec.firstCode_eof {x : Nat} (he : x = d.eofCode) : d.firstCode x = .ok d.stop := if_pos he

/-- R294. -/
theorem Dec.firstCode_illegal {x : Nat} (he : x ≠ d.eofCode) (ha : d.cfg.alphabetSize ≤ x) :
    d.firstCode x = .ok (d.raise (.badFirstCode x)) := (if_neg he).trans (if_neg ha.not_gt)

/-- Settles O32: the empty stream, too few bits in either phase, and the three kinds of first codeword. -/
theorem decStepFirstAndPostReset : Obligations.DecStepFirstAndPostReset := by
  intro s hp hct
  have hstep := exec_decStep (s := s) (decEnded_eq_false.2 (by tauto))
  refine ⟨fun hfirst hempty => ?_, fun hfirst hpos hshort => ?_, fun hpost hshort => ?_, fun x hpos hlen hx => ?_⟩
  · rw [hstep, Dec.step_first_empty hfirst (Nat.sub_eq_zero_of_le hempty)]
    rfl
  · rw [hstep, Dec.step_first_nonempty hfirst (Nat.sub_ne_zero_of_lt hpos),
      Dec.fetch_truncated _ (by rw [Br.remaining]; omega)]
    rfl
  · rw [hstep, Dec.step_postReset hpost, Dec.fetch_truncated _ hshort]
    rfl
  · rw [exec_decStep_firstCode hp hpos hlen hx]
    refine ⟨fun he => ?_, fun str he ha hs => ?_, fun he ha => ?_⟩
    · rw [Dec.firstCode_eof (d := s.dec.advance s.dec.W) he]
      rfl
    · have hslot : (ctLookup x s.dec.ct).getD (s.dec.alphabetString x) = str := by
        rw [(mem_ct hct x str).1 hs, Option.getD_some]
      rw [Dec.firstCode_alphabet (d := s.dec.advance s.dec.W) he ha hslot]
      rfl
    · rw [Dec.firstCode_illegal (d := s.dec.advance s.dec.W) he ha]
      rfl

/-! ### `DEC.STEP` in `RUN` (R255 to R261) -/

/-- The decoder after the width check and the read of a codeword of `w` bits, the width then in force (R256, R123). -/
def Dec.afterRead (w : Nat) (d : Dec) : Dec :=
  { d with
    W := w
    T := if d.T ≤ d.nextCode ∧ d.W < d.cfg.maxW then 2 ^ w else d.T
    br := { d.br with pos := d.br.pos + w } }

theorem Dec.widthCheck_advance {w : Nat} (hw : w = if d.T ≤ d.nextCode ∧ d.W < d.cfg.maxW then d.W + 1 else d.W) :
    d.widthCheck.advance w = d.afterRead w := by
  by_cases h : d.T ≤ d.nextCode ∧ d.W < d.cfg.maxW
  · rw [if_pos h] at hw
    rw [hw, Dec.afterRead, if_pos h, Dec.widthCheck, if_pos h]
    rfl
  · rw [if_neg h] at hw
    rw [hw, Dec.afterRead, if_neg h, Dec.widthCheck, if_neg h]
    rfl

/-- `DEC.STEP` in `RUN` with enough bits remaining takes the codeword read. -/
theorem exec_decStep_run {w x : Nat} (hp : s.dec.phase = .run)
    (hw : w = if s.dec.T ≤ s.dec.nextCode ∧ s.dec.W < s.dec.cfg.maxW then s.dec.W + 1 else s.dec.W)
    (hlen : s.dec.br.pos + w ≤ 8 * s.dec.br.input.length) (hx : s.dec.br.NextIs w x) :
    exec .decStep s = s.withDec ((s.dec.afterRead w).runCode x) := by
  rw [exec_decStep_runCode hp (hw.trans (Dec.widthCheck_W _).symm) hlen hx, Dec.widthCheck_advance hw]

/-- R257. -/
theorem Dec.runCode_eof {x : Nat} (he : x = d.eofCode) : d.runCode x = .ok d.stop := if_pos he

/-- R258. -/
theorem Dec.runCode_reset {x : Nat} (he : x ≠ d.eofCode) (hpol : d.cfg.policy = .reset) (hr : x = d.resetCode) :
    d.runCode x = .ok d.flush := (if_neg he).trans (if_pos ⟨hpol, hr⟩)

/-- Settles O33: after the width check and the read, the first two tests of R255. -/
theorem decStepStopsOrFlushes : Obligations.DecStepStopsOrFlushes := by
  intro s w x hp hw hlen hx
  rw [exec_decStep_run hp hw hlen hx]
  refine ⟨fun he => ?_, fun he hpol hr => ⟨_, ?_, ctInitial_wf _ _, mem_ctInitial _ _⟩⟩
  · rw [Dec.runCode_eof (d := s.dec.afterRead w) he]
    rfl
  · rw [Dec.runCode_reset (d := s.dec.afterRead w) he hpol hr]
    rfl

/-- R259: the string of `x == nextCode`, by the first byte of `prev`. -/
theorem Dec.kwkwk_eq {b : Byte} (hb : d.prev[0]? = some b) : d.kwkwk = d.prev ++ [b] := by
  rw [Dec.kwkwk, List.take_one, List.head?_eq_getElem?, hb]
  rfl

/-- Settles O35: the codeword denotes `str`, which steps 6 to 9 take by `Dec.accept_decodedTo`. -/
theorem decStepDecodesData : Obligations.DecStepDecodesData := by
  intro s w x str hp hct htrk hw hlen hx he hr hdenotes hne hvictim
  have hstr : (s.dec.afterRead w).stringOf x = some str := by
    refine Dec.stringOf_some.2 (hdenotes.imp ?_ ?_)
    · rintro ⟨hlt, hs⟩
      exact ⟨hlt, (mem_ct hct x str).1 hs⟩
    · rintro ⟨hn, b, hb, rfl⟩
      exact ⟨hn, (Dec.kwkwk_eq (d := s.dec.afterRead w) hb).symm⟩
  obtain ⟨d, hd, hto⟩ := Dec.accept_decodedTo (d := s.dec.afterRead w) (x := x) hct htrk hne hvictim
  refine ⟨d, ?_, hto⟩
  rw [exec_decStep_run hp hw hlen hx, Dec.runCode_data (d := s.dec.afterRead w) he hr hstr, hd, State.withDec_ok]

/-! ### Output (R265, R303) -/

/-- Settles O45, by the fields `out` and `still` of `Enc.Facts` and `Dec.Facts`. -/
theorem outputIsNeverTakenBack : Obligations.OutputIsNeverTakenBack := fun _ _ _ h =>
  ⟨(exec_encMove h).facts.out, (exec_decMove h).facts.out, (exec_encMove h).facts.still, (exec_decMove h).facts.still⟩

end Sys2Proof.Machine
end

section
/-! A started decode ends (46_decoder.md R251, 70_reset_and_hazards.md R361): a `DEC.STEP` ends the run or consumes a
codeword, of `minW` bits or more. -/

namespace Sys2Proof.Machine

variable {s : State} {d d' : Dec} {x : Nat}

/-! ### The bits one step takes -/

theorem Dec.firstCode_br (h : d.firstCode x = .ok d') : d'.br = d.br := by
  rcases Dec.firstCode_ok h with ⟨-, rfl⟩ | ⟨-, -, rfl⟩ | ⟨-, -, rfl⟩ <;> rfl

theorem Dec.runCode_br (h : d.runCode x = .ok d') : d'.br = d.br := by
  rcases Dec.runCode_ok h with ⟨-, rfl⟩ | ⟨-, -, -, rfl⟩ | ⟨-, -, -, rfl⟩ | ⟨-, -, str, -, ha⟩
  · rfl
  · rfl
  · rfl
  · obtain ⟨ct, trk, n, -, -, rfl⟩ := Dec.accept_eq ha
    rfl

theorem Dec.remaining_advance {width : Nat} (h : width ≤ d.br.remaining) :
    (d.advance width).br.remaining + width = d.br.remaining := by
  rw [Br.remaining] at h
  simp only [Dec.advance, Br.remaining]
  omega

/-- R251: `DEC.STEP` ends the run or consumes a codeword of `W` bits or more. -/
theorem Dec.step_ends_or_consumes (h : d.step = .ok d') :
    decEnded d'.phase = true ∨ d'.br.remaining + d.W ≤ d.br.remaining := by
  rcases Dec.step_ok h with ⟨-, -, rfl⟩ | ⟨-, -, rfl⟩ | ⟨-, hlen, hk⟩ | ⟨-, -, rfl⟩ | ⟨-, hlen, hk⟩
  · exact .inl rfl
  · exact .inl rfl
  · rw [Dec.firstCode_br hk, Dec.remaining_advance hlen]
    exact .inr (le_refl _)
  · exact .inl rfl
  · have hread := Dec.remaining_advance (d := d.widthCheck) (width := d.widthCheck.W) (by rwa [Dec.widthCheck_br])
    have hrise := d.widthCheck_rises.1
    rw [Dec.widthCheck_br] at hread
    rw [Dec.runCode_br hk]
    exact .inr (by omega)

/-- A running decoder that the host drives has a `DEC.STEP`, which ends the run or takes `minW` bits or more. -/
theorem Dec.HostInv.step_progress (h : d.HostInv) (hp : d.phase = .first ∨ d.phase = .run ∨ d.phase = .postReset) :
    ∃ d', d.step = .ok d' ∧ d'.HostInv ∧ d'.phase ≠ .idle ∧
      (decEnded d'.phase = true ∨ d'.cfg = d.cfg ∧ d'.br.remaining + d.cfg.minW ≤ d.br.remaining) := by
  obtain ⟨d', hd⟩ := h.step_completes hp
  have hwidth := (h.inv.started (decStarted_of_ne hp)).width_low
  have hidle : d.phase ≠ .idle := by rcases hp with hp | hp | hp <;> simp [hp]
  have hcfg := ((Dec.Move.step d' (decEnded_eq_false.2 (.inr hp)) hd).facts.const hidle).1
  refine ⟨d', hd, h.step hd, fun hi => ?_, (Dec.step_ends_or_consumes hd).imp_right fun hread => ⟨hcfg, by omega⟩⟩
  have hphase := Dec.step_phase hd
  simp [hi] at hphase

/-! ### The run -/

/-- At most `n` operations `DEC.STEP` from `s` end the run. -/
def DecEndsWithin (n : Nat) (s : State) : Prop :=
  ∃ m t, m ≤ n ∧ performs (List.replicate m .decStep) s = some t ∧ decEnded t.dec.phase = true

namespace DecEndsWithin

theorem of_ended (h : decEnded s.dec.phase = true) (n : Nat) : DecEndsWithin n s := ⟨0, s, Nat.zero_le n, rfl, h⟩

theorem after_step {n : Nat} {t : State} (h : DecEndsWithin n t) (hs : exec .decStep s = .next t) :
    DecEndsWithin (n + 1) s := by
  obtain ⟨m, u, hm, hperf, hend⟩ := h
  exact ⟨m + 1, u, Nat.succ_le_succ hm, (performs_cons hs _).trans hperf, hend⟩

theorem mono {n k : Nat} (h : DecEndsWithin n s) (hk : n ≤ k) : DecEndsWithin k s := by
  obtain ⟨m, t, hm, hrun⟩ := h
  exact ⟨m, t, hm.trans hk, hrun⟩

end DecEndsWithin

/-- By induction on the bits that remain: each step that does not end the run takes one of the `remaining / minW`. -/
theorem decEndsWithin_of_hostInv (h : s.dec.HostInv) (hi : s.dec.phase ≠ .idle) :
    DecEndsWithin (s.dec.br.remaining / s.dec.cfg.minW + 1) s := by
  induction hr : s.dec.br.remaining using Nat.strong_induction_on generalizing s with
  | _ r ih =>
    cases hend : decEnded s.dec.phase with
    | true => exact .of_ended hend _
    | false =>
      have hp := (decEnded_eq_false.1 hend).resolve_left hi
      have hst := h.inv.started (decStarted_of_ne hp)
      have hpos : 0 < s.dec.cfg.minW := (legalCfg_iff_LegalCfg.1 hst.legal).minW_pos
      obtain ⟨d', hd, h', hi', hprog⟩ := h.step_progress hp
      have hstep : exec .decStep s = .next { s with dec := d' } := by rw [exec_decStep hend, hd, State.withDec_ok]
      rcases hprog with hdone | ⟨hcfg, hless⟩
      · exact (DecEndsWithin.of_ended hdone _).after_step hstep
      · have hrest := ih d'.br.remaining (by omega) (s := { s with dec := d' }) h' hi' rfl
        refine (hrest.mono ?_).after_step hstep
        calc d'.br.remaining / d'.cfg.minW + 1
          _ = (d'.br.remaining + s.dec.cfg.minW) / s.dec.cfg.minW := by rw [hcfg, Nat.add_div_right _ hpos]
          _ ≤ r / s.dec.cfg.minW := Nat.div_le_div_right (hr ▸ hless)

/-- Settles O53: the bits that remain bound the run. -/
theorem decodeRunsEnd : Obligations.DecodeRunsEnd := fun _ h hp =>
  decEndsWithin_of_hostInv h (by rcases hp with hp | hp | hp <;> simp [hp])

end Sys2Proof.Machine
end

section
/-! Faults (60_exceptions.md R291, R293, R295, R296, R300): a fault of the spec is a next state whose fault register holds a
cause of R291's table, never the outcome `fault`; and what `DEC.STEP` in `RUN` has done when it raises. -/

namespace Sys2Proof.Machine

/-! ### No outcome `fault` (R300) -/

/-- An outcome that is a next state or a refusal. -/
def NoFault (o : Host.Outcome State Fault Refusal) : Prop := ∀ f, o ≠ .fault f

namespace NoFault

variable {s t : State} {q : Refusal} {k : Host.Outcome State Fault Refusal}

theorem next : NoFault (.next t) := nofun

theorem refused : NoFault (.refused q) := nofun

theorem require {ok : Bool} (h : NoFault k) : NoFault (Machine.require ok q k) := fun f => require_not_fault (h f)

theorem withEnc (r : Except Refusal Enc) : NoFault (s.withEnc r) := by
  cases r with
  | ok e => exact next
  | error q => exact refused

theorem withDec (r : Except Refusal Dec) : NoFault (s.withDec r) := by
  cases r with
  | ok d => exact next
  | error q => exact refused

theorem onField (offset : Nat) (put : Enc → Enc) (get : Dec → Dec) (dir : Dir) :
    NoFault (Machine.onField offset put get dir s) := by
  cases dir with
  | put => exact .require (.require (.require (.require .next)))
  | get => exact .require (.require (.require .next))

end NoFault

/-! The operations that match on a phase, or on what a lookup or a read answers. -/

theorem execBrRead_noFault (width : Nat) (s : State) : NoFault (execBrRead width s) := by
  refine .require ?_
  cases s.dec.br.read width with
  | none | some _ => exact .next

theorem execCbGet_noFault (str : Bytes) (s : State) : NoFault (execCbGet str s) := by
  refine .require (.require ?_)
  cases cbLookup str s.enc.cb with
  | none => exact .refused
  | some _ => exact .next

theorem execEncByte_noFault (c : Byte) (s : State) : NoFault (execEncByte c s) := by
  refine .require ?_
  cases s.enc.phase with
  | first => exact .next
  | run => exact .withEnc _
  | idle | done | fault => exact .refused

theorem execEncEnd_noFault (s : State) : NoFault (execEncEnd s) := by
  refine .require ?_
  cases s.enc.phase with
  | first | run => exact .withEnc _
  | idle | done | fault => exact .refused

/-- R300: an instruction has a next state or is refused. -/
theorem exec_noFault (i : Instr) (s : State) : NoFault (exec i s) := by
  cases i with
  | brEmpty => exact .require .next
  | bwWrite value width | bwClose | cbContains str | cbPut str v | cbRemove str | cbInit | ctInit
  | policyFreeze | policyReset | policyLru | policyLfu | policyUnknown b => exact .require (.require .next)
  | ctLookup x | ctClear x | hdrRead => exact .require (.require (.require .next))
  | ctInsert x str | hdrWrite => exact .require (.require (.require (.require .next)))
  | encStart => exact .require (.require (.require (.require (.require (.require .next)))))
  | encByteRun c | encEndRun => exact .require (.require (.withEnc _))
  | decStep => exact .require (.withDec _)
  | decStart => exact .require (.require (.require (.withDec _)))
  | cwEofFirst x | cwAlphaFirst x | cwIllegalFirst x | cwEofPostReset x | cwAlphaPostReset x | cwIllegalPostReset x
  | cwEof x | cwReset x | cwAlpha x | cwDict x | cwKwkwk x | cwIllegal x => exact .require (.require (.withDec _))
  | brRead width => exact execBrRead_noFault width s
  | cbGet str => exact execCbGet_noFault str s
  | encByte c => exact execEncByte_noFault c s
  | encEnd => exact execEncEnd_noFault s
  | lruUse key | lruRemove key | lfuUse key | lfuRemove key =>
    cases key with
    | str k | code x => exact .require (.require .next)
  | lruFind side | lfuFind side =>
    cases side with
    | enc | dec => exact .require (.require .next)
  | fieldMinW dir | fieldMaxW dir | fieldPolicy dir | fieldAlphabetSize dir => exact .onField _ _ _ dir
  | fieldAlphabet dir n => exact .require (.onField _ _ _ dir)

/-- A step performs an instruction, refuses a word that is none, or has nothing to do (R308). -/
theorem step_noFault (s : State) : NoFault (step s) := by
  cases hp : s.port with
  | nil => rw [step_of_port_nil hp]; exact .next
  | cons w rest =>
    cases hd : decode s.view w with
    | ok i => rw [step_of_decode_ok hp hd]; exact exec_noFault i _
    | error e => rw [step_of_decode_error hp hd]; exact .refused

/-! ### The fault register's number (R291) -/

@[simp] theorem faultNumber_none : faultNumber none = 0 := rfl

@[simp] theorem faultNumber_some (c : Cause) : faultNumber (some c) = c.number := rfl

/-- Settles O47: `exec_noFault`, the field `io` of each instance's facts, and R291's table row by row. -/
theorem faultsAreTransitions : Obligations.FaultsAreTransitions := by
  refine ⟨exec_noFault, step_noFault, fun i s t h => ⟨(exec_encMove h).facts.io, (exec_decMove h).facts.io⟩, fun f => ?_⟩
  cases f with
  | none => simp
  | some c => cases c <;> simp [Cause.number]

/-! ### `DEC.STEP` in `RUN` (R293, R295) -/

section DecStep

variable {d : Dec}

theorem Dec.step_run (hp : d.phase = .run) : d.step = d.widthCheck.fetch Dec.runCode := by rw [Dec.step, hp]

/-- The width check in terms of the width `w` then in force (R256). -/
theorem Dec.widthCheck_eq {w : Nat} (hw : w = if d.T ≤ d.nextCode ∧ d.W < d.cfg.maxW then d.W + 1 else d.W) :
    d.widthCheck = { d with W := w, T := if d.T ≤ d.nextCode ∧ d.W < d.cfg.maxW then 2 ^ w else d.T } := by
  subst hw
  rw [Dec.widthCheck]
  split <;> rfl

/-- R295: a codeword that denotes no string and is no control code. -/
theorem Dec.runCode_badCode {x : Nat} (he : x ≠ d.eofCode) (hr : d.cfg.policy = .reset → x ≠ d.resetCode)
    (hs : d.stringOf x = none) : d.runCode x = .ok (d.raise (.badCode x)) := by
  rw [Dec.runCode, if_neg he, if_neg fun h => hr h.1 h.2, hs]

end DecStep

/-- Settles O34: `Dec.raise` after the width check, and after the width check and the read. -/
theorem decStepFaultsArePrecise : Obligations.DecStepFaultsArePrecise := by
  intro s w hp _ hw
  refine ⟨fun hshort => ?_, fun x hlen hx he hr hn hslot => ?_⟩
  · rw [exec_decStep (decEnded_eq_false.2 (.inr (.inr (.inl hp)))), Dec.step_run hp,
      Dec.fetch_truncated _ (by rwa [Dec.widthCheck_br, Dec.widthCheck_W, ← hw]), Dec.widthCheck_eq hw]
    rfl
  · have hnone : (s.dec.afterRead w).stringOf x = none :=
      Dec.stringOf_none.2 ⟨hn, fun hlt => ctLookup_eq_none (hslot hlt)⟩
    rw [exec_decStep_run hp hw hlen hx, Dec.runCode_badCode (d := s.dec.afterRead w) he hr hnone]
    rfl

end Sys2Proof.Machine
end

section
/-! A whole run of each instance (70_reset_and_hazards.md R344, property P1): `ENC.START`, the bytes and `ENC.END`, and the
decoder on the bytes written. The run of the instances in lock-step is in `Lag.run`; here are its two ends, the header and
the start values on both sides, and the tie to the operations the host issues. -/

namespace Sys2Proof.Machine

variable {c : Byte} {x : Bytes} {s t : State} {e e' : Enc} {d d' : Dec}

/-! ### Operations one after the other -/

/-- What every instruction keeps, every list of operations keeps. -/
theorem performs_keeps {P : State → Prop} (hstep : ∀ {i s t}, P s → exec i s = .next t → P t) {is : List Instr}
    (hs : P s) (h : performs is s = some t) : P t := by
  induction is generalizing s with
  | nil => cases h; exact hs
  | cons i is ih =>
    rw [performs] at h
    split at h
    · next he => exact ih (hstep hs he) h
    · cases h
    · cases h

/-- `DEC.STEP`s on the decoder instance are that many operations of the machine. -/
theorem Dec.Steps.performs (h : d.Steps d') :
    ∃ n, ∀ s : State, s.dec = d → performs (List.replicate n .decStep) s = some { s with dec := d' } := by
  induction h using Relation.ReflTransGen.head_induction_on with
  | refl => exact ⟨0, fun s hs => by subst hs; rfl⟩
  | @head d d₁ hstep _ ih =>
    obtain ⟨n, hn⟩ := ih
    refine ⟨n + 1, fun s hs => ?_⟩
    subst hs
    have hlive : decEnded s.dec.phase = false := by
      rcases Dec.step_phase hstep with ⟨hp, -⟩ | ⟨hp, -⟩ | ⟨hp, -⟩ <;> simp [hp]
    have hexec : exec .decStep s = .next { s with dec := d₁ } := by rw [exec_decStep hlive, hstep, State.withDec_ok]
    exact (performs_cons hexec _).trans (hn _ rfl)

/-! ### The encoder's run -/

/-- `Enc.encodes` is the bytes and `ENC.END` in `RUN`; it ends with the writer closed on whole bytes (R228). -/
theorem performs_encodes (hi : s.enc.Inv) (hcoh : s.enc.Coherent) (hp : s.enc.phase = .run)
    (hx : ∀ b ∈ x, b ∈ s.enc.cfg.alphabet) :
    ∃ e', s.enc.encodes x = .ok e' ∧ performs (x.map Instr.encByte ++ [.encEnd]) s = some { s with enc := e' } ∧
      e'.phase = .done ∧ e'.bw.pend = [] := by
  induction x generalizing s with
  | nil =>
    obtain ⟨code, hcode⟩ := hcoh.current_present hp
    have hend := Enc.endRun_eq hcode hcoh.writer_open
    refine ⟨_, hend, performs_cons ?_ [], rfl, Bw.pend_close _⟩
    rw [exec_encEnd_run (.inr rfl) hp, hend, State.withEnc_ok]
  | cons b x ih =>
    obtain ⟨e₁, he, hi', hcoh', hp', hcfg, -⟩ := Enc.runByte_run hi hcoh hp (hx b (by simp))
    obtain ⟨e', hrun, hperf, hend⟩ := ih (s := { s with enc := e₁ }) hi' hcoh' hp'
      fun a ha => by rw [hcfg]; exact hx a (by simp [ha])
    refine ⟨e', by rw [Enc.encodes, he]; exact hrun, (performs_cons ?_ _).trans hperf, hend⟩
    rw [exec_encByte_run (.inr rfl) hp, he, State.withEnc_ok]

/-! ### Both sides at the start -/

/-- `CB.INIT` and `CT.INIT` are inverse where the table has a slot for every byte (R145, R153, I1). -/
theorem inverse_initial {alphabet : Bytes} {size : Nat} (hn : alphabet.Nodup) (hsize : alphabet.length ≤ size) :
    Inverse (cbInitial alphabet) (ctInitial size alphabet) := fun str n => by
  rw [← mem_cb (cbInitial_wf _), ← mem_ct (ctInitial_wf _ _), mem_cbInitial hn, mem_ctInitial]
  constructor
  · rintro ⟨b, rfl, hb⟩
    exact ⟨lt_of_lt_of_le (List.getElem?_eq_some_iff.1 hb).1 hsize, b, hb, rfl⟩
  · rintro ⟨-, b, hb, rfl⟩
    exact ⟨b, rfl, hb⟩

/-- What a claim of round trip asks of an encoder instance before `ENC.START` (R344). -/
structure Enc.Ready (e : Enc) : Prop where
  host : e.HostInv
  idle : e.phase = .idle
  written : e.cfg.written = true
  legal : LegalCfg e.cfg
  /-- `WidthSafe` (R14). -/
  safe : firstUserCode e.cfg ≤ 2 ^ e.cfg.minW

namespace Enc.Ready

theorem start_bw (h : e.Ready) : e.start.bw = { out := headerBytes e.cfg, pend := [], closed := false } :=
  Enc.hdrWrite_created (h.host.created h.idle)

theorem start_hostInv (h : e.Ready) : e.start.HostInv :=
  h.host.start h.idle h.written (legalCfg_iff_LegalCfg.2 h.legal) (by rw [h.host.created h.idle])

/-- After the start and a byte of the alphabet (R212, R213) the instance is in `RUN` with its invariants. -/
theorem firstByte (h : e.Ready) (hc : c ∈ e.cfg.alphabet) :
    (e.start.firstByte c).Inv ∧ (e.start.firstByte c).Coherent ∧ (e.start.firstByte c).phase = .run := by
  have hhost := h.start_hostInv.firstByte rfl c
  have hrun := (e.start.firstByte_phase c).1 hc
  exact ⟨hhost.inv, hhost.coherent (.inr hrun), hrun⟩

/-- The encoder after its first byte and the decoder right after its start agree (R213, R252). -/
theorem lag (h : e.Ready) (hd : d.cfg = e.cfg) (hc : c ∈ e.cfg.alphabet) : Lag (e.start.firstByte c) d.start := by
  obtain ⟨hinv, hcoh, hrun⟩ := h.firstByte hc
  have hnodup := (legalCfg_iff.1 (legalCfg_iff_LegalCfg.2 h.legal)).2.1
  have hslots : e.cfg.alphabet.length ≤ tableSize e.cfg :=
    calc e.cfg.alphabet.length
      _ = e.cfg.alphabetSize := h.legal.size.symm
      _ ≤ firstUserCode e.cfg := (firstUserCode_gt _).le
      _ ≤ 2 ^ e.cfg.minW := h.safe
      _ ≤ 2 ^ e.cfg.maxW := Nat.pow_le_pow_right (by decide) h.legal.ordered
  rw [Enc.firstByte_inside (e := e.start) hc] at hinv hcoh ⊢
  refine .fresh (.inl rfl) ?shared fun str n hn => ?short
  case shared =>
    exact
      { inv := hinv, coherent := hcoh, run := rfl, safe := h.safe, legible := fun _ => h.safe, cfg := hd
        M := congrArg tableSize hd
        eofCode := congrArg Cfg.alphabetSize hd
        resetCode := fun (hr : e.cfg.policy = .reset) => by
          dsimp only [Dec.start, Enc.start]
          rw [hd, if_pos hr, if_pos hr]
        initial := congrArg firstUserCode hd
        next := congrArg firstUserCode hd
        W := congrArg Cfg.minW hd
        T := congrArg (2 ^ Cfg.minW ·) hd
        dict := by
          dsimp only [Dec.start, Enc.start]
          rw [hd]
          exact inverse_initial hnodup hslots
        trk := .empty _ _
        trk_wf := Trk.empty_wf _ }
  case short =>
    obtain ⟨b, rfl, -⟩ := (cbLookup_initial hnodup str n).1 hn
    exact Nat.one_lt_two

end Enc.Ready

/-- A decoder of the same configuration, after its start, decodes the bits that `e'` holds beyond the header as `x`. -/
def Enc.DecodesAs (e e' : Enc) (x : Bytes) : Prop :=
  ∀ (d : Dec) (rest : Bits), d.cfg = e.cfg → e'.bw.bits = e.start.bw.bits ++ rest → d.br.Ahead rest →
    ∃ d', d.start.Steps d' ∧ d'.phase = .done ∧ d'.out = x

namespace Enc.Ready

/-- The empty input is a header alone, which the decoder stops after (R214, R254). -/
theorem decodesAs_nil (h : e.Ready) : e.DecodesAs e.start.finish [] := by
  intro d rest _ hbits hahead
  have hrest : rest = [] := by
    rw [Enc.finish_bw, h.start_bw] at hbits
    exact List.append_right_eq_self.1 hbits.symm
  have hempty : d.start.br.remaining = 0 := by
    show 8 * d.br.input.length - d.br.pos = 0
    rw [← hahead.length_eq, hrest, List.length_nil]
  exact ⟨_, .single (Dec.step_first_empty (d := d.start) rfl hempty), rfl, rfl⟩

/-- Any other input: the lock-step from the first byte on (R263). -/
theorem decodesAs_cons (h : e.Ready) (hc : c ∈ e.cfg.alphabet) (hx : ∀ b ∈ x, b ∈ e.cfg.alphabet)
    (hrun : (e.start.firstByte c).encodes x = .ok e') : e.DecodesAs e' (c :: x) := by
  intro d rest hd hbits hahead
  obtain ⟨hinv, hcoh, hphase⟩ := h.firstByte hc
  have hlag := h.lag hd hc
  rw [Enc.firstByte_inside (e := e.start) hc] at hinv hcoh hphase hlag hrun
  exact hlag.run x hinv hcoh hphase hx hrun hbits hahead

/-- The encoder's whole run has its steps and ends in `DONE` on whole bytes that decode to its input. -/
theorem performs (h : s.enc.Ready) (hx : ∀ b ∈ x, b ∈ s.enc.cfg.alphabet) :
    ∃ e', performs (.encStart :: (x.map Instr.encByte ++ [.encEnd])) s = some { s with enc := e' } ∧
      e'.phase = .done ∧ e'.bw.pend = [] ∧ s.enc.DecodesAs e' x := by
  rw [performs_cons (exec_encStart h.idle h.written h.legal (h.host.created h.idle))]
  cases x with
  | nil =>
    refine ⟨s.enc.start.finish, performs_cons ?_ [], rfl, Bw.pend_close _, h.decodesAs_nil⟩
    rw [exec_encEnd_first rfl, Enc.endEmpty_eq (h.start_hostInv.coherent (.inl rfl)).writer_open, State.withEnc_ok]
  | cons c x =>
    obtain ⟨hc, hx⟩ := List.forall_mem_cons.1 hx
    obtain ⟨hinv, hcoh, hphase⟩ := h.firstByte hc
    obtain ⟨e', hrun, hperf, hdone, hpend⟩ := performs_encodes (s := { s with enc := s.enc.start.firstByte c }) (x := x)
      hinv hcoh hphase (by rwa [Enc.firstByte_inside (e := s.enc.start) hc])
    exact ⟨e', (performs_cons (exec_encByte_first rfl) _).trans hperf, hdone, hpend, h.decodesAs_cons hc hx hrun⟩

end Enc.Ready

/-! ### The header, written and read -/

/-- A legal alphabet has at most the 256 bytes there are (R10, R13). -/
theorem LegalCfg.alphabet_le {cfg : Cfg} (h : LegalCfg cfg) : cfg.alphabet.length ≤ 256 := by
  have hnodup := (legalCfg_iff.1 (legalCfg_iff_LegalCfg.2 h)).2.1
  calc cfg.alphabet.length
    _ ≤ Fintype.card Byte := hnodup.length_le_card
    _ = 256 := by rw [← FinEnum.card_eq_fintypeCard, FinEnum.card_bitVec]; rfl

theorem length_headerBytes (cfg : Cfg) : (headerBytes cfg).length = 5 + cfg.alphabet.length := by
  rw [headerBytes, List.length_append, List.length_cons]
  rfl

/-- The header read back is the configuration it was written from, with the rest of the input ahead (R196, R199). -/
theorem Dec.hdrRead_headerBytes {cfg : Cfg} {bs : Bytes} (hl : LegalCfg cfg) (hw : cfg.written = true)
    (hp : d.phase ≠ .fault) (hpos : d.br.pos = 0) (hin : d.br.input = headerBytes cfg ++ bs) :
    d.hdrRead = d.headerAt cfg (8 * (headerBytes cfg).length) := by
  have hmax := hl.maxW_high
  have hmin := hl.ordered
  have halpha := hl.alphabet_le
  have hsize := hl.size
  obtain ⟨minW, maxW, policy, n, alphabet, written⟩ := cfg
  dsimp only at hmax hmin halpha hsize hw
  subst hsize hw
  have hlen : 256 * (BitVec.ofNat 8 (alphabet.length / 256)).toNat + (BitVec.ofNat 8 alphabet.length).toNat =
      alphabet.length := by
    simp only [BitVec.toNat_ofNat]
    omega
  have hminW : (BitVec.ofNat 8 minW).toNat = minW := by rw [BitVec.toNat_ofNat]; omega
  have hmaxW : (BitVec.ofNat 8 maxW).toNat = maxW := by rw [BitVec.toNat_ofNat]; omega
  rw [length_headerBytes, Dec.hdrRead_complete (rest := alphabet ++ bs) hp hpos hin (by rw [hlen]; simp), hlen, hminW, hmaxW,
    List.take_left]
  cases policy <;> rfl

/-- The decoder on a legal header is started with that configuration, the bits after the header ahead (R252). -/
theorem Dec.startFromHeader_headerBytes {cfg : Cfg} {bs : Bytes} (hl : LegalCfg cfg) (hw : cfg.written = true)
    (hp : d.phase ≠ .fault) (hpos : d.br.pos = 0) (hin : d.br.input = headerBytes cfg ++ bs) :
    ∃ d₁ : Dec, d.startFromHeader = .ok d₁.start ∧ d₁.cfg = cfg ∧ d₁.br.Ahead (bs.flatMap bitsOfByte) := by
  have hread := Dec.hdrRead_headerBytes hl hw hp hpos hin
  refine ⟨d.headerAt cfg (8 * (headerBytes cfg).length), ?_, rfl, ?_, ?_⟩
  · rw [Dec.startFromHeader_read (by rwa [hread]), hread, Dec.headerAt_cfg, if_pos (legalCfg_iff_LegalCfg.2 hl)]
  · rw [Br.bits, Dec.headerAt_input, Dec.headerAt_pos, drop_flatMap_bitsOfByte, hin, List.drop_left]
  · rw [Br.length_bits, Dec.headerAt_input, Dec.headerAt_pos, hin, List.length_append]
    omega

/-! ### Property P1 -/

/-- Bytes once written stay (R33, R265). -/
theorem performs_out {is : List Instr} (h : performs is s = some t) : s.enc.bw.out <+: t.enc.bw.out :=
  performs_keeps (P := fun t => s.enc.bw.out <+: t.enc.bw.out) (fun hp hx => hp.trans (exec_encMove hx).facts.out)
    (List.prefix_refl _) h

/-- The decoder's whole run on the bytes of an encoder's run ends in `DONE` with what the encoder was given. -/
theorem performs_decoder {cfg : Cfg} {bs : Bytes} (h : s.HostInv) (hp : s.dec.phase = .idle) (hl : LegalCfg cfg)
    (hw : cfg.written = true) (hin : s.dec.br.input = headerBytes cfg ++ bs)
    (hrun : ∀ d : Dec, d.cfg = cfg → d.br.Ahead (bs.flatMap bitsOfByte) →
      ∃ d', d.start.Steps d' ∧ d'.phase = .done ∧ d'.out = x) :
    ∃ n t, performs (.decStart :: List.replicate n .decStep) s = some t ∧ t.dec.phase = .done ∧ t.dec.fault = none ∧
      t.dec.out = x := by
  have hpos := h.dec.created hp
  obtain ⟨d, hstart, hcfg, hahead⟩ := Dec.startFromHeader_headerBytes hl hw (by simp [hp]) hpos hin
  obtain ⟨d', hsteps, hdone, hout⟩ := hrun d hcfg hahead
  obtain ⟨n, hn⟩ := hsteps.performs
  have hexec : exec .decStart s = .next { s with dec := d.start } := by
    rw [exec_decStart hp hpos, hstart, State.withDec_ok]
  have hperf := (performs_cons hexec _).trans (hn _ rfl)
  have hinv : State.Inv _ := performs_keeps (P := State.Inv) exec_inv ⟨h.enc.inv, h.dec.inv⟩ hperf
  exact ⟨n, _, hperf, hdone, hinv.dec.fault_none (by simp [hdone]), hout⟩

/-- Settles O60: the encoder's run leaves the header and bits that decode to the input, and the decoder reads the header. -/
theorem roundTrip : Obligations.RoundTrip := by
  intro minW maxW policy alphabet x s hs hl hsafe hx
  have hhost : s.HostInv := hs ▸ hostWritesCfg_hostInv resetMeetsTheInvariants.2 minW maxW policy alphabet
  subst hs
  have hready : Enc.Ready _ := ⟨hhost.enc, rfl, rfl, hl, hsafe⟩
  obtain ⟨e', hperf, hdone, hpend, hdecodes⟩ := hready.performs hx
  refine ⟨_, hperf, hdone, ?_⟩
  rw [performs_cons (exec_encStart rfl rfl hl rfl)] at hperf
  have hout := performs_out hperf
  dsimp only at hout
  rw [hready.start_bw] at hout
  obtain ⟨bs, hbs⟩ := hout
  refine performs_decoder (hostSuppliesInput_hostInv resetMeetsTheInvariants.2 _) rfl hl rfl hbs.symm
    fun d hd hahead => hdecodes d _ hd ?_ hahead
  rw [hready.start_bw, Bw.bits, Bw.bits, hpend, ← hbs]
  simp

end Sys2Proof.Machine
end

section
/-! The in-band reset (70_reset_and_hazards.md R332, property P6): the start operation and the reset both clear an instance
to what its configuration and constants give, and nothing in a run changes those. -/

namespace Sys2Proof.Machine

variable {i : Instr} {is : List Instr} {c : Byte} {s t : State} {e e' : Enc} {d d' : Dec}

/-! ### A run goes on -/

/-- `IDLE` is not entered again (R29). -/
theorem Enc.Move.not_idle (h : e.Move e') (hi : e.phase ≠ .idle) : e'.phase ≠ .idle := by
  cases h with
  | start hp => exact absurd hp hi
  | firstByte c hp => rcases e.firstByte_cases c with ⟨-, he⟩ | ⟨-, he⟩ <;> simp [he]
  | runByte c _ hp hr =>
    rcases Enc.runByte_cases hr with ⟨-, rfl⟩ | ⟨-, -, rfl⟩ | ⟨code, -, -, -, -, rfl⟩ <;> simp [hp]
  | endEmpty _ hp hr => simp [Enc.endEmpty_phase hr]
  | endRun _ hp hr => simp [Enc.endRun_phase hr]
  | _ => exact hi

/-- `IDLE` is not entered again (R30). -/
theorem Dec.Move.not_idle (h : d.Move d') (hi : d.phase ≠ .idle) : d'.phase ≠ .idle := by
  cases h with
  | header hp | getMinW hp | getMaxW hp | getPolicy hp | getAlphabetSize hp | getAlphabet _ hp | policy _ hp
  | start _ hp => exact absurd hp hi
  | truncated | cwStop | cwRestart | cwRaise | cwFlush => nofun
  | step _ hp hr =>
    intro hidle
    have hphase := Dec.step_phase hr
    simp [hidle] at hphase
  | cwAccept x str _ hp hx hs ha =>
    obtain ⟨ct, trk, n, -, -, rfl⟩ := Dec.accept_eq ha
    exact hi
  | _ => exact hi

/-- `e'` is further on in a run of `e`: the run has started, and `CFG` and the constants are those of `e` (R22, R24). -/
structure Enc.SameRun (e e' : Enc) : Prop where
  started : e'.phase ≠ .idle
  cfg : e'.cfg = e.cfg
  initial : e'.initialNextCode = e.initialNextCode

/-- `d'` is further on in a run of `d`. -/
structure Dec.SameRun (d d' : Dec) : Prop where
  started : d'.phase ≠ .idle
  cfg : d'.cfg = d.cfg
  initial : d'.initialNextCode = d.initialNextCode

theorem Enc.SameRun.exec (h : e.SameRun s.enc) (hx : exec i s = .next t) : e.SameRun t.enc := by
  have hm := exec_encMove hx
  obtain ⟨hcfg, -, -, -, hinitial⟩ := hm.facts.const h.started
  exact ⟨hm.not_idle h.started, hcfg.trans h.cfg, hinitial.trans h.initial⟩

theorem Dec.SameRun.exec (h : d.SameRun s.dec) (hx : exec i s = .next t) : d.SameRun t.dec := by
  have hm := exec_decMove hx
  obtain ⟨hcfg, -, -, -, hinitial, -⟩ := hm.facts.const h.started
  exact ⟨hm.not_idle h.started, hcfg.trans h.cfg, hinitial.trans h.initial⟩

theorem performs_encSameRun (hi : s.enc.phase ≠ .idle) (h : performs is s = some t) : s.enc.SameRun t.enc :=
  performs_keeps (P := fun t => s.enc.SameRun t.enc) .exec ⟨hi, rfl, rfl⟩ h

theorem performs_decSameRun (hi : s.dec.phase ≠ .idle) (h : performs is s = some t) : s.dec.SameRun t.dec :=
  performs_keeps (P := fun t => s.dec.SameRun t.dec) .exec ⟨hi, rfl, rfl⟩ h

/-- A decoder that has faulted stays so (R300, R303). -/
theorem performs_decFault (hp : s.dec.phase = .fault) (h : performs is s = some t) : t.dec.phase = .fault :=
  performs_keeps (P := fun t => t.dec.phase = .fault)
    (fun hp hx => ((exec_decMove hx).phase_of_ended (decEnded_iff.2 (.inr hp))).trans hp) hp h

/-! ### Cleared instances -/

/-- The dictionary, `nextCode`, `W` and `T` are what `CFG` and `initialNextCode` give (R212, R226). -/
structure Enc.Cleared (e : Enc) : Prop where
  cb : e.cb = cbInitial e.cfg.alphabet
  next : e.nextCode = e.initialNextCode
  W : e.W = e.cfg.minW
  T : e.T = 2 ^ e.cfg.minW

/-- The code table, `nextCode`, `W` and `T` are what `CFG` and `initialNextCode` give (R252, R258). -/
structure Dec.Cleared (d : Dec) : Prop where
  ct : d.ct = ctInitial (tableSize d.cfg) d.cfg.alphabet
  next : d.nextCode = d.initialNextCode
  W : d.W = d.cfg.minW
  T : d.T = 2 ^ d.cfg.minW

theorem Enc.start_cleared (e : Enc) : e.start.Cleared := ⟨rfl, rfl, rfl, rfl⟩

theorem Dec.start_cleared (d : Dec) : d.start.Cleared := ⟨rfl, rfl, rfl, rfl⟩

theorem Dec.flush_cleared (d : Dec) : d.flush.Cleared := ⟨rfl, rfl, rfl, rfl⟩

theorem exec_encStart_cleared (h : exec .encStart s = .next t) : t.enc.phase ≠ .idle ∧ t.enc.Cleared := by
  obtain ⟨-, -, -, -, rfl⟩ := encStart_next h
  exact ⟨nofun, s.enc.start_cleared⟩

/-- A header cut short leaves no table (R202). -/
theorem exec_decStart_cleared (h : exec .decStart s = .next t) :
    t.dec.phase = .fault ∨ t.dec.phase ≠ .idle ∧ t.dec.Cleared := by
  obtain ⟨-, d, hd, rfl⟩ := decStart_next h
  rcases Dec.startFromHeader_ok hd with ⟨hf, rfl⟩ | ⟨-, -, rfl⟩
  · exact .inl hf
  · exact .inr ⟨nofun, Dec.start_cleared _⟩

/-- Cleared at two moments of one run, an instance holds the same. -/
theorem Enc.Cleared.unique (h : e.Cleared) (h' : e'.Cleared) (hr : e.SameRun e') :
    e'.cb = e.cb ∧ e'.nextCode = e.nextCode ∧ e'.W = e.W ∧ e'.T = e.T := by
  rw [h.cb, h.next, h.W, h.T, h'.cb, h'.next, h'.W, h'.T, hr.cfg, hr.initial]
  exact ⟨rfl, rfl, rfl, rfl⟩

/-- Cleared at two moments of one run, an instance holds the same. -/
theorem Dec.Cleared.unique (h : d.Cleared) (h' : d'.Cleared) (hr : d.SameRun d') :
    d'.ct = d.ct ∧ d'.nextCode = d.nextCode ∧ d'.W = d.W ∧ d'.T = d.T := by
  rw [h.ct, h.next, h.W, h.T, h'.ct, h'.next, h'.W, h'.T, hr.cfg, hr.initial]
  exact ⟨rfl, rfl, rfl, rfl⟩

/-! ### The in-band reset -/

/-- A miss on a full table is the one step of `RUN` after which `current` is a single byte under `reset` (R226): a hit makes
it longer, and a byte outside the alphabet ends the run. -/
theorem Enc.runByte_cleared (h : e.runByte c = .ok e') (hp : e'.phase = .run) (hcur : e'.current = [c])
    (hne : e.current ≠ []) (hm : e.M ≤ e.nextCode) (hr : e.cfg.policy = .reset) : e'.Cleared := by
  rcases Enc.runByte_cases h with ⟨-, rfl⟩ | ⟨-, -, rfl⟩ | ⟨code, -, -, -, -, rfl⟩
  · cases hp
  · exact absurd (by simpa using hcur) hne
  · rw [Enc.miss_reset hm hr]
    exact ⟨rfl, rfl, rfl, rfl⟩

/-- `DEC.STEP` enters `POSTRESET` from `RUN` by the reset only (R258, R30). -/
theorem Dec.step_cleared (h : d.step = .ok d') (hp : d.phase = .run) (hp' : d'.phase = .postReset) : d'.Cleared := by
  rw [Dec.step_run hp] at h
  rcases Dec.fetch_ok h with ⟨-, rfl⟩ | ⟨-, hk⟩
  · cases hp'
  · rcases Dec.runCode_ok hk with ⟨-, rfl⟩ | ⟨-, -, -, rfl⟩ | ⟨-, -, -, rfl⟩ | ⟨-, -, str, -, ha⟩
    · cases hp'
    · exact Dec.flush_cleared _
    · cases hp'
    · obtain ⟨ct, trk, n, -, -, rfl⟩ := Dec.accept_eq ha
      simp [Dec.advance, hp] at hp'

/-- A `RESET_CODE` read, by `DEC.STEP` or as its row (R97, R258), clears the decoder. -/
theorem exec_reset_cleared (hi : i = .decStep ∨ ∃ x, i = .cwReset x) (hx : exec i s = .next t) (hp : s.dec.phase = .run)
    (hp' : t.dec.phase = .postReset) : t.dec.Cleared := by
  rcases hi with rfl | ⟨x, rfl⟩
  · obtain ⟨d, hd, rfl⟩ := decStep_next hx
    exact Dec.step_cleared hd hp hp'
  · obtain ⟨-, -, d, hd, rfl⟩ := onCodeword_next.1 (show execCwReset x s = .next t from hx)
    cases hd
    exact Dec.flush_cleared _

/-- Settles O39: the start and the reset leave the instance cleared, at two moments of one run. -/
theorem resetIsIdempotent : Obligations.ResetIsIdempotent := by
  intro is s s₁ s₂ t
  refine ⟨fun hstart hrun ⟨i, hi, hx⟩ hp hp' => ?decoder, fun c hstart hrun hx hr hm hcur hp hne => ?encoder⟩
  case decoder =>
    rcases exec_decStart_cleared hstart with hf | ⟨hi₁, hclear⟩
    · rw [performs_decFault hf hrun] at hp
      cases hp
    · exact hclear.unique (exec_reset_cleared hi hx hp hp') ((performs_decSameRun hi₁ hrun).exec hx)
  case encoder =>
    obtain ⟨hi₁, hclear⟩ := exec_encStart_cleared hstart
    have hsame := performs_encSameRun hi₁ hrun
    refine hclear.unique ?_ (hsame.exec hx)
    obtain ⟨-, e, he, rfl⟩ := encByteRun_next hx
    exact Enc.runByte_cleared he hp hcur hne hm (hsame.cfg ▸ hr)

end Sys2Proof.Machine
end
